-- ==== Sys2Proof/Word.lean ====
section
/-!
DEFINITION. Sys2Proof/Word.lean: the word types of the device.
-/

namespace Sys2Proof

/-- A byte of memory. -/
abbrev Byte := BitVec 8
/-- A word of 32 bits (R3). -/
abbrev W32 := BitVec 32
/-- A 64-bit value: an S, A, E or X register, a device word. -/
abbrev W64 := BitVec 64
/-- A vector register or a queue entry of 1,024 bits (R110, R154). -/
abbrev VBits := BitVec 1024
/-- A mask (R148). -/
abbrev MBits := BitVec 128
/-- A tile image of 1 KiB (R280), and the image of one bay of 1 KiB (R253). -/
abbrev TBits := BitVec 8192

end Sys2Proof
end

