-- ==== Sys2Proof/Machine/Float.lean ====
section
/-!
DEFINITION. Sys2Proof/Machine/Float.lean: the number formats and their arithmetic (R52 to R57, R65,
R66, R159, R160).

A floating value is taken apart into an exact dyadic number, computed on exactly, and rounded once.
Where a result is no dyadic number (1/x, a root, 2^x, log2, tanh) it is taken to some 200 bits and
marked inexact; no result of these functions on a format's values lies that near a rounding boundary
unless it is one (log entry 10).
-/

namespace Sys2Proof.Machine

/-- An exact real operand or result: NaN, an infinity, or sign, magnitude `man * 2 ^ exp`, and whether
a little more than that magnitude is meant. -/
inductive XR where
  | nan
  | inf (neg : Bool)
  | fin (neg : Bool) (man : Nat) (exp : Int) (more : Bool)
  deriving DecidableEq, Repr

/-- The rounding modes (R65). -/
inductive RM where
  | rne | rtz | rdn | sr
  deriving DecidableEq, Repr

/-- The rounding mode of a two-bit field (R59). -/
def RM.ofField : Nat → RM
  | 0 => .rne | 1 => .rtz | 2 => .rdn | _ => .sr

/-- A floating format (R53): exponent bits, fraction bits, bias, largest finite as man * 2 ^ exp,
whether it has infinities, the canonical NaN. -/
structure FFmt where
  ebits : Nat
  fbits : Nat
  bias : Nat
  maxMan : Nat
  maxExp : Int
  hasInf : Bool
  cnan : Nat
  deriving DecidableEq, Repr

def fp32 : FFmt := ⟨8, 23, 127, 16777215, 104, true, 0x7FC00000⟩
def fp16 : FFmt := ⟨5, 10, 15, 2047, 5, true, 0x7E00⟩
def bf16 : FFmt := ⟨8, 7, 127, 255, 120, true, 0x7FC0⟩
def e4m3 : FFmt := ⟨4, 3, 7, 14, 5, false, 0x7F⟩
def e5m2 : FFmt := ⟨5, 2, 15, 7, 13, true, 0x7E⟩

/-- Width in bits. -/
def FFmt.width (f : FFmt) : Nat := 1 + f.ebits + f.fbits
/-- The exponent of the smallest normal number. -/
def FFmt.emin (f : FFmt) : Int := 1 - (f.bias : Int)

/-- A vector element format, by the codes of fmt's VS and VD (R59). -/
inductive EFmt where
  | flt (f : FFmt)
  | int (signed : Bool) (w : Nat)
  deriving DecidableEq, Repr

/-- The format of a VS or VD code; fmt never holds a reserved code (R60). -/
def EFmt.ofCode : Nat → EFmt
  | 0 => .flt fp32 | 1 => .flt fp16 | 2 => .flt bf16 | 3 => .flt e4m3 | 4 => .flt e5m2
  | 5 => .int true 8 | 6 => .int true 16 | 7 => .int true 32
  | 8 => .int false 8 | 9 => .int false 16 | _ => .int false 32

def EFmt.width : EFmt → Nat
  | .flt f => f.width
  | .int _ w => w

def EFmt.isFlt : EFmt → Bool
  | .flt _ => true
  | .int _ _ => false

/-- Signedness for the integer forms: floating codes count as signed (R154). -/
def EFmt.signed : EFmt → Bool
  | .flt _ => true
  | .int sg _ => sg

/-- The bits below the sign: an exponent field of zero is a zero or a subnormal (R53). -/
def FFmt.mag (f : FFmt) (b : Nat) : Nat := b % 2 ^ (f.ebits + f.fbits)

def FFmt.isSub (f : FFmt) (b : Nat) : Bool := f.mag b != 0 && decide (f.mag b < 2 ^ f.fbits)

/-- The value of a code (R53); with `ftz` a subnormal is a zero of its sign (R66 step 1). -/
def FFmt.dec (f : FFmt) (ftz : Bool) (b : Nat) : XR :=
  let neg := b / 2 ^ (f.ebits + f.fbits) % 2 == 1
  let m := f.mag b
  let e := m / 2 ^ f.fbits
  let fr := m % 2 ^ f.fbits
  if e = 2 ^ f.ebits - 1 ∧ f.hasInf then (if fr = 0 then .inf neg else .nan)
  else if f.hasInf = false ∧ m = 2 ^ (f.ebits + f.fbits) - 1 then .nan
  else if e = 0 then (if ftz then .fin neg 0 0 false else .fin neg fr (f.emin - f.fbits) false)
  else .fin neg (2 ^ f.fbits + fr) ((e : Int) - f.bias - f.fbits) false

/-- The integer an element code stands for. -/
def intVal (signed : Bool) (w b : Nat) : Int :=
  let v := b % 2 ^ w
  if signed ∧ 2 ^ (w - 1) ≤ v then (v : Int) - 2 ^ w else v

/-- An integer as an exact real. -/
def XR.ofInt (i : Int) : XR := .fin (decide (i < 0)) i.natAbs 0 false

/-- The exact value of a code of a vector format. -/
def EFmt.dec (f : EFmt) (ftz : Bool) (b : Nat) : XR :=
  match f with
  | .flt g => g.dec ftz b
  | .int sg w => .ofInt (intVal sg w b)

/-- Rounding of a magnitude to a multiple of 2 ^ q (R65): the multiplier, by the mode, the sign, and
the draw `rho` of SR. -/
def roundMul (rm : RM) (neg : Bool) (rho man : Nat) (exp : Int) (more : Bool) (q : Int) : Nat :=
  if q ≤ exp then
    let k := man * 2 ^ (exp - q).toNat
    if more then (match rm with | .rdn => if neg then k + 1 else k | _ => k) else k
  else
    let sh := (q - exp).toNat
    let k := man / 2 ^ sh
    let r := man % 2 ^ sh
    if r = 0 ∧ more = false then k
    else match rm with
      | .rtz => k
      | .rdn => if neg then k + 1 else k
      | .rne =>
        if 2 ^ sh < 2 * r ∨ (2 * r = 2 ^ sh ∧ (more ∨ k % 2 = 1)) then k + 1 else k
      | .sr => if 65536 ≤ 2 ^ 16 * r / 2 ^ sh + rho then k + 1 else k

/-- The exponent of the grid on which a nonzero magnitude is rounded in the format: at most
fbits + 1 significant bits, never finer than the subnormals. -/
def FFmt.grid (f : FFmt) (man : Nat) (exp : Int) : Int :=
  max ((man.log2 : Int) + exp) f.emin - f.fbits

/-- Does k * 2 ^ q exceed the largest finite value? -/
def FFmt.over (f : FFmt) (k : Nat) (q : Int) : Bool :=
  let lo := min q f.maxExp
  decide (f.maxMan * 2 ^ (f.maxExp - lo).toNat < k * 2 ^ (q - lo).toNat)

/-- The code of sign and k * 2 ^ q, which the format holds. -/
def FFmt.enc (f : FFmt) (neg : Bool) (k : Nat) (q : Int) : Nat :=
  let s := if neg then 2 ^ (f.ebits + f.fbits) else 0
  if k = 0 then s
  else
    -- normalise to fbits + 1 bits or to the subnormal grid
    let g := f.grid k q
    let k' := if g ≤ q then k * 2 ^ (q - g).toNat else k / 2 ^ (g - q).toNat
    if k' < 2 ^ f.fbits then s + k'
    else s + (g + f.fbits + f.bias).toNat * 2 ^ f.fbits + (k' - 2 ^ f.fbits)

def FFmt.maxCode (f : FFmt) (neg : Bool) : Nat := f.enc neg f.maxMan f.maxExp

/-- The infinity of a sign; E4M3 has none and gives NaN (R53, R66). -/
def FFmt.infCode (f : FFmt) (neg : Bool) : Nat :=
  if f.hasInf then (if neg then 2 ^ (f.ebits + f.fbits) else 0) + (2 ^ f.ebits - 1) * 2 ^ f.fbits
  else f.cnan

/-- The overflow branch of R66; `isInf` when the exact value is infinite. -/
def FFmt.overflow (f : FFmt) (rm : RM) (sat isInf neg : Bool) : Nat :=
  if sat then f.maxCode neg
  else if f.hasInf = false then f.cnan
  else match rm with
    | .rne | .sr => f.infCode neg
    | .rtz => if isInf then f.infCode neg else f.maxCode neg
    | .rdn => if neg then f.infCode true else if isInf then f.infCode false else f.maxCode false

/-- An exact value rounded once to a floating format (R65, R66 from step 3). -/
def FFmt.round (f : FFmt) (rm : RM) (sat ftz : Bool) (rho : Nat) (x : XR) : Nat :=
  match x with
  | .nan => f.cnan
  | .inf neg => f.overflow rm sat true neg
  | .fin neg man exp more =>
    if man = 0 ∧ more = false then (if neg then 2 ^ (f.ebits + f.fbits) else 0)
    else
      let q := f.grid man exp
      let dec := if rm = .sr then RM.rne else rm
      let kd := roundMul dec neg rho man exp more q
      if f.over kd q then f.overflow rm sat false neg
      else
        let k := roundMul rm neg rho man exp more q
        let k := if f.over k q then kd else k
        if ftz ∧ k < 2 ^ f.fbits ∧ q = f.emin - f.fbits then (if neg then 2 ^ (f.ebits + f.fbits) else 0)
        else f.enc neg k q

/-- The range of an integer format. -/
def intMin (signed : Bool) (w : Nat) : Int := if signed then -(2 ^ (w - 1) : Int) else 0
def intMax (signed : Bool) (w : Nat) : Int := if signed then 2 ^ (w - 1) - 1 else 2 ^ w - 1
def clampInt (lo hi v : Int) : Int := if v < lo then lo else if hi < v then hi else v
def satInt (signed : Bool) (w : Nat) (v : Int) : Int := clampInt (intMin signed w) (intMax signed w) v
/-- The low `w` bits of an integer. -/
def lowBits (w : Nat) (v : Int) : Nat := (v % (2 ^ w : Int)).toNat

/-- An exact finite value rounded to an integer (R65). -/
def XR.roundInt (rm : RM) (rho : Nat) (neg : Bool) (man : Nat) (exp : Int) (more : Bool) : Int :=
  let k : Int := roundMul rm neg rho man exp more 0
  if neg then -k else k

/-- An exact value to an integer format: rounded, then clamped always (R66); NaN gives 0. -/
def roundToInt (signed : Bool) (w : Nat) (rm : RM) (rho : Nat) (x : XR) : Nat :=
  match x with
  | .nan => 0
  | .inf neg => lowBits w (if neg then intMin signed w else intMax signed w)
  | .fin neg man exp more => lowBits w (satInt signed w (XR.roundInt rm rho neg man exp more))

/-- The conversion of R66 between two vector formats, on codes. -/
def convert (x y : EFmt) (rm : RM) (sat ftz : Bool) (rho b : Nat) : Nat :=
  match x, y with
  | .int sx wx, .int sy wy =>
    let m := intVal sx wx b
    lowBits wy (if sat then satInt sy wy m else m)
  | .flt f, .int sy wy => roundToInt sy wy rm rho (f.dec ftz b)
  | .int sx wx, .flt g => g.round rm sat ftz rho (.ofInt (intVal sx wx b))
  | .flt f, .flt g => g.round rm sat ftz rho (f.dec ftz b)

/-- The result of a floating form: the exact value converted to VD (R154, R66). -/
def EFmt.round (y : EFmt) (rm : RM) (sat ftz : Bool) (rho : Nat) (x : XR) : Nat :=
  match y with
  | .flt g => g.round rm sat ftz rho x
  | .int sy wy => roundToInt sy wy rm rho x

/-! ### Exact arithmetic -/

def XR.neg : XR → XR
  | .nan => .nan
  | .inf n => .inf (!n)
  | .fin n m e s => .fin (!n) m e s

def XR.abs : XR → XR
  | .nan => .nan
  | .inf _ => .inf false
  | .fin _ m e s => .fin false m e s

/-- A sum; an exact zero has sign + except under RDN, and two zeros of one sign keep it (R159). -/
def XR.add (rdn : Bool) : XR → XR → XR
  | .nan, _ => .nan
  | _, .nan => .nan
  | .inf a, .inf b => if a = b then .inf a else .nan
  | .inf a, _ => .inf a
  | _, .inf b => .inf b
  | .fin a m e _, .fin b n g _ =>
    let lo := min e g
    let x : Int := m * 2 ^ (e - lo).toNat
    let y : Int := n * 2 ^ (g - lo).toNat
    let v := (if a then -x else x) + (if b then -y else y)
    if v = 0 then .fin (if m = 0 ∧ n = 0 ∧ a = b then a else rdn) 0 0 false
    else .fin (decide (v < 0)) v.natAbs lo false

/-- A product; infinity times zero is NaN. -/
def XR.mul : XR → XR → XR
  | .nan, _ => .nan
  | _, .nan => .nan
  | .inf a, .inf b => .inf (a != b)
  | .inf a, .fin b n _ _ => if n = 0 then .nan else .inf (a != b)
  | .fin a m _ _, .inf b => if m = 0 then .nan else .inf (a != b)
  | .fin a m e _, .fin b n g _ => .fin (a != b) (m * n) (e + g) false

def XR.isNan : XR → Bool
  | .nan => true
  | _ => false

/-- x < y on values, zeros equal; false with a NaN. -/
def XR.lt (x y : XR) : Bool :=
  match x, y with
  | .nan, _ => false
  | _, .nan => false
  | .inf a, .inf b => a && !b
  | .inf a, .fin _ _ _ _ => a
  | .fin _ _ _ _, .inf b => !b
  | .fin a m e _, .fin b n g _ =>
    let lo := min e g
    let u : Int := m * 2 ^ (e - lo).toNat
    let v : Int := n * 2 ^ (g - lo).toNat
    decide ((if a then -u else u) < (if b then -v else v))

/-- x = y on values: -0 equals +0 (R163). -/
def XR.eq (x y : XR) : Bool := !x.isNan && !y.isNan && !x.lt y && !y.lt x

def XR.isNeg : XR → Bool
  | .nan => false
  | .inf n => n
  | .fin n _ _ _ => n

/-- Minimum and maximum of R160: a NaN loses to a number, and -0 is less than +0. -/
def XR.min (x y : XR) : XR :=
  if x.isNan then y else if y.isNan then x
  else if x.lt y then x else if y.lt x then y else if x.isNeg then x else y

def XR.max (x y : XR) : XR :=
  if x.isNan then y else if y.isNan then x
  else if x.lt y then y else if y.lt x then x else if x.isNeg then y else x

/-! ### Functions without exact dyadic results -/

/-- Bits carried beyond the point. -/
def PREC : Nat := 220

/-- The largest r with r * r ≤ n, by bits from the top. -/
def isqrt (n : Nat) : Nat :=
  (List.range (n.log2 / 2 + 1)).reverse.foldl
    (fun r i => if (r + 2 ^ i) * (r + 2 ^ i) ≤ n then r + 2 ^ i else r) 0

/-- 1 / x (R159). -/
def XR.rcp : XR → XR
  | .nan => .nan
  | .inf n => .fin n 0 0 false
  | .fin n m e _ =>
    if m = 0 then .inf n
    else
      let k := PREC + m.log2
      .fin n (2 ^ k / m) (-e - k) (2 ^ k % m != 0)

/-- 1 / sqrt x (R159). -/
def XR.rsq : XR → XR
  | .nan => .nan
  | .inf n => if n then .nan else .fin false 0 0 false
  | .fin n m e _ =>
    if m = 0 then .inf n
    else if n then .nan
    else
      -- x = m' * 2 ^ (2 h); 1 / sqrt x = sqrt (2 ^ (2 k) / m') * 2 ^ (-k - h)
      let odd := e % 2 == 1
      let m' := if odd then 2 * m else m
      let h := (if odd then e - 1 else e) / 2
      let k := PREC + m'.log2
      let qd := 2 ^ (2 * k) / m'
      let r := isqrt qd
      .fin false r (-(k : Int) - h) (r * r * m' != 2 ^ (2 * k))

/-- The sum of the first `n` terms of the series of exp (f / 2 ^ PREC) - 1, in units of 2 ^ -PREC. -/
def expSeries (f : Nat) : Nat → Nat → Nat → Nat → Nat
  | 0, _, _, acc => acc
  | n + 1, i, t, acc =>
    let t' := t * f / (i * 2 ^ PREC)
    expSeries f n (i + 1) t' (acc + t')

/-- The sum of z ^ (2 i + 1) / (2 i + 1): artanh (z / 2 ^ PREC) in units of 2 ^ -PREC. -/
def artanhSeries (z2 : Nat) : Nat → Nat → Nat → Nat → Nat
  | 0, _, _, acc => acc
  | n + 1, i, t, acc => artanhSeries z2 n (i + 2) (t * z2 / 2 ^ PREC) (acc + t / i)

def artanh (z : Nat) : Nat := artanhSeries (z * z / 2 ^ PREC) 160 1 z 0

/-- ln 2 in units of 2 ^ -PREC: 2 artanh (1 / 3). -/
def ln2 : Nat := 2 * artanh (2 ^ PREC / 3)

/-- exp (f / 2 ^ PREC) in units of 2 ^ -PREC, for f below 2 ^ PREC. -/
def expFrac (f : Nat) : Nat := expSeries f 70 1 (2 ^ PREC) (2 ^ PREC)

/-- 2 ^ x (R159); beyond every format's range a large or small power stands for the result. -/
def XR.exp2 : XR → XR
  | .nan => .nan
  | .inf n => if n then .fin false 0 0 false else .inf false
  | .fin n m e _ =>
    if m = 0 then .fin false 1 0 false
    else if 12 ≤ (m.log2 : Int) + e then
      (if n then .fin false 1 (-4096) true else .fin false 1 4096 true)
    else
      -- x = i + f / 2 ^ P with 0 ≤ f < 2 ^ P
      let p := PREC + 160
      let mag := if 0 ≤ e + p then m * 2 ^ (e + p).toNat else m / 2 ^ (-(e + p)).toNat
      let x : Int := if n then -(mag : Int) else mag
      let i := x / 2 ^ p
      let f := (x % 2 ^ p).toNat
      if f = 0 then .fin false 1 i false
      else .fin false (expFrac (f * ln2 / 2 ^ p)) (i - PREC) true

/-- log2 x (R159). -/
def XR.log2 : XR → XR
  | .nan => .nan
  | .inf n => if n then .nan else .inf false
  | .fin n m e _ =>
    if m = 0 then .inf true
    else if n then .nan
    else
      let l := m.log2
      let k : Int := l + e
      if m = 2 ^ l then .ofInt k
      else
        -- m / 2 ^ l = y in (1, 2); ln y = 2 artanh ((y - 1) / (y + 1))
        let ln := 2 * artanh ((m - 2 ^ l) * 2 ^ PREC / (m + 2 ^ l))
        let fr := ln * 2 ^ PREC / ln2
        let v : Int := k * 2 ^ PREC + fr
        .fin (decide (v < 0)) v.natAbs (-(PREC : Int)) true

/-- tanh x (R159): (exp 2x - 1) / (exp 2x + 1); for small x a little less than x, for large x a little
less than 1. -/
def XR.tanh : XR → XR
  | .nan => .nan
  | .inf n => .fin n 1 0 false
  | .fin n m e _ =>
    if m = 0 then .fin n 0 0 false
    else
      let t := (m.log2 : Int) + e
      if t < -64 then .fin n (m * 2 ^ PREC - 1) (e - PREC) true
      else if 7 ≤ t then .fin n (2 ^ PREC - 1) (-(PREC : Int)) true
      else
        let y := if 0 ≤ e + 1 + PREC then m * 2 ^ (e + 1 + PREC).toNat else m / 2 ^ (-(e + 1 + PREC)).toNat
        -- y = 2x in units; exp y = 2 ^ i * exp (r)
        let i := y / ln2
        let ex := expFrac (y % ln2) * 2 ^ i
        .fin n ((ex - 2 ^ PREC) * 2 ^ PREC / (ex + 2 ^ PREC)) (-(PREC : Int)) true

end Sys2Proof.Machine
end

