-- ==== Sys2Proof/Config.lean ====
section
/-!
DEFINITION. Sys2Proof/Config.lean: what one device fixes and the free values of the spec.

A free value has no body: nothing in Lean can evaluate it, so what is proved holds whatever it is.
Each is applied to a count that the machine advances (`State.free` or `State.tick`), or to what it
depends on.
-/

namespace Sys2Proof.Config

/-- Which of the moves that could come next does come next; the machine takes it modulo the number of
moves (log entry 1). -/
opaque pick : Nat → Nat

/-- Whether a racing read of an aligned group of bytes, by its number, goes past the pending write at a place, to what that
overwrote (R81, R294, R309, log entry 2). -/
opaque raceBit : Nat → Nat → Nat → Bool

/-- Whether an outcome that the spec leaves to chance happens (R113: the abort line within 64 clocks;
log entry 3). -/
opaque freeBit : Nat → Bool

/-- A byte the spec leaves undefined: the moving region after the L1 grew (R132), a collective's
destination after code 8 (R397); log entry 4. -/
opaque freeByte : Nat → Nat → Byte

/-- A register value for whose content the spec states nothing (log entry 5). -/
opaque freeWord : Nat → W64

/-- What follows the index in an XMSS signature of the attestation key over a message, by leaf index: 2,816 bytes (R441,
R442, log entry 6). -/
opaque signature : Nat → List Byte → BitVec 22528

/-- Does an XMSS signature verify: public key, message, signature (R439, log entry 6)? -/
opaque xmssOk : List Byte → List Byte → List Byte → Bool

/-- The public keys and the certificate at 0xE000 of BAR0, by offset (R442, log entry 6). -/
opaque identity : Nat → W64

/-- SHAKE256 with 32 bytes of output (R439, R442, log entry 6). -/
opaque shake256 : List Byte → BitVec 256

/-- Whether a step of a power-up fails, which, and the code it reports (R452, log entry 5). -/
opaque stepFails : Nat → Option (Nat × Byte)

/-- The port that traffic for a device of the domain leaves by, and those that it takes in turn while a port is down
(R8, R399; log entry 9). -/
opaque route : Nat → Nat → Nat

/-- The draw averaged over the last window, the throttle level reached, and whether issue is withheld: measured, and timing
only (R445, R446, log entry 64). -/
opaque draw : Nat → BitVec 16
opaque level : Nat → BitVec 2
opaque withheld : Nat → Bool

end Sys2Proof.Config
end

