-- ==== Sys2Proof/Machine/Map.lean ====
section
/-!
DEFINITION. Sys2Proof/Machine/Map.lean: sparse tables by number, the shape of every register file,
tag store and queue table of the machine.  A table is plain data: pairs in ascending key order; what
an absent key reads as is said at each read.
-/

namespace Sys2Proof.Machine

/-- A sparse table: pairs (number, entry) in ascending order of the number. -/
abbrev AMap (α : Type) := List (Nat × α)

/-- The entry at `k`, if listed. -/
def AMap.find? {α : Type} (m : AMap α) (k : Nat) : Option α :=
  match m with
  | [] => none
  | (j, x) :: t => if j = k then some x else AMap.find? t k

/-- The entry at `k`, or `d` where none is listed. -/
def AMap.get {α : Type} (d : α) (m : AMap α) (k : Nat) : α := (m.find? k).getD d

/-- The table with `x` at `k`. -/
def AMap.set {α : Type} (m : AMap α) (k : Nat) (x : α) : AMap α :=
  match m with
  | [] => [(k, x)]
  | (j, y) :: t =>
    if j = k then (k, x) :: t
    else if k < j then (k, x) :: (j, y) :: t
    else (j, y) :: AMap.set t k x

/-- The table without the entry at `k`. -/
def AMap.erase {α : Type} (m : AMap α) (k : Nat) : AMap α := m.filter (fun e => e.1 != k)

/-- The table without the entries at `lo` to `lo + n - 1`. -/
def AMap.eraseRange {α : Type} (m : AMap α) (lo n : Nat) : AMap α :=
  m.filter (fun e => !(decide (lo ≤ e.1) && decide (e.1 < lo + n)))

/-- The first element that meets `p`, with its place; for lists of commands in flight. -/
def findBy {α : Type} (p : α → Bool) : List α → Option α
  | [] => none
  | x :: t => if p x then some x else findBy p t

/-- The list with the first element that meets `p` changed by `f`. -/
def updBy {α : Type} (p : α → Bool) (f : α → α) : List α → List α
  | [] => []
  | x :: t => if p x then f x :: t else x :: updBy p f t

/-- The list without the first element that meets `p`. -/
def delBy {α : Type} (p : α → Bool) : List α → List α
  | [] => []
  | x :: t => if p x then t else x :: delBy p t

end Sys2Proof.Machine
end

