-- ==== Sys2Proof/Syntax.lean ====
section
/-!
DEFINITION. Sys2Proof/Syntax.lean: the instructions, one constructor per row of the opcode table.

Three kinds of row stand in the table.  The slot forms (R28 to R33) carry the operand fields of their
layout as raw bit fields; stop bit and guard belong to the slot (`Slot`), not to the form.  The
micro-ops (R34, R287) carry the fields of their micro-word.  The events are the machine's moves that
no slot issues: what an engine does when its turn comes, and what arrives from outside (a packet, a
message of a peer, a host access).  An event names the context, core, planer or queue it concerns, or
carries the data that arrives.
-/

namespace Sys2Proof

/-- The two vector lanes, which share one opcode assignment (R27, R30). -/
inductive VW where
  | v | w
  deriving DecidableEq, Repr

/-- What a message of the fabric asks of its receiver (R380, R394, R396), or tells the requester: the code a
command completes with, or a hold notice (R377, R383). -/
inductive FabKind where
  | put | putH | sample | coll | lost | ack | hold
  deriving DecidableEq, Repr

/-- One message between devices (R377, R378, R380, R392, R394), with its sender, its destination and the
sender's number of the command.  `addr` is the peer address of a put or of samples; `flag` is the flag word
to write after the payload with its offset; samples are 6 bytes each and collective elements 4; `exform`
holds E [6:0] and the transform [8:7] of samples.  `inst`, `slot`, `epoch` and `k` name a collective, `form`
holds its form and e[g + 2][43:36], `count` its n, `round` and `chunk` what the message carries (round 0 for
a PUT.SMP), `pos` the position of the sender of a round's input, of the destination of a multicast or of samples, or of a
lost member.  An answer carries its code in `chunk`,
its subcode in `form`, and the `pos` of what it answers. -/
structure FabMsg where
  kind : FabKind
  job : BitVec 16
  src : BitVec 8
  dst : BitVec 8
  id : Nat
  addr : W64
  data : List Byte
  flag : Option (Nat × W64)
  handler : BitVec 8
  inst : BitVec 4
  slot : BitVec 4
  epoch : BitVec 8
  k : Nat
  round : Nat
  chunk : Nat
  form : Nat
  count : Nat
  pos : Nat
  exform : BitVec 9
  deriving DecidableEq, Repr

/-- Every row of the opcode table (R27 to R34 and the events of the other chapters). -/
inductive Instr where
  /-- MGATH_A: Gathers 16 A slab rows from scratchpad (R288) -/
  | mgathA (b : BitVec 1) (x : BitVec 3) (o : BitVec 16) (r : BitVec 12) (e : BitVec 12) (u : BitVec 12)
  /-- MGATH_B: Gathers 16 B slab rows from scratchpad (R288) -/
  | mgathB (b : BitVec 1) (x : BitVec 3) (o : BitVec 16) (r : BitVec 12) (e : BitVec 12) (u : BitVec 12)
  /-- MGATH_AT: Gathers the A operand transposed (R288) -/
  | mgathAt (b : BitVec 1) (x : BitVec 3) (o : BitVec 16) (r : BitVec 12) (e : BitVec 12) (u : BitVec 12)
  /-- MGATH_BT: Gathers the B operand transposed (R288) -/
  | mgathBt (b : BitVec 1) (x : BitVec 3) (o : BitVec 16) (r : BitVec 12) (e : BitVec 12) (u : BitVec 12)
  /-- MLDB_A: Fills an A buffer from 16 qx entries (R289) -/
  | mldbA (b : BitVec 1)
  /-- MLDB_B: Fills a B buffer from 16 qx entries (R289) -/
  | mldbB (b : BitVec 1)
  /-- MMAC_I8: Accumulates MXINT8 blocks into a tile (R290) -/
  | mmacI8 (a : BitVec 1) (b : BitVec 1) (t : BitVec 4) (z : BitVec 3) (n : BitVec 3)
  /-- MMAC_I6: Accumulates MXINT6 blocks into a tile (R290) -/
  | mmacI6 (a : BitVec 1) (b : BitVec 1) (t : BitVec 4) (z : BitVec 3) (n : BitVec 3)
  /-- MMAC_I4: Accumulates MXINT4 blocks into a tile (R290) -/
  | mmacI4 (a : BitVec 1) (b : BitVec 1) (t : BitVec 4) (z : BitVec 3) (n : BitVec 3)
  /-- MMAC_F4: Accumulates MXFP4 blocks into a tile (R290) -/
  | mmacF4 (a : BitVec 1) (b : BitVec 1) (t : BitVec 4) (z : BitVec 3) (n : BitVec 3)
  /-- MMAC_I16: Accumulates MXINT16 blocks into a tile (R290) -/
  | mmacI16 (a : BitVec 1) (b : BitVec 1) (t : BitVec 4) (z : BitVec 3) (n : BitVec 3)
  /-- MMAC_F: Accumulates blocks in the TA and TB formats (R290) -/
  | mmacF (a : BitVec 1) (b : BitVec 1) (t : BitVec 4) (z : BitVec 3) (n : BitVec 3)
  /-- MMAC_F_Z: Zeroes the tile and accumulates blocks in TA and TB (R290) -/
  | mmacFZ (a : BitVec 1) (b : BitVec 1) (t : BitVec 4) (z : BitVec 3) (n : BitVec 3)
  /-- MMAC_F_D: Decays the tile by G and accumulates blocks in TA and TB (R290) -/
  | mmacFD (a : BitVec 1) (b : BitVec 1) (t : BitVec 4) (z : BitVec 3) (n : BitVec 3) (g : BitVec 13)
  /-- MSCL_A: Loads A edge scale latches from scratchpad scale words (R296) -/
  | msclA (x : BitVec 3) (o : BitVec 16) (z : BitVec 3) (n : BitVec 3)
  /-- MSCL_B: Loads B edge scale latches from scratchpad (R296) -/
  | msclB (x : BitVec 3) (o : BitVec 16) (z : BitVec 3) (n : BitVec 3)
  /-- MSCL_AB: Loads A and B edge scale latches from scratchpad (R296) -/
  | msclAb (x : BitVec 3) (o : BitVec 16) (z : BitVec 3) (n : BitVec 3)
  /-- MSCL_CLR: Sets every edge scale latch to 1.0 (R296) -/
  | msclClr
  /-- MSCM_A: Loads A latches from the group's scale memory (R296) -/
  | mscmA (i : BitVec 12) (z : BitVec 3) (n : BitVec 3)
  /-- MSCM_B: Loads B latches from the group's scale memory (R296) -/
  | mscmB (i : BitVec 12) (z : BitVec 3) (n : BitVec 3)
  /-- MSCM_AB: Loads A and B latches from scale memory (R296) -/
  | mscmAb (i : BitVec 12) (z : BitVec 3) (n : BitVec 3)
  /-- MSCM_ST: Stores A then B latches into scale memory (R296) -/
  | mscmSt (i : BitVec 12) (z : BitVec 3) (n : BitVec 3)
  /-- MACC_ADD: Adds tile TS into tile TD (R291) -/
  | maccAdd (d : BitVec 4) (r : BitVec 4)
  /-- MACC_SUB: Subtracts tile TS from tile TD (R291) -/
  | maccSub (d : BitVec 4) (r : BitVec 4)
  /-- MACC_MOV: Copies tile TS to tile TD (R291) -/
  | maccMov (d : BitVec 4) (r : BitVec 4)
  /-- MACC_DCY: Scales tile TD by G (R291) -/
  | maccDcy (d : BitVec 4) (g : BitVec 13)
  /-- MACC_MAX: Takes the element maximum of two tiles (R291) -/
  | maccMax (d : BitVec 4) (r : BitVec 4)
  /-- MACC_ZERO: Writes +0 to tile TD (R291) -/
  | maccZero (d : BitVec 4)
  /-- MCVT_BF16: Converts a tile to BF16 rows in scratchpad (R292) -/
  | mcvtBf16 (t : BitVec 4) (x : BitVec 3) (o : BitVec 16) (r : BitVec 12)
  /-- MCVT_F16: Converts a tile to FP16 rows in scratchpad (R292) -/
  | mcvtF16 (t : BitVec 4) (x : BitVec 3) (o : BitVec 16) (r : BitVec 12)
  /-- MCVT_E4M3: Converts a tile to E4M3 rows in scratchpad (R292) -/
  | mcvtE4m3 (t : BitVec 4) (x : BitVec 3) (o : BitVec 16) (r : BitVec 12)
  /-- MCVT_E5M2: Converts a tile to E5M2 rows in scratchpad (R292) -/
  | mcvtE5m2 (t : BitVec 4) (x : BitVec 3) (o : BitVec 16) (r : BitVec 12)
  /-- MLOOP: Repeats the following micro-words an immediate number of times (R293) -/
  | mloop (c : BitVec 12) (n : BitVec 12)
  /-- MLOOP_P: Repeats micro-words a count taken from an x register (R293) -/
  | mloopP (x : BitVec 3) (n : BitVec 12)
  /-- MLOOP_K: Repeats micro-words over K slabs from an x register (R293) -/
  | mloopK (x : BitVec 3) (n : BitVec 12)
  /-- MEND: Ends the routine (R294) -/
  | mend
  /-- MSYNC_G: Holds later micro-words until earlier gathers finish (R294) -/
  | msyncG
  /-- MSYNC_S: Holds later micro-words until earlier MCVT stores are performed (R294) -/
  | msyncS
  /-- MSYNC_ALL: Holds later micro-words for both gathers and stores (R294) -/
  | msyncAll
  /-- MNOP: Spends one clock (R294) -/
  | mnop
  /-- BR: Branches to the bundle start plus 4 × disp after the bundle (R122) -/
  | br (i : BitVec 18)
  /-- BRX: Branches to the code offset held in a c register (R122) -/
  | brx (a : BitVec 5)
  /-- CALL: Writes the return address to c15 and branches by displacement (R122) -/
  | call (i : BitVec 18)
  /-- CALL_R: Writes the return address to c15 and branches to a c register target (R122) -/
  | callR (a : BitVec 5)
  /-- RET: Branches to the address held in c15 (R122) -/
  | ret
  /-- LOOP: Pushes a loop level with an immediate trip count, or skips the body on count 0 (R124) -/
  | loop (n : BitVec 11) (k : BitVec 7)
  /-- LOOP_R: Pushes a loop level with its trip count taken from a c register (R124) -/
  | loopR (c : BitVec 5) (k : BitVec 7)
  /-- LOOP_ROT: Pushes a rotating loop level with an immediate count, computing the stage depth (R108) -/
  | loopRot (n : BitVec 11) (k : BitVec 7)
  /-- LOOP_ROT_R: Pushes a rotating loop level with its count taken from a c register (R108) -/
  | loopRotR (c : BitVec 5) (k : BitVec 7)
  /-- BRK: Pops an immediate number of loop levels and continues at the outer level's body end (R126) -/
  | brk (i : BitVec 13)
  /-- BRK_R: Pops the number of loop levels held in a c register (R126) -/
  | brkR (a : BitVec 5)
  /-- LIDX: Reads the index or trip count of a held loop level into a c register (R127) -/
  | lidx (d : BitVec 5) (c : BitVec 1) (v : BitVec 3)
  /-- FMT_R: Sets a pending fmt value from a c register, optionally returning the current fmt (R128) -/
  | fmtR (d : BitVec 5) (a : BitVec 5) (w : BitVec 1)
  /-- FMT_V: Sets a pending fmt with new vector formats, rounding, saturation and flush fields (R128) -/
  | fmtV (z : BitVec 1) (t : BitVec 1) (r : BitVec 2) (d : BitVec 4) (v : BitVec 4)
  /-- FMT_X: Sets a pending fmt with new truss formats and accumulator mode (R128) -/
  | fmtX (c : BitVec 1) (b : BitVec 3) (a : BitVec 3)
  /-- FMT_SHADOW_EXPIRE: The fmt countdown reaches zero and the pending value is written to fmt before the next bundle (R63) -/
  | fmtShadowExpire (k : Nat)
  /-- LIFT: Pushes a lift axis of immediate size and calls the lifted function (R206) -/
  | lift (n : BitVec 6) (i : BitVec 12)
  /-- LIFT_R: Pushes a lift axis with size and target from c registers and calls it (R206) -/
  | liftR (a : BitVec 5) (b : BitVec 5)
  /-- LRET: Clears values tagged with the innermost axis, pops the lift and returns (R207) -/
  | lret
  /-- BIF_P: Branches to the target when the named predicate is false (R212) -/
  | bifP (p : BitVec 4) (i : BitVec 14)
  /-- BIF_M: Opens a masked region over the examples whose mask bit 0 is set (R212) -/
  | bifM (m : BitVec 3) (i : BitVec 14)
  /-- BELSE: Switches a masked region to its else part or acts as a plain branch (R212) -/
  | belse (i : BitVec 14)
  /-- BJOIN: Closes an open masked region (R212) -/
  | bjoin
  /-- TRAP: Enters service at the launch's service entry with an immediate code (R226) -/
  | trap (i : BitVec 13)
  /-- TRAP_R: Enters service with a code and the value of a c register in c13 (R226) -/
  | trapR (a : BitVec 5)
  /-- SVC: Enters service as a service call with an immediate code (R226) -/
  | svc (i : BitVec 13)
  /-- ERET: Leaves service, restoring the frame, and acts as a mark opening an unchecked segment (R227) -/
  | eret
  /-- PARK: Returns the context to Dormant once its loads have returned (R129) -/
  | park
  /-- PARK_COMPLETE: The last outstanding load of a parking context returns and its state is discarded (R129) -/
  | parkComplete (k : Nat)
  /-- ABORT: Raises the instance abort line with an immediate code and ends the context (R130) -/
  | abort (i : BitVec 13)
  /-- ABORT_R: Raises the instance abort line with a code from a c register and ends the context (R130) -/
  | abortR (a : BitVec 5)
  /-- ABCHK: Samples the abort line and ends the context if it is raised (R131) -/
  | abchk
  /-- MARK: Waits for loads, checks the segment signature, commits the gate buffer and opens a new segment (R219) -/
  | mark (i : BitVec 14)
  /-- JOIN: Arrives at a joint round of a group with an immediate member count (R224) -/
  | join (n : BitVec 8) (r : BitVec 4)
  /-- JOIN_R: Arrives at a joint round with group and member count from a c register (R224) -/
  | joinR (a : BitVec 5)
  /-- JOIN_RELEASE: A waiting JOIN passes once its round is complete and no member is rewinding (R224) -/
  | joinRelease (k : Nat)
  /-- CKPT: Writes the instance's generator states to scratchpad at an immediate offset (R225) -/
  | ckpt (i : BitVec 13)
  /-- CKPT_R: Writes the instance's generator states to scratchpad at a register offset (R225) -/
  | ckptR (a : BitVec 5)
  /-- CKRS: Restores generator states from a scratchpad image at an immediate offset (R225) -/
  | ckrs (i : BitVec 13)
  /-- CKRS_R: Restores generator states from a scratchpad image at a register offset (R225) -/
  | ckrsR (a : BitVec 5)
  /-- PHASE: Moves the core's scratchpad and L1 split to an immediate L1 size over 1,024 clocks (R132) -/
  | phase (n : BitVec 4)
  /-- PHASE_R: Moves the scratchpad and L1 split to the size held in a c register (R132) -/
  | phaseR (a : BitVec 5)
  /-- PHASE_END: The 1,024 clocks of a PHASE expire and the new split takes effect (R132) -/
  | phaseEnd (c : Nat)
  /-- HALT: Moves the context to Halted once loads and engine commands complete (R228) -/
  | halt
  /-- HALT_COMPLETE: The last load and engine command of a halting context complete and it becomes Halted (R228) -/
  | haltComplete (k : Nat)
  /-- ADD: Writes the 64-bit sum of two s registers (R137) -/
  | add (d : BitVec 5) (a : BitVec 5) (b : BitVec 5)
  /-- ADD_W: Writes the sign-extended 32-bit sum (R137) -/
  | addW (d : BitVec 5) (a : BitVec 5) (b : BitVec 5)
  /-- SUB: Writes the 64-bit difference (R137) -/
  | sub (d : BitVec 5) (a : BitVec 5) (b : BitVec 5)
  /-- SUB_W: Writes the sign-extended 32-bit difference (R137) -/
  | subW (d : BitVec 5) (a : BitVec 5) (b : BitVec 5)
  /-- MUL: Writes the low 64 bits of the product (R137) -/
  | mul (d : BitVec 5) (a : BitVec 5) (b : BitVec 5)
  /-- MUL_W: Writes the sign-extended low 32 bits of the product (R137) -/
  | mulW (d : BitVec 5) (a : BitVec 5) (b : BitVec 5)
  /-- MULH: Writes the high 64 bits of the signed 128-bit product (R137) -/
  | mulh (d : BitVec 5) (a : BitVec 5) (b : BitVec 5)
  /-- MULH_U: Writes the high 64 bits of the unsigned 128-bit product (R137) -/
  | mulhU (d : BitVec 5) (a : BitVec 5) (b : BitVec 5)
  /-- DIV: Writes the signed quotient, with fixed results for zero divisor and overflow (R138) -/
  | div (d : BitVec 5) (a : BitVec 5) (b : BitVec 5)
  /-- DIV_U: Writes the unsigned quotient (R138) -/
  | divU (d : BitVec 5) (a : BitVec 5) (b : BitVec 5)
  /-- REM: Writes the signed remainder (R138) -/
  | rem (d : BitVec 5) (a : BitVec 5) (b : BitVec 5)
  /-- REM_U: Writes the unsigned remainder (R138) -/
  | remU (d : BitVec 5) (a : BitVec 5) (b : BitVec 5)
  /-- AND: Writes the bitwise AND (R137) -/
  | and (d : BitVec 5) (a : BitVec 5) (b : BitVec 5)
  /-- OR: Writes the bitwise OR (R137) -/
  | or (d : BitVec 5) (a : BitVec 5) (b : BitVec 5)
  /-- XOR: Writes the bitwise XOR (R137) -/
  | xor (d : BitVec 5) (a : BitVec 5) (b : BitVec 5)
  /-- ANDN: Writes a AND NOT b (R137) -/
  | andn (d : BitVec 5) (a : BitVec 5) (b : BitVec 5)
  /-- SHL: Shifts left by an unmasked 64-bit count (R139) -/
  | shl (d : BitVec 5) (a : BitVec 5) (b : BitVec 5)
  /-- SHL_W: Shifts the low 32 bits left and sign-extends (R139) -/
  | shlW (d : BitVec 5) (a : BitVec 5) (b : BitVec 5)
  /-- SHR: Shifts right logically by an unmasked count (R139) -/
  | shr (d : BitVec 5) (a : BitVec 5) (b : BitVec 5)
  /-- SHR_W: Shifts the low 32 bits right logically and sign-extends (R139) -/
  | shrW (d : BitVec 5) (a : BitVec 5) (b : BitVec 5)
  /-- SAR: Shifts right arithmetically by an unmasked count (R139) -/
  | sar (d : BitVec 5) (a : BitVec 5) (b : BitVec 5)
  /-- SAR_W: Shifts the low 32 bits right arithmetically and sign-extends (R139) -/
  | sarW (d : BitVec 5) (a : BitVec 5) (b : BitVec 5)
  /-- MIN: Writes the signed minimum (R137) -/
  | min (d : BitVec 5) (a : BitVec 5) (b : BitVec 5)
  /-- MIN_U: Writes the unsigned minimum (R137) -/
  | minU (d : BitVec 5) (a : BitVec 5) (b : BitVec 5)
  /-- MAX: Writes the signed maximum (R137) -/
  | max (d : BitVec 5) (a : BitVec 5) (b : BitVec 5)
  /-- MAX_U: Writes the unsigned maximum (R137) -/
  | maxU (d : BitVec 5) (a : BitVec 5) (b : BitVec 5)
  /-- CLZ: Counts leading zero bits in 64 bits (R140) -/
  | clz (d : BitVec 5) (a : BitVec 5)
  /-- CLZ_W: Counts leading zero bits in the low 32 bits (R140) -/
  | clzW (d : BitVec 5) (a : BitVec 5)
  /-- POPC: Counts one bits in 64 bits (R140) -/
  | popc (d : BitVec 5) (a : BitVec 5)
  /-- POPC_W: Counts one bits in the low 32 bits (R140) -/
  | popcW (d : BitVec 5) (a : BitVec 5)
  /-- BFX: Extracts a bit field and sign-extends it (R141) -/
  | bfx (d : BitVec 5) (a : BitVec 5) (b : BitVec 5)
  /-- BFX_U: Extracts a bit field and zero-extends it (R141) -/
  | bfxU (d : BitVec 5) (a : BitVec 5) (b : BitVec 5)
  /-- BFI: Inserts the low bits of a source into a field of the destination (R141) -/
  | bfi (d : BitVec 5) (a : BitVec 5) (b : BitVec 5)
  /-- BFI_W: Inserts a field within the low 32 bits and sign-extends (R141) -/
  | bfiW (d : BitVec 5) (a : BitVec 5) (b : BitVec 5)
  /-- SEL: Selects one of two s registers by a predicate p0 to p7 (R142) -/
  | sel (d : BitVec 5) (a : BitVec 5) (b : BitVec 5) (p : BitVec 3)
  /-- MOVI: Writes a sign-extended 13-bit immediate (R144) -/
  | movi (d : BitVec 5) (i : BitVec 13)
  /-- MOVS: Shifts the destination left 13 bits and ORs in an immediate (R144) -/
  | movs (d : BitVec 5) (i : BitVec 13)
  /-- ADDI: Adds a sign-extended 8-bit immediate (R143) -/
  | addi (d : BitVec 5) (a : BitVec 5) (i : BitVec 8)
  /-- ANDI: ANDs with a sign-extended immediate (R143) -/
  | andi (d : BitVec 5) (a : BitVec 5) (i : BitVec 8)
  /-- ORI: ORs with a sign-extended immediate (R143) -/
  | ori (d : BitVec 5) (a : BitVec 5) (i : BitVec 8)
  /-- XORI: XORs with a sign-extended immediate (R143) -/
  | xori (d : BitVec 5) (a : BitVec 5) (i : BitVec 8)
  /-- MULI: Multiplies by a sign-extended immediate (R143) -/
  | muli (d : BitVec 5) (a : BitVec 5) (i : BitVec 8)
  /-- SHLI: Shifts left by an immediate count (R143) -/
  | shli (d : BitVec 5) (a : BitVec 5) (i : BitVec 8)
  /-- SHRI: Shifts right logically by an immediate count (R143) -/
  | shri (d : BitVec 5) (a : BitVec 5) (i : BitVec 8)
  /-- SARI: Shifts right arithmetically by an immediate count (R143) -/
  | sari (d : BitVec 5) (a : BitVec 5) (i : BitVec 8)
  /-- CMP_EQ: Writes x = y to pD and its complement to pE (R145) -/
  | cmpEq (p : BitVec 4) (e : BitVec 4) (a : BitVec 5) (b : BitVec 5)
  /-- CMP_NE: Writes x ≠ y and its complement (R145) -/
  | cmpNe (p : BitVec 4) (e : BitVec 4) (a : BitVec 5) (b : BitVec 5)
  /-- CMP_LT: Writes signed x < y and its complement (R145) -/
  | cmpLt (p : BitVec 4) (e : BitVec 4) (a : BitVec 5) (b : BitVec 5)
  /-- CMP_LE: Writes signed x ≤ y and its complement (R145) -/
  | cmpLe (p : BitVec 4) (e : BitVec 4) (a : BitVec 5) (b : BitVec 5)
  /-- CMP_GT: Writes signed x > y and its complement (R145) -/
  | cmpGt (p : BitVec 4) (e : BitVec 4) (a : BitVec 5) (b : BitVec 5)
  /-- CMP_GE: Writes signed x ≥ y and its complement (R145) -/
  | cmpGe (p : BitVec 4) (e : BitVec 4) (a : BitVec 5) (b : BitVec 5)
  /-- CMP_LTU: Writes unsigned x < y and its complement (R145) -/
  | cmpLtu (p : BitVec 4) (e : BitVec 4) (a : BitVec 5) (b : BitVec 5)
  /-- CMP_GEU: Writes unsigned x ≥ y and its complement (R145) -/
  | cmpGeu (p : BitVec 4) (e : BitVec 4) (a : BitVec 5) (b : BitVec 5)
  /-- PAND: Writes the AND of two predicates (R146) -/
  | pand (p : BitVec 4) (a : BitVec 4) (b : BitVec 4)
  /-- POR: Writes the OR of two predicates (R146) -/
  | por (p : BitVec 4) (a : BitVec 4) (b : BitVec 4)
  /-- PNOT: Writes the complement of a predicate (R146) -/
  | pnot (p : BitVec 4) (a : BitVec 4)
  /-- JMOV: Copies a register between the C, A, S, E and X files (R149) -/
  | jmov (d : BitVec 5) (a : BitVec 5) (x : BitVec 3) (y : BitVec 3)
  /-- JMOV_V: Copies a vector register with its tag between V and W (R149) -/
  | jmovV (d : BitVec 5) (a : BitVec 5) (x : BitVec 3) (y : BitVec 3)
  /-- JSPL_32: Splats the low 32 bits of a scalar into every vector element (R150) -/
  | jspl32 (d : BitVec 5) (a : BitVec 5) (x : BitVec 3) (y : BitVec 3)
  /-- JSPL_16: Splats the low 16 bits of a scalar into every vector element (R150) -/
  | jspl16 (d : BitVec 5) (a : BitVec 5) (x : BitVec 3) (y : BitVec 3)
  /-- JSPL_8: Splats the low 8 bits of a scalar into every vector element (R150) -/
  | jspl8 (d : BitVec 5) (a : BitVec 5) (x : BitVec 3) (y : BitVec 3)
  /-- JEXT: Writes bits 63:0 of one example's copy of a vector register to an s register (R151) -/
  | jext (d : BitVec 5) (a : BitVec 5) (e : BitVec 6) (f : BitVec 1)
  /-- JPM: Writes the predicate file and its valid bits as a word (R152) -/
  | jpm (d : BitVec 5) (x : BitVec 3)
  /-- JMK: Writes one half of a mask from a scalar (R153) -/
  | jmk (d : BitVec 5) (a : BitVec 5) (x : BitVec 3) (y : BitVec 3)
  /-- VADD: Floating add per element, converted to VD (R159) -/
  | vadd (l : VW) (d : BitVec 5) (a : BitVec 5) (b : BitVec 5) (m : BitVec 3)
  /-- VSUB: Floating subtract per element (R159) -/
  | vsub (l : VW) (d : BitVec 5) (a : BitVec 5) (b : BitVec 5) (m : BitVec 3)
  /-- VMUL: Floating multiply per element (R159) -/
  | vmul (l : VW) (d : BitVec 5) (a : BitVec 5) (b : BitVec 5) (m : BitVec 3)
  /-- VFMA: Fused x × y + z per element with one rounding (R159) -/
  | vfma (l : VW) (d : BitVec 5) (a : BitVec 5) (b : BitVec 5) (m : BitVec 3)
  /-- VFMS: Fused z − x × y per element with one rounding (R159) -/
  | vfms (l : VW) (d : BitVec 5) (a : BitVec 5) (b : BitVec 5) (m : BitVec 3)
  /-- VMIN: Floating minimum per element with NaN and zero rules (R160) -/
  | vmin (l : VW) (d : BitVec 5) (a : BitVec 5) (b : BitVec 5) (m : BitVec 3)
  /-- VMAX: Floating maximum per element with NaN and zero rules (R160) -/
  | vmax (l : VW) (d : BitVec 5) (a : BitVec 5) (b : BitVec 5) (m : BitVec 3)
  /-- VADD_I: Floating add of a converted immediate (R161) -/
  | vaddI (l : VW) (d : BitVec 5) (a : BitVec 5) (i : BitVec 8)
  /-- VMUL_I: Floating multiply by a converted immediate (R161) -/
  | vmulI (l : VW) (d : BitVec 5) (a : BitVec 5) (i : BitVec 8)
  /-- VMIN_I: Floating minimum with a converted immediate (R161) -/
  | vminI (l : VW) (d : BitVec 5) (a : BitVec 5) (i : BitVec 8)
  /-- VMAX_I: Floating maximum with a converted immediate (R161) -/
  | vmaxI (l : VW) (d : BitVec 5) (a : BitVec 5) (i : BitVec 8)
  /-- VCVT: Converts elements from VS to VD of equal width (R162) -/
  | vcvt (l : VW) (d : BitVec 5) (a : BitVec 5) (m : BitVec 3)
  /-- VCVT_LO: Widening or narrowing conversion of a low part (R162) -/
  | vcvtLo (l : VW) (d : BitVec 5) (a : BitVec 5) (b : BitVec 5) (m : BitVec 3)
  /-- VCVT_HI: Widening or narrowing conversion of a high part (R162) -/
  | vcvtHi (l : VW) (d : BitVec 5) (a : BitVec 5) (b : BitVec 5) (m : BitVec 3)
  /-- VCMP_EQ: Floating equality compare into a mask pair (R163) -/
  | vcmpEq (l : VW) (p : BitVec 5) (a : BitVec 5) (b : BitVec 5) (m : BitVec 3)
  /-- VCMP_NE: Floating inequality compare into a mask pair (R163) -/
  | vcmpNe (l : VW) (p : BitVec 5) (a : BitVec 5) (b : BitVec 5) (m : BitVec 3)
  /-- VCMP_LT: Floating less-than compare into a mask pair (R163) -/
  | vcmpLt (l : VW) (p : BitVec 5) (a : BitVec 5) (b : BitVec 5) (m : BitVec 3)
  /-- VCMP_LE: Floating less-or-equal compare into a mask pair (R163) -/
  | vcmpLe (l : VW) (p : BitVec 5) (a : BitVec 5) (b : BitVec 5) (m : BitVec 3)
  /-- VCMP_GT: Floating greater-than compare into a mask pair (R163) -/
  | vcmpGt (l : VW) (p : BitVec 5) (a : BitVec 5) (b : BitVec 5) (m : BitVec 3)
  /-- VCMP_GE: Floating greater-or-equal compare into a mask pair (R163) -/
  | vcmpGe (l : VW) (p : BitVec 5) (a : BitVec 5) (b : BitVec 5) (m : BitVec 3)
  /-- VCMP_UN: Unordered compare into a mask pair (R163) -/
  | vcmpUn (l : VW) (p : BitVec 5) (a : BitVec 5) (b : BitVec 5) (m : BitVec 3)
  /-- VCMP_ORD: Ordered compare into a mask pair (R163) -/
  | vcmpOrd (l : VW) (p : BitVec 5) (a : BitVec 5) (b : BitVec 5) (m : BitVec 3)
  /-- VCMP_IEQ: Bit-pattern equality compare into a mask pair (R163) -/
  | vcmpIeq (l : VW) (p : BitVec 5) (a : BitVec 5) (b : BitVec 5) (m : BitVec 3)
  /-- VCMP_INE: Bit-pattern inequality compare into a mask pair (R163) -/
  | vcmpIne (l : VW) (p : BitVec 5) (a : BitVec 5) (b : BitVec 5) (m : BitVec 3)
  /-- VCMP_ILT: Signed integer less-than compare into a mask pair (R163) -/
  | vcmpIlt (l : VW) (p : BitVec 5) (a : BitVec 5) (b : BitVec 5) (m : BitVec 3)
  /-- VCMP_ILTU: Unsigned integer less-than compare into a mask pair (R163) -/
  | vcmpIltu (l : VW) (p : BitVec 5) (a : BitVec 5) (b : BitVec 5) (m : BitVec 3)
  /-- VSEL: Selects elements from two registers by a mask (R164) -/
  | vsel (l : VW) (d : BitVec 5) (a : BitVec 5) (b : BitVec 5) (m : BitVec 3)
  /-- VIADD: Wrapping integer add per element (R166) -/
  | viadd (l : VW) (d : BitVec 5) (a : BitVec 5) (b : BitVec 5) (m : BitVec 3)
  /-- VIADD_S: Saturating integer add per element (R166) -/
  | viaddS (l : VW) (d : BitVec 5) (a : BitVec 5) (b : BitVec 5) (m : BitVec 3)
  /-- VISUB: Wrapping integer subtract per element (R166) -/
  | visub (l : VW) (d : BitVec 5) (a : BitVec 5) (b : BitVec 5) (m : BitVec 3)
  /-- VISUB_S: Saturating integer subtract per element (R166) -/
  | visubS (l : VW) (d : BitVec 5) (a : BitVec 5) (b : BitVec 5) (m : BitVec 3)
  /-- VIMUL: Low half of the integer product per element (R166) -/
  | vimul (l : VW) (d : BitVec 5) (a : BitVec 5) (b : BitVec 5) (m : BitVec 3)
  /-- VIMUL_H: High half of the integer product per element (R166) -/
  | vimulH (l : VW) (d : BitVec 5) (a : BitVec 5) (b : BitVec 5) (m : BitVec 3)
  /-- VAND: Bitwise AND per element (R166) -/
  | vand (l : VW) (d : BitVec 5) (a : BitVec 5) (b : BitVec 5) (m : BitVec 3)
  /-- VOR: Bitwise OR per element (R166) -/
  | vor (l : VW) (d : BitVec 5) (a : BitVec 5) (b : BitVec 5) (m : BitVec 3)
  /-- VXOR: Bitwise XOR per element (R166) -/
  | vxor (l : VW) (d : BitVec 5) (a : BitVec 5) (b : BitVec 5) (m : BitVec 3)
  /-- VSHL: Left shift per element by an unmasked count (R166) -/
  | vshl (l : VW) (d : BitVec 5) (a : BitVec 5) (b : BitVec 5) (m : BitVec 3)
  /-- VSHR: Logical right shift per element (R166) -/
  | vshr (l : VW) (d : BitVec 5) (a : BitVec 5) (b : BitVec 5) (m : BitVec 3)
  /-- VSAR: Arithmetic right shift per element (R166) -/
  | vsar (l : VW) (d : BitVec 5) (a : BitVec 5) (b : BitVec 5) (m : BitVec 3)
  /-- VAND_I: Bitwise AND with an immediate (R166) -/
  | vandI (l : VW) (d : BitVec 5) (a : BitVec 5) (i : BitVec 8)
  /-- VOR_I: Bitwise OR with an immediate (R166) -/
  | vorI (l : VW) (d : BitVec 5) (a : BitVec 5) (i : BitVec 8)
  /-- VXOR_I: Bitwise XOR with an immediate (R166) -/
  | vxorI (l : VW) (d : BitVec 5) (a : BitVec 5) (i : BitVec 8)
  /-- VSHL_I: Left shift by an immediate count (R166) -/
  | vshlI (l : VW) (d : BitVec 5) (a : BitVec 5) (i : BitVec 8)
  /-- VSHR_I: Logical right shift by an immediate count (R166) -/
  | vshrI (l : VW) (d : BitVec 5) (a : BitVec 5) (i : BitVec 8)
  /-- VSAR_I: Arithmetic right shift by an immediate count (R166) -/
  | vsarI (l : VW) (d : BitVec 5) (a : BitVec 5) (i : BitVec 8)
  /-- VPERM: Permutes elements by indices in another register (R168) -/
  | vperm (l : VW) (d : BitVec 5) (a : BitVec 5) (b : BitVec 5) (m : BitVec 3)
  /-- VPERM_I: Rotates, broadcasts or exchanges elements by an immediate kind (R168) -/
  | vpermI (l : VW) (d : BitVec 5) (a : BitVec 5) (i : BitVec 8)
  /-- VRED_AX: Reduces across the innermost lift axis and removes it from the tag (R171) -/
  | vredAx (l : VW) (d : BitVec 5) (a : BitVec 5) (o : BitVec 5) (m : BitVec 3)
  /-- VPACK: Narrows two registers' integer elements into one with saturation (R169) -/
  | vpack (l : VW) (d : BitVec 5) (a : BitVec 5) (b : BitVec 5) (m : BitVec 3)
  /-- VUNPK_LO: Widens the low half of the integer elements (R169) -/
  | vunpkLo (l : VW) (d : BitVec 5) (a : BitVec 5) (m : BitVec 3)
  /-- VUNPK_HI: Widens the high half of the integer elements (R169) -/
  | vunpkHi (l : VW) (d : BitVec 5) (a : BitVec 5) (m : BitVec 3)
  /-- VMXQ_E: Chooses an MX block scale for 32 FP32 elements and writes the scale word (R175) -/
  | vmxqE (l : VW) (d : BitVec 5) (a : BitVec 5) (e : BitVec 5) (m : BitVec 3)
  /-- VMXQ_B: Quantises 32 FP32 elements into a packed MX block by a scale word (R176) -/
  | vmxqB (l : VW) (d : BitVec 5) (a : BitVec 5) (b : BitVec 5) (m : BitVec 3)
  /-- VRNG: Writes one generator output block and advances the counter (R180) -/
  | vrng (l : VW) (d : BitVec 5) (m : BitVec 3)
  /-- VRNG_U: Writes uniform values in [0, 1) from one generator block (R180) -/
  | vrngU (l : VW) (d : BitVec 5) (m : BitVec 3)
  /-- MLOG: Applies a logic operation to whole masks (R165) -/
  | mlog (l : VW) (d : BitVec 5) (a : BitVec 5) (b : BitVec 5) (o : BitVec 3)
  /-- VABS: Floating absolute value per element (R159) -/
  | vabs (l : VW) (d : BitVec 5) (a : BitVec 5) (m : BitVec 3)
  /-- VNEG: Floating negation per element (R159) -/
  | vneg (l : VW) (d : BitVec 5) (a : BitVec 5) (m : BitVec 3)
  /-- VRCP: Reciprocal per element, rounded once (R159) -/
  | vrcp (l : VW) (d : BitVec 5) (a : BitVec 5) (m : BitVec 3)
  /-- VRSQ: Reciprocal square root per element (R159) -/
  | vrsq (l : VW) (d : BitVec 5) (a : BitVec 5) (m : BitVec 3)
  /-- VEXP2: Power of two per element (R159) -/
  | vexp2 (l : VW) (d : BitVec 5) (a : BitVec 5) (m : BitVec 3)
  /-- VLOG2: Base-two logarithm per element (R159) -/
  | vlog2 (l : VW) (d : BitVec 5) (a : BitVec 5) (m : BitVec 3)
  /-- VTANH: Hyperbolic tangent per element (R159) -/
  | vtanh (l : VW) (d : BitVec 5) (a : BitVec 5) (m : BitVec 3)
  /-- VMOV: Copies a vector register element by element (R167) -/
  | vmov (l : VW) (d : BitVec 5) (a : BitVec 5) (m : BitVec 3)
  /-- VABS_I: Wrapping integer absolute value per element (R166) -/
  | vabsI (l : VW) (d : BitVec 5) (a : BitVec 5) (m : BitVec 3)
  /-- VNEG_I: Wrapping integer negation per element (R166) -/
  | vnegI (l : VW) (d : BitVec 5) (a : BitVec 5) (m : BitVec 3)
  /-- VRED_ADD: Sums the elements by the fixed tree into element 0 (R170) -/
  | vredAdd (l : VW) (d : BitVec 5) (a : BitVec 5) (m : BitVec 3)
  /-- VRED_MAX: Takes the maximum of the elements by the fixed tree (R170) -/
  | vredMax (l : VW) (d : BitVec 5) (a : BitVec 5) (m : BitVec 3)
  /-- VRED_MIN: Takes the minimum of the elements by the fixed tree (R170) -/
  | vredMin (l : VW) (d : BitVec 5) (a : BitVec 5) (m : BitVec 3)
  /-- VSCAN_ADD: Writes the inclusive prefix sum in a fixed order (R172) -/
  | vscanAdd (l : VW) (d : BitVec 5) (a : BitVec 5) (m : BitVec 3)
  /-- VSCAN_MAX: Writes the inclusive prefix maximum (R172) -/
  | vscanMax (l : VW) (d : BitVec 5) (a : BitVec 5) (m : BitVec 3)
  /-- VIDX: Writes each element's index (R173) -/
  | vidx (l : VW) (d : BitVec 5) (m : BitVec 3)
  /-- TLD: Weak load through an iterator into a load-data queue (R188) -/
  | tld (q : BitVec 2) (k : BitVec 3)
  /-- TLD_R: Weak load through an a register handle and offset (R188) -/
  | tldR (q : BitVec 2) (a : BitVec 5)
  /-- TLDS: Strong load at the home point, optionally an acquire, through an iterator (R188) -/
  | tlds (q : BitVec 2) (k : BitVec 3) (c : BitVec 3) (r : BitVec 1)
  /-- TLDS_R: Strong load through an a register (R188) -/
  | tldsR (q : BitVec 2) (a : BitVec 5) (c : BitVec 3) (r : BitVec 1)
  /-- LOAD_DATA_RETURN: Data of an outstanding load returns and fills its reserved queue entry (R110) -/
  | loadDataReturn (k : Nat) (id : Nat)
  /-- TST: Gated weak store through an iterator, or a reduction store (R189) -/
  | tst (d : BitVec 5) (k : BitVec 3) (e : BitVec 1) (f : BitVec 2)
  /-- TST_R: Gated weak store through an a register (R189) -/
  | tstR (d : BitVec 5) (a : BitVec 5) (e : BitVec 1) (f : BitVec 2)
  /-- TSTS: Gated strong store, optionally a release, through an iterator (R189) -/
  | tsts (d : BitVec 5) (k : BitVec 3) (c : BitVec 3) (r : BitVec 1) (f : BitVec 2)
  /-- TSTS_R: Gated strong store through an a register (R189) -/
  | tstsR (d : BitVec 5) (a : BitVec 5) (c : BitVec 3) (r : BitVec 1) (f : BitVec 2)
  /-- SPLD: Loads from the cluster scratchpad through an iterator (R190) -/
  | spld (q : BitVec 2) (k : BitVec 3)
  /-- SPLD_R: Loads from the cluster scratchpad at a register address (R190) -/
  | spldR (q : BitVec 2) (a : BitVec 5)
  /-- SPST: Gated store to the cluster scratchpad through an iterator (R190) -/
  | spst (d : BitVec 5) (k : BitVec 3) (f : BitVec 2)
  /-- SPST_R: Gated store to the cluster scratchpad at a register address (R190) -/
  | spstR (d : BitVec 5) (a : BitVec 5) (f : BitVec 2)
  /-- REMOTE_SCRATCHPAD_REFUSAL: A peer core refuses a remote scratchpad access and the refusal returns to the requester (R191) -/
  | remoteScratchpadRefusal (k : Nat) (id : Nat)
  /-- AMO_ADD: Atomic add at commit at the home point (R194) -/
  | amoAdd (d : BitVec 5) (k : BitVec 3) (c : BitVec 3) (o : BitVec 2) (w : BitVec 1) (t : BitVec 1)
  /-- AMO_AND: Atomic AND at commit (R194) -/
  | amoAnd (d : BitVec 5) (k : BitVec 3) (c : BitVec 3) (o : BitVec 2) (w : BitVec 1) (t : BitVec 1)
  /-- AMO_OR: Atomic OR at commit (R194) -/
  | amoOr (d : BitVec 5) (k : BitVec 3) (c : BitVec 3) (o : BitVec 2) (w : BitVec 1) (t : BitVec 1)
  /-- AMO_XOR: Atomic XOR at commit (R194) -/
  | amoXor (d : BitVec 5) (k : BitVec 3) (c : BitVec 3) (o : BitVec 2) (w : BitVec 1) (t : BitVec 1)
  /-- AMO_MIN: Atomic minimum at commit (R194) -/
  | amoMin (d : BitVec 5) (k : BitVec 3) (c : BitVec 3) (o : BitVec 2) (w : BitVec 1) (t : BitVec 1)
  /-- AMO_MAX: Atomic maximum at commit (R194) -/
  | amoMax (d : BitVec 5) (k : BitVec 3) (c : BitVec 3) (o : BitVec 2) (w : BitVec 1) (t : BitVec 1)
  /-- AMO_SWP: Atomic swap at commit (R194) -/
  | amoSwp (d : BitVec 5) (k : BitVec 3) (c : BitVec 3) (o : BitVec 2) (w : BitVec 1) (t : BitVec 1)
  /-- CAS: Compare and swap of 4 bytes at commit, returning the old value (R195) -/
  | cas (d : BitVec 5) (k : BitVec 3) (c : BitVec 3) (o : BitVec 2)
  /-- CAS_D: Compare and swap of 8 bytes at commit (R195) -/
  | casD (d : BitVec 5) (k : BitVec 3) (c : BitVec 3) (o : BitVec 2)
  /-- FST: Converts and gates samples to filter words through an iterator (R348) -/
  | fst (d : BitVec 5) (k : BitVec 3) (f : BitVec 2)
  /-- FST_R: Converts and gates samples to filter words through an a register (R348) -/
  | fstR (d : BitVec 5) (a : BitVec 5) (f : BitVec 2)
  /-- FLDT: Reads selected taps of filter words through an iterator, or FSAT with mask 0 (R349) -/
  | fldt (q : BitVec 2) (k : BitVec 3) (t : BitVec 4)
  /-- FLDT_R: Reads selected taps of filter words through an a register (R349) -/
  | fldtR (q : BitVec 2) (a : BitVec 5) (t : BitVec 4)
  /-- APPEND: Gated append of register data to an append page through an iterator (R270) -/
  | append (d : BitVec 5) (k : BitVec 3) (c : BitVec 3) (r : BitVec 1) (t : BitVec 1) (f : BitVec 2)
  /-- APPEND_R: Gated append through an a register (R270) -/
  | appendR (d : BitVec 5) (a : BitVec 5) (c : BitVec 3) (r : BitVec 1) (t : BitVec 1) (f : BitVec 2)
  /-- SEAL: Gated seal of the append page holding the iterator's coordinate (R274) -/
  | seal (k : BitVec 3) (t : BitVec 1)
  /-- SPAN: Sets the span hint of an iterator (R263) -/
  | span (k : BitVec 3) (n : BitVec 6)
  /-- SPAN_CLR: Clears the span hint of an iterator (R263) -/
  | spanClr (k : BitVec 3)
  /-- FLUSHR: Writes back L1 blocks meeting an element range (R264) -/
  | flushr (a : BitVec 5) (b : BitVec 5)
  /-- FLUSHR_D: Writes back L1 and home L2 blocks of a range and resets fully covered pages (R264) -/
  | flushrD (a : BitVec 5) (b : BitVec 5)
  /-- INVR: Discards L1 blocks of a range, optionally invalidating its translation (R264) -/
  | invr (a : BitVec 5) (b : BitVec 5) (t : BitVec 1)
  /-- INVR_TT: Invalidates a tensor's descriptor and tile-table entries everywhere (R264) -/
  | invrTt (a : BitVec 5)
  /-- INVALIDATION_COMPLETE: A translation invalidation completes once no layout unit holds the old mapping and its accesses have performed (R248) -/
  | invalidationComplete (k : Nat)
  /-- PREF: Asks that 128 bytes be placed in the L1 (R197) -/
  | pref (k : BitVec 3)
  /-- PREF_L2: Asks that 128 bytes be placed in the home L2 (R197) -/
  | prefL2 (k : BitVec 3)
  /-- FENCE: Full fence for CORE and FILT accesses at a scope (R79) -/
  | fence (c : BitVec 3)
  /-- FENCE_ST: Orders stores only at a scope (R79) -/
  | fenceSt (c : BitVec 3)
  /-- XFENCE: Orders completed accesses of one path class before later ones of another (R81) -/
  | xfence (x : BitVec 3) (y : BitVec 3)
  /-- DRAIN: Fences and holds the next bundle until committed accesses are performed at a scope (R79) -/
  | drain (c : BitVec 3)
  /-- DRAIN_COMPLETE: Every committed CORE and FILT access is performed and the held bundle may issue (R79) -/
  | drainComplete (k : Nat)
  /-- AITER_H: Sets an iterator's handle and base coordinate, clearing strides and hints (R184) -/
  | aiterH (k : BitVec 3) (a : BitVec 5)
  /-- AITER_B: Sets two base coordinates of an iterator (R184) -/
  | aiterB (k : BitVec 3) (a : BitVec 5) (h : BitVec 1)
  /-- AITER_S: Sets a stride pair of an iterator for one loop position (R184) -/
  | aiterS (k : BitVec 3) (a : BitVec 5) (j : BitVec 3) (h : BitVec 1)
  /-- AITER_RD: Reads a word of iterator state into an a register (R184) -/
  | aiterRd (d : BitVec 5) (k : BitVec 3) (c : BitVec 5)
  /-- AIREV: Sets an iterator's reverse mask (R184) -/
  | airev (k : BitVec 3) (m : BitVec 6)
  /-- TDSC: Writes an iterator's handle and current offset to an a register (R199) -/
  | tdsc (d : BitVec 5) (k : BitVec 3)
  /-- TDSC_Q: Pushes a descriptor word into qs (R199) -/
  | tdscQ (c : BitVec 4) (a : BitVec 5)
  /-- TDSC_W: Privileged gated write of a descriptor word (R199) -/
  | tdscW (c : BitVec 4) (a : BitVec 5) (b : BitVec 5)
  /-- XCALL: Starts a truss routine by immediate number, capturing fmt and x registers (R300) -/
  | xcall (r : BitVec 6)
  /-- XCALL_R: Starts a truss routine whose number is in an x register (R300) -/
  | xcallR (a : BitVec 5)
  /-- XSET: Writes a sign-extended immediate to an x register (R301) -/
  | xset (d : BitVec 5) (i : BitVec 13)
  /-- XSET_R: Writes an x register plus an immediate (R301) -/
  | xsetR (d : BitVec 5) (a : BitVec 5) (i : BitVec 8)
  /-- XZERO: Writes +0 to every element of a tile (R302) -/
  | xzero (d : BitVec 5)
  /-- XZERO_ALL: Writes +0 to every tile (R302) -/
  | xzeroAll
  /-- XACC: Adds one tile into another (R303) -/
  | xacc (d : BitVec 5) (a : BitVec 5)
  /-- XACC_SUB: Subtracts one tile from another (R303) -/
  | xaccSub (d : BitVec 5) (a : BitVec 5)
  /-- XACC_MOV: Copies one tile to another (R303) -/
  | xaccMov (d : BitVec 5) (a : BitVec 5)
  /-- XDCY: Scales a tile by an immediate decay factor (R303) -/
  | xdcy (d : BitVec 5) (i : BitVec 13)
  /-- XDCY_R: Scales a tile by a decay factor from an x register (R303) -/
  | xdcyR (d : BitVec 5) (a : BitVec 5)
  /-- XSPL: Spills a tile image to scratchpad through the call queue (R304) -/
  | xspl (t : BitVec 5) (x : BitVec 5)
  /-- XFIL: Fills a tile from eight qx entries (R304) -/
  | xfil (d : BitVec 5)
  /-- XWAIT: Holds until at most n calls are outstanding, then returns ACCSAT (R305) -/
  | xwait (d : BitVec 5) (n : BitVec 13)
  /-- XWAIT_ALL: Holds until no call is outstanding (R305) -/
  | xwaitAll
  /-- XWAIT_RELEASE: Outstanding calls fall to the waited count and the held bundle proceeds, reporting refused accesses (R305) -/
  | xwaitRelease (k : Nat)
  /-- XLDM: Privileged reload and check of the microprogram store (R306) -/
  | xldm (a : BitVec 5)
  /-- CALL_QUEUE_START: The next call-queue entry of a core begins on the truss after its predecessor ends (R284) -/
  | callQueueStart (c : Nat)
  /-- ROUTINE_END: A routine's MEND has issued and its gathers, stores and MMACs have finished (R285) -/
  | routineEnd (c : Nat)
  /-- ESCL: Writes 16 edge scale latches of a side and block from two e registers (R308) -/
  | escl (w : BitVec 1) (k : BitVec 3) (a : BitVec 5) (b : BitVec 5)
  /-- ESCL_I: Writes one E8M0 code to 16 latches of a side and block (R308) -/
  | esclI (w : BitVec 1) (k : BitVec 3) (c : BitVec 8)
  /-- ESCM: Loads the group's scale memory from an n32 tensor (R308) -/
  | escm (a : BitVec 5) (b : BitVec 5)
  /-- ESCM_ST: Gated store of scale memory into an n32 tensor (R308) -/
  | escmSt (a : BitVec 5) (b : BitVec 5)
  /-- EBFX: Loads the context's bit-field extraction pattern (R369) -/
  | ebfx (a : BitVec 5)
  /-- EBFX_CLR: Clears the extraction pattern (R369) -/
  | ebfxClr
  /-- CPY: Gated nested-loop copy command (R368) -/
  | cpy (a : BitVec 5)
  /-- CPY_BF: Gated copy that cuts a packed source into fields (R370) -/
  | cpyBf (a : BitVec 5)
  /-- CPYW: Waits until at most n copy commands are outstanding and returns the status word (R374) -/
  | cpyw (d : BitVec 5) (n : BitVec 3)
  /-- CPYW_ALL: Waits until no copy command is outstanding (R374) -/
  | cpywAll
  /-- CPYW_RELEASE: Outstanding copy commands fall to the waited count and the held bundle proceeds (R374) -/
  | cpywRelease (k : Nat)
  /-- COPY_COMMAND_START: A committed copy or export command starts on the die's copy engine (R362) -/
  | copyCommandStart (k : Nat) (id : Nat)
  /-- COPY_COMPLETE: A copy command's reads and writes finish and its result merges into the copy status word (R372) -/
  | copyComplete (k : Nat) (id : Nat)
  /-- PUT: Gated write of bytes to a peer scratchpad, optionally with a flag (R383) -/
  | put (a : BitVec 5)
  /-- PUT_H: Gated put that writes a flag and starts a handler on the target core (R384) -/
  | putH (a : BitVec 5)
  /-- PUT_SMP: Gated put that delivers samples to a remote filter bank (R385) -/
  | putSmp (a : BitVec 5)
  /-- PUTM: Gated multicast put to every other member of a group (R386) -/
  | putm (a : BitVec 5)
  /-- PUTM_S: Strict multicast put that faults if any member denies (R386) -/
  | putmS (a : BitVec 5)
  /-- COLL_AR: Gated all-reduce over a group (R394) -/
  | collAr (a : BitVec 5)
  /-- COLL_RS: Gated reduce-scatter over a group (R394) -/
  | collRs (a : BitVec 5)
  /-- COLL_AG: Gated all-gather over a group (R394) -/
  | collAg (a : BitVec 5)
  /-- COLL_RSF: Gated reduce-scatter by sampling into the owners' filter banks (R395) -/
  | collRsf (a : BitVec 5)
  /-- COLLW: Waits until at most n fabric commands are outstanding and returns the status word (R388) -/
  | collw (d : BitVec 5) (n : BitVec 3)
  /-- COLLW_RELEASE: Outstanding fabric commands fall to the waited count and the held bundle proceeds (R388) -/
  | collwRelease (k : Nat)
  /-- GRP: Gated formation of a group in a slot from a member list (R393) -/
  | grp (a : BitVec 5) (b : BitVec 5)
  /-- GRP_EX: Gated removal of a member from a group, incrementing EPOCH (R393) -/
  | grpEx (a : BitVec 5)
  /-- GRP_Q: Reads a group header or member device into an e register (R393) -/
  | grpQ (d : BitVec 5) (a : BitVec 5)
  /-- SEMS: Gated release that adds a register value to a semaphore (R416) -/
  | sems (a : BitVec 5) (b : BitVec 5)
  /-- SEMS_I: Gated release that adds an immediate to a semaphore (R416) -/
  | semsI (d : BitVec 5) (i : BitVec 13)
  /-- SEMW: Waits for and consumes a register count from a semaphore (R417) -/
  | semw (a : BitVec 5) (b : BitVec 5)
  /-- SEMW_I: Waits for and consumes an immediate count from a semaphore (R417) -/
  | semwI (d : BitVec 5) (i : BitVec 13)
  /-- SEMW_ACQUIRE: A waiting SEMW reaches the head with enough count, consumes it and acquires (R417) -/
  | semwAcquire (k : Nat)
  /-- QPUSH: Gated enqueue of a launch packet read from a tensor into a queue from a register (R418) -/
  | qpush (a : BitVec 5) (b : BitVec 5)
  /-- QPUSH_I: Gated enqueue of a launch packet into an immediate queue (R418) -/
  | qpushI (d : BitVec 5) (q : BitVec 8)
  /-- FTICK: Gated tick of a filter bank sent to all planers (R352) -/
  | ftick (a : BitVec 5)
  /-- FTICK_W: Gated tick that holds later commits until the tick is completed (R352) -/
  | ftickW (a : BitVec 5)
  /-- FDISC: Gated discard of the open tick's samples in a whole bank (R353) -/
  | fdisc (a : BitVec 5)
  /-- FDISC_R: Gated discard of the open tick over a range of words (R353) -/
  | fdiscR (a : BitVec 5) (b : BitVec 5)
  /-- FEXP: Gated export of one tap of a bank range to an append page in the bank's export format (R354) -/
  | fexp (d : BitVec 5) (a : BitVec 5) (b : BitVec 5)
  /-- FEXP_F: Gated export of one tap in a format given in the command (R354) -/
  | fexpF (d : BitVec 5) (a : BitVec 5) (b : BitVec 5)
  /-- FBANK: Privileged gated install of a new bank descriptor (R355) -/
  | fbank (a : BitVec 5) (b : BitVec 5)
  /-- FBANK_RD: Privileged read, and optional clear, of a bank's saturation flag (R356) -/
  | fbankRd (d : BitVec 5) (a : BitVec 5) (c : BitVec 1)
  /-- EMON_ST: Gated start or restart of a monitor (R449) -/
  | emonSt (a : BitVec 5)
  /-- EMON_SP: Gated stop of a monitor (R449) -/
  | emonSp (a : BitVec 5)
  /-- EMON_RD: Reads a monitor word into an e register (R449) -/
  | emonRd (d : BitVec 5) (a : BitVec 5)
  /-- ROLLBACK: The context waits for its routines, restores registers and snapshot, and resumes after its last mark (R222) -/
  | rollback (k : Nat)
  /-- TRANSLATION_FAULT_REPORT: A layout unit reports a translation fault for an access after issue (R247) -/
  | translationFaultReport (k : Nat) (id : Nat)
  /-- ABORT_COMPLETION: An abort completion for uncorrectable data or a moving region returns to a load's context (R191) -/
  | abortCompletion (k : Nat) (id : Nat)
  /-- L1_FILL: A fill returns and installs the merged span block in the L1 set (R256) -/
  | l1Fill (k : Nat) (id : Nat)
  /-- PAGE_RECLASSIFY: Another agent's access to a private page makes the owner write back and the page become shared (R259) -/
  | pageReclassify (f : Nat)
  /-- INVALIDATION_ARRIVAL: A directory invalidation reaches a reader L1 and drops the block holding the sector (R261) -/
  | invalidationArrival (c : Nat) (f : Nat) (x : Nat)
  /-- APPEND_RESERVATION: A committed append reaches the page's home and reserves space or is refused (R270) -/
  | appendReservation (k : Nat) (id : Nat)
  /-- COMMIT_ADVANCE: A reservation's bytes are all written and the commit pointer advances over the written run (R272) -/
  | commitAdvance (p : Nat) (id : Nat)
  /-- SEAL_AT_HOME: A committed seal reaches the home, moving the page to Sealing (R274) -/
  | sealAtHome (k : Nat) (id : Nat)
  /-- SEAL_COMPLETE: COMMIT reaches TAIL and the page becomes Sealed with its translation invalidated (R274) -/
  | sealComplete (p : Nat)
  /-- REPLICA_COPY: A die finishes copying a remote sealed page into its replica pool and retranslates it (R276) -/
  | replicaCopy (die : Nat) (f : Nat)
  /-- MIGRATION_REQUEST: A migration engine takes a request to move a host-shared page (R250) -/
  | migrationRequest (die : Nat) (h : Nat) (tile : Nat) (dir : Bool) (l : Nat)
  /-- MIGRATION_ACK: The driver acknowledges a revocation and the page copy to the device begins (R251) -/
  | migrationAck (seq : Nat)
  /-- MIGRATION_ACK_TIMEOUT: No acknowledgement arrives within 1 ms and the migration is refused (R251) -/
  | migrationAckTimeout (seq : Nat)
  /-- MIGRATION_COPY_DONE: The page copy ends and ownership and the tile entry are updated (R251) -/
  | migrationCopyDone (seq : Nat)
  /-- MIGRATION_HOLD_EXPIRE: The 10 µs minimum hold with a new owner expires and a reverse move may start (R250) -/
  | migrationHoldExpire (f : Nat)
  /-- SAMPLE_ACCEPT: A planer accepts a sample: catches the word up, then steps it or adds to ACC (R323) -/
  | sampleAccept (k : Nat) (pl : Nat)
  /-- TAP_READ_ACCEPT: A planer reads taps of a run of words at one point of its acceptance order (R349) -/
  | tapReadAccept (k : Nat) (pl : Nat)
  /-- FTICK_ACCEPT: A planer accepts an FTICK, increments its tick count and queues a sweep (R324) -/
  | ftickAccept (k : Nat) (pl : Nat)
  /-- SWEEP_VISIT: A sweep visits the next words of a bank and catches them up (R326) -/
  | sweepVisit (pl : Nat)
  /-- TICK_COMPLETE: All planers have swept a tick and its cascade samples are accepted (R327) -/
  | tickComplete (b : Nat)
  /-- FDISC_ACCEPT: A planer catches words up and zeroes their accumulators (R328) -/
  | fdiscAccept (k : Nat) (pl : Nat)
  /-- CASCADE_DELIVERY: A new q2 is delivered as a sample to the cascade bank's word (R329) -/
  | cascadeDelivery (pl : Nat)
  /-- FBANK_ACCEPT: A planer ends queued sweeps, catches up, resets stamps and installs a bank image (R355) -/
  | fbankAccept (k : Nat) (pl : Nat)
  /-- FABRIC_ARRIVAL: An arrival is checked against the grant table and written, sampled or refused (R380) -/
  | fabricArrival (m : FabMsg)
  /-- HOLD_NOTICE: A hold notice reaches a requester and stops its acknowledgement timeout (R377) -/
  | holdNotice (k : Nat) (id : Nat × Nat)
  /-- ARRIVAL_WAIT_EXPIRE: An arrival for a job with no running launch waits 100 µs and is refused (R377) -/
  | arrivalWaitExpire (job : BitVec 16)
  /-- FABRIC_ACK: An acknowledgement or refusal returns and the fabric command completes with its code (R383) -/
  | fabricAck (k : Nat) (id : Nat) (code : BitVec 8) (sub : BitVec 8) (pos : Nat)
  /-- PUT_ACK_TIMEOUT: No acknowledgement, refusal or hold notice arrives within 100 µs; the PUT completes with code 6 (R383) -/
  | putAckTimeout (k : Nat) (id : Nat)
  /-- HANDLER_START: A handler arrival starts the lowest Dormant context of the launch on the target core (R98) -/
  | handlerStart (c : Nat)
  /-- COLL_INPUT_ARRIVAL: A round's input arrives; a complete round sends the next round or finishes (R396) -/
  | collInputArrival (m : FabMsg)
  /-- COLL_ROUND_TIMEOUT: TMO expires with an input missing and the member enters Abort, notifying all members (R396) -/
  | collRoundTimeout (k : Nat) (id : Nat)
  /-- LOST_MEMBER_NOTICE: A lost-member notice arrives and the member enters Abort (R396) -/
  | lostMemberNotice (m : FabMsg)
  /-- COLL_ABORT_TIMEOUT: TMO after entering Abort expires and the collective completes with code 8 (R396) -/
  | collAbortTimeout (k : Nat) (id : Nat)
  /-- FLIT_RECEIVE: A flit is received, checked by CRC and sequence, delivered or discarded (R398) -/
  | flitReceive (port : Nat) (header : BitVec 12 × BitVec 12) (ok : Bool) (payload : List Byte)
  /-- REPLAY_REQUEST: A link-control replay request makes the sender resend from the missing flit (R398) -/
  | replayRequest (port : Nat) (seq : BitVec 12)
  /-- LANE_RETIRE: A lane that fails training or reaches 8 replays in 1 ms is retired and spared or narrowed (R399) -/
  | laneRetire (port : Nat) (lane : Nat)
  /-- LAUNCH_PACKET: The last word of a 256-byte packet lands in a launch window and the packet is queued or discarded (R404) -/
  | launchPacket (q : BitVec 8 × Nat) (ws : List W64)
  /-- DISPATCH_PASS: The distributor serves queues by priority, checks waits and placement, and starts instances (R408) -/
  | dispatchPass
  /-- PREEMPTION_TIMEOUT: The pre-emption window expires before a MARK and the instance is terminated (R114) -/
  | preemptionTimeout (i : Nat)
  /-- CONTEXT_SAVE: Once every context has stopped, accesses drain, engines finish and state is written to save areas (R115) -/
  | contextSave (i : Nat)
  /-- LAUNCH_COMPLETION: A launch completes; the completion word is written and signal actions performed (R412) -/
  | launchCompletion (l : Nat)
  /-- CLASSIFIER_WINDOW_END: The 50 µs measurement of a kernel's first launch ends and it is classified (R410) -/
  | classifierWindowEnd (l : Nat)
  /-- DEBUG_BREAK: A breakpoint or watchpoint halts the core before a bundle issues (R232) -/
  | debugBreak (k : Nat) (unit : Nat)
  /-- DEBUG_HALT_COMMAND: Debug command OP 1 halts the named core (R435) -/
  | debugHaltCommand (c : Nat)
  /-- DEBUG_RESUME_COMMAND: Debug command OP 2 resumes the named core (R435) -/
  | debugResumeCommand (c : Nat)
  /-- DEBUG_ACCESS_COMMAND: Debug command OP 3 reads or writes a register of a halted core (R435) -/
  | debugAccessCommand
  /-- FEATURE_NEGOTIATION: Setting GO makes the device compare DRVFEAT with DEVFEAT and report OK or FAIL (R437) -/
  | featureNegotiation
  /-- ATTESTATION: Setting ATT makes the device write and sign an attestation report (R441) -/
  | attestation
  /-- VF_APERTURE_FLUSH: Writing FLUSH discards cached aperture entries of a VF (R436) -/
  | vfApertureFlush (v : Nat)
  /-- HOST_BAR_ACCESS: A host read or write through the device-memory aperture (R433) -/
  | hostBarAccess (fn : Nat × Nat) (write : Bool) (off : Nat) (n : Nat) (bytes : List Byte)
  /-- QUEUE_CONTROL_WRITE: A write of a queue control entry, ignored if it changes ownership of a busy queue (R438) -/
  | queueControlWrite (q : BitVec 8) (word : Nat) (val : W64) (fn : Nat)
  /-- CONFIGURATION_WORD_WRITE: A write of the distribution mode, taken only before the first launch after reset (R434) -/
  | configurationWordWrite (val : W64)
  /-- CAP_WRITE: A write of the power cap, clamped to its limits (R446) -/
  | capWrite (val : W64)
  /-- POWER_CAP_RAMP: Each millisecond the applied cap moves towards CAP by at most RAMP (R446) -/
  | powerCapRamp
  /-- UNCORRECTABLE_ERROR: An uncorrectable error withholds data, aborts the requester, logs and raises MSI-X vector 1 (R443) -/
  | uncorrectableError (src : BitVec 8 × Nat) (die : BitVec 8) (addr : BitVec 48) (req : Nat) (id : Nat)
  /-- CORRECTED_SUMMARY: After 1,024 corrected events or one second, a summary entry is logged (R443) -/
  | correctedSummary (src : BitVec 8 × Nat) (die : BitVec 8) (addr : BitVec 48) (count : W32)
  /-- MONITOR_SAMPLE: A running monitor takes a sample and updates its statistics and bucket (R447) -/
  | monitorSample (m : Nat) (v : W32)
  /-- MANAGEMENT_RESET: MRST RESET ends launches, clears queues and state and repeats power-up steps 5 to 8 (R451) -/
  | managementReset
  /-- QUIESCE: MRST QUIESCE trains the ports down, requests link removal and sets SAFE (R450) -/
  | quiesce
  /-- PCIE_LINK_LOSS: The PCIe link is lost for more than 1 ms and every launch is terminated (R450) -/
  | pcieLinkLoss
  /-- POWER_UP: The device runs the power-up sequence from supplies good to mailbox ready (R452) -/
  | powerUp
  /-- POWER_LOSS: Module or board power is lost and no device state survives (R452) -/
  | powerLoss
  /-- REGISTER_WRITE: A write to a management register with no behaviour of its own (R434) -/
  | registerWrite (off : Nat) (val : W64)
  /-- VOID_BUNDLE: A bundle made only of void slots issues, merges with any other bundle, counts towards the fmt shadow and enters the segment path (R22) -/
  | voidBundle
  /-- UNASSIGNED_OPCODE: A non-void slot whose lane and opcode are unassigned raises a precise illegal-instruction trap when its bundle is decoded (R36) -/
  | unassignedOpcode
  /-- CALL_QUEUE_ENTRY_END: An XSPL, XLDM, ESCM or ESCM.ST entry of the call queue finishes, ceasing to be an outstanding call and freeing the truss for the next entry (R284) -/
  | callQueueEntryEnd (c : Nat)
  /-- STORE_PERFORM_AT_HOME: A committed store reaches its home point and performs there at a single moment, after which the directory sends its invalidations (R85) -/
  | storePerformAtHome (k : Nat) (id : Nat)
  deriving DecidableEq, Repr

/-- A non-void slot: the stop bit, the guarding predicate and the form (R17). -/
structure Slot where
  stop : Bool
  guard : BitVec 4
  ins : Instr
  deriving DecidableEq, Repr

end Sys2Proof
end

