-- ==== Sys2Proof/Machine/State.lean ====
section
/-!
DEFINITION. Sys2Proof/Machine/State.lean: the state of one D4, all of it, as plain data; the ways a
step can stop; the state after reset.

Numbers.  A core is its physical number 64 c + n (cluster c, core n in the cluster, R6); a context is
`4 core + k` (R96).  Code addresses are byte offsets into the kernel's code (R117).  Memory addresses
are those of Mem.lean: device memory, then the scratchpads of the cores, then host memory.
-/

namespace Sys2Proof.Machine

/-- Why the machine stops with a fault. -/
inductive Fault where
  /-- An access to a device address at or above 0x60_0000 frames, which R236 says does not exist, or
  past the end of a scratchpad.  Raised by the reads and writes of device memory in Mem.lean.  Safe:
  the spec gives no effect, and the model goes no further. -/
  | noSuchAddress (addr : Nat)
  deriving DecidableEq, Repr

/-- Why the machine refuses an instruction. -/
inductive Refusal where
  /-- The arm of Dispatch.lean holds no meaning for the row of this mnemonic.  Raised by Dispatch.lean
  alone.  Safe: nothing is claimed of the instruction. -/
  | notModelled (mnemonic : String)
  deriving DecidableEq, Repr

/-! ### Registers -/

/-- A register with its valid bit (R99). -/
structure Reg (w : Nat) where
  valid : Bool
  val : BitVec w
  deriving DecidableEq, Repr

/-- A V, W, mask or tile register: valid bit, axis tag, example 0, and the copies of examples 1
upwards that lift backing holds for it (R200, R203). -/
structure TReg (w : Nat) where
  valid : Bool
  tag : BitVec 3
  val : BitVec w
  copies : List (BitVec w)
  deriving DecidableEq, Repr

/-- An address iterator (R107, R117): `str` holds stride j, d at key 4 j + d, absent entries are 0. -/
structure Iter where
  valid : Bool
  handle : BitVec 16
  b0 : W32
  b1 : W32
  b2 : W32
  b3 : W32
  str : AMap W32
  rev : BitVec 6
  span : BitVec 6
  deriving DecidableEq, Repr

/-- A coordinate of up to four dimensions (R182). -/
structure Coord where
  c0 : Int
  c1 : Int
  c2 : Int
  c3 : Int
  deriving DecidableEq, Repr

/-- A level of the loop stack (R104, R108, R109). -/
structure Level where
  start : W32
  stop : W32
  count : W32
  index : W32
  rot : Bool
  depthE : Nat
  deriving DecidableEq, Repr

/-- An entry of the lift axis stack (R200, R208). -/
structure LiftEnt where
  n : Nat
  ret : W32
  ldp : Nat
  deriving DecidableEq, Repr

/-- An open masked region (R212): the part running and its active examples. -/
structure Region where
  elsePart : Bool
  active : BitVec 64
  deriving DecidableEq, Repr

/-- An entry of a load-data queue (R110 to R112): the load that fills it, the bundle and segment that
reserved it, and the data once filled.  `gated` entries fill only after a commit (R196); `tag`
is fixed when the entry is reserved (R207, R209); `kept` entries are popped but held for a
replay. -/
structure QEnt (w : Nat) where
  id : Nat
  bundle : Nat
  old : Bool
  gated : Bool
  kept : Bool
  readyAt : Nat
  data : Option (BitVec w)
  tag : BitVec 3
  copies : List (BitVec w)
  deriving DecidableEq, Repr

/-! ### Accesses and gated effects -/

/-- Where an access goes: an element of a tensor, or bytes of a physical core's scratchpad. -/
inductive Place where
  | tensor (h : BitVec 16) (at' : Coord)
  | scr (core off : Nat)
  deriving DecidableEq, Repr

/-- The operation of an AMO (R194). -/
inductive AmoOp where
  | add | and | or | xor | min | max | swp
  deriving DecidableEq, Repr

/-- What a load reads (R188, R190, R199, R349). -/
inductive LoadKind where
  /-- Elements of a tensor at each example's coordinate, one element or 1,024 bits. -/
  | elems (h : BitVec 16) (at' : List Coord)
  /-- Bytes of another core's scratchpad. -/
  | peer (core off : Nat)
  /-- A descriptor word (TDSC.Q). -/
  | desc (h : BitVec 16) (sel : Nat)
  /-- Taps of filter words (FLDT), at each example's coordinate: tap mask, fmt and generator as the
  slot captured them. -/
  | taps (h : BitVec 16) (at' : List Coord) (mask : BitVec 4) (fmt : W32) (key ctr : W64)
  deriving DecidableEq, Repr

/-- A load in flight.  `seq` is its place in program order, `got` the data once read from an L1 fill,
`span` the predicted length (R255). -/
structure Load where
  id : Nat
  q : BitVec 2
  seq : Nat
  kind : LoadKind
  strong : Bool
  acq : Bool
  scope : BitVec 3
  pc : W32
  span : BitVec 6
  got : Option (List VBits)
  deriving DecidableEq, Repr

/-- A copy command as its slot read it (R363, R370): pattern of CPY.BF where present. -/
structure CopyCmd where
  src : W64
  dst : W64
  counts : List Nat
  ssc : Nat
  dsc : Nat
  sstr : List Int
  dstr : List Int
  pat : Option W64
  deriving DecidableEq, Repr

/-- An export command (R354): destination, bank, range, tap and format as its slot read them. -/
structure ExpCmd where
  dst : W64
  src : W64
  count : Nat
  tap : BitVec 2
  fmt : BitVec 4
  deriving DecidableEq, Repr

/-- The fabric commands (R382 to R395). -/
inductive FabOp where
  | put | putH | putSmp | putm | putmS | ar | rs | ag | rsf
  deriving DecidableEq, Repr

/-- A fabric command as its slot read it: the group, and VS where it is captured (R61). -/
structure FabCmd where
  op : FabOp
  g0 : W64
  g1 : W64
  g2 : W64
  g3 : W64
  vs : BitVec 4
  deriving DecidableEq, Repr

/-- A gated effect (R77, R220): what waits in the gate buffer for the next MARK. -/
inductive Eff where
  | store (p : Place) (vec : Bool) (data : VBits) (strong rel : Bool) (scope : BitVec 3)
  | amo (op : AmoOp) (h : BitVec 16) (at' : Coord) (wide : Bool) (y : W64) (ret : Option Nat) (ord : BitVec 2)
      (scope : BitVec 3)
  | cas (h : BitVec 16) (at' : Coord) (wide : Bool) (exp new : W64) (ret : Nat) (ord : BitVec 2) (scope : BitVec 3)
  | fst (h : BitVec 16) (at' : Coord) (xs : List (Option Int))
  | append (h : BitVec 16) (at' : Coord) (size : Nat) (data : VBits) (ret : Option Nat) (rel : Bool) (scope : BitVec 3)
  | seal (h : BitVec 16) (at' : Coord) (ret : Option Nat)
  /-- CKPT: the key and counter after its bundle, once that has ended (R225). -/
  | ckpt (off : Nat) (gen : Option (W64 × W64))
  | ckrs (off : Nat)
  | tdscW (h : BitVec 16) (sel : Nat) (val : W64)
  | escmSt (h : BitVec 16) (off idx cnt : Nat)
  | cpy (c : CopyCmd)
  | fexp (c : ExpCmd)
  | fab (c : FabCmd)
  | grp (slot : BitVec 4) (members : List (BitVec 8)) (self tmo : Nat)
  | grpEx (slot : BitVec 4) (pos : Nat)
  | sems (idx : Nat) (v : W32)
  | qpush (h : BitVec 16) (off : Nat) (q : BitVec 8) (priv : Bool)
  | ftick (h : BitVec 16) (wait : Bool)
  | fdisc (h : BitVec 16) (start cnt : Nat)
  /-- FBANK: the image's address, and the image as its MARK checked it (R355). -/
  | fbank (h : BitVec 16) (img : Nat) (ws : Option (List W64))
  | emonSt (m : BitVec 4)
  | emonSp (m : BitVec 4)
  deriving DecidableEq, Repr

/-- One entry of the gate buffer: the effect, its place in program order, and its bundle's address. -/
structure GateEnt where
  eff : Eff
  seq : Nat
  pc : W32
  deriving DecidableEq, Repr

/-- An entry of the shadow log (R221): the old value of one register, iterator, mask or tile, or of
the predicate file. -/
inductive Saved where
  | c (i : Nat) (r : Reg 32)
  | a (i : Nat) (r : Reg 64)
  | s (i : Nat) (r : Reg 64)
  | e (i : Nat) (r : Reg 64)
  | x (i : Nat) (r : Reg 64)
  | v (i : Nat) (r : TReg 1024)
  | w (i : Nat) (r : TReg 1024)
  | m (i : Nat) (r : TReg 128)
  | t (i : Nat) (r : TReg 8192)
  | k (i : Nat) (r : Iter)
  | p (f : AMap (Reg 1))
  deriving DecidableEq, Repr

/-- What a context waits for between two bundles. -/
inductive Wait where
  | none
  /-- DRAIN (R79). -/
  | drain
  /-- INVR with T = 1, INVR.TT: the invalidation of R248 with a number. -/
  | inval (id : Nat)
  /-- XWAIT: destination and count; XWAIT.ALL without destination (R305). -/
  | xwait (d : Option (BitVec 5)) (n : Nat)
  /-- CPYW and CPYW.ALL (R374). -/
  | cpyw (d : Option (BitVec 5)) (n : Nat)
  /-- COLLW (R388). -/
  | collw (d : BitVec 5) (n : Nat)
  /-- SEMW: absolute index and value (R417). -/
  | semw (idx : Nat) (v : W32)
  /-- The commit of a MARK, held by an entry that cannot commit yet (R219, R352, R362, R383, R418). -/
  | commit
  /-- PARK and HALT waiting for loads and commands (R129, R228). -/
  | park
  | halt
  /-- JOIN (R224). -/
  | join (g : BitVec 4) (members : Nat)
  /-- XLDM until the store is written (R306). -/
  | xldm
  /-- PHASE: the new size, once the loads in flight have returned (R132). -/
  | phase (n : Nat)
  /-- A rollback that waits for the truss (R222). -/
  | rewind
  deriving DecidableEq, Repr

/-- The states of a context (R96). -/
inductive CtxState where
  | free | dormant | active | stopping | saved | halted | ended
  deriving DecidableEq, Repr

/-- A trap or fault before it is posted: class, subcode, precision, slot position, and the fields of
the fault record it supplies (R230, R231). -/
structure Trap where
  cls : Nat
  sub : Nat
  precise : Bool
  slot : Nat
  handle : BitVec 16
  at' : Coord
  value : W64
  deriving DecidableEq, Repr

/-- The service frame (R226). -/
structure Frame where
  ret : W32
  c12 : Reg 32
  c13 : Reg 32
  c14 : Reg 32
  c15 : Reg 32
  fmt : W32
  pend : W32
  cd : Nat
  depth : Nat
  priv : Bool
  deriving DecidableEq, Repr

/-- What a fence orders (R78, R79, R81, R86). -/
inductive FenceKind where
  | full | st | acq | x (a b : BitVec 3)
  deriving DecidableEq, Repr

/-- A fence of the context: its place in program order, the place of the last mark when it issued, what it
orders and its scope; whether the invalidations that it applies as an acquire have been applied (R82). -/
structure Fence where
  seq : Nat
  markSeq : Nat
  kind : FenceKind
  scope : BitVec 3
  met : Bool
  deriving DecidableEq, Repr

/-- The mark snapshot (R221); `preds` is the predicate file, which the sequencer changes without a log
entry (R109). -/
structure Snapshot where
  pc : W32
  loops : List Level
  rb : Nat
  fmt : W32
  pend : W32
  cd : Nat
  lifts : List LiftEnt
  key : W64
  ctr : W64
  rounds : AMap (BitVec 16)
  preds : AMap (Reg 1)
  deriving DecidableEq, Repr

/-- The register files of a context (R9, R99).  S, V and W are held by physical register (R108). -/
structure Files where
  c : AMap (Reg 32)
  a : AMap (Reg 64)
  s : AMap (Reg 64)
  e : AMap (Reg 64)
  x : AMap (Reg 64)
  p : AMap (Reg 1)
  v : AMap (TReg 1024)
  w : AMap (TReg 1024)
  m : AMap (TReg 128)
  t : AMap (TReg 8192)
  k : AMap Iter
  deriving DecidableEq, Repr

/-- The load-data queues of a context, heads first (R110). -/
structure Queues where
  qs : List (QEnt 64)
  qv : List (QEnt 1024)
  qw : List (QEnt 1024)
  qx : List (QEnt 1024)
  deriving DecidableEq, Repr

/-- The sequencer of a context: program counter, the address after the bundle in issue, the loop stack
outermost first, the rotation base, the lift stack outermost first, the masked region, fmt with its
shadow (R59, R63, R104 to R109, R200, R212). -/
structure Seqr where
  pc : W32
  npc : W32
  after : W32
  loops : List Level
  rb : Nat
  lifts : List LiftEnt
  region : Option Region
  fmt : W32
  pend : W32
  cd : Nat
  deriving DecidableEq, Repr

/-- The open segment and what a rollback needs (R216 to R223). -/
structure Segment where
  id : BitVec 14
  checked : Bool
  count : BitVec 16
  crc : W32
  expCount : BitVec 16
  expCrc : W32
  rewound : Bool
  abortedOnce : Bool
  rewinding : Bool
  semTaken : List (Nat × W32)
  log : List Saved
  snap : Snapshot
  deriving DecidableEq, Repr

/-- Is a copy or fabric command under way?  The stages an engine takes it through. -/
inductive Stage where
  /-- Committed, not started. -/
  | queued
  /-- Running; a fabric command has left. -/
  | running
  /-- A collective in Abort, with the lowest lost position and its device (R396). -/
  | abort (pos dev : Nat)
  deriving DecidableEq, Repr

/-- A committed copy or FEXP command (R362): its reservation (FEXP), the taps read so far by word; an orphan is
one whose context has parked since (R129). -/
structure CopyRun where
  id : Nat
  seq : Nat
  stage : Stage
  cpy : Option CopyCmd
  exp : Option ExpCmd
  resv : Option (Nat × Nat)
  got : AMap W32
  code : BitVec 8
  sub : BitVec 8
  info : W32
  orphan : Bool
  deriving DecidableEq, Repr

/-- A committed fabric command (R383, R394, R396): the group as its commit found it and its number `k` among the
collectives there (R421); the round, the inputs by round and position, the elements known so far, the positions
still unanswered and those of them that sent a hold notice (R377), the denial mask. -/
structure FabRun where
  id : Nat
  seq : Nat
  stage : Stage
  cmd : FabCmd
  epoch : BitVec 8
  k : Nat
  members : List (BitVec 8)
  self : Nat
  round : Nat
  inputs : List (Nat × Nat × List Byte)
  acc : AMap W32
  pending : List Nat
  heldPos : List Nat
  denied : W32
  code : BitVec 8
  sub : BitVec 8
  orphan : Bool
  deriving DecidableEq, Repr

/-- The commands and accesses of a context outside it, and the marks left for it (R77, R284, R305,
R362, R372, R383, R387).  `now` is the core's clock when the bundle in issue issues, `gath` the tick of the last
XFENCE CORE, GATH (R309, R427). -/
structure Flight where
  now : Nat
  seq : Nat
  markSeq : Nat
  bundle : Nat
  gate : List GateEnt
  commits : List GateEnt
  loads : List Load
  fences : List Fence
  calls : List Nat
  seenCalls : List Nat
  trussFault : Option Trap
  copies : List CopyRun
  fabs : List FabRun
  copyStat : W64
  fabStat : W64
  pattern : Option W64
  ckrs : Option (W64 × W64)
  gath : Nat
  deriving DecidableEq, Repr

/-- A context slot of a core (R96): `atLaunch` where the launch started it (R97).  `more` are further waits of the bundle
that began `wait`.  `avail` is the scoreboard: the clock from which a register's pending result may be read, by
register key (R100, R135). -/
structure Ctx where
  st : CtxState
  launch : Nat
  inst : Nat
  icore : Nat
  atLaunch : Bool
  priv : Bool
  files : Files
  queues : Queues
  sq : Seqr
  seg : Segment
  fl : Flight
  key : W64
  ctr : W64
  rounds : AMap (BitVec 16)
  fsat : Bool
  accsat : Bool
  frame : Option Frame
  wait : Wait
  more : List Wait
  nextIssue : Nat
  starve : Nat
  avail : AMap Nat
  deriving DecidableEq, Repr

/-! ### Cores -/

/-- A span block (R253): bay, first and last sector, dirty and used sectors, the predictor entry of
the load that filled it, the last use, and the bytes of the bay (L1 only; the L2's data is the
memory's). -/
structure Block where
  bay : Nat
  lo : Nat
  hi : Nat
  dirty : W32
  used : W32
  pred : Nat
  last : Nat
  data : TBits
  deriving DecidableEq, Repr

/-- What a call-queue entry does (R284); the load of a store keeps the address of its XLDM's bundle and its slot. -/
inductive CallKind where
  | routine (r : BitVec 6) (fmt : W32) (xs : List W64) (tag : BitVec 3) (exs : List Nat)
  | spill (t : BitVec 5) (addr : W64)
  | load (h : BitVec 16) (off : Nat) (pc : W32) (slot : Nat)
  | scaleLoad (h : BitVec 16) (off idx cnt : Nat)
  | scaleStore (h : BitVec 16) (off idx cnt : Nat)
  deriving DecidableEq, Repr

/-- An entry of a core's call queue; `seq` is its place in program order, `busy` are the tiles it keeps busy (R281), `issued` its clock. -/
structure Call where
  id : Nat
  ctx : Nat
  seq : Nat
  kind : CallKind
  busy : BitVec 16
  issued : Nat
  deriving DecidableEq, Repr

/-- A level of a routine's micro-loops (R293). -/
structure MLevel where
  start : Nat
  last : Nat
  count : Nat
  index : Nat
  deriving DecidableEq, Repr

/-- The entry the truss is running: next micro-word, micro-loops innermost first, the example and
those still to run, the next block of an MMAC under way, the clock from which the array is free, and
what it met (R285, R286, R289). -/
structure Run where
  call : Call
  pc : Nat
  loops : List MLevel
  ex : Nat
  rest : List Nat
  blk : Nat
  freeAt : Nat
  refused : Bool
  starved : Bool
  done : Bool
  deriving DecidableEq, Repr

/-- A PHASE under way on a core (R132): old and new scratchpad size, the context, the clock it ends. -/
structure Phase where
  oldSize : Nat
  newL1 : Nat
  ctx : Nat
  endAt : Nat
  deriving DecidableEq, Repr

/-- A core (R6, R96, R255, R283 to R298).  `latch` is keyed 128 side + 8 index + block and reads 1.0
where absent; `buf` is keyed 32 side + 16 buffer + row; `esclQ` holds latch writes with the clock they
take effect at (R297).  `smemOld` holds, by context and call and newest first, the scale words that an ESCM replaced, until
an XWAIT covers it (R298). -/
structure Core where
  clk : Nat
  l1n : Nat
  phase : Option Phase
  store : AMap W64
  image : List (Nat × Nat)
  buf : AMap VBits
  latch : AMap (BitVec 20)
  esclQ : List (Nat × Nat × BitVec 20)
  smem : AMap W32
  smemOld : List (Nat × Nat × AMap W32)
  callQ : List Call
  run : Option Run
  lastEnd : Nat
  arrQ : List (Nat × Nat × W32)
  divFree : Nat
  laneFree : AMap Nat
  l1 : AMap (List Block)
  pred : AMap (BitVec 6)
  quarantined : Bool
  halted : Option (Nat × Nat)
  resumed : Option Nat
  deriving DecidableEq, Repr

/-! ### Memory path -/

/-- A range descriptor of the directory (R260). -/
structure RangeDesc where
  whole : Bool
  base : Nat
  stride : Nat
  count : Nat
  width : Nat
  deriving DecidableEq, Repr

/-- The class of a page (R259), and the readers of a shared one (R260). -/
structure PageDir where
  cls : Option (Option Nat)
  readers : AMap (List RangeDesc)
  deriving DecidableEq, Repr

/-- A committed CORE effect on its way to its home (R77, R85).  `owed` is 0, or the code and 1 of the widest
scope narrower than .dev at which an access that has performed stands after it (R78, R95). -/
structure OutOp where
  ctx : Nat
  launch : Nat
  id : Nat
  seq : Nat
  eff : Eff
  pc : W32
  owed : Nat := 0
  deriving DecidableEq, Repr

/-- A reservation of an append page (R272): the page's state word, frame, offset, size; the bytes to be
written; the context of an APPEND, none of an export; whether its bytes are in the page; the place of the APPEND, and the
scope at which its context has released it before it is performed (R95). -/
structure Resv where
  page : Nat
  frame : Nat
  off : Nat
  len : Nat
  data : List Byte
  ctx : Option Nat
  id : Nat
  written : Bool
  seq : Nat
  owed : Nat := 0
  deriving DecidableEq, Repr

/-- A seal that waits at its page's home (R274): state word, tile entry, who asked, where TAIL goes, its place, and the scope
at which its context has released it before it is performed (R95). -/
structure SealRun where
  page : Nat
  entry : Nat
  ctx : Nat
  id : Nat
  ret : Option Nat
  seq : Nat
  owed : Nat := 0
  deriving DecidableEq, Repr

/-- A replica of a sealed page (R276): die, home frame, local frame, last read; `ready` once copied. -/
structure Replica where
  die : Nat
  home : Nat
  loc : Nat
  last : Nat
  ready : Bool
  deriving DecidableEq, Repr

/-- The stages of a migration (R251). -/
inductive MigStage where
  | waiting | revoked | copying | holding
  deriving DecidableEq, Repr

/-- Who asked for a migration: a context by the access that faulted, an engine command by path class and number, or
the driver. -/
inductive Asker where
  | ctx (k : Nat) (h : BitVec 16) (at' : Coord)
  | cmd (k : Nat) (cls : BitVec 3) (id : Nat)
  | driver
  deriving DecidableEq, Repr

/-- A migration of one host-shared page (R250 to R252): its own number, and the SEQ of its ring entry. -/
structure Mig where
  seq : Nat
  ring : W32
  askers : List Asker
  entry : Nat
  launch : Nat
  tenant : BitVec 10
  handle : BitVec 16
  tile : Nat
  toHost : Bool
  stage : MigStage
  deriving DecidableEq, Repr

/-- Writes not yet performed for every agent: of an engine command (R81), or a store of a context that gathers may not
see yet (R309), of class CORE.  The context, the path class, the command, the tick, whether a wait form has seen it
complete, whether an MSYNC of the routine has passed it (R294), the old bytes of the cells it wrote, and the contexts
that have read a new byte by a strong load, with its address (R84). -/
structure EWrite where
  ctx : Nat
  cls : BitVec 3
  id : Nat
  at' : Nat
  seen : Bool
  synced : Bool
  cells : List (Nat × Byte)
  known : List (Nat × Nat)
  deriving DecidableEq, Repr

/-- Whose invalidation by R248: of a form of a context, of a page that a SEAL closes, of a migration. -/
inductive InvalFor where
  | ctx (k : Nat)
  | seal (page : Nat)
  | mig (seq : Nat)
  deriving DecidableEq, Repr

/-- An invalidation by R248 that has not completed: its number, the descriptor and tile-table words that it takes from
the layout units, as address and length, the tile entries among them, and for an append tensor the state words of the
tiles' pages and the frames of those that it frees (R278). -/
structure Inval where
  id : Nat
  who : InvalFor
  words : List (Nat × Nat)
  entries : List Nat
  pages : List Nat
  frames : List Nat := []
  deriving DecidableEq, Repr

/-- The memory path outside the cores. -/
structure MemPath where
  lu : AMap W64
  l2 : AMap (List Block)
  dirs : AMap PageDir
  invals : List (Nat × Nat × Nat)
  outs : List OutOp
  resvs : List Resv
  seals : List SealRun
  replicas : List Replica
  migs : List Mig
  migSeq : AMap W32
  unperf : List EWrite
  pend : List Inval
  deriving DecidableEq, Repr

/-! ### Planers -/

/-- A FILT operation on its way to the planers, in commit order of its context (R331, R343). -/
inductive FKind where
  /-- Samples: word index and value for each word. -/
  | samples (xs : List (Nat × Int))
  /-- A tick, by the ticket of its completion. -/
  | tick (ticket : Nat)
  | discard (start cnt : Nat)
  | bank (img : List W64)
  | read (load : Nat)
  | taps (cmd : Nat)
  deriving DecidableEq, Repr

/-- One FILT operation: who issued it, the bank (its descriptor's address), the tensor's handle and
launch, and the planers that have still to accept it. -/
structure FOp where
  ctx : Nat
  launch : Nat
  seq : Nat
  bank : Nat
  handle : BitVec 16
  kind : FKind
  todo : List Nat
  deriving DecidableEq, Repr

/-- A queued sweep of a bank at a planer (R326): the tick it serves, the next word of the home. -/
structure Sweep where
  bank : Nat
  tick : BitVec 16
  ticket : Nat
  next : Nat
  deriving DecidableEq, Repr

/-- What a planer keeps for a bank (R324, R346, R355): its tick count, its BSAT, the image installed by
FBANK, the words of the bank in its home in ascending order. -/
structure BankState where
  t : BitVec 16
  bsat : Bool
  img : Option (List W64)
  tensor : BitVec 16
  launch : Nat
  deriving DecidableEq, Repr

/-- A planer (R317 to R331): its banks by descriptor address, its sweeps, and the cascade samples it has
still to deliver (cascade bank, handle, launch, word index, sample, ticket of the tick). -/
structure Planer where
  banks : AMap BankState
  sweeps : List Sweep
  casc : List (Nat × BitVec 16 × Nat × Nat × Int × Nat)
  deriving DecidableEq, Repr

/-- A tick not yet completed (R327): ticket, bank, the context that issued it, whether an FTICK.W waits, planers to
sweep. -/
structure Tick where
  ticket : Nat
  bank : Nat
  ctx : Nat
  waits : Bool
  todo : List Nat
  deriving DecidableEq, Repr

/-! ### Fabric -/

/-- A group descriptor (R392). -/
structure Group where
  epoch : BitVec 8
  tmo : Nat
  self : Nat
  members : List (BitVec 8)
  deriving DecidableEq, Repr

/-- A fabric port (R398, R399, R434): lanes, spare, width, sequence numbers, the replay buffer (flits
by sequence number), the flits that a full buffer holds back, each with the message that it ends, the flits sent again,
the payloads delivered, the replay it asks for, replays since read. -/
structure Port where
  active : BitVec 9
  retired : BitVec 9
  spare : Bool
  narrowed : Bool
  down : Bool
  replays : W32
  txSeq : BitVec 12
  rxSeq : BitVec 12
  replay : List (BitVec 12 × List Byte)
  queue : List (List Byte × Option FabMsg)
  resent : List (BitVec 12 × List Byte)
  rx : List (List Byte)
  ask : Option (BitVec 12)
  deriving DecidableEq, Repr

/-! ### Distributor -/

/-- A launch (R404, R405, R412), as its packet and image gave it; `first` while it is the first of its kernel and not measured
yet (R410). -/
structure Launch where
  queue : Nat
  tenant : BitVec 10
  img : Nat
  codeSize : Nat
  handlers : Nat
  tab : Nat
  tabLen : Nat
  grants : List (BitVec 128)
  mprog : Nat
  segTab : Nat
  segLen : Nat
  ctxSave : Nat
  scrSave : Nat
  compl : Nat
  service : Option W32
  window : Nat
  seed : W64
  semBase : Nat
  semCnt : Nat
  signals : List (Nat × W32)
  words : List W64
  job : BitVec 16
  priv : Bool
  npre : Bool
  n : Nat
  need : Nat
  fault : Bool
  aborted : Bool
  abortCode : BitVec 13
  abortInst : Nat
  running : Bool
  bytes : Nat
  ops : Nat
  first : Bool
  deriving DecidableEq, Repr

/-- A joint's round at a group (R224): members of the round and the contexts arrived, by round. -/
structure Joint where
  members : Nat
  arrived : List Nat
  deriving DecidableEq, Repr

/-- A cluster instance (R406): its launch and number, its cluster and first partition where placed,
the abort line with the clocks of the cores when it rose, the context whose ABORT set the code, the group slots, the
collectives committed by slot and EPOCH (R421), the joints by group and round, and the
pre-emption under way (R114) or save (R115); of a saved instance, by core, the words its store was loaded
from, its L1 size (R313) and the arrivals that wait (R98), and by context its state, whether the launch
started it, and the tags of its queue entries (R203, R209). -/
structure Inst where
  launch : Nat
  idx : Nat
  cluster : Nat
  p0 : Nat
  need : Nat
  placed : Bool
  abort : Option (AMap Nat)
  abortBy : Nat
  groups : AMap Group
  colls : AMap Nat
  joints : AMap Joint
  stopping : Bool
  saved : Bool
  started : Nat
  images : AMap (List (Nat × Nat))
  splits : AMap Nat
  kept : AMap (CtxState × Bool)
  qtags : AMap (List (BitVec 3))
  waiting : AMap (List (Nat × Nat × W32))
  deriving DecidableEq, Repr

/-- A command queue of the distributor (R403, R408): its FIFO, and its previous launch. -/
structure Queue where
  fifo : List (List W64)
  prev : Option Nat
  deriving DecidableEq, Repr

/-- The class of a kernel (R410). -/
inductive KClass where
  | compute | memory | balanced
  deriving DecidableEq, Repr

/-- The distributor (R403 to R417); `windows` holds word i of the launch window of queue q at key 32 q + i. -/
structure Dist where
  queues : AMap Queue
  windows : AMap W64
  sems : AMap W32
  waiters : AMap (List (Nat × W32))
  launches : AMap Launch
  nextLaunch : Nat
  insts : AMap Inst
  resumes : List Nat
  lastServed : AMap Nat
  seqNo : Nat
  classes : List (Nat × KClass)
  everLaunched : Bool
  doneJobs : List (BitVec 16)
  deriving DecidableEq, Repr

/-! ### Management -/

/-- The ordering codes (R1). -/
inductive Part where
  | dk4p | dk4m
  deriving DecidableEq, Repr

/-- A firmware image in the device flash (R439, R452): its version, its bytes and its signature. -/
structure FwImage where
  version : Nat
  data : List Byte
  signature : List Byte
  deriving DecidableEq, Repr

/-- Management and host link (R433 to R452).  `part` is the ordering code and `dev` the device's number in its domain
(R378).  The device flash holds the firmware `images`, the public key `fwKey` they are verified against, the next leaf
indices `idLeaf` and `attLeaf` of the two XMSS keys and the port lane maps; the fuses hold `keyDigest` and `minVersion` (R439,
R440, R452).  `booted` says whether the power-up has passed its last step, `features` which features negotiation has enabled
(R437), `removal` whether removal of the PCIe link has been asked for (R450), and `stamp` is the last time stamp of the error
log (R444).  `bar0` holds the registers of the PF's BAR0 by offset, and past them the boot mailboxes of the VFs; an absent one reads as
`bar0Reset` says.
`bad` are addresses whose data an uncorrectable error withholds from the next arrival (R380, R443).  `msix` lists the
MSI-X messages raised, function and vector, oldest first (R433); `barData` is what the last host read of a BAR returned. -/
structure Mgmt where
  part : Part
  dev : Nat
  images : List FwImage
  fwKey : List Byte
  keyDigest : BitVec 256
  minVersion : Nat
  laneMaps : AMap W64
  booted : Bool
  features : W64
  removal : Bool
  stamp : Nat
  bad : List Nat
  powered : Bool
  linkUp : Bool
  bar0 : AMap W64
  dbgData : TBits
  apCache : AMap W64
  applied : Nat
  idLeaf : Nat
  attLeaf : Nat
  attReport : List Byte
  corrected : AMap Nat
  msix : List (Nat × Nat)
  barData : List Byte
  deriving DecidableEq, Repr

/-- What the bundle in issue hands to its slots, and what they hand back (R25, R77): position, the other
instructions of the bundle whose guards are true, its words; `held` when a slot cannot issue yet, `trap` the trap
taken, `late` the fault of a bundle in service that its end takes (R226, R231), `dropped` the tags of the registers that
its LRET has cleared, by register key (R202, R207). -/
structure Issue where
  pos : Nat
  others : List Instr
  held : Bool
  trap : Option Trap
  late : Option Trap
  words : List Nat
  dropped : AMap (BitVec 3)
  deriving DecidableEq, Repr

/-- The whole machine. -/
structure State where
  /-- Steps taken: the model's own count, from which free choices are drawn. -/
  tick : Nat
  /-- The count of free values drawn: the model's own. -/
  free : Nat
  /-- The next number for loads, commands and tickets: the model's own. -/
  nextId : Nat
  /-- The context in issue, or that an event concerns. -/
  focus : Nat
  issue : Issue
  /-- What the outside has sent and the machine has not yet taken. -/
  inputs : List Instr
  /-- Messages and flits the machine has sent to peers, oldest first. -/
  outbox : List FabMsg
  /-- Arrivals held for a job that has not started, or for a command not yet committed (R377, R394). -/
  heldMsgs : List FabMsg
  mem : List Host.Cell
  ctxs : AMap Ctx
  cores : AMap Core
  mp : MemPath
  fops : List FOp
  planers : AMap Planer
  ticks : List Tick
  ports : AMap Port
  dist : Dist
  mg : Mgmt
  deriving DecidableEq, Repr

/-! ### Reset -/

def Coord.zero : Coord := ⟨0, 0, 0, 0⟩

def Files.empty : Files := ⟨[], [], [], [], [], [], [], [], [], [], []⟩

def Queues.empty : Queues := ⟨[], [], [], []⟩

def Seqr.zero : Seqr := ⟨0, 0, 0, [], 0, [], none, 0, 0, 0⟩

def Snapshot.zero : Snapshot := ⟨0, [], 0, 0, 0, 0, [], 0, 0, [], []⟩

/-- No segment open: the unchecked segment of a context's start (R216). -/
def Segment.start : Segment :=
  { id := 0, checked := false, count := 0, crc := 0xFFFFFFFF, expCount := 0, expCrc := 0, rewound := false,
    abortedOnce := false, rewinding := false, semTaken := [], log := [], snap := Snapshot.zero }

def Flight.empty : Flight :=
  { now := 0, seq := 0, markSeq := 0, bundle := 0, gate := [], commits := [], loads := [], fences := [], calls := [],
    seenCalls := [], trussFault := none, copies := [], fabs := [], copyStat := 0, fabStat := 0, pattern := none,
    ckrs := none, gath := 0 }

/-- A context slot that holds no context (R96). -/
def Ctx.free : Ctx :=
  { st := .free, launch := 0, inst := 0, icore := 0, atLaunch := false, priv := false, files := Files.empty,
    queues := Queues.empty, sq := Seqr.zero, seg := Segment.start, fl := Flight.empty, key := 0, ctr := 0,
    rounds := [], fsat := false, accsat := false, frame := none, wait := .none, more := [], nextIssue := 0, starve := 0,
    avail := [] }

/-- A core after reset: the default split of R407 and R451, everything else clear (R288, R452). -/
def Core.clear : Core :=
  { clk := 0, l1n := 2, phase := none, store := [], image := [], buf := [], latch := [], esclQ := [],
    smem := [], smemOld := [], callQ := [], run := none, lastEnd := 0, arrQ := [], divFree := 0, laneFree := [], l1 := [],
    pred := [], quarantined := false, halted := none, resumed := none }

def MemPath.empty : MemPath := ⟨[], [], [], [], [], [], [], [], [], [], [], []⟩

def Planer.empty : Planer := ⟨[], [], []⟩

/-- A port after training: eight lanes active, one spare (R8, R399). -/
def Port.trained : Port := ⟨0xFF, 0, false, false, false, 0, 0, 0, [], [], [], [], none⟩

def Queue.empty : Queue := ⟨[], none⟩

/-- No launch: what an unlisted number reads as; nothing runs under it. -/
def Launch.none : Launch :=
  { queue := 0, tenant := 0, img := 0, codeSize := 0, handlers := 0, tab := 0, tabLen := 0, grants := [],
    mprog := 0, segTab := 0, segLen := 0, ctxSave := 0, scrSave := 0, compl := 0, service := .none, window := 100,
    seed := 0, semBase := 0, semCnt := 0, signals := [], words := [], job := 0, priv := false, npre := false,
    n := 0, need := 0, fault := false, aborted := false, abortCode := 0, abortInst := 0, running := false, bytes := 0, ops := 0,
    first := false }

/-- No instance. -/
def Inst.none : Inst :=
  { launch := 0, idx := 0, cluster := 0, p0 := 0, need := 0, placed := false, abort := .none, abortBy := 0, groups := [],
    colls := [], joints := [], stopping := false, saved := false, started := 0, images := [], splits := [], kept := [],
    qtags := [], waiting := [] }

def Dist.empty : Dist := ⟨[], [], [], [], [], 1, [], [], [], 0, [], false, []⟩

/-- The reset value of CAP, in W: the ceiling of the cap (R446). -/
def Part.cap : Part → Nat
  | .dk4p => 1100
  | .dk4m => 1500

/-- What a register of the PF's BAR0 reads before anything is written (R434 to R448): the features
offered (log entry 7), the replica pools, the cap, window and ramp of power, free FIFO entries and
trained ports are the ones that are not zero. -/
def bar0Reset (p : Part) (off : Nat) : W64 :=
  if off = 0 then 0x3F
  else if 0x1000 ≤ off ∧ off < 0x3000 ∧ off % 32 = 0 then 16
  else if 0x5208 ≤ off ∧ off < 0x5228 ∧ off % 8 = 0 then 131072
  else if off = 0x7000 then BitVec.ofNat 64 p.cap
  else if off = 0x7008 then 10
  else if off = 0x7010 then 50
  else if 0xA000 ≤ off ∧ off < 0xA060 ∧ off % 8 = 0 then 0xFF
  else 0

/-- The ordering code, the device number and what the device flash and the fuses hold are the model's choice: R1 and R378
allow either code and 0 to 143, and R439 and R440 give no image, key or count of used leaves (log entries 9 and 69). -/
def Mgmt.reset : Mgmt :=
  { part := .dk4m, dev := 0, images := [⟨0, [], []⟩], fwKey := [], keyDigest := 0, minVersion := 0, laneMaps := [], booted := true, features := 0,
    removal := false, stamp := 0, bad := [], powered := true, linkUp := true, bar0 := [], dbgData := 0, apCache := [],
    applied := 1500, idLeaf := 1, attLeaf := 0, attReport := [], corrected := [], msix := [], barData := [] }

def Issue.idle : Issue := ⟨1, [], false, none, none, [], []⟩

/-- The machine right after reset: the power-up of R452 has run to step 8, all memory is clear, no
launch is placed and every context slot is free.  A program comes to run only by a launch (log
entry 8). -/
def State.reset : State :=
  { tick := 0, free := 0, nextId := 1, focus := 0, issue := Issue.idle, inputs := [], outbox := [],
    heldMsgs := [], mem := [], ctxs := [], cores := [], mp := MemPath.empty, fops := [], planers := [],
    ticks := [], ports := [], dist := Dist.empty, mg := Mgmt.reset }

end Sys2Proof.Machine
end

