-- ==== Sys2Proof/Machine/Mem.lean ====
section
/-!
DEFINITION. Sys2Proof/Machine/Mem.lean: memory as one sparse table of bytes, its canonical form, and
the address map (R3, R6, R190, R236, R249).

Device memory takes the addresses below `devTop`; the scratchpad of physical core c starts at
`scrBase + 0x8_0000 c`; host physical memory starts at `hostBase`.  A byte that nothing has written
reads as zero: power-up clears SRAM and device memory (R452); for host memory this is log entry 11.
-/

namespace Sys2Proof.Machine

/-- The end of device memory: 0x60_0000 frames of 64 KiB (R236). -/
def devTop : Nat := 0x600000 * 0x10000
def scrBase : Nat := 2 ^ 48
/-- 512 KiB of SRAM per core (R6). -/
def scrBytes : Nat := 0x80000
def numCores : Nat := 1024
def hostBase : Nat := 2 ^ 64
def hostTop : Nat := 2 ^ 65

/-- The byte at an address: 0 where none is listed. -/
def Mem.get : List Host.Cell → Nat → Byte
  | [], _ => 0
  | (j, b) :: t, a => if j = a then b else Mem.get t a

/-- The memory with one byte written, in canonical form again. -/
def Mem.put : List Host.Cell → Nat → Byte → List Host.Cell
  | [], a, b => if b = 0 then [] else [(a, b)]
  | (j, c) :: t, a, b =>
    if j = a then (if b = 0 then t else (a, b) :: t)
    else if a < j then (if b = 0 then (j, c) :: t else (a, b) :: (j, c) :: t)
    else (j, c) :: Mem.put t a b

/-- Canonical form: addresses strictly rising from `lo`, and no listed byte is zero. -/
def Mem.wfFrom : Nat → List Host.Cell → Bool
  | _, [] => true
  | lo, (j, b) :: t => decide (lo ≤ j) && (b != 0) && Mem.wfFrom (j + 1) t

/-- Canonical form of a memory. -/
def Mem.wf (m : List Host.Cell) : Bool := Mem.wfFrom 0 m

/-- `n` bytes at `a`, as a little-endian number (R3). -/
def Mem.getN (m : List Host.Cell) (a : Nat) : Nat → Nat
  | 0 => 0
  | n + 1 => (Mem.get m a).toNat + 256 * Mem.getN m (a + 1) n

/-- `n` bytes of the number `v` written at `a`, little-endian. -/
def Mem.putN (m : List Host.Cell) (a v : Nat) : Nat → List Host.Cell
  | 0 => m
  | n + 1 => Mem.putN (Mem.put m a (BitVec.ofNat 8 v)) (a + 1) (v / 256) n

/-- Bytes written where the mask has ones: cells of address, value, mask. -/
def Mem.putCells (m : List Host.Cell) : List (Nat × Byte × Byte) → List Host.Cell
  | [] => m
  | (a, b, k) :: t => Mem.putCells (Mem.put m a ((Mem.get m a &&& ~~~k) ||| (b &&& k))) t

/-- The memory without the bytes at `lo` to `lo + n - 1`: they read as zero. -/
def Mem.clearRange (m : List Host.Cell) (lo n : Nat) : List Host.Cell :=
  m.filter (fun c => !(decide (lo ≤ c.1) && decide (c.1 < lo + n)))

/-- The bytes of a little-endian number. -/
def leBytes (v : Nat) : Nat → List Byte
  | 0 => []
  | n + 1 => BitVec.ofNat 8 v :: leBytes (v / 256) n

/-- The number a list of bytes stands for, little-endian. -/
def ofBytes : List Byte → Nat
  | [] => 0
  | b :: t => b.toNat + 256 * ofBytes t

/-- Is there memory at the `n` bytes from `a`? -/
def addrOk (a n : Nat) : Bool :=
  decide (a + n ≤ devTop)
    || (decide (scrBase ≤ a) && decide (a + n ≤ scrBase + numCores * scrBytes))
    || (decide (hostBase ≤ a) && decide (a + n ≤ hostTop))

/-- The address of a byte of a physical core's scratchpad. -/
def scrAddr (core off : Nat) : Nat := scrBase + core * scrBytes + off

/-- The die a core stands on: four clusters of 64 cores (R6). -/
def coreDie (core : Nat) : Nat := core / 256
/-- The die that homes a device address (R236). -/
def addrDie (a : Nat) : Nat := a / 0x1800000000
/-- The channel, and planer, of a device address (R236). -/
def addrChannel (a : Nat) : Nat := 12 * addrDie a + a % 0x1800000000 / 2048 % 12

end Sys2Proof.Machine
end

