-- ==== Sys2Proof/Machine/Block.lean ====
section
/-!
DEFINITION. Sys2Proof/Machine/Block.lean: span blocks and the sets that hold them (R253, R256, R257).
-/

namespace Sys2Proof.Machine

/-! ### Bays, sectors and sets (R253) -/

/-- The L1's sets. -/
def Core.sets (c : Core) : Nat := 32 * c.l1n

def bayOf (a : Nat) : Nat := a / 1024
def sectorOf (a : Nat) : Nat := a % 1024 / 32
def frameOf (a : Nat) : Nat := a / 65536
/-- The sector of an address within its page, 0 to 2,047. -/
def pageSector (a : Nat) : Nat := a % 65536 / 32

def Block.holds (b : Block) (bay sec : Nat) : Bool := b.bay == bay && decide (b.lo ≤ sec) && decide (sec ≤ b.hi)
def Core.set (x : Core) (bay : Nat) : List Block := if x.sets = 0 then [] else x.l1.get [] (bay % x.sets)

/-- The block that holds a sector. -/
def Core.blockAt (x : Core) (a : Nat) : Option Block := findBy (fun b => b.holds (bayOf a) (sectorOf a)) (x.set (bayOf a))

/-! ### Blocks (R253, R256, R257) -/

def Block.len (b : Block) : Nat := b.hi - b.lo + 1
/-- Bits lo to hi of a mask of sectors. -/
def sectorMask (lo hi : Nat) : W32 := BitVec.ofNat 32 (2 ^ (hi + 1) - 2 ^ lo)
/-- The bits of a bay image that belong to sectors lo to hi. -/
def dataMask (lo hi : Nat) : TBits := BitVec.ofNat 8192 (2 ^ (256 * (hi + 1)) - 2 ^ (256 * lo))
def Block.meets (b : Block) (bay lo hi : Nat) : Bool := b.bay == bay && decide (b.lo ≤ hi) && decide (lo ≤ b.hi)

/-- Is every sector lo to hi of a bay held (R256 case 1)? -/
def covered (set : List Block) (bay lo hi : Nat) : Bool :=
  (List.range (hi + 1 - lo)).all fun i => set.any fun b => b.holds bay (lo + i)

/-- The least recently used block, the first of equals (R257). -/
def lruOf (bs : List Block) : Option Block :=
  match bs with
  | [] => none
  | b :: t => match lruOf t with
    | none => some b
    | some c => if c.last < b.last then some c else some b

/-- Free a tag and `need` sector slots by evicting: the blocks kept and those evicted. -/
def evict (tags slots need : Nat) : Nat → List Block → List Block → List Block × List Block
  | 0, bs, out => (bs, out)
  | n + 1, bs, out =>
    if bs.length < tags ∧ (bs.map Block.len).sum + need ≤ slots then (bs, out)
    else match lruOf bs with
      | none => (bs, out)
      | some v => evict tags slots need n (delBy (fun b => b == v) bs) (out ++ [v])

/-- The end of the wanted range after the trim of R256 case 3. -/
def trimEnd (hs : List Block) (s e wEnd : Nat) : Nat :=
  hs.foldl (fun w b => if decide (b.lo ≤ e) && decide (s ≤ b.hi) then w
                       else if s ≤ b.hi ∧ b.lo ≤ w ∧ s < b.lo then min w (b.lo - 1) else w) wEnd

/-- Insert the block that sectors s to e of a bay demand, with predicted length L (R256, R257): the new
set and the evicted blocks.  `img` is the next level's image of the bay. -/
def insertBlock (tags slots : Nat) (set : List Block) (bay s e L now pred : Nat) (img : TBits) :
    List Block × List Block :=
  let hs := set.filter fun b => b.bay == bay
  if covered set bay s e then (set, [])
  else
    let wEnd := trimEnd hs s e (min (max e (s + L - 1)) 31)
    let ms := hs.filter fun b => b.meets bay s e
    let lo := ms.foldl (fun x b => min x b.lo) s
    let hi := ms.foldl (fun x b => max x b.hi) wEnd
    let held := ms.foldl (fun m b => m ||| dataMask b.lo b.hi) 0
    let data := ms.foldl (fun d b => d ||| (b.data &&& dataMask b.lo b.hi)) (img &&& dataMask lo hi &&& ~~~held)
    let n : Block :=
      { bay := bay, lo := lo, hi := hi, dirty := ms.foldl (fun d b => d ||| b.dirty) 0,
        used := ms.foldl (fun d b => d ||| b.used) 0, pred := pred, last := now, data := data }
    let others := set.filter fun b => !b.meets bay s e
    let (kept, out) := evict tags slots n.len (others.length + 1) others []
    (kept ++ [n], out)

end Sys2Proof.Machine
end

