-- ==== Sys2Proof/Machine/Ops.lean ====
section
/-!
DEFINITION. Sys2Proof/Machine/Ops.lean: the named operations of the machine: the two monads in which
meanings are written, access to contexts, cores and memory, and taking an exception.

A meaning runs to its end, or it ends early in one of three ways (`Halt`): it traps, and the exception
is taken; its bundle cannot issue yet, and the state keeps only a note of that; or it touches an
address that does not exist, and the machine stops.
-/

namespace Sys2Proof.Machine

/-- How a meaning ends early. -/
inductive Halt where
  | trap (t : Trap)
  | hold
  | stop (f : Fault)
  deriving DecidableEq, Repr

/-- Meanings over the context in issue alone. -/
abbrev CM := StateT Ctx (Except Halt)
/-- Meanings over the whole machine. -/
abbrev M := StateT State (Except Halt)

/-- A precise trap of a class and subcode (R230); the step fills in the slot. -/
def Trap.mk' (cls sub : Nat) : Trap :=
  { cls := cls, sub := sub, precise := true, slot := 0, handle := 0, at' := Coord.zero, value := 0 }

/-- The trap at the slot in issue. -/
def Trap.placed (t : Trap) (pos : Nat) : Trap := { t with slot := if t.precise then pos else 0 }

def CM.trap {α : Type} (cls sub : Nat) : CM α := throw (.trap (Trap.mk' cls sub))
def M.trap {α : Type} (cls sub : Nat) : M α := throw (.trap (Trap.mk' cls sub))
def CM.hold {α : Type} : CM α := throw .hold
def M.hold {α : Type} : M α := throw .hold

/-- Classes of traps (R230). -/
def clsEncoding : Nat := 1
def clsIllegal : Nat := 2
def clsPrivilege : Nat := 3
def clsInvalid : Nat := 4
def clsQueue : Nat := 5
def clsControl : Nat := 6
def clsAccess : Nat := 7
def clsLift : Nat := 8
def clsSegment : Nat := 9
def clsTranslation : Nat := 10
def clsGrant : Nat := 11
def clsSealed : Nat := 12
def clsData : Nat := 13
def clsTimeout : Nat := 14
def clsTrap : Nat := 15

/-- Trap unless the condition holds. -/
def CM.need (b : Bool) (cls sub : Nat) : CM Unit := if b then pure () else CM.trap cls sub
def M.need (b : Bool) (cls sub : Nat) : M Unit := if b then pure () else M.trap cls sub

/-- A trap whose record carries a value (R231). -/
def M.trapV {α : Type} (cls sub : Nat) (v : W64) : M α := throw (.trap { Trap.mk' cls sub with value := v })
/-- A trap whose record carries a handle and coordinate (R231). -/
def M.trapAt {α : Type} (cls sub : Nat) (h : BitVec 16) (x : Coord) : M α :=
  throw (.trap { Trap.mk' cls sub with handle := h, at' := x })
def CM.trapV {α : Type} (cls sub : Nat) (v : W64) : CM α := throw (.trap { Trap.mk' cls sub with value := v })
def CM.trapAt {α : Type} (cls sub : Nat) (h : BitVec 16) (x : Coord) : CM α :=
  throw (.trap { Trap.mk' cls sub with handle := h, at' := x })

/-! ### Contexts, cores, launches -/

def State.ctx (s : State) (k : Nat) : Ctx := s.ctxs.get Ctx.free k
def State.setCtx (s : State) (k : Nat) (c : Ctx) : State := { s with ctxs := s.ctxs.set k c }
/-- The context in issue. -/
def State.cur (s : State) : Ctx := s.ctx s.focus
def State.setCur (s : State) (c : Ctx) : State := s.setCtx s.focus c
def State.core (s : State) (c : Nat) : Core := s.cores.get Core.clear c
def State.setCore (s : State) (c : Nat) (x : Core) : State := { s with cores := s.cores.set c x }
def State.launch (s : State) (l : Nat) : Launch := s.dist.launches.get Launch.none l
def State.setLaunch (s : State) (l : Nat) (x : Launch) : State :=
  { s with dist := { s.dist with launches := s.dist.launches.set l x } }
def State.inst (s : State) (i : Nat) : Inst := s.dist.insts.get Inst.none i
def State.setInst (s : State) (i : Nat) (x : Inst) : State :=
  { s with dist := { s.dist with insts := s.dist.insts.set i x } }
/-- The physical core of a context number (R96). -/
def coreOf (k : Nat) : Nat := k / 4
/-- The launch of a context. -/
def State.launchOf (s : State) (k : Nat) : Launch := s.launch (s.ctx k).launch
/-- A management register (R434). -/
def State.reg (s : State) (off : Nat) : W64 := s.mg.bar0.get (bar0Reset s.mg.part off) off
def State.setReg (s : State) (off : Nat) (v : W64) : State :=
  { s with mg := { s.mg with bar0 := s.mg.bar0.set off v } }

/-- Is the context one that issues bundles (R96)? -/
def Ctx.live (c : Ctx) : Bool := c.st == .active || c.st == .stopping

/-- The context as it begins to wait: for what a form of its bundle waits for, after what another form of it waits for. -/
def Ctx.waits (c : Ctx) (w : Wait) : Ctx :=
  if c.wait = .none then { c with wait := w } else { c with more := c.more ++ [w] }

/-- The context when the first thing that it waits for has come. -/
def Ctx.nextWait (c : Ctx) : Ctx := { c with wait := c.more.headD .none, more := c.more.tail }

/-- The context when one of the things that it waits for has come. -/
def Ctx.lessWait (c : Ctx) (w : Wait) : Ctx := if c.wait = w then c.nextWait else { c with more := c.more.erase w }

/-- Every context that the table lists, by number. -/
def State.ctxKeys (s : State) : List Nat := s.ctxs.map (·.1)

/-- The physical core of core `n` of an instance (R406). -/
def Inst.phys (i : Inst) (n : Nat) : Nat := 64 * i.cluster + 16 * i.p0 + n
/-- The number of cores of an instance (R406). -/
def Inst.cores (i : Inst) : Nat := 16 * i.need

/-- Scratchpad bytes of a core under its split (R132). -/
def Core.scrSize (c : Core) : Nat := scrBytes - c.l1n * 0x8000

/-- Lift a meaning over the context in issue to the machine. -/
def liftC {α : Type} (m : CM α) : M α := fun s =>
  match m s.cur with
  | .ok (a, c) => .ok (a, s.setCur c)
  | .error h => .error h

/-- A fresh number for a load, command or ticket. -/
def freshId : M Nat := fun s => .ok (s.nextId, { s with nextId := s.nextId + 1 })

/-- A fresh index into a free value. -/
def freshFree : M Nat := fun s => .ok (s.free, { s with free := s.free + 1 })

/-- Change context `k`. -/
def modCtx (k : Nat) (f : Ctx → Ctx) : M Unit := modify fun s => s.setCtx k (f (s.ctx k))
/-- Change the context in issue. -/
def modCur (f : Ctx → Ctx) : M Unit := modify fun s => s.setCur (f s.cur)
def modCore (c : Nat) (f : Core → Core) : M Unit := modify fun s => s.setCore c (f (s.core c))
def modMp (f : MemPath → MemPath) : M Unit := modify fun s => { s with mp := f s.mp }
def modDist (f : Dist → Dist) : M Unit := modify fun s => { s with dist := f s.dist }
def modMg (f : Mgmt → Mgmt) : M Unit := modify fun s => { s with mg := f s.mg }

/-- Bytes moved at the channels, and operations, counted for a running launch (R410). -/
def countFor (l bytes ops : Nat) : M Unit := modify fun s =>
  let x := s.launch l
  if x.running then s.setLaunch l { x with bytes := x.bytes + bytes, ops := x.ops + ops } else s

/-! ### The home point (R85, R257, R259, R261)

The L1 of a core holds data: what is dirty in the L1 of the owner of a private page is in no other place.  A read by
the device itself finds it there; a write by the device itself makes the page shared first. -/

/-- A byte of a bay image. -/
def imgByte (d : TBits) (a : Nat) : Byte := (d >>> (8 * (a % 1024))).setWidth 8

/-- The dirty sectors of a block written back (R257). -/
def writeBack (mem : List Host.Cell) (b : Block) : List Host.Cell :=
  (List.range 32).foldl (fun m i =>
    if b.dirty.getLsbD i then
      Mem.putN m (1024 * b.bay + 32 * i) (b.data.toNat / 2 ^ (256 * i) % 2 ^ 256) 32
    else m) mem

/-- The length the predictor learns when a block leaves (R255). -/
def Block.learned (b : Block) : Nat :=
  let us := (List.range 32).filter fun i => b.used.getLsbD i
  match us with
  | [] => 1
  | u :: _ => us.getLastD u + 1 - u

/-- The set of the home L2 of an address, over all dies (R253). -/
def l2Key (a : Nat) : Nat := addrDie a * 24576 + bayOf (a % 0x1800000000) % (98304 * 1024) % 24576

/-- The dirty sectors of a block. -/
def Block.dirtySecs (b : Block) : List Nat := (List.range 32).filter fun i => b.dirty.getLsbD i

/-- Sectors `lo` to `hi` of a bay are reached at their home L2, as one fill; what it fetches and the dirty sectors it evicts
are traffic of launch `l` at the channels (R254, R258, R410).  The L2 is modelled by its tags and dirty bits. -/
def l2Bay (l bay lo hi : Nat) (write : Bool) : M Unit := do
  let s ← get
  let key := l2Key (1024 * bay)
  let set := s.mp.l2.get [] key
  let (set', out) := insertBlock 16 64 set bay lo hi (hi + 1 - lo) s.tick 0 0
  let missed := ((List.range (hi + 1 - lo)).filter fun i => !set.any fun b => b.holds bay (lo + i)).length
  countFor l (32 * (missed + (out.map fun b => b.dirtySecs.length).sum)) 0
  let mark (b : Block) : Block :=
    if b.meets bay lo hi then
      { b with last := s.tick, dirty := if write then b.dirty ||| sectorMask (max lo b.lo) (min hi b.hi) else b.dirty }
    else b
  modMp fun mp => { mp with l2 := mp.l2.set key (set'.map mark) }

/-- An access to `n` bytes of device memory reaches the home L2s, bay by bay in ascending order (R254). -/
def l2Range (l a n : Nat) (write : Bool) : M Unit :=
  (List.range (n / 1024 + 2)).forM fun i =>
    let bay := a / 1024 + i
    let lo := max a (1024 * bay)
    let hi := min (a + n) (1024 * bay + 1024)
    if lo < hi ∧ hi ≤ devTop then l2Bay l bay (sectorOf lo) (sectorOf (hi - 1)) write else pure ()

/-- The launch whose contexts a core runs. -/
def State.coreLaunch (s : State) (c : Nat) : Nat :=
  match findBy (fun k => (s.ctx k).st != .free) ([0, 1, 2, 3].map fun i => 4 * c + i) with
  | some k => (s.ctx k).launch
  | none => 0

/-- A block leaves the L1 of a core: dirty sectors are written back to the home L2, and the predictor is told (R255,
R257). -/
def leaveL1 (c : Nat) (b : Block) : M Unit := do
  let l := (← get).coreLaunch c
  modify fun s => { s with mem := writeBack s.mem b }
  modCore c fun x => { x with pred := x.pred.set b.pred (BitVec.ofNat 6 b.learned) }
  b.dirtySecs.forM fun i => l2Range l (1024 * b.bay + 32 * i) 32 true

/-- Is a sector of the page in a descriptor? -/
def RangeDesc.holds (r : RangeDesc) (x : Nat) : Bool :=
  r.whole || (decide (r.base ≤ x) && r.stride != 0 && decide ((x - r.base) % r.stride < r.width)
    && decide ((x - r.base) / r.stride < r.count))

def PageDir.untouched : PageDir := ⟨none, []⟩
def State.page (s : State) (f : Nat) : PageDir := s.mp.dirs.get PageDir.untouched f
def setPage (f : Nat) (p : PageDir) : M Unit := modMp fun mp => { mp with dirs := mp.dirs.set f p }

/-- Blocks of a page in a set table. -/
def inPage (f : Nat) (b : Block) : Bool := b.bay / 64 == f

/-- Every block of a core's L1. -/
def Core.blocks (x : Core) : List Block := (x.l1.map (·.2)).flatten
/-- The L1 without the blocks that meet a condition, of which the predictor learns (R255). -/
def Core.dropBlocks (x : Core) (p : Block → Bool) : Core :=
  { x with l1 := x.l1.map fun e => (e.1, e.2.filter fun b => !p b),
           pred := (x.blocks.filter p).foldl (fun m b => m.set b.pred (BitVec.ofNat 6 b.learned)) x.pred }

/-- The owner of a private page writes back and drops every block of the page, which becomes shared
(R259). -/
def reclassify (f : Nat) : M Unit := do
  let s ← get
  match (s.page f).cls with
  | some (some c) => do
    ((s.core c).blocks.filter (inPage f)).forM (leaveL1 c)
    modCore c fun x => x.dropBlocks (inPage f)
    setPage f ⟨some none, []⟩
  | _ => pure ()

/-- A store performed at the home L2: invalidations leave for the readers of the sector other than the
writer (R261). -/
def sendInvals (writer : Option Nat) (a : Nat) : M Unit := do
  let s ← get
  let f := frameOf a
  let x := pageSector a
  let rs := (s.page f).readers.filter fun r => some r.1 != writer && r.2.any (fun q => q.holds x)
  let new := (rs.map fun r => (r.1, f, x)).filter fun i => !s.mp.invals.contains i
  modMp fun mp => { mp with invals := mp.invals ++ new }

/-- A read or write by an agent that is no core: private pages become shared first (R259). -/
def touchByEngine (a n : Nat) : M Unit :=
  (List.range (n / 65536 + 2)).forM fun i =>
    let f := a / 65536 + i
    if f * 65536 < a + n then reclassify f else pure ()

/-- Is an address in the scratchpad of a quarantined core, which is not read again (R223)? -/
def State.dead (s : State) (a : Nat) : Bool :=
  decide (scrBase ≤ a) && decide (a < scrBase + numCores * scrBytes) && (s.core ((a - scrBase) / scrBytes)).quarantined

/-- A byte in memory; of the scratchpad of a quarantined core a read gives a free value (log entry 70). -/
def State.memByte (s : State) (a : Nat) : Byte := if s.dead a then Config.freeByte s.free a else Mem.get s.mem a

/-- A byte at its home point: in the L1 of the core that a page is private to, else in memory (R85). -/
def State.seen (s : State) (a : Nat) : Byte :=
  match (s.page (frameOf a)).cls with
  | some (some c) =>
    match (s.core c).blockAt a with
    | some b => imgByte b.data a
    | none => s.memByte a
  | _ => s.memByte a

/-- `n` bytes at their home points, as a number. -/
def State.seenN (s : State) (a : Nat) : Nat → Nat
  | 0 => 0
  | n + 1 => (s.seen a).toNat + 256 * s.seenN (a + 1) n

/-! ### Memory -/

/-- The machine stops at an address that R236 says does not exist. -/
def needAddr (a n : Nat) : M Unit := if addrOk a n then pure () else throw (.stop (.noSuchAddress a))

/-- `n` bytes at an address, as the device itself reads them. -/
def rdN (a n : Nat) : M Nat := do
  needAddr a n
  return (← get).seenN a n

/-- `n` bytes of a number written at an address. -/
def wrN (a n v : Nat) : M Unit := do
  needAddr a n
  modify fun s => { s with mem := Mem.putN s.mem a v n }

def rdW64 (a : Nat) : M W64 := do return BitVec.ofNat 64 (← rdN a 8)

/-- A store performs at the home point: no read sees what an engine's pending write overwrote there (R84). -/
def trimOld (as : List Nat) : M Unit := modMp fun mp =>
  if mp.unperf.isEmpty then mp
  else { mp with unperf := mp.unperf.map fun w =>
    if w.cls = 0 then w else { w with cells := w.cells.filter fun c => !as.contains c.1 } }

/-- A write of `n` bytes by the device itself, on behalf of launch `l` or of none, 0: private pages become shared, the
bytes are written at the home L2s, and invalidations leave for the readers (R84, R258, R259, R261). -/
def devWriteFor (l a n v : Nat) : M Unit := do
  touchByEngine a n
  trimOld ((List.range n).map (a + ·))
  wrN a n v
  l2Range l a n true
  (List.range (n / 32 + 2)).forM fun i =>
    if 32 * (a / 32 + i) < a + n then sendInvals none (32 * (a / 32 + i)) else pure ()

def devWrite (a n v : Nat) : M Unit := devWriteFor 0 a n v

def wrW64 (a : Nat) (v : W64) : M Unit := devWrite a 8 v.toNat

/-- Cells of address, value and mask written. -/
def wrCells (cs : List (Nat × Byte × Byte)) : M Unit := do
  cs.forM fun c => needAddr c.1 1
  modify fun s => { s with mem := Mem.putCells s.mem cs }

/-! ### Reads that race with writes not yet performed (R81, R84, R294, R309; log entry 2)

`MemPath.unperf` lists the writes newest first.  A read of an aligned group of `e` bytes, those that the read takes as
one, sees the newest of them, or what the newest overwrote, or what the two newest overwrote, and so on, by free
choices; memory holds what the newest left. -/

/-- Bytes that a read of `n` bytes takes as one: all of them up to 8, else words of 4 (R3, R74). -/
def atomOf (n : Nat) : Nat := if n = 0 then 1 else if n ≤ 8 then n else 4

/-- Does a pending write write into the aligned group `g` of `e` bytes? -/
def EWrite.meets (w : EWrite) (e g : Nat) : Bool := w.cells.any fun c => c.1 / e == g

/-- May a read of context `k`, by its truss's gather or not, see what a pending write overwrote in group `g` of `e` bytes?
Stores of contexts hide from gathers alone: from those of other contexts until an XFENCE CORE, GATH of theirs. -/
def State.maySee (s : State) (k : Nat) (gath : Bool) (e g : Nat) (w : EWrite) : Bool :=
  if w.cls = 0 then gath && w.ctx != k && decide ((s.ctx k).fl.gath < w.at')
  else !w.known.any fun x => x.1 == k && x.2 / e == g

/-- The pending writes that a read may miss. -/
def State.pending (s : State) (gath : Bool) : List EWrite :=
  if gath then s.mp.unperf else s.mp.unperf.filter fun w => w.cls != 0

/-- A byte that a read misses the newest writes of: of those it goes past, what the oldest overwrote. -/
def oldByte (past : Nat → EWrite → Bool) (e a : Nat) : Nat → Option Byte → List EWrite → Option Byte
  | _, b, [] => b
  | i, b, w :: t =>
    if !w.meets e (a / e) then oldByte past e a (i + 1) b t
    else if past i w then oldByte past e a (i + 1) ((AMap.find? w.cells a).or b) t
    else b

/-- Does a read of context `k` go past the pending write at a place of the list? -/
def State.goesPast (s : State) (k : Nat) (gath : Bool) (e g i : Nat) (w : EWrite) : Bool :=
  s.maySee k gath e g w && Config.raceBit s.free g i

/-- The byte that a read of context `k`, of groups of `e` bytes, finds in memory. -/
def State.raceByte (s : State) (k : Nat) (gath : Bool) (e a : Nat) : Byte :=
  (oldByte (s.goesPast k gath e (a / e)) e a 0 none (s.pending gath)).getD (s.seen a)

/-- `n` bytes at `a` as a number, each by `raceByte`. -/
def State.raceN (s : State) (k : Nat) (gath : Bool) (e a : Nat) : Nat → Nat
  | 0 => 0
  | n + 1 => (s.raceByte k gath e a).toNat + 256 * s.raceN k gath e (a + 1) n

/-- Consume a free index where a read may race. -/
def raceStep : M Unit := modify fun s => if s.mp.unperf.isEmpty then s else { s with free := s.free + 1 }

/-- A read of an engine for context `k`; a gather takes aligned groups of 8 bytes (R294). -/
def rdA (k : Nat) (gath : Bool) (a n : Nat) : M Nat := do
  needAddr a n
  let s ← get
  raceStep
  return if s.mp.unperf.isEmpty then s.seenN a n else s.raceN k gath (if gath then 8 else atomOf n) a n

/-- A strong load of context `k` has read the byte `a` in groups of `e`: what it saw of the group and what came before are
known to the context. -/
def learnByte (past : Nat → EWrite → Bool) (k e a : Nat) : Nat → Bool → List EWrite → List EWrite
  | _, _, [] => []
  | i, seen, w :: t =>
    if w.cls = 0 then w :: learnByte past k e a i seen t
    else if !w.meets e (a / e) then w :: learnByte past k e a (i + 1) seen t
    else
      let now := seen || !past i w
      (if now then { w with known := (k, a) :: w.known } else w) :: learnByte past k e a (i + 1) now t

/-- The pending writes without those that are performed, and of the older ones no byte that these wrote. -/
def settle (p : EWrite → Bool) : List Nat → List EWrite → List EWrite
  | _, [] => []
  | gone, w :: t =>
    if p w then settle p (if w.cls = 0 then gone else w.cells.map (·.1) ++ gone) t
    else { w with cells := if gone.isEmpty then w.cells else w.cells.filter fun c => !gone.contains c.1 } :: settle p gone t

/-- A pending write, with the bytes now in memory as what it overwrites. -/
def notePending (ctx : Nat) (cls : BitVec 3) (id : Nat) (as : List Nat) : M Unit := modify fun s =>
  let w : EWrite := { ctx := ctx, cls := cls, id := id, at' := s.tick, seen := false, synced := false,
                      cells := as.map fun a => (a, s.seen a), known := [] }
  { s with mp := { s.mp with unperf := w :: s.mp.unperf } }

/-- Can a truss gather: does the store of some core hold a microprogram? -/
def State.gathers (s : State) : Bool := s.cores.any fun x => !x.2.store.isEmpty

/-- A store by `ctx` performs at the given addresses, which gathers of other contexts may not see yet (R309); `ctx` is
past the contexts for an arrival from a peer. -/
def noteStore (ctx : Nat) (as : List Nat) : M Unit := do
  trimOld as
  if (← get).gathers then notePending ctx 0 0 as

/-- Writes of an engine command: in memory, and not performed for racing readers until an XFENCE covers them (R81). -/
def wrEngine (ctx : Nat) (cls : BitVec 3) (id a n v : Nat) : M Unit := do
  needAddr a n
  notePending ctx cls id ((List.range n).map (a + ·))
  wrN a n v

/-! ### Records, faults and the end of a context (R96, R230, R231, R438) -/

/-- Offset of word `w` of queue `q`'s control entry (R438). -/
def queueReg (q w : Nat) : Nat := 0x1000 + 32 * q + 8 * w

/-- A record of eight words posted to a queue's ring: written at the tail while the ring has room,
dropped with DROP set otherwise (R438, log entry 12). -/
def postRecord (q : Nat) (ws : List W64) : M Unit := do
  let s ← get
  let r1 := s.reg (queueReg q 1)
  let n := 2 ^ ((r1.toNat / 2 ^ 48) % 16 + 4)
  let tail := s.reg (queueReg q 2)
  let head := s.reg (queueReg q 3)
  if (tail - head).toNat < n then
    let base := r1.toNat % 2 ^ 48 + 64 * (tail.toNat % n)
    ws.zipIdx.forM fun (w, i) => wrW64 (base + 8 * i) w
    modify fun s => s.setReg (queueReg q 2) (tail + 1)
  else
    modify fun s => s.setReg (queueReg q 0) (s.reg (queueReg q 0) ||| (1 <<< 60))

/-- A coordinate as the 16 bytes of a fault record. -/
def Coord.words (c : Coord) : W64 × W64 :=
  (BitVec.ofInt 32 c.c1 ++ BitVec.ofInt 32 c.c0, BitVec.ofInt 32 c.c3 ++ BitVec.ofInt 32 c.c2)

/-- The fault record of context `k` (R231); its PC is the context's address as it stands. -/
def faultRecord (s : State) (k : Nat) (t : Trap) : List W64 :=
  let c := s.ctx k
  let status : Nat := 2 ^ 63 + t.cls % 64 * 2 ^ 50 + t.sub % 256 * 2 ^ 42 + c.seg.id.toNat * 2 ^ 28
    + t.slot % 16 * 2 ^ 24 + k % 4 * 2 ^ 22 + c.icore % 64 * 2 ^ 16 + (if t.precise then 1 else 0)
  let (w0, w1) := t.at'.words
  [BitVec.ofNat 64 status, BitVec.ofNat 64 ((s.inst c.inst).idx * 2 ^ 32 + c.sq.pc.toNat),
    BitVec.ofNat 64 (t.handle.toNat * 2 ^ 48), w0, w1, t.value, 0, 0]

/-- The context with its gate buffer, loads and wait gone, in the given state (R113, R130, R230):
committed commands and accesses run on. -/
def Ctx.stopped (c : Ctx) (st : CtxState) : Ctx :=
  { c with st := st, wait := .none, more := [], frame := none,
           fl := { c.fl with gate := [], loads := [], fences := [], pattern := none } }

/-- A queue at its replay pointer: entries of loads issued after the mark are gone, popped ones are back
(R112).  Entries of committed AMO and CAS belong before the mark (R196). -/
def replayQueue {w : Nat} (q : List (QEnt w)) : List (QEnt w) :=
  (q.filter fun e => e.old).map fun e => { e with kept := false }

def Queues.replay (q : Queues) : Queues := ⟨replayQueue q.qs, replayQueue q.qv, replayQueue q.qw, replayQueue q.qx⟩

/-- End a context without a record; it leaves every semaphore's waiters (R417). -/
def endQuiet (k : Nat) : M Unit := do
  modCtx k fun c => c.stopped .ended
  modDist fun d => { d with waiters := d.waiters.map fun (i, ws) => (i, ws.filter fun w => w.1 != k) }

/-- TAKING AN EXCEPTION that ends the context (R230, R231): the record is posted to the ring of the
launch's queue, with the saved address, segment, slot, class and subcode; the gate buffer is
discarded; the context moves to Ended.  The trap is noted for the step, which takes it again from the
state before the bundle when other slots of the bundle have acted. -/
def takeTrap (k : Nat) (t : Trap) : M Unit := do
  let s ← get
  let c := s.ctx k
  postRecord (s.launchOf k).queue (faultRecord s k t)
  endQuiet k
  modify fun s => s.setLaunch c.launch { s.launch c.launch with fault := true }
  modify fun s => { s with issue := { s.issue with trap := some t } }

/-- The outcome of a meaning: its next state; the exception taken; the bundle held; or the stop. -/
def finish (s : State) (m : M Unit) : Host.Outcome State Fault Refusal :=
  match m s with
  | .ok (_, s') => .next s'
  | .error (.stop f) => .fault f
  | .error .hold => .next { s with issue := { s.issue with held := true } }
  | .error (.trap t) =>
    match takeTrap s.focus (t.placed s.issue.pos) s with
    | .ok (_, s') => .next s'
    | .error (.stop f) => .fault f
    | .error _ => .next s

/-- The outcome of a meaning over the context in issue. -/
def onCtx (s : State) (m : CM Unit) : Host.Outcome State Fault Refusal := finish s (liftC m)

/-- An event that concerns context `k`: the meaning runs with `k` in focus. -/
def onEvent (s : State) (k : Nat) (m : M Unit) : Host.Outcome State Fault Refusal :=
  finish { s with focus := k } m

end Sys2Proof.Machine
end

