-- ==== Sys2Proof/Machine/Operands.lean ====
section
/-!
DEFINITION. Sys2Proof/Machine/Operands.lean: every operand form of a slot: registers of each file with
their valid bits, the pops of register 31, the shadow log, axis tags and their copies, and the fields
of fmt (R24, R59, R99, R108, R111, R200 to R203, R221).
-/

namespace Sys2Proof.Machine

/-! ### fmt -/

/-- Bits [lo + n - 1 : lo] of a word as a number. -/
def fieldN {w : Nat} (x : BitVec w) (lo n : Nat) : Nat := x.toNat / 2 ^ lo % 2 ^ n

/-- The fields of fmt (R59). -/
def fmtVS (f : W32) : Nat := fieldN f 0 4
def fmtVD (f : W32) : Nat := fieldN f 4 4
def fmtRM (f : W32) : RM := RM.ofField (fieldN f 12 2)
def fmtSAT (f : W32) : Bool := f.getLsbD 15
def fmtFTZ (f : W32) : Bool := f.getLsbD 16
def fmtTA (f : W32) : Nat := fieldN f 17 3
def fmtTB (f : W32) : Nat := fieldN f 20 3
def fmtACC (f : W32) : Bool := f.getLsbD 23

/-- May fmt hold this value: no reserved code, no reserved bit (R60)? -/
def fmtLegal (f : W32) : Bool :=
  decide (fmtVS f ≤ 10) && decide (fmtVD f ≤ 10) && decide (fmtTA f ≤ 6) && decide (fmtTB f ≤ 6)
    && fieldN f 8 4 == 0 && !f.getLsbD 14 && fieldN f 24 8 == 0

/-! ### The shadow log (R221) -/

/-- What a log entry is about: one number per register of each file. -/
def Saved.tag : Saved → Nat
  | .c i _ => i | .a i _ => 100 + i | .s i _ => 200 + i | .e i _ => 300 + i | .x i _ => 400 + i
  | .v i _ => 500 + i | .w i _ => 600 + i | .m i _ => 700 + i | .t i _ => 800 + i | .k i _ => 900 + i
  | .p _ => 1000

/-- The first write after a mark saves the old value; a 65th entry is segment fault 2.  In service
nothing is logged (R226). -/
def logSave (v : Saved) : CM Unit := do
  let c ← get
  if c.frame.isSome then pure ()
  else if c.seg.log.any (fun o => o.tag == v.tag) then pure ()
  else if 64 ≤ c.seg.log.length then CM.trap clsSegment 2
  else set { c with seg := { c.seg with log := c.seg.log ++ [v] } }

/-! ### Scalar files -/

def Reg.invalid {w : Nat} : Reg w := ⟨false, 0⟩
def TReg.invalid {w : Nat} : TReg w := ⟨false, 0, 0, []⟩
def Iter.invalid : Iter := ⟨false, 0, 0, 0, 0, 0, [], 0, 0⟩

/-- The value of a register whose valid bit is set; the invalid-register-read trap otherwise (R99). -/
def Reg.read {w : Nat} (r : Reg w) : CM (BitVec w) :=
  if r.valid then pure r.val else CM.trap clsInvalid 0

/-- Physical register of name `n` of the S, V and W files (R108). -/
def physReg (rb n : Nat) : Nat := if 16 ≤ n ∧ n ≤ 30 then 16 + (n - 16 + rb) % 15 else n

def Ctx.regC (c : Ctx) (i : Nat) : Reg 32 := c.files.c.get Reg.invalid i
def Ctx.regA (c : Ctx) (i : Nat) : Reg 64 := c.files.a.get Reg.invalid i
def Ctx.regE (c : Ctx) (i : Nat) : Reg 64 := c.files.e.get Reg.invalid i
def Ctx.regX (c : Ctx) (i : Nat) : Reg 64 := c.files.x.get Reg.invalid i
/-- S register by name. -/
def Ctx.regS (c : Ctx) (n : Nat) : Reg 64 := c.files.s.get Reg.invalid (physReg c.sq.rb n)
def Ctx.regV (c : Ctx) (n : Nat) : TReg 1024 := c.files.v.get TReg.invalid (physReg c.sq.rb n)
def Ctx.regW (c : Ctx) (n : Nat) : TReg 1024 := c.files.w.get TReg.invalid (physReg c.sq.rb n)
def Ctx.regT (c : Ctx) (i : Nat) : TReg 8192 := c.files.t.get TReg.invalid i
def Ctx.iter (c : Ctx) (i : Nat) : Iter := c.files.k.get Iter.invalid i

def rdC (i : BitVec 5) : CM W32 := do (← get).regC i.toNat |>.read
def rdA' (i : BitVec 5) : CM W64 := do (← get).regA i.toNat |>.read
def rdE (i : BitVec 5) : CM W64 := do (← get).regE i.toNat |>.read
def rdX (i : BitVec 5) : CM W64 := do (← get).regX i.toNat |>.read

/-- An iterator that is valid (R184). -/
def rdK (i : BitVec 3) : CM Iter := do
  let k := (← get).iter i.toNat
  if k.valid then pure k else CM.trap clsInvalid 0

def wrC (i : Nat) (v : W32) : CM Unit := do
  logSave (.c i ((← get).regC i))
  modify fun c => { c with files := { c.files with c := c.files.c.set i ⟨true, v⟩ } }

def wrA (i : BitVec 5) (v : W64) : CM Unit := do
  logSave (.a i.toNat ((← get).regA i.toNat))
  modify fun c => { c with files := { c.files with a := c.files.a.set i.toNat ⟨true, v⟩ } }

def wrE (i : BitVec 5) (v : W64) : CM Unit := do
  logSave (.e i.toNat ((← get).regE i.toNat))
  modify fun c => { c with files := { c.files with e := c.files.e.set i.toNat ⟨true, v⟩ } }

def wrX (i : BitVec 5) (v : W64) : CM Unit := do
  logSave (.x i.toNat ((← get).regX i.toNat))
  modify fun c => { c with files := { c.files with x := c.files.x.set i.toNat ⟨true, v⟩ } }

/-- An S register written by name. -/
def wrS (n : BitVec 5) (v : W64) : CM Unit := do
  let c ← get
  let p := physReg c.sq.rb n.toNat
  logSave (.s p (c.files.s.get Reg.invalid p))
  modify fun c => { c with files := { c.files with s := c.files.s.set p ⟨true, v⟩ } }

def wrK (i : BitVec 3) (k : Iter) : CM Unit := do
  logSave (.k i.toNat ((← get).iter i.toNat))
  modify fun c => { c with files := { c.files with k := c.files.k.set i.toNat k } }

/-! ### Predicates and masks -/

/-- The innermost level of the loop stack (R104). -/
def Seqr.inner (q : Seqr) : Option Level := q.loops.getLast?

/-- A predicate with its valid bit: p0 is true; p14 and p15 are driven by the sequencer (R106, R147). -/
def Ctx.pred (c : Ctx) (i : Nat) : Reg 1 :=
  if i = 0 then ⟨true, 1⟩
  else if i = 14 then
    match c.sq.inner with
    | none => ⟨true, 1⟩
    | some l => ⟨true, if l.index = 0 then 1 else 0⟩
  else if i = 15 then
    match c.sq.inner with
    | none => ⟨true, 1⟩
    | some l => ⟨true, if l.index = l.count - 1 then 1 else 0⟩
  else c.files.p.get Reg.invalid i

/-- A predicate read, as a guard or an operand (R99). -/
def rdP (i : BitVec 4) : CM Bool := do
  let v ← ((← get).pred i.toNat).read
  return v == 1

def wrP (i : BitVec 4) (b : Bool) : CM Unit := do
  logSave (.p (← get).files.p)
  modify fun c => { c with files := { c.files with p := c.files.p.set i.toNat ⟨true, if b then 1 else 0⟩ } }

/-- A mask register: m0 is all ones, m1 all zeros (R99, R156). -/
def Ctx.mask (c : Ctx) (i : Nat) : TReg 128 :=
  if i = 0 then ⟨true, 0, BitVec.allOnes 128, []⟩
  else if i = 1 then ⟨true, 0, 0, []⟩
  else c.files.m.get TReg.invalid i

def TReg.read {w : Nat} (r : TReg w) : CM (TReg w) :=
  if r.valid then pure r else CM.trap clsInvalid 0

def rdM (i : BitVec 3) : CM (TReg 128) := do ((← get).mask i.toNat).read
def rdT (i : BitVec 5) : CM (TReg 8192) := do ((← get).regT i.toNat).read

/-! ### Axes, tags and copies (R200 to R203) -/

/-- The size of axis `j`. -/
def axisSize (ls : List LiftEnt) (j : Nat) : Nat := (ls[j]?.map LiftEnt.n).getD 1

/-- The size of axis `j` within a tag: 1 where the tag lacks it. -/
def tagSize (ls : List LiftEnt) (t : BitVec 3) (j : Nat) : Nat := if t.getLsbD j then axisSize ls j else 1

/-- The example count of a tag. -/
def exCount (ls : List LiftEnt) (t : BitVec 3) : Nat := tagSize ls t 0 * tagSize ls t 1 * tagSize ls t 2

/-- The index along axis `j` of example `e` of a tag, the outer axis varying slowest. -/
def exDigit (ls : List LiftEnt) (t : BitVec 3) (e j : Nat) : Nat :=
  match j with
  | 0 => e / (tagSize ls t 1 * tagSize ls t 2) % tagSize ls t 0
  | 1 => e / tagSize ls t 2 % tagSize ls t 1
  | _ => e % tagSize ls t 2

/-- The copy number of an operand of tag `r` in example `e` of tag `t`. -/
def exCopy (ls : List LiftEnt) (t r : BitVec 3) (e : Nat) : Nat :=
  let d j := if r.getLsbD j then exDigit ls t e j else 0
  (d 0 * tagSize ls r 1 + d 1) * tagSize ls r 2 + d 2

/-- The copy of an operand that example `e` of tag `t` reads (R201). -/
def TReg.at' {w : Nat} (r : TReg w) (ls : List LiftEnt) (t : BitVec 3) (e : Nat) : BitVec w :=
  match exCopy ls t r.tag e with
  | 0 => r.val
  | i + 1 => r.copies.getD i r.val

/-- The tag of the innermost axis: none at depth 0. -/
def innerTag (ls : List LiftEnt) : BitVec 3 :=
  match ls.length with
  | 0 => 0
  | n + 1 => (1 : BitVec 3) <<< n

/-- The tag a masked region adds (R201, R213). -/
def Seqr.regionTag (q : Seqr) : BitVec 3 := if q.region.isSome then innerTag q.lifts else 0

/-- Is example `e` of tag `t` active: outside a region every example is (R213)? -/
def Seqr.active (q : Seqr) (t : BitVec 3) (e : Nat) : Bool :=
  match q.region with
  | none => true
  | some r => r.active.getLsbD (exDigit q.lifts t e (q.lifts.length - 1))

/-- A register from the values of its examples. -/
def TReg.ofExamples {w : Nat} (t : BitVec 3) (vs : List (BitVec w)) : TReg w :=
  ⟨true, t, vs.headD 0, if t = 0 then [] else vs.drop 1⟩

def copiesOf {w : Nat} (m : AMap (TReg w)) : Nat := (m.map fun r => r.2.copies.length).sum
def queueCopies {w : Nat} (q : List (QEnt w)) : Nat := (q.map fun e => e.copies.length).sum

/-- Do the copies fit: 128 in V backing (masks packed eight to a slot), 128 in W, 48 tiles (R203)? -/
def Ctx.backingOk (c : Ctx) : Bool :=
  decide (copiesOf c.files.v + queueCopies c.queues.qv + (copiesOf c.files.m + 7) / 8 ≤ 128)
    && decide (copiesOf c.files.w + queueCopies c.queues.qw ≤ 128)
    && decide (copiesOf c.files.t ≤ 48)

/-- Lift fault 1 where backing is exhausted (R203, R204). -/
def checkBacking : CM Unit := do CM.need (← get).backingOk clsLift 1

/-- A V or W register written by name: an old value that the full log has no place for is reported before copies that the backing
has no place for (log entry 42). -/
def wrV (l : VW) (n : BitVec 5) (r : TReg 1024) : CM Unit := do
  let c ← get
  let p := physReg c.sq.rb n.toNat
  match l with
  | .v =>
    logSave (.v p (c.files.v.get TReg.invalid p))
    modify fun c => { c with files := { c.files with v := c.files.v.set p r } }
  | .w =>
    logSave (.w p (c.files.w.get TReg.invalid p))
    modify fun c => { c with files := { c.files with w := c.files.w.set p r } }
  if r.copies.isEmpty then pure () else checkBacking

def wrM (i : Nat) (r : TReg 128) : CM Unit := do
  logSave (.m i ((← get).files.m.get TReg.invalid i))
  modify fun c => { c with files := { c.files with m := c.files.m.set i r } }
  if r.copies.isEmpty then pure () else checkBacking

/-- Masks `i` and `i + 1` written by one slot: the copies of both count at once (R203). -/
def wrMPair (i : Nat) (r1 r2 : TReg 128) : CM Unit := do
  logSave (.m i ((← get).files.m.get TReg.invalid i))
  modify fun c => { c with files := { c.files with m := c.files.m.set i r1 } }
  logSave (.m (i + 1) ((← get).files.m.get TReg.invalid (i + 1)))
  modify fun c => { c with files := { c.files with m := c.files.m.set (i + 1) r2 } }
  if r1.copies.isEmpty && r2.copies.isEmpty then pure () else checkBacking

/-- Would a result of `cnt` examples in a V or W register fit its backing (R203)? -/
def Ctx.fitsV (c : Ctx) (l : VW) (d : BitVec 5) (cnt : Nat) : Bool :=
  let p := physReg c.sq.rb d.toNat
  let r : TReg 1024 := ⟨true, 0, 0, List.replicate (cnt - 1) 0⟩
  cnt ≤ 1 || (match l with
    | .v => { c with files := { c.files with v := c.files.v.set p r } }.backingOk
    | .w => { c with files := { c.files with w := c.files.w.set p r } }.backingOk)

def wrT (i : Nat) (r : TReg 8192) : CM Unit := do
  logSave (.t i ((← get).regT i))
  modify fun c => { c with files := { c.files with t := c.files.t.set i r } }
  if r.copies.isEmpty then pure () else checkBacking

/-- Lift fault 2 for a C, S or J slot in a masked region: every guard there is read as tagged
(R118, R134, R214). -/
def noRegion : CM Unit := do CM.need (← get).sq.region.isNone clsLift 2

/-- The same for a slot that may meet lift fault 1 as well: the lower subcode is reported (R204). -/
def barRegion (tooFar : Bool) : CM Unit := do CM.need (← get).sq.region.isNone clsLift (if tooFar then 1 else 2)

/-- Does JEXT name an example beyond its source's one axis (R151)? -/
def Ctx.extOver (c : Ctx) (l : VW) (a : BitVec 5) (e : Nat) : Bool :=
  let tag := if a = 31 then
      let q := match l with | .v => c.queues.qv | .w => c.queues.qw
      ((findBy (fun x => !x.kept) q).map QEnt.tag).getD 0
    else let r := match l with | .v => c.regV a.toNat | .w => c.regW a.toNat
      if r.valid then r.tag else 0
  (tag == 1 || tag == 2 || tag == 4) && decide (exCount c.sq.lifts tag ≤ e)

/-! ### Pops of register 31 (R24, R111, R112) -/

/-- The entry a pop takes and the queue after it: the first entry not already popped.  Without one,
or with one that only a later commit fills or that this very bundle reserved, the queue is starved;
one not yet filled holds the context.  An entry older than the last mark is kept for replay. -/
def popQueue {w : Nat} (now bundle : Nat) : List (QEnt w) → CM (QEnt w × List (QEnt w))
  | [] => CM.trap clsQueue 0
  | e :: t =>
    if e.kept then do
      let (x, q) ← popQueue now bundle t
      return (x, e :: q)
    else if e.gated || e.bundle == bundle then CM.trap clsQueue 0
    else if e.data.isNone || decide (now < e.readyAt) then CM.hold
    else return (e, if e.old then { e with kept := true } :: t else t)

def popS : CM W64 := do
  let c ← get
  let (e, q) ← popQueue c.fl.now c.fl.bundle c.queues.qs
  set { c with queues := { c.queues with qs := q } }
  return e.data.getD 0

def QEnt.reg (e : QEnt 1024) : TReg 1024 := ⟨true, e.tag, e.data.getD 0, e.copies⟩

def popV (l : VW) : CM (TReg 1024) := do
  let c ← get
  match l with
  | .v =>
    let (e, q) ← popQueue c.fl.now c.fl.bundle c.queues.qv
    set { c with queues := { c.queues with qv := q } }
    return e.reg
  | .w =>
    let (e, q) ← popQueue c.fl.now c.fl.bundle c.queues.qw
    set { c with queues := { c.queues with qw := q } }
    return e.reg

def popX : CM (TReg 1024) := do
  let c ← get
  let (e, q) ← popQueue c.fl.now c.fl.bundle c.queues.qx
  set { c with queues := { c.queues with qx := q } }
  return e.reg

/-- Pop the S queue once if any of the fields names s31 (R24). -/
def popIfS (fs : List (BitVec 5)) : CM W64 := if fs.contains 31 then popS else pure 0

/-- An S source: register 31 is the entry popped for this slot. -/
def rdS (q : W64) (n : BitVec 5) : CM W64 := do
  if n = 31 then pure q else ((← get).regS n.toNat).read

/-- Pop the lane's queue once if any of the fields names register 31 (R24). -/
def popIfV (l : VW) (fs : List (BitVec 5)) : CM (TReg 1024) :=
  if fs.contains 31 then popV l else pure TReg.invalid

/-- A V or W source. -/
def rdV (l : VW) (q : TReg 1024) (n : BitVec 5) : CM (TReg 1024) := do
  if n = 31 then pure q
  else
    let c ← get
    match l with
    | .v => (c.regV n.toNat).read
    | .w => (c.regW n.toNat).read

/-- The old destination of a V or W slot; an invalid one reads as zeros, untagged (R156). -/
def oldV (l : VW) (n : BitVec 5) : CM (TReg 1024) := do
  let c ← get
  let r := match l with | .v => c.regV n.toNat | .w => c.regW n.toNat
  pure (if r.valid then r else TReg.invalid)

/-! ### Loads reserve entries (R110) -/

/-- Has the queue a free entry? -/
def queueRoom {w : Nat} (q : List (QEnt w)) (depth : Nat) : Bool := decide (q.length < depth)

/-- A reserved entry, not yet filled; the tag and the number of copies are those its fill will
have (R203, R207, R209). -/
def QEnt.fresh {w : Nat} (id bundle : Nat) (gated : Bool) (tag : BitVec 3) (n : Nat) : QEnt w :=
  { id := id, bundle := bundle, old := false, gated := gated, kept := false, readyAt := 0, data := none, tag := tag,
    copies := List.replicate n 0 }

/-- Reserve an entry at the tail of queue `q`, which must have one free. -/
def reserve (q : BitVec 2) (id : Nat) (gated : Bool) (tag : BitVec 3) (n : Nat) : CM Unit := do
  let c ← get
  match q.toNat with
  | 0 =>
    if queueRoom c.queues.qs 32 then
      set { c with queues := { c.queues with qs := c.queues.qs ++ [QEnt.fresh id c.fl.bundle gated tag n] } }
    else CM.hold
  | 1 =>
    if queueRoom c.queues.qv 16 then
      set { c with queues := { c.queues with qv := c.queues.qv ++ [QEnt.fresh id c.fl.bundle gated tag n] } }
    else CM.hold
  | 2 =>
    if queueRoom c.queues.qw 16 then
      set { c with queues := { c.queues with qw := c.queues.qw ++ [QEnt.fresh id c.fl.bundle gated tag n] } }
    else CM.hold
  | _ =>
    if queueRoom c.queues.qx 16 then
      set { c with queues := { c.queues with qx := c.queues.qx ++ [QEnt.fresh id c.fl.bundle gated tag n] } }
    else CM.hold
  if n = 0 then pure () else checkBacking

/-- The queues with entry `id` filled: the values of its examples, readable from clock `at'`. -/
def Queues.fill (q : Queues) (id at' : Nat) (tag : BitVec 3) (vs : List VBits) : Queues :=
  let g (e : QEnt 1024) : QEnt 1024 :=
    { e with data := some (vs.headD 0), tag := tag, copies := if tag = 0 then [] else vs.drop 1, readyAt := at',
             gated := false }
  { qs := updBy (fun e => e.id == id)
      (fun e => { e with data := some ((vs.headD 0).setWidth 64), readyAt := at', gated := false }) q.qs,
    qv := updBy (fun e => e.id == id) g q.qv,
    qw := updBy (fun e => e.id == id) g q.qw,
    qx := updBy (fun e => e.id == id) g q.qx }

/-! ### Vector elements (R154) -/

/-- Element `i` of width `w`. -/
def elem (w : Nat) (x : VBits) (i : Nat) : Nat := x.toNat / 2 ^ (w * i) % 2 ^ w

/-- The number whose `w`-bit digits are the list, lowest first. -/
def packNat (w : Nat) : List Nat → Nat
  | [] => 0
  | e :: t => e % 2 ^ w + 2 ^ w * packNat w t

/-- A register from its elements. -/
def ofElems (w : Nat) (es : List Nat) : VBits := BitVec.ofNat 1024 (packNat w es)

/-- Elements `f i` where the mask has a one, the old ones elsewhere (R156). -/
def mergeElems (w : Nat) (mask : MBits) (old : VBits) (f : Nat → Nat) : VBits :=
  ofElems w ((List.range (1024 / w)).map fun i => if mask.getLsbD i then f i else elem w old i)

/-! ### The counter-based generator (R177 to R179) -/

def rotl32 (x : W32) (n : Nat) : W32 := x.rotateLeft n

/-- One double round of R178. -/
def mixRound (p : W32 × W32 × W32 × W32) : W32 × W32 × W32 × W32 :=
  let (a, b, c, d) := p
  let a := a + c; let b := rotl32 (b ^^^ a) 16
  let c := c + b; let d := rotl32 (d ^^^ c) 12
  let a := a + d; let b := rotl32 (b ^^^ a) 8
  let c := c + b; let d := rotl32 (d ^^^ c) 7
  (a, b, c, d)

/-- Word `j` of the output block at a counter (R178). -/
def mix (key ctr : W64) (j : Nat) : W32 :=
  let p0 := (ctr.setWidth 32 ^^^ BitVec.ofNat 32 j, (ctr >>> 32).setWidth 32, key.setWidth 32, (key >>> 32).setWidth 32)
  let p := mixRound (mixRound (mixRound (mixRound p0)))
  p.1 ^^^ p.2.2.1

/-- Draw `k` from the blocks that start at a counter (R179). -/
def drawAt (key ctr : W64) (k : Nat) : Nat :=
  (mix key (ctr + BitVec.ofNat 64 (k / 64)) (k % 64 / 2)).toNat / 2 ^ (16 * (k % 2)) % 65536

/-- The output block at a counter. -/
def genBlock (key ctr : W64) : VBits := ofElems 32 ((List.range 32).map fun j => (mix key ctr j).toNat)

/-- `d` draws for a slot that rounds under `rm`: only SR draws, and it advances the counter by whole
blocks (R179). -/
def takeDraws (rm : RM) (d : Nat) : CM (Nat → Nat) := do
  if rm = .sr then
    let c ← get
    set { c with ctr := c.ctr + BitVec.ofNat 64 ((d + 63) / 64) }
    pure (drawAt c.key c.ctr)
  else pure fun _ => 0

end Sys2Proof.Machine
end

