-- ==== Sys2Proof/Machine/Translate.lean ====
section
/-!
DEFINITION. Sys2Proof/Machine/Translate.lean: tensors, descriptors, layout units and translation (R181 to
R183, R236 to R249, R266).

Each die keeps the descriptor and tile-table words its layout units have read (`MemPath.lu`, keyed by
`2 ^ 50 die + address`).  A word is read from memory once and then from there, until an invalidation by
R248 removes it.
-/

namespace Sys2Proof.Machine

/-! ### Coordinates (R182) -/

def Coord.get (c : Coord) : Nat → Int
  | 0 => c.c0 | 1 => c.c1 | 2 => c.c2 | _ => c.c3

def Coord.ofFn (f : Nat → Int) : Coord := ⟨f 0, f 1, f 2, f 3⟩

/-- The coordinate moved by `n` along dimension `d`. -/
def Coord.move (c : Coord) (d : Nat) (n : Int) : Coord := Coord.ofFn fun e => if e = d then c.get e + n else c.get e

/-! ### Layout-unit caches (R244, R248) -/

def luKey (die a : Nat) : Nat := 2 ^ 50 * die + a

/-- A descriptor or tile-table word as the layout units of a die see it. -/
def State.luGet (s : State) (die a : Nat) : W64 :=
  match s.mp.lu.find? (luKey die a) with
  | some v => v
  | none => BitVec.ofNat 64 (s.seenN a 8)

/-- The layout units of a die hold `n` words from `a`, reading those they lack. -/
def luTouch (die a : Nat) : Nat → M Unit
  | 0 => pure ()
  | n + 1 => do
    match (← get).mp.lu.find? (luKey die a) with
    | some _ => pure ()
    | none => do
      let v ← rdW64 a
      modMp fun mp => { mp with lu := mp.lu.set (luKey die a) v }
    luTouch die (a + 8) n

/-- Drop the words at `n` bytes from `a` on every die (R248). -/
def luDrop (a n : Nat) : M Unit :=
  modMp fun mp => { mp with lu := [0, 1, 2, 3].foldl (fun m d => AMap.eraseRange m (luKey d a) n) mp.lu }

/-! ### Descriptors (R238 to R243, R266) -/

/-- A tensor descriptor. -/
structure Desc where
  v : Bool
  cls : Nat
  efmt : Nat
  w : Bool
  rank : Nat
  bnd : Bool
  bdim : Nat
  tenant : Nat
  scale : Nat
  shape : Coord
  tile : Coord
  tab : Nat
  count : Nat
  w6 : Nat
  w7 : Nat
  /-- Every reserved bit is zero. -/
  clean : Bool
  deriving DecidableEq, Repr

/-- A descriptor from its 16 words. -/
def Desc.parse (f : Nat → W64) : Desc :=
  let c := (f 0)
  { v := c.getLsbD 63, cls := fieldN c 60 3, efmt := fieldN c 55 5, w := c.getLsbD 54, rank := fieldN c 52 2 + 1,
    bnd := c.getLsbD 51, bdim := fieldN c 49 2, tenant := fieldN c 32 10, scale := fieldN c 0 16,
    shape := Coord.ofFn fun d => fieldN (f (1 + d / 2)) (32 * (d % 2)) 32,
    tile := Coord.ofFn fun d => fieldN (f 3) (16 * d) 16 + 1,
    tab := fieldN (f 4) 0 48, count := fieldN (f 5) 0 32, w6 := (f 6).toNat, w7 := (f 7).toNat,
    clean := fieldN c 42 7 == 0 && fieldN c 16 16 == 0 && fieldN (f 4) 48 16 == 0 && fieldN (f 5) 32 32 == 0
      && (List.range 8).all fun i => f (8 + i) == 0 }

/-- Element width in bits by EFMT (R240); 0 for a code that is not assigned. -/
def efmtWidth : Nat → Nat
  | 0 => 32 | 1 => 16 | 2 => 16 | 3 => 8 | 4 => 8
  | 5 => 8 | 6 => 16 | 7 => 32 | 8 => 8 | 9 => 16 | 10 => 32
  | 11 => 64 | 12 => 64
  | 16 => 8 | 17 => 6 | 18 => 4 | 19 => 4 | 20 => 16
  | 24 => 128
  | _ => 0

def efmtMx (e : Nat) : Bool := decide (16 ≤ e) && decide (e ≤ 20)
/-- Is the format a signed integer, by EFMT? -/
def efmtSigned (e : Nat) : Bool := e == 5 || e == 6 || e == 7 || e == 11

def Desc.bits (d : Desc) : Nat := efmtWidth d.efmt
def Desc.mx (d : Desc) : Bool := efmtMx d.efmt

/-- n_t[d], the tiles along a dimension (R242). -/
def Desc.tiles (t : Desc) (d : Nat) : Nat :=
  let n := (t.shape.get d).toNat
  let k := (t.tile.get d).toNat
  (n + k - 1) / k

/-- The product of a function over dimensions 0 to 3. -/
def dimProd (f : Nat → Nat) : Nat := f 0 * f 1 * f 2 * f 3
/-- The product over dimensions below `d`. -/
def dimProdTo (f : Nat → Nat) : Nat → Nat
  | 0 => 1
  | d + 1 => dimProdTo f d * f d

/-- The element count. -/
def Desc.elems (t : Desc) : Nat := dimProd fun d => (t.shape.get d).toNat

/-- Bytes of a tile: elements times width, MX blocks packed (R241, R242). -/
def Desc.tileBytes (t : Desc) : Nat := (dimProd fun d => (t.tile.get d).toNat) * t.bits / 8

/-- Does the descriptor hold by R239 to R242, R266 and R342, apart from its scale tensor? -/
def Desc.okHere (t : Desc) : Bool :=
  t.v && decide (t.cls ≤ 3) && t.bits != 0 && (t.efmt == 24) == (t.cls == 1)
    && (!t.mx || t.cls == 0) && (!t.bnd || decide (t.bdim < t.rank)) && t.clean && (t.mx || t.scale == 0)
    && (List.range 4).all (fun d => decide (1 ≤ t.shape.get d) && decide (t.shape.get d ≤ 2 ^ 31 - 1)
          && (decide (d < t.rank) || (t.shape.get d == 1 && t.tile.get d == 1)))
    && t.tab % 16 == 0 && t.count == dimProd t.tiles && decide (t.tileBytes ≤ 65536)
    && (!t.mx || (t.tile.get 0) % 32 == 0)
    && (match t.cls with
        | 1 => t.w7 == 0 && t.w6 % 64 == 0 && decide (t.w6 < 2 ^ 48)
            && (t.tile.get 0 % 128 == 0 || (t.rank == 1 && t.count == 1))
        | 2 => t.rank == 1 && t.tileBytes == 65536 && decide (t.efmt ≤ 12) && t.w6 % 8 == 0
            && decide (t.w6 < 2 ^ 48) && t.w7 == 0
        | _ => t.w6 == 0 && t.w7 == 0)

/-- The address of the descriptor of a handle (R237). -/
def descAddr (l : Launch) (h : BitVec 16) : Nat := l.tab + 128 * h.toNat

def State.desc (s : State) (die : Nat) (l : Launch) (h : BitVec 16) : Desc :=
  Desc.parse fun i => s.luGet die (descAddr l h + 8 * i)

/-- Is the handle one of the launch's tensor table (R181, R237)? -/
def handleOk (l : Launch) (h : BitVec 16) : Bool := h != 0 && h != 0xFFFF && decide (h.toNat < l.tabLen)

/-- The scale tensor of an MX tensor fits it (R243). -/
def scaleOk (t u : Desc) : Bool :=
  u.okHere && u.efmt == 10 && u.rank == t.rank
    && u.shape.c0 == (t.shape.c0 + 31) / 32 && u.shape.c1 == t.shape.c1 && u.shape.c2 == t.shape.c2
    && u.shape.c3 == t.shape.c3

/-- Is the descriptor of a handle valid (R238 to R243, R266)? -/
def State.descOk (s : State) (die : Nat) (l : Launch) (t : Desc) : Bool :=
  t.okHere && (!t.mx || (handleOk l (BitVec.ofNat 16 t.scale)
    && scaleOk t (s.desc die l (BitVec.ofNat 16 t.scale))))

/-- The descriptor of a handle, its words held by the layout units, with its validity. -/
def descM (die : Nat) (l : Launch) (h : BitVec 16) : M (Desc × Bool) := do
  luTouch die (descAddr l h) 16
  let t := (← get).desc die l h
  if t.mx ∧ handleOk l (BitVec.ofNat 16 t.scale) then luTouch die (descAddr l (BitVec.ofNat 16 t.scale)) 16
  return (t, (← get).descOk die l t)

/-! ### Offsets, coordinates, locations (R182, R183, R242) -/

/-- The coordinate of an element offset; what a whole row-major pass leaves over stays in the top dimension. -/
def Desc.ofOffset (t : Desc) (n : Nat) : Coord :=
  let sz d := (t.shape.get d).toNat
  Coord.ofFn fun d =>
    if d + 1 < t.rank then ((n / dimProdTo sz d % sz d : Nat) : Int)
    else if d + 1 = t.rank then ((n / dimProdTo sz d : Nat) : Int) else 0

/-- The element offset of a coordinate inside the shape. -/
def Desc.offset (t : Desc) (c : Coord) : Nat :=
  let sz d := (t.shape.get d).toNat
  ((List.range 4).map fun d => (c.get d).toNat * dimProdTo sz d).sum

/-- The check of R183. -/
def Desc.inside (t : Desc) (c : Coord) : Bool :=
  (List.range 4).all fun d =>
    if d < t.rank then decide (0 ≤ c.get d) && decide (c.get d < t.shape.get d) else c.get d == 0

/-- The tile number of a coordinate. -/
def Desc.tileNo (t : Desc) (c : Coord) : Nat :=
  ((List.range 4).map fun d => (c.get d).toNat / (t.tile.get d).toNat * dimProdTo t.tiles d).sum

/-- The element's place in its tile. -/
def Desc.inTile (t : Desc) (c : Coord) : Nat :=
  let k d := (t.tile.get d).toNat
  ((List.range 4).map fun d => (c.get d).toNat % k d * dimProdTo k d).sum

/-- A tile-table entry: its two words. -/
structure TileEntry where
  lo : W64
  hi : W64
  deriving DecidableEq, Repr

def TileEntry.p (e : TileEntry) : Bool := e.lo.getLsbD 63
def TileEntry.host (e : TileEntry) : Bool := e.lo.getLsbD 62
def TileEntry.mig (e : TileEntry) : Bool := e.lo.getLsbD 61
def TileEntry.apst (e : TileEntry) : Nat := fieldN e.lo 59 2
def TileEntry.frame (e : TileEntry) : Nat := fieldN e.lo 0 24
def TileEntry.hframe (e : TileEntry) : Nat := fieldN e.hi 0 48

/-- The address of the entry of tile `n`. -/
def Desc.entryAddr (t : Desc) (n : Nat) : Nat := t.tab + 16 * n

def State.entry (s : State) (die : Nat) (t : Desc) (n : Nat) : TileEntry :=
  ⟨s.luGet die (t.entryAddr n), s.luGet die (t.entryAddr n + 8)⟩

def entryM (die : Nat) (t : Desc) (n : Nat) : M TileEntry := do
  luTouch die (t.entryAddr n) 2
  return (← get).entry die t n

/-- The translation faults of an access, in the order of R247: the subcode, or none. -/
def xlateFault (l : Launch) (t : Desc) (valid : Bool) (e : TileEntry) (write : Bool) : Option Nat :=
  if !valid then some 4
  else if t.tenant != l.tenant.toNat then some 5
  else if write && !t.w then some 3
  else if !e.p || (t.cls == 2 && e.apst == 3) then some 1
  else if t.cls == 3 && (e.host || e.mig) then some 2
  else none

/-- The frame a die reads a page at: its replica of a sealed page where it has one (R276). -/
def State.frameFor (s : State) (die : Nat) (t : Desc) (e : TileEntry) : Nat :=
  if t.cls == 2 && e.apst == 2 && addrDie (e.frame * 65536) != die then
    match findBy (fun r => r.die == die && r.home == e.frame && r.ready) s.mp.replicas with
    | some r => r.loc
    | none => e.frame
  else e.frame

/-- The device address of an element of a valid descriptor whose tile is mapped. -/
def State.elemAddr (s : State) (die : Nat) (t : Desc) (c : Coord) : Nat :=
  s.frameFor die t (s.entry die t (t.tileNo c)) * 65536 + t.inTile c * t.bits / 8

/-- The translation of an access to one element: its address, or the fault's subcode. -/
def State.xlate (s : State) (die : Nat) (l : Launch) (h : BitVec 16) (c : Coord) (write : Bool) : Except Nat Nat :=
  let t := s.desc die l h
  match xlateFault l t (s.descOk die l t) (s.entry die t (t.tileNo c)) write with
  | some n => .error n
  | none => .ok (s.elemAddr die t c)

/-- The same, the words it reads being held by the layout units from then on. -/
def xlateM (die : Nat) (l : Launch) (h : BitVec 16) (c : Coord) (write : Bool) : M (Except Nat Nat) := do
  let (t, ok) ← descM die l h
  if ok then do
    luTouch die (t.entryAddr (t.tileNo c)) 2
    return (← get).xlate die l h c write
  else return .error 4

/-! ### The cells of an access (R183, R188, R189) -/

/-- The number of elements, or of MX blocks, that 1,024 bits hold. -/
def Desc.perVec (t : Desc) : Nat :=
  if t.mx then (match t.efmt with | 16 => 4 | 17 => 5 | 20 => 2 | _ => 8) else 1024 / t.bits

/-- Bytes of one unit of a vector access: an element, or a packed block of 32. -/
def Desc.unitBytes (t : Desc) : Nat := if t.mx then 4 * t.bits else t.bits / 8
/-- Elements of one unit. -/
def Desc.unitElems (t : Desc) : Nat := if t.mx then 32 else 1

/-- The coordinates of the units of an access from `c`: those at or beyond shape[0] are absent. -/
def Desc.units (t : Desc) (c : Coord) (n : Nat) : List (Option Coord) :=
  (List.range n).map fun i =>
    let x := c.move 0 ((t.unitElems * i : Nat) : Int)
    if x.c0 < t.shape.c0 then some x else none

/-- The rank of a translation fault among several that one access meets (R247). -/
def faultRank : Nat → Nat
  | 4 => 0 | 5 => 1 | 3 => 2 | 1 => 3 | 2 => 4 | _ => 5

/-- The translation fault of an access to several units: the first in the order of R247 over all of them, with the first
unit that meets it. -/
def State.unitFault (s : State) (die : Nat) (l : Launch) (h : BitVec 16) (write : Bool) :
    List (Option Coord) → Option (Nat × Coord)
  | [] => none
  | none :: cs => s.unitFault die l h write cs
  | some c :: cs =>
    match s.xlate die l h c write, s.unitFault die l h write cs with
    | .ok _, r => r
    | .error n, none => some (n, c)
    | .error n, some f => some (if faultRank f.1 < faultRank n then f else (n, c))

/-- The addresses of the units of an access, or its fault. -/
def State.unitAddrs (s : State) (die : Nat) (l : Launch) (h : BitVec 16) (write : Bool) (cs : List (Option Coord)) :
    Except (Nat × Coord) (List (Option Nat)) :=
  match s.unitFault die l h write cs with
  | some f => .error f
  | none =>
    let t := s.desc die l h
    .ok (cs.map fun c => c.map (s.elemAddr die t))

/-- The layout units hold the descriptor of a handle and the tile entries of the units of an access. -/
def holdUnits (die : Nat) (l : Launch) (h : BitVec 16) (cs : List (Option Coord)) : M Unit := do
  let (t, ok) ← descM die l h
  if ok then cs.forM fun c => match c with
    | some x => luTouch die (t.entryAddr (t.tileNo x)) 2
    | none => pure ()

/-- The layout units hold the descriptor and every tile entry of a handle. -/
def holdTensor (die : Nat) (l : Launch) (h : BitVec 16) : M Unit := do
  let (t, ok) ← descM die l h
  if ok then (List.range t.count).forM fun n => luTouch die (t.entryAddr n) 2

/-- As `unitAddrs`, filling the layout units. -/
def unitAddrsM (die : Nat) (l : Launch) (h : BitVec 16) (write : Bool) (cs : List (Option Coord)) :
    M (Except (Nat × Coord) (List (Option Nat))) := do
  holdUnits die l h cs
  return (← get).unitAddrs die l h write cs

end Sys2Proof.Machine
end

