-- ==== Sys2Proof/Machine/Bank.lean ====
section
/-!
DEFINITION. Sys2Proof/Machine/Bank.lean: bank descriptors of filter tensors and their validity (R317, R342,
R345, R346).
-/

namespace Sys2Proof.Machine

/-- A bank descriptor: `ord2` order 2, `tick` TICK mode; coefficients as integers in units of 2^-22. -/
structure Bank where
  v : Bool
  ord2 : Bool
  tick : Bool
  rnd : Nat
  xf : Nat
  e : Int
  expf : Nat
  casc : BitVec 16
  a11 : Int
  a12 : Int
  a21 : Int
  a22 : Int
  b1 : Int
  b2 : Int
  c1 : Int
  c2 : Int
  /-- Every reserved field is zero. -/
  clean : Bool
  deriving DecidableEq, Repr

/-- A 24-bit coefficient of a word (R58). -/
def coef (w : W64) (lo : Nat) : Int := intVal true 24 (fieldN w lo 24)

/-- A bank descriptor from its eight words (R345). -/
def Bank.parse (f : Nat → W64) : Bank :=
  let c := f 4
  { v := c.getLsbD 63, ord2 := c.getLsbD 62, tick := c.getLsbD 61, rnd := fieldN c 59 2, xf := fieldN c 57 2,
    e := intVal true 7 (fieldN c 50 7), expf := fieldN c 46 4, casc := BitVec.ofNat 16 (fieldN c 16 16),
    a11 := coef (f 0) 0, a12 := coef (f 0) 32, a21 := coef (f 1) 0, a22 := coef (f 1) 32,
    b1 := coef (f 2) 0, b2 := coef (f 2) 32, c1 := coef (f 3) 0, c2 := coef (f 3) 32,
    clean := (List.range 4).all (fun i => fieldN (f i) 24 8 == 0 && fieldN (f i) 56 8 == 0)
      && fieldN c 32 14 == 0 && fieldN c 0 16 == 0 && f 5 == 0 && f 6 == 0 && f 7 == 0 }

/-- Is the descriptor valid, apart from its cascade bank (R346)? -/
def Bank.okHere (b : Bank) : Bool :=
  b.v && b.clean && decide (b.rnd ≤ 2) && decide (b.expf ≤ 10)
    && (b.ord2 || (b.a12 == 0 && b.a21 == 0 && b.a22 == 0 && b.b2 == 0))

/-- The bank descriptor at a device address. -/
def State.bankAt (s : State) (a : Nat) : Bank := Bank.parse fun i => BitVec.ofNat 64 (s.seenN (a + 8 * i) 8)

/-- Is the cascade bank `h` one that the bank `own` of `n` words may deliver to: none, or another filter tensor (R329,
R346)? -/
def State.cascadeOk (s : State) (die : Nat) (l : Launch) (own : BitVec 16) (n : Nat) (h : BitVec 16) : Bool :=
  h == 0 || (h != own && handleOk l h && (let d := s.desc die l h
    let b := s.bankAt d.w6
    s.descOk die l d && d.cls == 1 && d.elems == n && b.okHere && !b.ord2 && !b.tick && b.casc == 0))

/-- Is a bank valid for the filter tensor of a handle (R346)? -/
def State.bankValid (s : State) (die : Nat) (l : Launch) (h : BitVec 16) (d : Desc) (b : Bank) : Bool :=
  b.okHere && s.cascadeOk die l h d.elems b.casc

/-- The translation fault of an access to a whole bank: descriptor, tenant, write right (R247, R346, R352). -/
def State.bankFault (s : State) (die : Nat) (l : Launch) (h : BitVec 16) (write : Bool) : Option Nat :=
  let d := s.desc die l h
  if !s.descOk die l d || !s.bankValid die l h d (s.bankAt d.w6) then some 4
  else if d.tenant != l.tenant.toNat then some 5
  else if write && !d.w then some 3
  else none

end Sys2Proof.Machine
end

