-- ==== Sys2Proof/Machine/Cache.lean ====
section
/-!
DEFINITION. Sys2Proof/Machine/Cache.lean: span caches and the directory (R253 to R261).

The L1 of a core holds data; what is dirty in it is in no other place.  The L2 of a die is modelled by
its tags and dirty bits: its data is the memory's.
-/

namespace Sys2Proof.Machine

/-! ### The L1 of a core -/

/-- Change the blocks of the set of a bay. -/
def Core.mapSet (x : Core) (bay : Nat) (f : List Block → List Block) : Core :=
  if x.sets = 0 then x else { x with l1 := x.l1.set (bay % x.sets) (f (x.set bay)) }

/-- Change the block that holds an address. -/
def Core.updBlock (x : Core) (a : Nat) (f : Block → Block) : Core :=
  x.mapSet (bayOf a) (updBy (fun b => b.holds (bayOf a) (sectorOf a)) f)

/-- The predictor entry of a bundle address; every entry starts at 4 (R255). -/
def predIndex (pc : W32) : Nat := pc.toNat / 16 % 256
def Core.predicted (x : Core) (pc : W32) : Nat := (x.pred.get 4 (predIndex pc)).toNat

/-! ### The directory (R259 to R261) -/

/-- A reader's descriptors after a block of sectors a to a + n - 1 is installed (R260). -/
def recordReader (qs : List RangeDesc) (a n : Nat) : List RangeDesc :=
  if qs.any (fun q => (List.range n).all fun i => q.holds (a + i)) then qs
  else if qs.any (fun q => !q.whole && q.width == n && q.count == 1 && decide (q.base < a)) then
    updBy (fun q => !q.whole && q.width == n && q.count == 1 && decide (q.base < a))
      (fun q => { q with stride := a - q.base, count := 2 }) qs
  else if qs.any (fun q => !q.whole && q.width == n && decide (2 ≤ q.count) && a == q.base + q.count * q.stride) then
    updBy (fun q => !q.whole && q.width == n && decide (2 ≤ q.count) && a == q.base + q.count * q.stride)
      (fun q => { q with count := q.count + 1 }) qs
  else if qs.length < 4 then qs ++ [⟨false, a, n, 1, n⟩]
  else [⟨true, 0, 1, 1, 1⟩]

/-- An access by a core to a page: the first makes it private, another core's makes it shared. -/
def touchByCore (c f : Nat) : M Unit := do
  let s ← get
  match (s.page f).cls with
  | none => setPage f ⟨some (some c), []⟩
  | some (some o) => if o = c then pure () else reclassify f
  | some none => pure ()

/-- Is a page private to a core? -/
def State.privateTo (s : State) (c f : Nat) : Bool := (s.page f).cls == some (some c)

/-- A core whose L1 drops the block that holds sector `i` of page `f`; shared blocks are never dirty. -/
def Core.dropSector (x : Core) (f i : Nat) : Core :=
  let a := 65536 * f + 32 * i
  match x.blockAt a with
  | none => x
  | some b => ({ x with pred := x.pred.set b.pred (BitVec.ofNat 6 b.learned) }).mapSet (bayOf a) (delBy fun d => d == b)

/-- The invalidations pending for core `c` whose page and sector meet a condition, applied (R261). -/
def State.applyWhere (s : State) (c : Nat) (p : Nat → Nat → Bool) : State :=
  let hit (i : Nat × Nat × Nat) : Bool := i.1 == c && p i.2.1 i.2.2
  let mine := s.mp.invals.filter hit
  if mine.isEmpty then s
  else
    let s' := s.setCore c (mine.foldl (fun x i => x.dropSector i.2.1 i.2.2) (s.core c))
    { s' with mp := { s'.mp with invals := s'.mp.invals.filter fun i => !hit i } }

/-- Every invalidation pending for a core applied: an acquire at .clu or wider does (R82, R261). -/
def State.applyInvals (s : State) (c : Nat) : State := s.applyWhere c fun _ _ => true

/-- A fence that stands before place `n` and has not applied invalidations. -/
def Fence.unmetAt (f : Fence) (n : Nat) : Bool := !f.met && decide (f.seq < n)

/-- An access at place `n` of context `k` comes after its fences: with the strong loads before it a FENCE or DRAIN
is an acquire, and the invalidations pending for the core are applied (R82). -/
def State.metFences (s : State) (k n : Nat) : State :=
  if (s.ctx k).fl.fences.any (Fence.unmetAt · n) then
    (s.applyInvals (coreOf k)).setCtx k { s.ctx k with fl := { (s.ctx k).fl with
      fences := updBy (Fence.unmetAt · n) (fun f => { f with met := true }) (s.ctx k).fl.fences } }
  else s

/-- An access at place `n` of context `k` performs while an XFENCE CORE, GATH after it holds the later gathers: they see the
writes that it makes happen before them (R427). -/
def State.gathersAnew (s : State) (k n : Nat) : State :=
  if (s.ctx k).fl.fences.any fun f => f.kind == .x 0 2 && decide (n < f.seq) then
    s.setCtx k { s.ctx k with fl := { (s.ctx k).fl with gath := s.tick } }
  else s

/-- An access at place `n` of context `k` performs between its fences. -/
def State.afterFences (s : State) (k n : Nat) : State := (s.metFences k n).gathersAnew k n

/-! ### Loads through the L1 (R254 to R256) -/

/-- A rising list of numbers as runs, first and last. -/
def runs : List Nat → List (Nat × Nat)
  | [] => []
  | x :: t => match runs t with
    | (a, b) :: r => if a = x + 1 then (x, b) :: r else (x, x) :: (a, b) :: r
    | [] => [(x, x)]

/-- A number put into a rising list. -/
def insertUp (x : Nat) : List Nat → List Nat
  | [] => [x]
  | y :: t => if x < y then x :: y :: t else if x = y then y :: t else y :: insertUp x t

/-- The bays of a list of addresses in ascending order, each with its first and last sector. -/
def bayRanges (addrs : List Nat) : List (Nat × Nat × Nat) :=
  (addrs.foldl (fun l a => insertUp (bayOf a) l) []).map fun b =>
    let secs := (addrs.filter fun a => bayOf a == b).map sectorOf
    (b, secs.foldl min 31, secs.foldl max 0)

/-- Accesses reach the home L2s at the given addresses. -/
def l2Addrs (l : Nat) (addrs : List Nat) (write : Bool) : M Unit :=
  (bayRanges addrs).forM fun r => l2Bay l r.1 r.2.1 r.2.2 write

/-- Does an engine's pending write meet one of the sectors of a bay? -/
def State.pendingIn (s : State) (bay : Nat) (secs : List Nat) : Bool :=
  s.mp.unperf.any fun w => w.cls != 0 && w.cells.any fun e => bayOf e.1 == bay && secs.contains (sectorOf e.1)

/-- A block for the sectors lo to hi of a bay comes into the L1 of a core; with `fetch` every sector of it that no block
holds is fetched from the home L2, and with `dir` the directory records it for a shared page.  A fetch that an engine's
write meets before it is performed installs no block (R256, R261). -/
def l1Fill (c bay lo hi L pred : Nat) (fetch dir : Bool) : M Unit := do
  let s ← get
  let x := s.core c
  let old := x.set bay
  if x.sets = 0 then l2Bay (s.coreLaunch c) bay lo hi false
  else if covered old bay lo hi then pure ()
  else
    let img : TBits := BitVec.ofNat 8192 (Mem.getN s.mem (1024 * bay) 1024)
    let (set', out) := insertBlock 8 32 old bay lo hi L s.tick pred img
    match findBy (fun b => b.holds bay lo) set' with
    | none => pure ()
    | some b =>
      let secs := ((List.range b.len).map (b.lo + ·)).filter fun i => !old.any fun o => o.holds bay i
      if fetch then (runs secs).forM fun r => l2Bay (s.coreLaunch c) bay r.1 r.2 false
      if fetch ∧ s.pendingIn bay secs then pure ()
      else do
        modCore c fun y => y.mapSet bay fun _ => set'
        out.forM (leaveL1 c)
        let f := bay / 64
        if dir ∧ (s.page f).cls = some none then
          let p := s.page f
          let qs := recordReader (p.readers.get [] c) (bay % 64 * 32 + b.lo) b.len
          setPage f { p with readers := p.readers.set c qs }

/-- Mark the sector of an address used, and its block recently used (R255). -/
def Core.use (x : Core) (now a : Nat) : Core :=
  x.updBlock a fun b => { b with last := now, used := b.used ||| sectorMask (sectorOf a) (sectorOf a) }

/-- The sectors of accesses of a core marked used, as far as its L1 holds them. -/
def useAll (c : Nat) (addrs : List Nat) : M Unit := do
  let now := (← get).tick
  (addrs.foldl (fun l a => insertUp (a / 32) l) []).forM fun x => modCore c fun y => y.use now (32 * x)

/-- Fill the L1 for a list of byte addresses, bay by bay in ascending order (R254, R256). -/
def fillFor (c : Nat) (addrs : List Nat) (L : Option Nat) (pc : W32) (dir : Bool) : M Unit := do
  (bayRanges addrs).forM fun r => do
    let n := L.getD ((← get).core c |>.predicted pc)
    l1Fill c r.1 r.2.1 r.2.2 n (predIndex pc) true dir
  useAll c addrs

/-- A byte as a weak load of context `k`, of groups of `e` bytes, finds it: in the L1 of its core, else in memory. -/
def State.coreByte (s : State) (k e a : Nat) : Byte :=
  match (s.core (coreOf k)).blockAt a with
  | some b => imgByte b.data a
  | none => s.raceByte k false e a

/-- Does the home point of a byte lie in a block of context `k`'s core: one of a page private to it (R85)? -/
def State.homeInL1 (s : State) (k a : Nat) : Bool :=
  s.privateTo (coreOf k) (frameOf a) && ((s.core (coreOf k)).blockAt a).isSome

/-- A byte at its home point for context `k`: its core's L1 while the page is private to it, else memory (R85). -/
def State.homeByte (s : State) (k e a : Nat) : Byte :=
  if s.homeInL1 k a then s.coreByte k e a else s.raceByte k false e a

/-- A strong load of context `k` has read the given addresses, in groups of `e` bytes: its later loads see nothing older
there (R84).  What it found in the L1 holds every write. -/
def learn (k e : Nat) (addrs : List Nat) : M Unit := modify fun s =>
  if s.mp.unperf.isEmpty then s
  else
    let past (a : Nat) (i : Nat) (w : EWrite) : Bool := !s.homeInL1 k a && s.goesPast k false e (a / e) i w
    { s with mp := { s.mp with
        unperf := addrs.foldl (fun ws a => learnByte (past a) k e a 0 false ws) s.mp.unperf } }

/-- `n` bytes by a reader of bytes, as a number. -/
def bytesN (f : Nat → Byte) (a : Nat) : Nat → Nat
  | 0 => 0
  | n + 1 => (f a).toNat + 256 * bytesN f (a + 1) n

/-! ### Stores (R258, R261) -/

/-- A byte of a block changed under a mask. -/
def Block.putByte (b : Block) (a : Nat) (v k : Byte) : Block :=
  let sh := 8 * (a % 1024)
  let new := (imgByte b.data a &&& ~~~k) ||| (v &&& k)
  { b with data := (b.data &&& ~~~((0xFF : TBits) <<< sh)) ||| (new.setWidth 8192 <<< sh) }

/-- A byte of a block of a private page changed: its sector is dirty. -/
def Block.dirtyByte (b : Block) (a : Nat) (v k : Byte) : Block :=
  { b.putByte a v k with dirty := b.dirty ||| sectorMask (sectorOf a) (sectorOf a) }

/-- One cell of a core's store performs: in the L1 where it holds a block of a private page, else at the home L2, which
allocates on every write and whose readers are invalidated (R258). -/
def storeCell (c : Nat) (cell : Nat × Byte × Byte) : M Unit := do
  let (a, b, k) := cell
  let s ← get
  if s.privateTo c (frameOf a) ∧ ((s.core c).blockAt a).isSome then
    modCore c fun x => x.updBlock a fun bl => bl.dirtyByte a b k
  else do
    wrCells [(a, b, k)]
    if s.privateTo c (frameOf a) then l2Bay (s.coreLaunch c) (bayOf a) (sectorOf a) (sectorOf a) true
    sendInvals (some c) a
    modCore c fun x => x.updBlock a fun bl => bl.putByte a b k

/-- A store brings a sector of a private page into the L1: without a fetch where it writes all of it (R258). -/
def allocFor (c : Nat) (pc : W32) (cells : List (Nat × Byte × Byte)) (sec : Nat) : M Unit := do
  let s ← get
  if s.privateTo c (sec / 2048) ∧ (s.core c).sets ≠ 0 then
    let full := decide (32 ≤ (cells.filter fun e => e.1 / 32 == sec && e.2.2 == 0xFF).length)
    l1Fill c (sec / 32) (sec % 32) (sec % 32) 1 (predIndex pc) (!full) false
  else l2Bay (s.coreLaunch c) (sec / 32) (sec % 32) (sec % 32) true

/-- A store of context `k` performs at a single moment (R85). -/
def storeCells (k : Nat) (pc : W32) (cells : List (Nat × Byte × Byte)) : M Unit := do
  let c := coreOf k
  let as := cells.map (·.1)
  cells.forM fun e => do
    needAddr e.1 1
    touchByCore c (frameOf e.1)
  noteStore k as
  (as.foldl (fun l a => insertUp (a / 32) l) []).forM (allocFor c pc cells)
  cells.forM (storeCell c)
  useAll c as

/-! ### Accesses of the engines (R81, R254, R259) -/

/-- An engine of context `k` reaches `n` bytes: those of the truss, class 2, as its core does, any other as an agent that
is no core. -/
def touchByPath (k : Nat) (cls : BitVec 3) (a n : Nat) : M Unit :=
  if cls = 2 then
    (List.range (n / 65536 + 2)).forM fun i =>
      let f := a / 65536 + i
      if f * 65536 < a + n then touchByCore (coreOf k) f else pure ()
  else touchByEngine a n

/-- An engine's write at the home L2s, its old bytes kept for racing readers (R81); a block of a private page that the
core's L1 holds is changed there.  `dir`: the directory keeps a class for the page, which is none of an append tensor. -/
def engineWrite (k : Nat) (cls : BitVec 3) (id : Nat) (dir : Bool) (a n v : Nat) : M Unit := do
  if dir then touchByPath k cls a n
  let c := coreOf k
  wrEngine k cls id a n v
  let l := ((← get).ctx k).launch
  l2Range l a n true
  (List.range (n / 32 + 2)).forM fun i =>
    if 32 * (a / 32 + i) < a + n then sendInvals none (32 * (a / 32 + i)) else pure ()
  if cls = 2 then
    (List.range n).forM fun i => do
      if (← get).privateTo c (frameOf (a + i)) then
        modCore c fun x => x.updBlock (a + i) fun b => b.dirtyByte (a + i) (BitVec.ofNat 8 (v / 2 ^ (8 * i))) 0xFF

/-- An engine's read at the home L2s. -/
def engineRead (k : Nat) (cls : BitVec 3) (dir : Bool) (a n : Nat) : M Nat := do
  if dir then touchByPath k cls a n
  l2Range ((← get).ctx k).launch a n false
  rdA k (cls == 2) a n

/-- A page returns to untouched (R259). -/
def pageReset (f : Nat) : M Unit := modMp fun mp => { mp with dirs := mp.dirs.erase f }

end Sys2Proof.Machine
end

