-- ==== Sys2Proof/Decode.lean ====
section
/-!
DEFINITION. Sys2Proof/Decode.lean: from words to instructions and back (R17 to R37, R287).

`decodeSlot` reads a 32-bit slot word and `decodeMicro` a 64-bit micro-word; both are total and reject
by name.  `encodeSlot` and `encodeMicro` write the words from the same layouts.  A word is a `Nat`
below 2^32 (or 2^64): a field is then a quotient and a remainder.  Which register numbers and field
values a form accepts (R19, R20) is the business of WellFormed.lean; fixed zero bits are checked here.
-/

namespace Sys2Proof

/-- Why a word is no instruction. -/
inductive DecodeError where
  /-- The lane and opcode, or the micro-op value, are not assigned (R27, R34, R36). -/
  | unassigned
  /-- A bit that the layout fixes at zero is one (R20, R35). -/
  | reservedField
  deriving DecidableEq, Repr

/-- The field of `n` bits at bit `lo` of the word `w`. -/
def bf (n lo w : Nat) : BitVec n := BitVec.ofNat n (w / 2 ^ lo)

/-- The lanes of a bundle, by the value of the lane field (R17). -/
inductive Lane where
  | C | A | S | V | W | X | E | J
  deriving DecidableEq, Repr

/-- The lane named by the lane field [30:28] (R17). -/
def Lane.ofField : Nat → Lane
  | 0 => .C | 1 => .A | 2 => .S | 3 => .V | 4 => .W | 5 => .X | 6 => .E | _ => .J

/-- The value of the lane field (R17). -/
def Lane.code : Lane → Nat
  | .C => 0 | .A => 1 | .S => 2 | .V => 3 | .W => 4 | .X => 5 | .E => 6 | .J => 7

/-- V and W lane secondary opcodes, in the sub field of the escape 0x3F (R27, R30). -/
noncomputable def decodeEscape (l : VW) (w : Nat) : Nat → Except DecodeError Instr
  | 0 => .ok (.vabs l (bf 5 13 w) (bf 5 8 w) (bf 3 0 w))
  | 1 => .ok (.vneg l (bf 5 13 w) (bf 5 8 w) (bf 3 0 w))
  | 2 => .ok (.vrcp l (bf 5 13 w) (bf 5 8 w) (bf 3 0 w))
  | 3 => .ok (.vrsq l (bf 5 13 w) (bf 5 8 w) (bf 3 0 w))
  | 4 => .ok (.vexp2 l (bf 5 13 w) (bf 5 8 w) (bf 3 0 w))
  | 5 => .ok (.vlog2 l (bf 5 13 w) (bf 5 8 w) (bf 3 0 w))
  | 6 => .ok (.vtanh l (bf 5 13 w) (bf 5 8 w) (bf 3 0 w))
  | 7 => .ok (.vmov l (bf 5 13 w) (bf 5 8 w) (bf 3 0 w))
  | 8 => .ok (.vabsI l (bf 5 13 w) (bf 5 8 w) (bf 3 0 w))
  | 9 => .ok (.vnegI l (bf 5 13 w) (bf 5 8 w) (bf 3 0 w))
  | 10 => .ok (.vredAdd l (bf 5 13 w) (bf 5 8 w) (bf 3 0 w))
  | 11 => .ok (.vredMax l (bf 5 13 w) (bf 5 8 w) (bf 3 0 w))
  | 12 => .ok (.vredMin l (bf 5 13 w) (bf 5 8 w) (bf 3 0 w))
  | 13 => .ok (.vscanAdd l (bf 5 13 w) (bf 5 8 w) (bf 3 0 w))
  | 14 => .ok (.vscanMax l (bf 5 13 w) (bf 5 8 w) (bf 3 0 w))
  | 15 => if w / 256 % 32 == 0 then .ok (.vidx l (bf 5 13 w) (bf 3 0 w)) else .error .reservedField
  | _ => .error .unassigned

/-- C lane opcodes (R28). -/
noncomputable def decodeC (w : Nat) : Nat → Except DecodeError Instr
  | 1 => .ok (.br (bf 18 0 w))
  | 2 => if w / 1 % 256 == 0 && w / 8192 % 32 == 0 then .ok (.brx (bf 5 8 w)) else .error .reservedField
  | 3 => .ok (.call (bf 18 0 w))
  | 4 => if w / 1 % 256 == 0 && w / 8192 % 32 == 0 then .ok (.callR (bf 5 8 w)) else .error .reservedField
  | 5 => if w / 1 % 262144 == 0 then .ok .ret else .error .reservedField
  | 6 => .ok (.loop (bf 11 7 w) (bf 7 0 w))
  | 7 => if w / 4096 % 64 == 0 then .ok (.loopR (bf 5 7 w) (bf 7 0 w)) else .error .reservedField
  | 8 => .ok (.loopRot (bf 11 7 w) (bf 7 0 w))
  | 9 => if w / 4096 % 64 == 0 then .ok (.loopRotR (bf 5 7 w) (bf 7 0 w)) else .error .reservedField
  | 10 => if w / 8192 % 32 == 0 then .ok (.brk (bf 13 0 w)) else .error .reservedField
  | 11 => if w / 1 % 256 == 0 && w / 8192 % 32 == 0 then .ok (.brkR (bf 5 8 w)) else .error .reservedField
  | 12 => if w / 16 % 512 == 0 then .ok (.lidx (bf 5 13 w) (bf 1 3 w) (bf 3 0 w)) else .error .reservedField
  | 13 => if w / 2 % 128 == 0 then .ok (.fmtR (bf 5 13 w) (bf 5 8 w) (bf 1 0 w)) else .error .reservedField
  | 14 => if w / 4096 % 64 == 0 then .ok (.fmtV (bf 1 11 w) (bf 1 10 w) (bf 2 8 w) (bf 4 4 w) (bf 4 0 w)) else .error .reservedField
  | 15 => if w / 128 % 2048 == 0 then .ok (.fmtX (bf 1 6 w) (bf 3 3 w) (bf 3 0 w)) else .error .reservedField
  | 16 => .ok (.lift (bf 6 12 w) (bf 12 0 w))
  | 17 => if w / 1 % 8 == 0 && w / 8192 % 32 == 0 then .ok (.liftR (bf 5 8 w) (bf 5 3 w)) else .error .reservedField
  | 18 => if w / 1 % 262144 == 0 then .ok .lret else .error .reservedField
  | 19 => .ok (.bifP (bf 4 14 w) (bf 14 0 w))
  | 20 => if w / 131072 % 2 == 0 then .ok (.bifM (bf 3 14 w) (bf 14 0 w)) else .error .reservedField
  | 21 => if w / 16384 % 16 == 0 then .ok (.belse (bf 14 0 w)) else .error .reservedField
  | 22 => if w / 1 % 262144 == 0 then .ok .bjoin else .error .reservedField
  | 23 => if w / 8192 % 32 == 0 then .ok (.trap (bf 13 0 w)) else .error .reservedField
  | 24 => if w / 1 % 256 == 0 && w / 8192 % 32 == 0 then .ok (.trapR (bf 5 8 w)) else .error .reservedField
  | 25 => if w / 8192 % 32 == 0 then .ok (.svc (bf 13 0 w)) else .error .reservedField
  | 26 => if w / 1 % 262144 == 0 then .ok .eret else .error .reservedField
  | 27 => if w / 1 % 262144 == 0 then .ok .park else .error .reservedField
  | 28 => if w / 8192 % 32 == 0 then .ok (.abort (bf 13 0 w)) else .error .reservedField
  | 29 => if w / 1 % 256 == 0 && w / 8192 % 32 == 0 then .ok (.abortR (bf 5 8 w)) else .error .reservedField
  | 30 => if w / 1 % 262144 == 0 then .ok .abchk else .error .reservedField
  | 31 => if w / 16384 % 16 == 0 then .ok (.mark (bf 14 0 w)) else .error .reservedField
  | 32 => if w / 4096 % 64 == 0 then .ok (.join (bf 8 4 w) (bf 4 0 w)) else .error .reservedField
  | 33 => if w / 1 % 256 == 0 && w / 8192 % 32 == 0 then .ok (.joinR (bf 5 8 w)) else .error .reservedField
  | 34 => if w / 8192 % 32 == 0 then .ok (.ckpt (bf 13 0 w)) else .error .reservedField
  | 35 => if w / 1 % 256 == 0 && w / 8192 % 32 == 0 then .ok (.ckptR (bf 5 8 w)) else .error .reservedField
  | 36 => if w / 8192 % 32 == 0 then .ok (.ckrs (bf 13 0 w)) else .error .reservedField
  | 37 => if w / 1 % 256 == 0 && w / 8192 % 32 == 0 then .ok (.ckrsR (bf 5 8 w)) else .error .reservedField
  | 38 => if w / 16 % 16384 == 0 then .ok (.phase (bf 4 0 w)) else .error .reservedField
  | 39 => if w / 1 % 256 == 0 && w / 8192 % 32 == 0 then .ok (.phaseR (bf 5 8 w)) else .error .reservedField
  | 40 => if w / 1 % 262144 == 0 then .ok .halt else .error .reservedField
  | _ => .error .unassigned

/-- A lane opcodes (R31). -/
noncomputable def decodeA (w : Nat) : Nat → Except DecodeError Instr
  | 1 => if w / 1 % 256 == 0 && w / 2048 % 32 == 0 then .ok (.tld (bf 2 16 w) (bf 3 8 w)) else .error .reservedField
  | 2 => if w / 1 % 256 == 0 && w / 8192 % 8 == 0 then .ok (.tldR (bf 2 16 w) (bf 5 8 w)) else .error .reservedField
  | 3 => if w / 1 % 16 == 0 && w / 2048 % 32 == 0 then .ok (.tlds (bf 2 16 w) (bf 3 8 w) (bf 3 5 w) (bf 1 4 w)) else .error .reservedField
  | 4 => if w / 1 % 16 == 0 && w / 8192 % 8 == 0 then .ok (.tldsR (bf 2 16 w) (bf 5 8 w) (bf 3 5 w) (bf 1 4 w)) else .error .reservedField
  | 5 => if w / 1 % 2 == 0 && w / 16 % 16 == 0 && w / 2048 % 4 == 0 then .ok (.tst (bf 5 13 w) (bf 3 8 w) (bf 1 3 w) (bf 2 1 w)) else .error .reservedField
  | 6 => if w / 1 % 2 == 0 && w / 16 % 16 == 0 then .ok (.tstR (bf 5 13 w) (bf 5 8 w) (bf 1 3 w) (bf 2 1 w)) else .error .reservedField
  | 7 => if w / 1 % 2 == 0 && w / 8 % 2 == 0 && w / 2048 % 4 == 0 then .ok (.tsts (bf 5 13 w) (bf 3 8 w) (bf 3 5 w) (bf 1 4 w) (bf 2 1 w)) else .error .reservedField
  | 8 => if w / 1 % 2 == 0 && w / 8 % 2 == 0 then .ok (.tstsR (bf 5 13 w) (bf 5 8 w) (bf 3 5 w) (bf 1 4 w) (bf 2 1 w)) else .error .reservedField
  | 9 => if w / 1 % 256 == 0 && w / 2048 % 32 == 0 then .ok (.spld (bf 2 16 w) (bf 3 8 w)) else .error .reservedField
  | 10 => if w / 1 % 256 == 0 && w / 8192 % 8 == 0 then .ok (.spldR (bf 2 16 w) (bf 5 8 w)) else .error .reservedField
  | 11 => if w / 1 % 2 == 0 && w / 8 % 32 == 0 && w / 2048 % 4 == 0 then .ok (.spst (bf 5 13 w) (bf 3 8 w) (bf 2 1 w)) else .error .reservedField
  | 12 => if w / 1 % 2 == 0 && w / 8 % 32 == 0 then .ok (.spstR (bf 5 13 w) (bf 5 8 w) (bf 2 1 w)) else .error .reservedField
  | 13 => if w / 1 % 2 == 0 && w / 2048 % 4 == 0 then .ok (.amoAdd (bf 5 13 w) (bf 3 8 w) (bf 3 5 w) (bf 2 3 w) (bf 1 2 w) (bf 1 1 w)) else .error .reservedField
  | 14 => if w / 1 % 2 == 0 && w / 2048 % 4 == 0 then .ok (.amoAnd (bf 5 13 w) (bf 3 8 w) (bf 3 5 w) (bf 2 3 w) (bf 1 2 w) (bf 1 1 w)) else .error .reservedField
  | 15 => if w / 1 % 2 == 0 && w / 2048 % 4 == 0 then .ok (.amoOr (bf 5 13 w) (bf 3 8 w) (bf 3 5 w) (bf 2 3 w) (bf 1 2 w) (bf 1 1 w)) else .error .reservedField
  | 16 => if w / 1 % 2 == 0 && w / 2048 % 4 == 0 then .ok (.amoXor (bf 5 13 w) (bf 3 8 w) (bf 3 5 w) (bf 2 3 w) (bf 1 2 w) (bf 1 1 w)) else .error .reservedField
  | 17 => if w / 1 % 2 == 0 && w / 2048 % 4 == 0 then .ok (.amoMin (bf 5 13 w) (bf 3 8 w) (bf 3 5 w) (bf 2 3 w) (bf 1 2 w) (bf 1 1 w)) else .error .reservedField
  | 18 => if w / 1 % 2 == 0 && w / 2048 % 4 == 0 then .ok (.amoMax (bf 5 13 w) (bf 3 8 w) (bf 3 5 w) (bf 2 3 w) (bf 1 2 w) (bf 1 1 w)) else .error .reservedField
  | 19 => if w / 1 % 2 == 0 && w / 2048 % 4 == 0 then .ok (.amoSwp (bf 5 13 w) (bf 3 8 w) (bf 3 5 w) (bf 2 3 w) (bf 1 2 w) (bf 1 1 w)) else .error .reservedField
  | 20 => if w / 1 % 8 == 0 && w / 2048 % 4 == 0 then .ok (.cas (bf 5 13 w) (bf 3 8 w) (bf 3 5 w) (bf 2 3 w)) else .error .reservedField
  | 21 => if w / 1 % 8 == 0 && w / 2048 % 4 == 0 then .ok (.casD (bf 5 13 w) (bf 3 8 w) (bf 3 5 w) (bf 2 3 w)) else .error .reservedField
  | 22 => if w / 1 % 2 == 0 && w / 8 % 32 == 0 && w / 2048 % 4 == 0 then .ok (.fst (bf 5 13 w) (bf 3 8 w) (bf 2 1 w)) else .error .reservedField
  | 23 => if w / 1 % 2 == 0 && w / 8 % 32 == 0 then .ok (.fstR (bf 5 13 w) (bf 5 8 w) (bf 2 1 w)) else .error .reservedField
  | 24 => if w / 1 % 16 == 0 && w / 2048 % 32 == 0 then .ok (.fldt (bf 2 16 w) (bf 3 8 w) (bf 4 4 w)) else .error .reservedField
  | 25 => if w / 1 % 16 == 0 && w / 8192 % 8 == 0 then .ok (.fldtR (bf 2 16 w) (bf 5 8 w) (bf 4 4 w)) else .error .reservedField
  | 26 => if w / 1 % 2 == 0 && w / 2048 % 4 == 0 then .ok (.append (bf 5 13 w) (bf 3 8 w) (bf 3 5 w) (bf 1 4 w) (bf 1 3 w) (bf 2 1 w)) else .error .reservedField
  | 27 => if w / 1 % 2 == 0 then .ok (.appendR (bf 5 13 w) (bf 5 8 w) (bf 3 5 w) (bf 1 4 w) (bf 1 3 w) (bf 2 1 w)) else .error .reservedField
  | 28 => if w / 1 % 8 == 0 && w / 16 % 16 == 0 && w / 2048 % 128 == 0 then .ok (.seal (bf 3 8 w) (bf 1 3 w)) else .error .reservedField
  | 29 => if w / 64 % 128 == 0 && w / 65536 % 4 == 0 then .ok (.span (bf 3 13 w) (bf 6 0 w)) else .error .reservedField
  | 30 => if w / 1 % 8192 == 0 && w / 65536 % 4 == 0 then .ok (.spanClr (bf 3 13 w)) else .error .reservedField
  | 31 => if w / 1 % 8 == 0 && w / 8192 % 32 == 0 then .ok (.flushr (bf 5 8 w) (bf 5 3 w)) else .error .reservedField
  | 32 => if w / 1 % 8 == 0 && w / 8192 % 32 == 0 then .ok (.flushrD (bf 5 8 w) (bf 5 3 w)) else .error .reservedField
  | 33 => if w / 2 % 4 == 0 && w / 8192 % 32 == 0 then .ok (.invr (bf 5 8 w) (bf 5 3 w) (bf 1 0 w)) else .error .reservedField
  | 34 => if w / 1 % 256 == 0 && w / 8192 % 32 == 0 then .ok (.invrTt (bf 5 8 w)) else .error .reservedField
  | 35 => if w / 1 % 256 == 0 && w / 2048 % 128 == 0 then .ok (.pref (bf 3 8 w)) else .error .reservedField
  | 36 => if w / 1 % 256 == 0 && w / 2048 % 128 == 0 then .ok (.prefL2 (bf 3 8 w)) else .error .reservedField
  | 37 => if w / 1 % 32 == 0 && w / 256 % 1024 == 0 then .ok (.fence (bf 3 5 w)) else .error .reservedField
  | 38 => if w / 1 % 32 == 0 && w / 256 % 1024 == 0 then .ok (.fenceSt (bf 3 5 w)) else .error .reservedField
  | 39 => if w / 1 % 256 == 0 && w / 2048 % 4 == 0 && w / 65536 % 4 == 0 then .ok (.xfence (bf 3 13 w) (bf 3 8 w)) else .error .reservedField
  | 40 => if w / 1 % 32 == 0 && w / 256 % 1024 == 0 then .ok (.drain (bf 3 5 w)) else .error .reservedField
  | 41 => if w / 1 % 256 == 0 && w / 65536 % 4 == 0 then .ok (.aiterH (bf 3 13 w) (bf 5 8 w)) else .error .reservedField
  | 42 => if w / 1 % 16 == 0 && w / 32 % 8 == 0 && w / 65536 % 4 == 0 then .ok (.aiterB (bf 3 13 w) (bf 5 8 w) (bf 1 4 w)) else .error .reservedField
  | 43 => if w / 1 % 16 == 0 && w / 65536 % 4 == 0 then .ok (.aiterS (bf 3 13 w) (bf 5 8 w) (bf 3 5 w) (bf 1 4 w)) else .error .reservedField
  | 44 => if w / 1 % 8 == 0 && w / 2048 % 4 == 0 then .ok (.aiterRd (bf 5 13 w) (bf 3 8 w) (bf 5 3 w)) else .error .reservedField
  | 45 => if w / 64 % 128 == 0 && w / 65536 % 4 == 0 then .ok (.airev (bf 3 13 w) (bf 6 0 w)) else .error .reservedField
  | 46 => if w / 1 % 256 == 0 && w / 2048 % 4 == 0 then .ok (.tdsc (bf 5 13 w) (bf 3 8 w)) else .error .reservedField
  | 47 => if w / 1 % 256 == 0 && w / 131072 % 2 == 0 then .ok (.tdscQ (bf 4 13 w) (bf 5 8 w)) else .error .reservedField
  | 48 => if w / 1 % 8 == 0 && w / 131072 % 2 == 0 then .ok (.tdscW (bf 4 13 w) (bf 5 8 w) (bf 5 3 w)) else .error .reservedField
  | _ => .error .unassigned

/-- S lane opcodes (R29). -/
noncomputable def decodeS (w : Nat) : Nat → Except DecodeError Instr
  | 1 => if w / 1 % 8 == 0 then .ok (.add (bf 5 13 w) (bf 5 8 w) (bf 5 3 w)) else .error .reservedField
  | 2 => if w / 1 % 8 == 0 then .ok (.addW (bf 5 13 w) (bf 5 8 w) (bf 5 3 w)) else .error .reservedField
  | 3 => if w / 1 % 8 == 0 then .ok (.sub (bf 5 13 w) (bf 5 8 w) (bf 5 3 w)) else .error .reservedField
  | 4 => if w / 1 % 8 == 0 then .ok (.subW (bf 5 13 w) (bf 5 8 w) (bf 5 3 w)) else .error .reservedField
  | 5 => if w / 1 % 8 == 0 then .ok (.mul (bf 5 13 w) (bf 5 8 w) (bf 5 3 w)) else .error .reservedField
  | 6 => if w / 1 % 8 == 0 then .ok (.mulW (bf 5 13 w) (bf 5 8 w) (bf 5 3 w)) else .error .reservedField
  | 7 => if w / 1 % 8 == 0 then .ok (.mulh (bf 5 13 w) (bf 5 8 w) (bf 5 3 w)) else .error .reservedField
  | 8 => if w / 1 % 8 == 0 then .ok (.mulhU (bf 5 13 w) (bf 5 8 w) (bf 5 3 w)) else .error .reservedField
  | 9 => if w / 1 % 8 == 0 then .ok (.div (bf 5 13 w) (bf 5 8 w) (bf 5 3 w)) else .error .reservedField
  | 10 => if w / 1 % 8 == 0 then .ok (.divU (bf 5 13 w) (bf 5 8 w) (bf 5 3 w)) else .error .reservedField
  | 11 => if w / 1 % 8 == 0 then .ok (.rem (bf 5 13 w) (bf 5 8 w) (bf 5 3 w)) else .error .reservedField
  | 12 => if w / 1 % 8 == 0 then .ok (.remU (bf 5 13 w) (bf 5 8 w) (bf 5 3 w)) else .error .reservedField
  | 13 => if w / 1 % 8 == 0 then .ok (.and (bf 5 13 w) (bf 5 8 w) (bf 5 3 w)) else .error .reservedField
  | 14 => if w / 1 % 8 == 0 then .ok (.or (bf 5 13 w) (bf 5 8 w) (bf 5 3 w)) else .error .reservedField
  | 15 => if w / 1 % 8 == 0 then .ok (.xor (bf 5 13 w) (bf 5 8 w) (bf 5 3 w)) else .error .reservedField
  | 16 => if w / 1 % 8 == 0 then .ok (.andn (bf 5 13 w) (bf 5 8 w) (bf 5 3 w)) else .error .reservedField
  | 17 => if w / 1 % 8 == 0 then .ok (.shl (bf 5 13 w) (bf 5 8 w) (bf 5 3 w)) else .error .reservedField
  | 18 => if w / 1 % 8 == 0 then .ok (.shlW (bf 5 13 w) (bf 5 8 w) (bf 5 3 w)) else .error .reservedField
  | 19 => if w / 1 % 8 == 0 then .ok (.shr (bf 5 13 w) (bf 5 8 w) (bf 5 3 w)) else .error .reservedField
  | 20 => if w / 1 % 8 == 0 then .ok (.shrW (bf 5 13 w) (bf 5 8 w) (bf 5 3 w)) else .error .reservedField
  | 21 => if w / 1 % 8 == 0 then .ok (.sar (bf 5 13 w) (bf 5 8 w) (bf 5 3 w)) else .error .reservedField
  | 22 => if w / 1 % 8 == 0 then .ok (.sarW (bf 5 13 w) (bf 5 8 w) (bf 5 3 w)) else .error .reservedField
  | 23 => if w / 1 % 8 == 0 then .ok (.min (bf 5 13 w) (bf 5 8 w) (bf 5 3 w)) else .error .reservedField
  | 24 => if w / 1 % 8 == 0 then .ok (.minU (bf 5 13 w) (bf 5 8 w) (bf 5 3 w)) else .error .reservedField
  | 25 => if w / 1 % 8 == 0 then .ok (.max (bf 5 13 w) (bf 5 8 w) (bf 5 3 w)) else .error .reservedField
  | 26 => if w / 1 % 8 == 0 then .ok (.maxU (bf 5 13 w) (bf 5 8 w) (bf 5 3 w)) else .error .reservedField
  | 27 => if w / 1 % 256 == 0 then .ok (.clz (bf 5 13 w) (bf 5 8 w)) else .error .reservedField
  | 28 => if w / 1 % 256 == 0 then .ok (.clzW (bf 5 13 w) (bf 5 8 w)) else .error .reservedField
  | 29 => if w / 1 % 256 == 0 then .ok (.popc (bf 5 13 w) (bf 5 8 w)) else .error .reservedField
  | 30 => if w / 1 % 256 == 0 then .ok (.popcW (bf 5 13 w) (bf 5 8 w)) else .error .reservedField
  | 31 => if w / 1 % 8 == 0 then .ok (.bfx (bf 5 13 w) (bf 5 8 w) (bf 5 3 w)) else .error .reservedField
  | 32 => if w / 1 % 8 == 0 then .ok (.bfxU (bf 5 13 w) (bf 5 8 w) (bf 5 3 w)) else .error .reservedField
  | 33 => if w / 1 % 8 == 0 then .ok (.bfi (bf 5 13 w) (bf 5 8 w) (bf 5 3 w)) else .error .reservedField
  | 34 => if w / 1 % 8 == 0 then .ok (.bfiW (bf 5 13 w) (bf 5 8 w) (bf 5 3 w)) else .error .reservedField
  | 35 => .ok (.sel (bf 5 13 w) (bf 5 8 w) (bf 5 3 w) (bf 3 0 w))
  | 36 => .ok (.movi (bf 5 13 w) (bf 13 0 w))
  | 37 => .ok (.movs (bf 5 13 w) (bf 13 0 w))
  | 38 => .ok (.addi (bf 5 13 w) (bf 5 8 w) (bf 8 0 w))
  | 39 => .ok (.andi (bf 5 13 w) (bf 5 8 w) (bf 8 0 w))
  | 40 => .ok (.ori (bf 5 13 w) (bf 5 8 w) (bf 8 0 w))
  | 41 => .ok (.xori (bf 5 13 w) (bf 5 8 w) (bf 8 0 w))
  | 42 => .ok (.muli (bf 5 13 w) (bf 5 8 w) (bf 8 0 w))
  | 43 => .ok (.shli (bf 5 13 w) (bf 5 8 w) (bf 8 0 w))
  | 44 => .ok (.shri (bf 5 13 w) (bf 5 8 w) (bf 8 0 w))
  | 45 => .ok (.sari (bf 5 13 w) (bf 5 8 w) (bf 8 0 w))
  | 46 => .ok (.cmpEq (bf 4 14 w) (bf 4 10 w) (bf 5 5 w) (bf 5 0 w))
  | 47 => .ok (.cmpNe (bf 4 14 w) (bf 4 10 w) (bf 5 5 w) (bf 5 0 w))
  | 48 => .ok (.cmpLt (bf 4 14 w) (bf 4 10 w) (bf 5 5 w) (bf 5 0 w))
  | 49 => .ok (.cmpLe (bf 4 14 w) (bf 4 10 w) (bf 5 5 w) (bf 5 0 w))
  | 50 => .ok (.cmpGt (bf 4 14 w) (bf 4 10 w) (bf 5 5 w) (bf 5 0 w))
  | 51 => .ok (.cmpGe (bf 4 14 w) (bf 4 10 w) (bf 5 5 w) (bf 5 0 w))
  | 52 => .ok (.cmpLtu (bf 4 14 w) (bf 4 10 w) (bf 5 5 w) (bf 5 0 w))
  | 53 => .ok (.cmpGeu (bf 4 14 w) (bf 4 10 w) (bf 5 5 w) (bf 5 0 w))
  | 54 => if w / 1 % 64 == 0 then .ok (.pand (bf 4 14 w) (bf 4 10 w) (bf 4 6 w)) else .error .reservedField
  | 55 => if w / 1 % 64 == 0 then .ok (.por (bf 4 14 w) (bf 4 10 w) (bf 4 6 w)) else .error .reservedField
  | 56 => if w / 1 % 1024 == 0 then .ok (.pnot (bf 4 14 w) (bf 4 10 w)) else .error .reservedField
  | _ => .error .unassigned

/-- V and W lane primary opcodes (R30). -/
noncomputable def decodeV (l : VW) (w : Nat) : Nat → Except DecodeError Instr
  | 1 => .ok (.vadd l (bf 5 13 w) (bf 5 8 w) (bf 5 3 w) (bf 3 0 w))
  | 2 => .ok (.vsub l (bf 5 13 w) (bf 5 8 w) (bf 5 3 w) (bf 3 0 w))
  | 3 => .ok (.vmul l (bf 5 13 w) (bf 5 8 w) (bf 5 3 w) (bf 3 0 w))
  | 4 => .ok (.vfma l (bf 5 13 w) (bf 5 8 w) (bf 5 3 w) (bf 3 0 w))
  | 5 => .ok (.vfms l (bf 5 13 w) (bf 5 8 w) (bf 5 3 w) (bf 3 0 w))
  | 6 => .ok (.vmin l (bf 5 13 w) (bf 5 8 w) (bf 5 3 w) (bf 3 0 w))
  | 7 => .ok (.vmax l (bf 5 13 w) (bf 5 8 w) (bf 5 3 w) (bf 3 0 w))
  | 8 => .ok (.vaddI l (bf 5 13 w) (bf 5 8 w) (bf 8 0 w))
  | 9 => .ok (.vmulI l (bf 5 13 w) (bf 5 8 w) (bf 8 0 w))
  | 10 => .ok (.vminI l (bf 5 13 w) (bf 5 8 w) (bf 8 0 w))
  | 11 => .ok (.vmaxI l (bf 5 13 w) (bf 5 8 w) (bf 8 0 w))
  | 12 => if w / 8 % 32 == 0 then .ok (.vcvt l (bf 5 13 w) (bf 5 8 w) (bf 3 0 w)) else .error .reservedField
  | 13 => .ok (.vcvtLo l (bf 5 13 w) (bf 5 8 w) (bf 5 3 w) (bf 3 0 w))
  | 14 => .ok (.vcvtHi l (bf 5 13 w) (bf 5 8 w) (bf 5 3 w) (bf 3 0 w))
  | 15 => .ok (.vcmpEq l (bf 5 13 w) (bf 5 8 w) (bf 5 3 w) (bf 3 0 w))
  | 16 => .ok (.vcmpNe l (bf 5 13 w) (bf 5 8 w) (bf 5 3 w) (bf 3 0 w))
  | 17 => .ok (.vcmpLt l (bf 5 13 w) (bf 5 8 w) (bf 5 3 w) (bf 3 0 w))
  | 18 => .ok (.vcmpLe l (bf 5 13 w) (bf 5 8 w) (bf 5 3 w) (bf 3 0 w))
  | 19 => .ok (.vcmpGt l (bf 5 13 w) (bf 5 8 w) (bf 5 3 w) (bf 3 0 w))
  | 20 => .ok (.vcmpGe l (bf 5 13 w) (bf 5 8 w) (bf 5 3 w) (bf 3 0 w))
  | 21 => .ok (.vcmpUn l (bf 5 13 w) (bf 5 8 w) (bf 5 3 w) (bf 3 0 w))
  | 22 => .ok (.vcmpOrd l (bf 5 13 w) (bf 5 8 w) (bf 5 3 w) (bf 3 0 w))
  | 23 => .ok (.vcmpIeq l (bf 5 13 w) (bf 5 8 w) (bf 5 3 w) (bf 3 0 w))
  | 24 => .ok (.vcmpIne l (bf 5 13 w) (bf 5 8 w) (bf 5 3 w) (bf 3 0 w))
  | 25 => .ok (.vcmpIlt l (bf 5 13 w) (bf 5 8 w) (bf 5 3 w) (bf 3 0 w))
  | 26 => .ok (.vcmpIltu l (bf 5 13 w) (bf 5 8 w) (bf 5 3 w) (bf 3 0 w))
  | 27 => .ok (.vsel l (bf 5 13 w) (bf 5 8 w) (bf 5 3 w) (bf 3 0 w))
  | 28 => .ok (.viadd l (bf 5 13 w) (bf 5 8 w) (bf 5 3 w) (bf 3 0 w))
  | 29 => .ok (.viaddS l (bf 5 13 w) (bf 5 8 w) (bf 5 3 w) (bf 3 0 w))
  | 30 => .ok (.visub l (bf 5 13 w) (bf 5 8 w) (bf 5 3 w) (bf 3 0 w))
  | 31 => .ok (.visubS l (bf 5 13 w) (bf 5 8 w) (bf 5 3 w) (bf 3 0 w))
  | 32 => .ok (.vimul l (bf 5 13 w) (bf 5 8 w) (bf 5 3 w) (bf 3 0 w))
  | 33 => .ok (.vimulH l (bf 5 13 w) (bf 5 8 w) (bf 5 3 w) (bf 3 0 w))
  | 34 => .ok (.vand l (bf 5 13 w) (bf 5 8 w) (bf 5 3 w) (bf 3 0 w))
  | 35 => .ok (.vor l (bf 5 13 w) (bf 5 8 w) (bf 5 3 w) (bf 3 0 w))
  | 36 => .ok (.vxor l (bf 5 13 w) (bf 5 8 w) (bf 5 3 w) (bf 3 0 w))
  | 37 => .ok (.vshl l (bf 5 13 w) (bf 5 8 w) (bf 5 3 w) (bf 3 0 w))
  | 38 => .ok (.vshr l (bf 5 13 w) (bf 5 8 w) (bf 5 3 w) (bf 3 0 w))
  | 39 => .ok (.vsar l (bf 5 13 w) (bf 5 8 w) (bf 5 3 w) (bf 3 0 w))
  | 40 => .ok (.vandI l (bf 5 13 w) (bf 5 8 w) (bf 8 0 w))
  | 41 => .ok (.vorI l (bf 5 13 w) (bf 5 8 w) (bf 8 0 w))
  | 42 => .ok (.vxorI l (bf 5 13 w) (bf 5 8 w) (bf 8 0 w))
  | 43 => .ok (.vshlI l (bf 5 13 w) (bf 5 8 w) (bf 8 0 w))
  | 44 => .ok (.vshrI l (bf 5 13 w) (bf 5 8 w) (bf 8 0 w))
  | 45 => .ok (.vsarI l (bf 5 13 w) (bf 5 8 w) (bf 8 0 w))
  | 46 => .ok (.vperm l (bf 5 13 w) (bf 5 8 w) (bf 5 3 w) (bf 3 0 w))
  | 47 => .ok (.vpermI l (bf 5 13 w) (bf 5 8 w) (bf 8 0 w))
  | 48 => .ok (.vredAx l (bf 5 13 w) (bf 5 8 w) (bf 5 3 w) (bf 3 0 w))
  | 49 => .ok (.vpack l (bf 5 13 w) (bf 5 8 w) (bf 5 3 w) (bf 3 0 w))
  | 50 => if w / 8 % 32 == 0 then .ok (.vunpkLo l (bf 5 13 w) (bf 5 8 w) (bf 3 0 w)) else .error .reservedField
  | 51 => if w / 8 % 32 == 0 then .ok (.vunpkHi l (bf 5 13 w) (bf 5 8 w) (bf 3 0 w)) else .error .reservedField
  | 52 => .ok (.vmxqE l (bf 5 13 w) (bf 5 8 w) (bf 5 3 w) (bf 3 0 w))
  | 53 => .ok (.vmxqB l (bf 5 13 w) (bf 5 8 w) (bf 5 3 w) (bf 3 0 w))
  | 54 => if w / 8 % 1024 == 0 then .ok (.vrng l (bf 5 13 w) (bf 3 0 w)) else .error .reservedField
  | 55 => if w / 8 % 1024 == 0 then .ok (.vrngU l (bf 5 13 w) (bf 3 0 w)) else .error .reservedField
  | 56 => .ok (.mlog l (bf 5 13 w) (bf 5 8 w) (bf 5 3 w) (bf 3 0 w))
  | 63 => decodeEscape l w (w / 8 % 32)
  | _ => .error .unassigned

/-- X lane opcodes (R32). -/
noncomputable def decodeX (w : Nat) : Nat → Except DecodeError Instr
  | 1 => if w / 64 % 4096 == 0 then .ok (.xcall (bf 6 0 w)) else .error .reservedField
  | 2 => if w / 1 % 256 == 0 && w / 8192 % 32 == 0 then .ok (.xcallR (bf 5 8 w)) else .error .reservedField
  | 3 => .ok (.xset (bf 5 13 w) (bf 13 0 w))
  | 4 => .ok (.xsetR (bf 5 13 w) (bf 5 8 w) (bf 8 0 w))
  | 5 => if w / 1 % 8192 == 0 then .ok (.xzero (bf 5 13 w)) else .error .reservedField
  | 6 => if w / 1 % 262144 == 0 then .ok .xzeroAll else .error .reservedField
  | 7 => if w / 1 % 256 == 0 then .ok (.xacc (bf 5 13 w) (bf 5 8 w)) else .error .reservedField
  | 8 => if w / 1 % 256 == 0 then .ok (.xaccSub (bf 5 13 w) (bf 5 8 w)) else .error .reservedField
  | 9 => if w / 1 % 256 == 0 then .ok (.xaccMov (bf 5 13 w) (bf 5 8 w)) else .error .reservedField
  | 10 => .ok (.xdcy (bf 5 13 w) (bf 13 0 w))
  | 11 => if w / 1 % 256 == 0 then .ok (.xdcyR (bf 5 13 w) (bf 5 8 w)) else .error .reservedField
  | 12 => if w / 1 % 8 == 0 && w / 8192 % 32 == 0 then .ok (.xspl (bf 5 8 w) (bf 5 3 w)) else .error .reservedField
  | 13 => if w / 1 % 8192 == 0 then .ok (.xfil (bf 5 13 w)) else .error .reservedField
  | 14 => .ok (.xwait (bf 5 13 w) (bf 13 0 w))
  | 15 => if w / 1 % 262144 == 0 then .ok .xwaitAll else .error .reservedField
  | 16 => if w / 1 % 256 == 0 && w / 8192 % 32 == 0 then .ok (.xldm (bf 5 8 w)) else .error .reservedField
  | _ => .error .unassigned

/-- E lane opcodes (R33). -/
noncomputable def decodeE (w : Nat) : Nat → Except DecodeError Instr
  | 1 => if w / 1 % 8 == 0 && w / 8192 % 2 == 0 then .ok (.escl (bf 1 17 w) (bf 3 14 w) (bf 5 8 w) (bf 5 3 w)) else .error .reservedField
  | 2 => if w / 256 % 64 == 0 then .ok (.esclI (bf 1 17 w) (bf 3 14 w) (bf 8 0 w)) else .error .reservedField
  | 3 => if w / 1 % 8 == 0 && w / 8192 % 32 == 0 then .ok (.escm (bf 5 8 w) (bf 5 3 w)) else .error .reservedField
  | 4 => if w / 1 % 8 == 0 && w / 8192 % 32 == 0 then .ok (.escmSt (bf 5 8 w) (bf 5 3 w)) else .error .reservedField
  | 5 => if w / 1 % 256 == 0 && w / 8192 % 32 == 0 then .ok (.ebfx (bf 5 8 w)) else .error .reservedField
  | 6 => if w / 1 % 262144 == 0 then .ok .ebfxClr else .error .reservedField
  | 7 => if w / 1 % 256 == 0 && w / 8192 % 32 == 0 then .ok (.cpy (bf 5 8 w)) else .error .reservedField
  | 8 => if w / 1 % 256 == 0 && w / 8192 % 32 == 0 then .ok (.cpyBf (bf 5 8 w)) else .error .reservedField
  | 9 => if w / 8 % 1024 == 0 then .ok (.cpyw (bf 5 13 w) (bf 3 0 w)) else .error .reservedField
  | 10 => if w / 1 % 262144 == 0 then .ok .cpywAll else .error .reservedField
  | 11 => if w / 1 % 256 == 0 && w / 8192 % 32 == 0 then .ok (.put (bf 5 8 w)) else .error .reservedField
  | 12 => if w / 1 % 256 == 0 && w / 8192 % 32 == 0 then .ok (.putH (bf 5 8 w)) else .error .reservedField
  | 13 => if w / 1 % 256 == 0 && w / 8192 % 32 == 0 then .ok (.putSmp (bf 5 8 w)) else .error .reservedField
  | 14 => if w / 1 % 256 == 0 && w / 8192 % 32 == 0 then .ok (.putm (bf 5 8 w)) else .error .reservedField
  | 15 => if w / 1 % 256 == 0 && w / 8192 % 32 == 0 then .ok (.putmS (bf 5 8 w)) else .error .reservedField
  | 16 => if w / 1 % 256 == 0 && w / 8192 % 32 == 0 then .ok (.collAr (bf 5 8 w)) else .error .reservedField
  | 17 => if w / 1 % 256 == 0 && w / 8192 % 32 == 0 then .ok (.collRs (bf 5 8 w)) else .error .reservedField
  | 18 => if w / 1 % 256 == 0 && w / 8192 % 32 == 0 then .ok (.collAg (bf 5 8 w)) else .error .reservedField
  | 19 => if w / 1 % 256 == 0 && w / 8192 % 32 == 0 then .ok (.collRsf (bf 5 8 w)) else .error .reservedField
  | 20 => if w / 8 % 1024 == 0 then .ok (.collw (bf 5 13 w) (bf 3 0 w)) else .error .reservedField
  | 21 => if w / 1 % 8 == 0 && w / 8192 % 32 == 0 then .ok (.grp (bf 5 8 w) (bf 5 3 w)) else .error .reservedField
  | 22 => if w / 1 % 256 == 0 && w / 8192 % 32 == 0 then .ok (.grpEx (bf 5 8 w)) else .error .reservedField
  | 23 => if w / 1 % 256 == 0 then .ok (.grpQ (bf 5 13 w) (bf 5 8 w)) else .error .reservedField
  | 24 => if w / 1 % 8 == 0 && w / 8192 % 32 == 0 then .ok (.sems (bf 5 8 w) (bf 5 3 w)) else .error .reservedField
  | 25 => .ok (.semsI (bf 5 13 w) (bf 13 0 w))
  | 26 => if w / 1 % 8 == 0 && w / 8192 % 32 == 0 then .ok (.semw (bf 5 8 w) (bf 5 3 w)) else .error .reservedField
  | 27 => .ok (.semwI (bf 5 13 w) (bf 13 0 w))
  | 28 => if w / 1 % 8 == 0 && w / 8192 % 32 == 0 then .ok (.qpush (bf 5 8 w) (bf 5 3 w)) else .error .reservedField
  | 29 => if w / 256 % 32 == 0 then .ok (.qpushI (bf 5 13 w) (bf 8 0 w)) else .error .reservedField
  | 30 => if w / 1 % 256 == 0 && w / 8192 % 32 == 0 then .ok (.ftick (bf 5 8 w)) else .error .reservedField
  | 31 => if w / 1 % 256 == 0 && w / 8192 % 32 == 0 then .ok (.ftickW (bf 5 8 w)) else .error .reservedField
  | 32 => if w / 1 % 256 == 0 && w / 8192 % 32 == 0 then .ok (.fdisc (bf 5 8 w)) else .error .reservedField
  | 33 => if w / 1 % 8 == 0 && w / 8192 % 32 == 0 then .ok (.fdiscR (bf 5 8 w) (bf 5 3 w)) else .error .reservedField
  | 34 => if w / 1 % 8 == 0 then .ok (.fexp (bf 5 13 w) (bf 5 8 w) (bf 5 3 w)) else .error .reservedField
  | 35 => if w / 1 % 8 == 0 then .ok (.fexpF (bf 5 13 w) (bf 5 8 w) (bf 5 3 w)) else .error .reservedField
  | 36 => if w / 1 % 8 == 0 && w / 8192 % 32 == 0 then .ok (.fbank (bf 5 8 w) (bf 5 3 w)) else .error .reservedField
  | 37 => if w / 2 % 128 == 0 then .ok (.fbankRd (bf 5 13 w) (bf 5 8 w) (bf 1 0 w)) else .error .reservedField
  | 38 => if w / 1 % 256 == 0 && w / 8192 % 32 == 0 then .ok (.emonSt (bf 5 8 w)) else .error .reservedField
  | 39 => if w / 1 % 256 == 0 && w / 8192 % 32 == 0 then .ok (.emonSp (bf 5 8 w)) else .error .reservedField
  | 40 => if w / 1 % 256 == 0 then .ok (.emonRd (bf 5 13 w) (bf 5 8 w)) else .error .reservedField
  | _ => .error .unassigned

/-- J lane opcodes (R29). -/
noncomputable def decodeJ (w : Nat) : Nat → Except DecodeError Instr
  | 1 => if w / 1 % 4 == 0 then .ok (.jmov (bf 5 13 w) (bf 5 8 w) (bf 3 5 w) (bf 3 2 w)) else .error .reservedField
  | 2 => if w / 1 % 4 == 0 then .ok (.jmovV (bf 5 13 w) (bf 5 8 w) (bf 3 5 w) (bf 3 2 w)) else .error .reservedField
  | 3 => if w / 1 % 4 == 0 then .ok (.jspl32 (bf 5 13 w) (bf 5 8 w) (bf 3 5 w) (bf 3 2 w)) else .error .reservedField
  | 4 => if w / 1 % 4 == 0 then .ok (.jspl16 (bf 5 13 w) (bf 5 8 w) (bf 3 5 w) (bf 3 2 w)) else .error .reservedField
  | 5 => if w / 1 % 4 == 0 then .ok (.jspl8 (bf 5 13 w) (bf 5 8 w) (bf 3 5 w) (bf 3 2 w)) else .error .reservedField
  | 6 => if w / 1 % 2 == 0 then .ok (.jext (bf 5 13 w) (bf 5 8 w) (bf 6 2 w) (bf 1 1 w)) else .error .reservedField
  | 7 => if w / 1 % 32 == 0 && w / 256 % 32 == 0 then .ok (.jpm (bf 5 13 w) (bf 3 5 w)) else .error .reservedField
  | 8 => if w / 1 % 4 == 0 then .ok (.jmk (bf 5 13 w) (bf 5 8 w) (bf 3 5 w) (bf 3 2 w)) else .error .reservedField
  | _ => .error .unassigned

/-- The form of a non-void slot word: its lane picks the opcode table (R17, R27). -/
noncomputable def decodeForm (w : Nat) : Except DecodeError Instr :=
  match Lane.ofField (w / 2 ^ 28 % 8) with
  | .C => decodeC w (w / 2 ^ 18 % 64)
  | .A => decodeA w (w / 2 ^ 18 % 64)
  | .S => decodeS w (w / 2 ^ 18 % 64)
  | .V => decodeV .v w (w / 2 ^ 18 % 64)
  | .W => decodeV .w w (w / 2 ^ 18 % 64)
  | .X => decodeX w (w / 2 ^ 18 % 64)
  | .E => decodeE w (w / 2 ^ 18 % 64)
  | .J => decodeJ w (w / 2 ^ 18 % 64)

/-- Is the word a void slot: opcode 0 on any lane (R22)? -/
def isVoidWord (w : Nat) : Bool := w / 2 ^ 18 % 64 == 0

/-- The stop bit of a slot word (R17). -/
def stopBit (w : Nat) : Bool := w / 2 ^ 31 % 2 == 1

/-- A slot word decoded: `none` for a void slot (R17, R22, R36). -/
noncomputable def decodeSlot (w : Nat) : Except DecodeError (Option Slot) :=
  if isVoidWord w then .ok none
  else match decodeForm w with
    | .ok i => .ok (some { stop := stopBit w, guard := bf 4 24 w, ins := i })
    | .error e => .error e

/-- A 64-bit micro-word decoded (R34, R287): the opcode in [63:58]. -/
def decodeMicro (w : Nat) : Except DecodeError Instr :=
  match w / 2 ^ 58 % 64 with
  | 1 => if w / 1 % 4 == 0 then .ok (.mgathA (bf 1 57 w) (bf 3 54 w) (bf 16 38 w) (bf 12 26 w) (bf 12 14 w) (bf 12 2 w)) else .error .reservedField
  | 2 => if w / 1 % 4 == 0 then .ok (.mgathB (bf 1 57 w) (bf 3 54 w) (bf 16 38 w) (bf 12 26 w) (bf 12 14 w) (bf 12 2 w)) else .error .reservedField
  | 3 => if w / 1 % 4 == 0 then .ok (.mgathAt (bf 1 57 w) (bf 3 54 w) (bf 16 38 w) (bf 12 26 w) (bf 12 14 w) (bf 12 2 w)) else .error .reservedField
  | 4 => if w / 1 % 4 == 0 then .ok (.mgathBt (bf 1 57 w) (bf 3 54 w) (bf 16 38 w) (bf 12 26 w) (bf 12 14 w) (bf 12 2 w)) else .error .reservedField
  | 5 => if w / 1 % 144115188075855872 == 0 then .ok (.mldbA (bf 1 57 w)) else .error .reservedField
  | 6 => if w / 1 % 144115188075855872 == 0 then .ok (.mldbB (bf 1 57 w)) else .error .reservedField
  | 7 => if w / 1 % 70368744177664 == 0 then .ok (.mmacI8 (bf 1 57 w) (bf 1 56 w) (bf 4 52 w) (bf 3 49 w) (bf 3 46 w)) else .error .reservedField
  | 8 => if w / 1 % 70368744177664 == 0 then .ok (.mmacI6 (bf 1 57 w) (bf 1 56 w) (bf 4 52 w) (bf 3 49 w) (bf 3 46 w)) else .error .reservedField
  | 9 => if w / 1 % 70368744177664 == 0 then .ok (.mmacI4 (bf 1 57 w) (bf 1 56 w) (bf 4 52 w) (bf 3 49 w) (bf 3 46 w)) else .error .reservedField
  | 10 => if w / 1 % 70368744177664 == 0 then .ok (.mmacF4 (bf 1 57 w) (bf 1 56 w) (bf 4 52 w) (bf 3 49 w) (bf 3 46 w)) else .error .reservedField
  | 11 => if w / 1 % 70368744177664 == 0 then .ok (.mmacI16 (bf 1 57 w) (bf 1 56 w) (bf 4 52 w) (bf 3 49 w) (bf 3 46 w)) else .error .reservedField
  | 12 => if w / 1 % 70368744177664 == 0 then .ok (.mmacF (bf 1 57 w) (bf 1 56 w) (bf 4 52 w) (bf 3 49 w) (bf 3 46 w)) else .error .reservedField
  | 13 => if w / 1 % 70368744177664 == 0 then .ok (.mmacFZ (bf 1 57 w) (bf 1 56 w) (bf 4 52 w) (bf 3 49 w) (bf 3 46 w)) else .error .reservedField
  | 14 => if w / 1 % 8589934592 == 0 then .ok (.mmacFD (bf 1 57 w) (bf 1 56 w) (bf 4 52 w) (bf 3 49 w) (bf 3 46 w) (bf 13 33 w)) else .error .reservedField
  | 15 => if w / 1 % 8589934592 == 0 then .ok (.msclA (bf 3 55 w) (bf 16 39 w) (bf 3 36 w) (bf 3 33 w)) else .error .reservedField
  | 16 => if w / 1 % 8589934592 == 0 then .ok (.msclB (bf 3 55 w) (bf 16 39 w) (bf 3 36 w) (bf 3 33 w)) else .error .reservedField
  | 17 => if w / 1 % 8589934592 == 0 then .ok (.msclAb (bf 3 55 w) (bf 16 39 w) (bf 3 36 w) (bf 3 33 w)) else .error .reservedField
  | 18 => if w / 1 % 288230376151711744 == 0 then .ok .msclClr else .error .reservedField
  | 19 => if w / 1 % 1099511627776 == 0 then .ok (.mscmA (bf 12 46 w) (bf 3 43 w) (bf 3 40 w)) else .error .reservedField
  | 20 => if w / 1 % 1099511627776 == 0 then .ok (.mscmB (bf 12 46 w) (bf 3 43 w) (bf 3 40 w)) else .error .reservedField
  | 21 => if w / 1 % 1099511627776 == 0 then .ok (.mscmAb (bf 12 46 w) (bf 3 43 w) (bf 3 40 w)) else .error .reservedField
  | 22 => if w / 1 % 1099511627776 == 0 then .ok (.mscmSt (bf 12 46 w) (bf 3 43 w) (bf 3 40 w)) else .error .reservedField
  | 23 => if w / 1 % 1125899906842624 == 0 then .ok (.maccAdd (bf 4 54 w) (bf 4 50 w)) else .error .reservedField
  | 24 => if w / 1 % 1125899906842624 == 0 then .ok (.maccSub (bf 4 54 w) (bf 4 50 w)) else .error .reservedField
  | 25 => if w / 1 % 1125899906842624 == 0 then .ok (.maccMov (bf 4 54 w) (bf 4 50 w)) else .error .reservedField
  | 26 => if w / 1 % 137438953472 == 0 && w / 1125899906842624 % 16 == 0 then .ok (.maccDcy (bf 4 54 w) (bf 13 37 w)) else .error .reservedField
  | 27 => if w / 1 % 1125899906842624 == 0 then .ok (.maccMax (bf 4 54 w) (bf 4 50 w)) else .error .reservedField
  | 28 => if w / 1 % 18014398509481984 == 0 then .ok (.maccZero (bf 4 54 w)) else .error .reservedField
  | 29 => if w / 1 % 8388608 == 0 then .ok (.mcvtBf16 (bf 4 54 w) (bf 3 51 w) (bf 16 35 w) (bf 12 23 w)) else .error .reservedField
  | 30 => if w / 1 % 8388608 == 0 then .ok (.mcvtF16 (bf 4 54 w) (bf 3 51 w) (bf 16 35 w) (bf 12 23 w)) else .error .reservedField
  | 31 => if w / 1 % 8388608 == 0 then .ok (.mcvtE4m3 (bf 4 54 w) (bf 3 51 w) (bf 16 35 w) (bf 12 23 w)) else .error .reservedField
  | 32 => if w / 1 % 8388608 == 0 then .ok (.mcvtE5m2 (bf 4 54 w) (bf 3 51 w) (bf 16 35 w) (bf 12 23 w)) else .error .reservedField
  | 33 => if w / 1 % 17179869184 == 0 then .ok (.mloop (bf 12 46 w) (bf 12 34 w)) else .error .reservedField
  | 34 => if w / 1 % 17179869184 == 0 && w / 70368744177664 % 512 == 0 then .ok (.mloopP (bf 3 55 w) (bf 12 34 w)) else .error .reservedField
  | 35 => if w / 1 % 17179869184 == 0 && w / 70368744177664 % 512 == 0 then .ok (.mloopK (bf 3 55 w) (bf 12 34 w)) else .error .reservedField
  | 36 => if w / 1 % 288230376151711744 == 0 then .ok .mend else .error .reservedField
  | 37 => if w / 1 % 288230376151711744 == 0 then .ok .msyncG else .error .reservedField
  | 38 => if w / 1 % 288230376151711744 == 0 then .ok .msyncS else .error .reservedField
  | 39 => if w / 1 % 288230376151711744 == 0 then .ok .msyncAll else .error .reservedField
  | 40 => if w / 1 % 288230376151711744 == 0 then .ok .mnop else .error .reservedField
  | _ => .error .unassigned

/-- The lane of a V or W form. -/
def VW.lane : VW → Lane
  | .v => .V
  | .w => .W

/-- The lane a slot form stands on (R28 to R33); a micro-op or an event stands on none. -/
def Instr.lane : Instr → Option Lane
  | .br _ => some .C
  | .brx _ => some .C
  | .call _ => some .C
  | .callR _ => some .C
  | .ret => some .C
  | .loop _ _ => some .C
  | .loopR _ _ => some .C
  | .loopRot _ _ => some .C
  | .loopRotR _ _ => some .C
  | .brk _ => some .C
  | .brkR _ => some .C
  | .lidx _ _ _ => some .C
  | .fmtR _ _ _ => some .C
  | .fmtV _ _ _ _ _ => some .C
  | .fmtX _ _ _ => some .C
  | .lift _ _ => some .C
  | .liftR _ _ => some .C
  | .lret => some .C
  | .bifP _ _ => some .C
  | .bifM _ _ => some .C
  | .belse _ => some .C
  | .bjoin => some .C
  | .trap _ => some .C
  | .trapR _ => some .C
  | .svc _ => some .C
  | .eret => some .C
  | .park => some .C
  | .abort _ => some .C
  | .abortR _ => some .C
  | .abchk => some .C
  | .mark _ => some .C
  | .join _ _ => some .C
  | .joinR _ => some .C
  | .ckpt _ => some .C
  | .ckptR _ => some .C
  | .ckrs _ => some .C
  | .ckrsR _ => some .C
  | .phase _ => some .C
  | .phaseR _ => some .C
  | .halt => some .C
  | .add _ _ _ => some .S
  | .addW _ _ _ => some .S
  | .sub _ _ _ => some .S
  | .subW _ _ _ => some .S
  | .mul _ _ _ => some .S
  | .mulW _ _ _ => some .S
  | .mulh _ _ _ => some .S
  | .mulhU _ _ _ => some .S
  | .div _ _ _ => some .S
  | .divU _ _ _ => some .S
  | .rem _ _ _ => some .S
  | .remU _ _ _ => some .S
  | .and _ _ _ => some .S
  | .or _ _ _ => some .S
  | .xor _ _ _ => some .S
  | .andn _ _ _ => some .S
  | .shl _ _ _ => some .S
  | .shlW _ _ _ => some .S
  | .shr _ _ _ => some .S
  | .shrW _ _ _ => some .S
  | .sar _ _ _ => some .S
  | .sarW _ _ _ => some .S
  | .min _ _ _ => some .S
  | .minU _ _ _ => some .S
  | .max _ _ _ => some .S
  | .maxU _ _ _ => some .S
  | .clz _ _ => some .S
  | .clzW _ _ => some .S
  | .popc _ _ => some .S
  | .popcW _ _ => some .S
  | .bfx _ _ _ => some .S
  | .bfxU _ _ _ => some .S
  | .bfi _ _ _ => some .S
  | .bfiW _ _ _ => some .S
  | .sel _ _ _ _ => some .S
  | .movi _ _ => some .S
  | .movs _ _ => some .S
  | .addi _ _ _ => some .S
  | .andi _ _ _ => some .S
  | .ori _ _ _ => some .S
  | .xori _ _ _ => some .S
  | .muli _ _ _ => some .S
  | .shli _ _ _ => some .S
  | .shri _ _ _ => some .S
  | .sari _ _ _ => some .S
  | .cmpEq _ _ _ _ => some .S
  | .cmpNe _ _ _ _ => some .S
  | .cmpLt _ _ _ _ => some .S
  | .cmpLe _ _ _ _ => some .S
  | .cmpGt _ _ _ _ => some .S
  | .cmpGe _ _ _ _ => some .S
  | .cmpLtu _ _ _ _ => some .S
  | .cmpGeu _ _ _ _ => some .S
  | .pand _ _ _ => some .S
  | .por _ _ _ => some .S
  | .pnot _ _ => some .S
  | .jmov _ _ _ _ => some .J
  | .jmovV _ _ _ _ => some .J
  | .jspl32 _ _ _ _ => some .J
  | .jspl16 _ _ _ _ => some .J
  | .jspl8 _ _ _ _ => some .J
  | .jext _ _ _ _ => some .J
  | .jpm _ _ => some .J
  | .jmk _ _ _ _ => some .J
  | .vadd l _ _ _ _ => some l.lane
  | .vsub l _ _ _ _ => some l.lane
  | .vmul l _ _ _ _ => some l.lane
  | .vfma l _ _ _ _ => some l.lane
  | .vfms l _ _ _ _ => some l.lane
  | .vmin l _ _ _ _ => some l.lane
  | .vmax l _ _ _ _ => some l.lane
  | .vaddI l _ _ _ => some l.lane
  | .vmulI l _ _ _ => some l.lane
  | .vminI l _ _ _ => some l.lane
  | .vmaxI l _ _ _ => some l.lane
  | .vcvt l _ _ _ => some l.lane
  | .vcvtLo l _ _ _ _ => some l.lane
  | .vcvtHi l _ _ _ _ => some l.lane
  | .vcmpEq l _ _ _ _ => some l.lane
  | .vcmpNe l _ _ _ _ => some l.lane
  | .vcmpLt l _ _ _ _ => some l.lane
  | .vcmpLe l _ _ _ _ => some l.lane
  | .vcmpGt l _ _ _ _ => some l.lane
  | .vcmpGe l _ _ _ _ => some l.lane
  | .vcmpUn l _ _ _ _ => some l.lane
  | .vcmpOrd l _ _ _ _ => some l.lane
  | .vcmpIeq l _ _ _ _ => some l.lane
  | .vcmpIne l _ _ _ _ => some l.lane
  | .vcmpIlt l _ _ _ _ => some l.lane
  | .vcmpIltu l _ _ _ _ => some l.lane
  | .vsel l _ _ _ _ => some l.lane
  | .viadd l _ _ _ _ => some l.lane
  | .viaddS l _ _ _ _ => some l.lane
  | .visub l _ _ _ _ => some l.lane
  | .visubS l _ _ _ _ => some l.lane
  | .vimul l _ _ _ _ => some l.lane
  | .vimulH l _ _ _ _ => some l.lane
  | .vand l _ _ _ _ => some l.lane
  | .vor l _ _ _ _ => some l.lane
  | .vxor l _ _ _ _ => some l.lane
  | .vshl l _ _ _ _ => some l.lane
  | .vshr l _ _ _ _ => some l.lane
  | .vsar l _ _ _ _ => some l.lane
  | .vandI l _ _ _ => some l.lane
  | .vorI l _ _ _ => some l.lane
  | .vxorI l _ _ _ => some l.lane
  | .vshlI l _ _ _ => some l.lane
  | .vshrI l _ _ _ => some l.lane
  | .vsarI l _ _ _ => some l.lane
  | .vperm l _ _ _ _ => some l.lane
  | .vpermI l _ _ _ => some l.lane
  | .vredAx l _ _ _ _ => some l.lane
  | .vpack l _ _ _ _ => some l.lane
  | .vunpkLo l _ _ _ => some l.lane
  | .vunpkHi l _ _ _ => some l.lane
  | .vmxqE l _ _ _ _ => some l.lane
  | .vmxqB l _ _ _ _ => some l.lane
  | .vrng l _ _ => some l.lane
  | .vrngU l _ _ => some l.lane
  | .mlog l _ _ _ _ => some l.lane
  | .vabs l _ _ _ => some l.lane
  | .vneg l _ _ _ => some l.lane
  | .vrcp l _ _ _ => some l.lane
  | .vrsq l _ _ _ => some l.lane
  | .vexp2 l _ _ _ => some l.lane
  | .vlog2 l _ _ _ => some l.lane
  | .vtanh l _ _ _ => some l.lane
  | .vmov l _ _ _ => some l.lane
  | .vabsI l _ _ _ => some l.lane
  | .vnegI l _ _ _ => some l.lane
  | .vredAdd l _ _ _ => some l.lane
  | .vredMax l _ _ _ => some l.lane
  | .vredMin l _ _ _ => some l.lane
  | .vscanAdd l _ _ _ => some l.lane
  | .vscanMax l _ _ _ => some l.lane
  | .vidx l _ _ => some l.lane
  | .tld _ _ => some .A
  | .tldR _ _ => some .A
  | .tlds _ _ _ _ => some .A
  | .tldsR _ _ _ _ => some .A
  | .tst _ _ _ _ => some .A
  | .tstR _ _ _ _ => some .A
  | .tsts _ _ _ _ _ => some .A
  | .tstsR _ _ _ _ _ => some .A
  | .spld _ _ => some .A
  | .spldR _ _ => some .A
  | .spst _ _ _ => some .A
  | .spstR _ _ _ => some .A
  | .amoAdd _ _ _ _ _ _ => some .A
  | .amoAnd _ _ _ _ _ _ => some .A
  | .amoOr _ _ _ _ _ _ => some .A
  | .amoXor _ _ _ _ _ _ => some .A
  | .amoMin _ _ _ _ _ _ => some .A
  | .amoMax _ _ _ _ _ _ => some .A
  | .amoSwp _ _ _ _ _ _ => some .A
  | .cas _ _ _ _ => some .A
  | .casD _ _ _ _ => some .A
  | .fst _ _ _ => some .A
  | .fstR _ _ _ => some .A
  | .fldt _ _ _ => some .A
  | .fldtR _ _ _ => some .A
  | .append _ _ _ _ _ _ => some .A
  | .appendR _ _ _ _ _ _ => some .A
  | .seal _ _ => some .A
  | .span _ _ => some .A
  | .spanClr _ => some .A
  | .flushr _ _ => some .A
  | .flushrD _ _ => some .A
  | .invr _ _ _ => some .A
  | .invrTt _ => some .A
  | .pref _ => some .A
  | .prefL2 _ => some .A
  | .fence _ => some .A
  | .fenceSt _ => some .A
  | .xfence _ _ => some .A
  | .drain _ => some .A
  | .aiterH _ _ => some .A
  | .aiterB _ _ _ => some .A
  | .aiterS _ _ _ _ => some .A
  | .aiterRd _ _ _ => some .A
  | .airev _ _ => some .A
  | .tdsc _ _ => some .A
  | .tdscQ _ _ => some .A
  | .tdscW _ _ _ => some .A
  | .xcall _ => some .X
  | .xcallR _ => some .X
  | .xset _ _ => some .X
  | .xsetR _ _ _ => some .X
  | .xzero _ => some .X
  | .xzeroAll => some .X
  | .xacc _ _ => some .X
  | .xaccSub _ _ => some .X
  | .xaccMov _ _ => some .X
  | .xdcy _ _ => some .X
  | .xdcyR _ _ => some .X
  | .xspl _ _ => some .X
  | .xfil _ => some .X
  | .xwait _ _ => some .X
  | .xwaitAll => some .X
  | .xldm _ => some .X
  | .escl _ _ _ _ => some .E
  | .esclI _ _ _ => some .E
  | .escm _ _ => some .E
  | .escmSt _ _ => some .E
  | .ebfx _ => some .E
  | .ebfxClr => some .E
  | .cpy _ => some .E
  | .cpyBf _ => some .E
  | .cpyw _ _ => some .E
  | .cpywAll => some .E
  | .put _ => some .E
  | .putH _ => some .E
  | .putSmp _ => some .E
  | .putm _ => some .E
  | .putmS _ => some .E
  | .collAr _ => some .E
  | .collRs _ => some .E
  | .collAg _ => some .E
  | .collRsf _ => some .E
  | .collw _ _ => some .E
  | .grp _ _ => some .E
  | .grpEx _ => some .E
  | .grpQ _ _ => some .E
  | .sems _ _ => some .E
  | .semsI _ _ => some .E
  | .semw _ _ => some .E
  | .semwI _ _ => some .E
  | .qpush _ _ => some .E
  | .qpushI _ _ => some .E
  | .ftick _ => some .E
  | .ftickW _ => some .E
  | .fdisc _ => some .E
  | .fdiscR _ _ => some .E
  | .fexp _ _ _ => some .E
  | .fexpF _ _ _ => some .E
  | .fbank _ _ => some .E
  | .fbankRd _ _ _ => some .E
  | .emonSt _ => some .E
  | .emonSp _ => some .E
  | .emonRd _ _ => some .E
  | _ => none

/-- A field put at bit `lo` of a word. -/
def fAt {n : Nat} (x : BitVec n) (lo rest : Nat) : Nat := x.toNat * 2 ^ lo + rest

/-- Opcode and operand bits of a slot form, lane, guard and stop left out (R18, R27 to R33); 0, the
void opcode, for what is no slot form. -/
def encodeOperands : Instr → Nat
  | .br i => fAt i 0 262144
  | .brx a => fAt a 8 524288
  | .call i => fAt i 0 786432
  | .callR a => fAt a 8 1048576
  | .ret => 1310720
  | .loop n k => fAt k 0 (fAt n 7 1572864)
  | .loopR c k => fAt k 0 (fAt c 7 1835008)
  | .loopRot n k => fAt k 0 (fAt n 7 2097152)
  | .loopRotR c k => fAt k 0 (fAt c 7 2359296)
  | .brk i => fAt i 0 2621440
  | .brkR a => fAt a 8 2883584
  | .lidx d c v => fAt v 0 (fAt c 3 (fAt d 13 3145728))
  | .fmtR d a w => fAt w 0 (fAt a 8 (fAt d 13 3407872))
  | .fmtV z t r d v => fAt v 0 (fAt d 4 (fAt r 8 (fAt t 10 (fAt z 11 3670016))))
  | .fmtX c b a => fAt a 0 (fAt b 3 (fAt c 6 3932160))
  | .lift n i => fAt i 0 (fAt n 12 4194304)
  | .liftR a b => fAt b 3 (fAt a 8 4456448)
  | .lret => 4718592
  | .bifP p i => fAt i 0 (fAt p 14 4980736)
  | .bifM m i => fAt i 0 (fAt m 14 5242880)
  | .belse i => fAt i 0 5505024
  | .bjoin => 5767168
  | .trap i => fAt i 0 6029312
  | .trapR a => fAt a 8 6291456
  | .svc i => fAt i 0 6553600
  | .eret => 6815744
  | .park => 7077888
  | .abort i => fAt i 0 7340032
  | .abortR a => fAt a 8 7602176
  | .abchk => 7864320
  | .mark i => fAt i 0 8126464
  | .join n r => fAt r 0 (fAt n 4 8388608)
  | .joinR a => fAt a 8 8650752
  | .ckpt i => fAt i 0 8912896
  | .ckptR a => fAt a 8 9175040
  | .ckrs i => fAt i 0 9437184
  | .ckrsR a => fAt a 8 9699328
  | .phase n => fAt n 0 9961472
  | .phaseR a => fAt a 8 10223616
  | .halt => 10485760
  | .add d a b => fAt b 3 (fAt a 8 (fAt d 13 262144))
  | .addW d a b => fAt b 3 (fAt a 8 (fAt d 13 524288))
  | .sub d a b => fAt b 3 (fAt a 8 (fAt d 13 786432))
  | .subW d a b => fAt b 3 (fAt a 8 (fAt d 13 1048576))
  | .mul d a b => fAt b 3 (fAt a 8 (fAt d 13 1310720))
  | .mulW d a b => fAt b 3 (fAt a 8 (fAt d 13 1572864))
  | .mulh d a b => fAt b 3 (fAt a 8 (fAt d 13 1835008))
  | .mulhU d a b => fAt b 3 (fAt a 8 (fAt d 13 2097152))
  | .div d a b => fAt b 3 (fAt a 8 (fAt d 13 2359296))
  | .divU d a b => fAt b 3 (fAt a 8 (fAt d 13 2621440))
  | .rem d a b => fAt b 3 (fAt a 8 (fAt d 13 2883584))
  | .remU d a b => fAt b 3 (fAt a 8 (fAt d 13 3145728))
  | .and d a b => fAt b 3 (fAt a 8 (fAt d 13 3407872))
  | .or d a b => fAt b 3 (fAt a 8 (fAt d 13 3670016))
  | .xor d a b => fAt b 3 (fAt a 8 (fAt d 13 3932160))
  | .andn d a b => fAt b 3 (fAt a 8 (fAt d 13 4194304))
  | .shl d a b => fAt b 3 (fAt a 8 (fAt d 13 4456448))
  | .shlW d a b => fAt b 3 (fAt a 8 (fAt d 13 4718592))
  | .shr d a b => fAt b 3 (fAt a 8 (fAt d 13 4980736))
  | .shrW d a b => fAt b 3 (fAt a 8 (fAt d 13 5242880))
  | .sar d a b => fAt b 3 (fAt a 8 (fAt d 13 5505024))
  | .sarW d a b => fAt b 3 (fAt a 8 (fAt d 13 5767168))
  | .min d a b => fAt b 3 (fAt a 8 (fAt d 13 6029312))
  | .minU d a b => fAt b 3 (fAt a 8 (fAt d 13 6291456))
  | .max d a b => fAt b 3 (fAt a 8 (fAt d 13 6553600))
  | .maxU d a b => fAt b 3 (fAt a 8 (fAt d 13 6815744))
  | .clz d a => fAt a 8 (fAt d 13 7077888)
  | .clzW d a => fAt a 8 (fAt d 13 7340032)
  | .popc d a => fAt a 8 (fAt d 13 7602176)
  | .popcW d a => fAt a 8 (fAt d 13 7864320)
  | .bfx d a b => fAt b 3 (fAt a 8 (fAt d 13 8126464))
  | .bfxU d a b => fAt b 3 (fAt a 8 (fAt d 13 8388608))
  | .bfi d a b => fAt b 3 (fAt a 8 (fAt d 13 8650752))
  | .bfiW d a b => fAt b 3 (fAt a 8 (fAt d 13 8912896))
  | .sel d a b p => fAt p 0 (fAt b 3 (fAt a 8 (fAt d 13 9175040)))
  | .movi d i => fAt i 0 (fAt d 13 9437184)
  | .movs d i => fAt i 0 (fAt d 13 9699328)
  | .addi d a i => fAt i 0 (fAt a 8 (fAt d 13 9961472))
  | .andi d a i => fAt i 0 (fAt a 8 (fAt d 13 10223616))
  | .ori d a i => fAt i 0 (fAt a 8 (fAt d 13 10485760))
  | .xori d a i => fAt i 0 (fAt a 8 (fAt d 13 10747904))
  | .muli d a i => fAt i 0 (fAt a 8 (fAt d 13 11010048))
  | .shli d a i => fAt i 0 (fAt a 8 (fAt d 13 11272192))
  | .shri d a i => fAt i 0 (fAt a 8 (fAt d 13 11534336))
  | .sari d a i => fAt i 0 (fAt a 8 (fAt d 13 11796480))
  | .cmpEq p e a b => fAt b 0 (fAt a 5 (fAt e 10 (fAt p 14 12058624)))
  | .cmpNe p e a b => fAt b 0 (fAt a 5 (fAt e 10 (fAt p 14 12320768)))
  | .cmpLt p e a b => fAt b 0 (fAt a 5 (fAt e 10 (fAt p 14 12582912)))
  | .cmpLe p e a b => fAt b 0 (fAt a 5 (fAt e 10 (fAt p 14 12845056)))
  | .cmpGt p e a b => fAt b 0 (fAt a 5 (fAt e 10 (fAt p 14 13107200)))
  | .cmpGe p e a b => fAt b 0 (fAt a 5 (fAt e 10 (fAt p 14 13369344)))
  | .cmpLtu p e a b => fAt b 0 (fAt a 5 (fAt e 10 (fAt p 14 13631488)))
  | .cmpGeu p e a b => fAt b 0 (fAt a 5 (fAt e 10 (fAt p 14 13893632)))
  | .pand p a b => fAt b 6 (fAt a 10 (fAt p 14 14155776))
  | .por p a b => fAt b 6 (fAt a 10 (fAt p 14 14417920))
  | .pnot p a => fAt a 10 (fAt p 14 14680064)
  | .jmov d a x y => fAt y 2 (fAt x 5 (fAt a 8 (fAt d 13 262144)))
  | .jmovV d a x y => fAt y 2 (fAt x 5 (fAt a 8 (fAt d 13 524288)))
  | .jspl32 d a x y => fAt y 2 (fAt x 5 (fAt a 8 (fAt d 13 786432)))
  | .jspl16 d a x y => fAt y 2 (fAt x 5 (fAt a 8 (fAt d 13 1048576)))
  | .jspl8 d a x y => fAt y 2 (fAt x 5 (fAt a 8 (fAt d 13 1310720)))
  | .jext d a e f => fAt f 1 (fAt e 2 (fAt a 8 (fAt d 13 1572864)))
  | .jpm d x => fAt x 5 (fAt d 13 1835008)
  | .jmk d a x y => fAt y 2 (fAt x 5 (fAt a 8 (fAt d 13 2097152)))
  | .vadd _ d a b m => fAt m 0 (fAt b 3 (fAt a 8 (fAt d 13 262144)))
  | .vsub _ d a b m => fAt m 0 (fAt b 3 (fAt a 8 (fAt d 13 524288)))
  | .vmul _ d a b m => fAt m 0 (fAt b 3 (fAt a 8 (fAt d 13 786432)))
  | .vfma _ d a b m => fAt m 0 (fAt b 3 (fAt a 8 (fAt d 13 1048576)))
  | .vfms _ d a b m => fAt m 0 (fAt b 3 (fAt a 8 (fAt d 13 1310720)))
  | .vmin _ d a b m => fAt m 0 (fAt b 3 (fAt a 8 (fAt d 13 1572864)))
  | .vmax _ d a b m => fAt m 0 (fAt b 3 (fAt a 8 (fAt d 13 1835008)))
  | .vaddI _ d a i => fAt i 0 (fAt a 8 (fAt d 13 2097152))
  | .vmulI _ d a i => fAt i 0 (fAt a 8 (fAt d 13 2359296))
  | .vminI _ d a i => fAt i 0 (fAt a 8 (fAt d 13 2621440))
  | .vmaxI _ d a i => fAt i 0 (fAt a 8 (fAt d 13 2883584))
  | .vcvt _ d a m => fAt m 0 (fAt a 8 (fAt d 13 3145728))
  | .vcvtLo _ d a b m => fAt m 0 (fAt b 3 (fAt a 8 (fAt d 13 3407872)))
  | .vcvtHi _ d a b m => fAt m 0 (fAt b 3 (fAt a 8 (fAt d 13 3670016)))
  | .vcmpEq _ p a b m => fAt m 0 (fAt b 3 (fAt a 8 (fAt p 13 3932160)))
  | .vcmpNe _ p a b m => fAt m 0 (fAt b 3 (fAt a 8 (fAt p 13 4194304)))
  | .vcmpLt _ p a b m => fAt m 0 (fAt b 3 (fAt a 8 (fAt p 13 4456448)))
  | .vcmpLe _ p a b m => fAt m 0 (fAt b 3 (fAt a 8 (fAt p 13 4718592)))
  | .vcmpGt _ p a b m => fAt m 0 (fAt b 3 (fAt a 8 (fAt p 13 4980736)))
  | .vcmpGe _ p a b m => fAt m 0 (fAt b 3 (fAt a 8 (fAt p 13 5242880)))
  | .vcmpUn _ p a b m => fAt m 0 (fAt b 3 (fAt a 8 (fAt p 13 5505024)))
  | .vcmpOrd _ p a b m => fAt m 0 (fAt b 3 (fAt a 8 (fAt p 13 5767168)))
  | .vcmpIeq _ p a b m => fAt m 0 (fAt b 3 (fAt a 8 (fAt p 13 6029312)))
  | .vcmpIne _ p a b m => fAt m 0 (fAt b 3 (fAt a 8 (fAt p 13 6291456)))
  | .vcmpIlt _ p a b m => fAt m 0 (fAt b 3 (fAt a 8 (fAt p 13 6553600)))
  | .vcmpIltu _ p a b m => fAt m 0 (fAt b 3 (fAt a 8 (fAt p 13 6815744)))
  | .vsel _ d a b m => fAt m 0 (fAt b 3 (fAt a 8 (fAt d 13 7077888)))
  | .viadd _ d a b m => fAt m 0 (fAt b 3 (fAt a 8 (fAt d 13 7340032)))
  | .viaddS _ d a b m => fAt m 0 (fAt b 3 (fAt a 8 (fAt d 13 7602176)))
  | .visub _ d a b m => fAt m 0 (fAt b 3 (fAt a 8 (fAt d 13 7864320)))
  | .visubS _ d a b m => fAt m 0 (fAt b 3 (fAt a 8 (fAt d 13 8126464)))
  | .vimul _ d a b m => fAt m 0 (fAt b 3 (fAt a 8 (fAt d 13 8388608)))
  | .vimulH _ d a b m => fAt m 0 (fAt b 3 (fAt a 8 (fAt d 13 8650752)))
  | .vand _ d a b m => fAt m 0 (fAt b 3 (fAt a 8 (fAt d 13 8912896)))
  | .vor _ d a b m => fAt m 0 (fAt b 3 (fAt a 8 (fAt d 13 9175040)))
  | .vxor _ d a b m => fAt m 0 (fAt b 3 (fAt a 8 (fAt d 13 9437184)))
  | .vshl _ d a b m => fAt m 0 (fAt b 3 (fAt a 8 (fAt d 13 9699328)))
  | .vshr _ d a b m => fAt m 0 (fAt b 3 (fAt a 8 (fAt d 13 9961472)))
  | .vsar _ d a b m => fAt m 0 (fAt b 3 (fAt a 8 (fAt d 13 10223616)))
  | .vandI _ d a i => fAt i 0 (fAt a 8 (fAt d 13 10485760))
  | .vorI _ d a i => fAt i 0 (fAt a 8 (fAt d 13 10747904))
  | .vxorI _ d a i => fAt i 0 (fAt a 8 (fAt d 13 11010048))
  | .vshlI _ d a i => fAt i 0 (fAt a 8 (fAt d 13 11272192))
  | .vshrI _ d a i => fAt i 0 (fAt a 8 (fAt d 13 11534336))
  | .vsarI _ d a i => fAt i 0 (fAt a 8 (fAt d 13 11796480))
  | .vperm _ d a b m => fAt m 0 (fAt b 3 (fAt a 8 (fAt d 13 12058624)))
  | .vpermI _ d a i => fAt i 0 (fAt a 8 (fAt d 13 12320768))
  | .vredAx _ d a o m => fAt m 0 (fAt o 3 (fAt a 8 (fAt d 13 12582912)))
  | .vpack _ d a b m => fAt m 0 (fAt b 3 (fAt a 8 (fAt d 13 12845056)))
  | .vunpkLo _ d a m => fAt m 0 (fAt a 8 (fAt d 13 13107200))
  | .vunpkHi _ d a m => fAt m 0 (fAt a 8 (fAt d 13 13369344))
  | .vmxqE _ d a e m => fAt m 0 (fAt e 3 (fAt a 8 (fAt d 13 13631488)))
  | .vmxqB _ d a b m => fAt m 0 (fAt b 3 (fAt a 8 (fAt d 13 13893632)))
  | .vrng _ d m => fAt m 0 (fAt d 13 14155776)
  | .vrngU _ d m => fAt m 0 (fAt d 13 14417920)
  | .mlog _ d a b o => fAt o 0 (fAt b 3 (fAt a 8 (fAt d 13 14680064)))
  | .vabs _ d a m => fAt m 0 (fAt a 8 (fAt d 13 16515072))
  | .vneg _ d a m => fAt m 0 (fAt a 8 (fAt d 13 16515080))
  | .vrcp _ d a m => fAt m 0 (fAt a 8 (fAt d 13 16515088))
  | .vrsq _ d a m => fAt m 0 (fAt a 8 (fAt d 13 16515096))
  | .vexp2 _ d a m => fAt m 0 (fAt a 8 (fAt d 13 16515104))
  | .vlog2 _ d a m => fAt m 0 (fAt a 8 (fAt d 13 16515112))
  | .vtanh _ d a m => fAt m 0 (fAt a 8 (fAt d 13 16515120))
  | .vmov _ d a m => fAt m 0 (fAt a 8 (fAt d 13 16515128))
  | .vabsI _ d a m => fAt m 0 (fAt a 8 (fAt d 13 16515136))
  | .vnegI _ d a m => fAt m 0 (fAt a 8 (fAt d 13 16515144))
  | .vredAdd _ d a m => fAt m 0 (fAt a 8 (fAt d 13 16515152))
  | .vredMax _ d a m => fAt m 0 (fAt a 8 (fAt d 13 16515160))
  | .vredMin _ d a m => fAt m 0 (fAt a 8 (fAt d 13 16515168))
  | .vscanAdd _ d a m => fAt m 0 (fAt a 8 (fAt d 13 16515176))
  | .vscanMax _ d a m => fAt m 0 (fAt a 8 (fAt d 13 16515184))
  | .vidx _ d m => fAt m 0 (fAt d 13 16515192)
  | .tld q k => fAt k 8 (fAt q 16 262144)
  | .tldR q a => fAt a 8 (fAt q 16 524288)
  | .tlds q k c r => fAt r 4 (fAt c 5 (fAt k 8 (fAt q 16 786432)))
  | .tldsR q a c r => fAt r 4 (fAt c 5 (fAt a 8 (fAt q 16 1048576)))
  | .tst d k e f => fAt f 1 (fAt e 3 (fAt k 8 (fAt d 13 1310720)))
  | .tstR d a e f => fAt f 1 (fAt e 3 (fAt a 8 (fAt d 13 1572864)))
  | .tsts d k c r f => fAt f 1 (fAt r 4 (fAt c 5 (fAt k 8 (fAt d 13 1835008))))
  | .tstsR d a c r f => fAt f 1 (fAt r 4 (fAt c 5 (fAt a 8 (fAt d 13 2097152))))
  | .spld q k => fAt k 8 (fAt q 16 2359296)
  | .spldR q a => fAt a 8 (fAt q 16 2621440)
  | .spst d k f => fAt f 1 (fAt k 8 (fAt d 13 2883584))
  | .spstR d a f => fAt f 1 (fAt a 8 (fAt d 13 3145728))
  | .amoAdd d k c o w t => fAt t 1 (fAt w 2 (fAt o 3 (fAt c 5 (fAt k 8 (fAt d 13 3407872)))))
  | .amoAnd d k c o w t => fAt t 1 (fAt w 2 (fAt o 3 (fAt c 5 (fAt k 8 (fAt d 13 3670016)))))
  | .amoOr d k c o w t => fAt t 1 (fAt w 2 (fAt o 3 (fAt c 5 (fAt k 8 (fAt d 13 3932160)))))
  | .amoXor d k c o w t => fAt t 1 (fAt w 2 (fAt o 3 (fAt c 5 (fAt k 8 (fAt d 13 4194304)))))
  | .amoMin d k c o w t => fAt t 1 (fAt w 2 (fAt o 3 (fAt c 5 (fAt k 8 (fAt d 13 4456448)))))
  | .amoMax d k c o w t => fAt t 1 (fAt w 2 (fAt o 3 (fAt c 5 (fAt k 8 (fAt d 13 4718592)))))
  | .amoSwp d k c o w t => fAt t 1 (fAt w 2 (fAt o 3 (fAt c 5 (fAt k 8 (fAt d 13 4980736)))))
  | .cas d k c o => fAt o 3 (fAt c 5 (fAt k 8 (fAt d 13 5242880)))
  | .casD d k c o => fAt o 3 (fAt c 5 (fAt k 8 (fAt d 13 5505024)))
  | .fst d k f => fAt f 1 (fAt k 8 (fAt d 13 5767168))
  | .fstR d a f => fAt f 1 (fAt a 8 (fAt d 13 6029312))
  | .fldt q k t => fAt t 4 (fAt k 8 (fAt q 16 6291456))
  | .fldtR q a t => fAt t 4 (fAt a 8 (fAt q 16 6553600))
  | .append d k c r t f => fAt f 1 (fAt t 3 (fAt r 4 (fAt c 5 (fAt k 8 (fAt d 13 6815744)))))
  | .appendR d a c r t f => fAt f 1 (fAt t 3 (fAt r 4 (fAt c 5 (fAt a 8 (fAt d 13 7077888)))))
  | .seal k t => fAt t 3 (fAt k 8 7340032)
  | .span k n => fAt n 0 (fAt k 13 7602176)
  | .spanClr k => fAt k 13 7864320
  | .flushr a b => fAt b 3 (fAt a 8 8126464)
  | .flushrD a b => fAt b 3 (fAt a 8 8388608)
  | .invr a b t => fAt t 0 (fAt b 3 (fAt a 8 8650752))
  | .invrTt a => fAt a 8 8912896
  | .pref k => fAt k 8 9175040
  | .prefL2 k => fAt k 8 9437184
  | .fence c => fAt c 5 9699328
  | .fenceSt c => fAt c 5 9961472
  | .xfence x y => fAt y 8 (fAt x 13 10223616)
  | .drain c => fAt c 5 10485760
  | .aiterH k a => fAt a 8 (fAt k 13 10747904)
  | .aiterB k a h => fAt h 4 (fAt a 8 (fAt k 13 11010048))
  | .aiterS k a j h => fAt h 4 (fAt j 5 (fAt a 8 (fAt k 13 11272192)))
  | .aiterRd d k c => fAt c 3 (fAt k 8 (fAt d 13 11534336))
  | .airev k m => fAt m 0 (fAt k 13 11796480)
  | .tdsc d k => fAt k 8 (fAt d 13 12058624)
  | .tdscQ c a => fAt a 8 (fAt c 13 12320768)
  | .tdscW c a b => fAt b 3 (fAt a 8 (fAt c 13 12582912))
  | .xcall r => fAt r 0 262144
  | .xcallR a => fAt a 8 524288
  | .xset d i => fAt i 0 (fAt d 13 786432)
  | .xsetR d a i => fAt i 0 (fAt a 8 (fAt d 13 1048576))
  | .xzero d => fAt d 13 1310720
  | .xzeroAll => 1572864
  | .xacc d a => fAt a 8 (fAt d 13 1835008)
  | .xaccSub d a => fAt a 8 (fAt d 13 2097152)
  | .xaccMov d a => fAt a 8 (fAt d 13 2359296)
  | .xdcy d i => fAt i 0 (fAt d 13 2621440)
  | .xdcyR d a => fAt a 8 (fAt d 13 2883584)
  | .xspl t x => fAt x 3 (fAt t 8 3145728)
  | .xfil d => fAt d 13 3407872
  | .xwait d n => fAt n 0 (fAt d 13 3670016)
  | .xwaitAll => 3932160
  | .xldm a => fAt a 8 4194304
  | .escl w k a b => fAt b 3 (fAt a 8 (fAt k 14 (fAt w 17 262144)))
  | .esclI w k c => fAt c 0 (fAt k 14 (fAt w 17 524288))
  | .escm a b => fAt b 3 (fAt a 8 786432)
  | .escmSt a b => fAt b 3 (fAt a 8 1048576)
  | .ebfx a => fAt a 8 1310720
  | .ebfxClr => 1572864
  | .cpy a => fAt a 8 1835008
  | .cpyBf a => fAt a 8 2097152
  | .cpyw d n => fAt n 0 (fAt d 13 2359296)
  | .cpywAll => 2621440
  | .put a => fAt a 8 2883584
  | .putH a => fAt a 8 3145728
  | .putSmp a => fAt a 8 3407872
  | .putm a => fAt a 8 3670016
  | .putmS a => fAt a 8 3932160
  | .collAr a => fAt a 8 4194304
  | .collRs a => fAt a 8 4456448
  | .collAg a => fAt a 8 4718592
  | .collRsf a => fAt a 8 4980736
  | .collw d n => fAt n 0 (fAt d 13 5242880)
  | .grp a b => fAt b 3 (fAt a 8 5505024)
  | .grpEx a => fAt a 8 5767168
  | .grpQ d a => fAt a 8 (fAt d 13 6029312)
  | .sems a b => fAt b 3 (fAt a 8 6291456)
  | .semsI d i => fAt i 0 (fAt d 13 6553600)
  | .semw a b => fAt b 3 (fAt a 8 6815744)
  | .semwI d i => fAt i 0 (fAt d 13 7077888)
  | .qpush a b => fAt b 3 (fAt a 8 7340032)
  | .qpushI d q => fAt q 0 (fAt d 13 7602176)
  | .ftick a => fAt a 8 7864320
  | .ftickW a => fAt a 8 8126464
  | .fdisc a => fAt a 8 8388608
  | .fdiscR a b => fAt b 3 (fAt a 8 8650752)
  | .fexp d a b => fAt b 3 (fAt a 8 (fAt d 13 8912896))
  | .fexpF d a b => fAt b 3 (fAt a 8 (fAt d 13 9175040))
  | .fbank a b => fAt b 3 (fAt a 8 9437184)
  | .fbankRd d a c => fAt c 0 (fAt a 8 (fAt d 13 9699328))
  | .emonSt a => fAt a 8 9961472
  | .emonSp a => fAt a 8 10223616
  | .emonRd d a => fAt a 8 (fAt d 13 10485760)
  | .fmtShadowExpire _ => 0
  | .parkComplete _ => 0
  | .joinRelease _ => 0
  | .phaseEnd _ => 0
  | .haltComplete _ => 0
  | .loadDataReturn _ _ => 0
  | .remoteScratchpadRefusal _ _ => 0
  | .invalidationComplete _ => 0
  | .drainComplete _ => 0
  | .xwaitRelease _ => 0
  | .callQueueStart _ => 0
  | .routineEnd _ => 0
  | .mgathA _ _ _ _ _ _ => 0
  | .mgathB _ _ _ _ _ _ => 0
  | .mgathAt _ _ _ _ _ _ => 0
  | .mgathBt _ _ _ _ _ _ => 0
  | .mldbA _ => 0
  | .mldbB _ => 0
  | .mmacI8 _ _ _ _ _ => 0
  | .mmacI6 _ _ _ _ _ => 0
  | .mmacI4 _ _ _ _ _ => 0
  | .mmacF4 _ _ _ _ _ => 0
  | .mmacI16 _ _ _ _ _ => 0
  | .mmacF _ _ _ _ _ => 0
  | .mmacFZ _ _ _ _ _ => 0
  | .mmacFD _ _ _ _ _ _ => 0
  | .msclA _ _ _ _ => 0
  | .msclB _ _ _ _ => 0
  | .msclAb _ _ _ _ => 0
  | .msclClr => 0
  | .mscmA _ _ _ => 0
  | .mscmB _ _ _ => 0
  | .mscmAb _ _ _ => 0
  | .mscmSt _ _ _ => 0
  | .maccAdd _ _ => 0
  | .maccSub _ _ => 0
  | .maccMov _ _ => 0
  | .maccDcy _ _ => 0
  | .maccMax _ _ => 0
  | .maccZero _ => 0
  | .mcvtBf16 _ _ _ _ => 0
  | .mcvtF16 _ _ _ _ => 0
  | .mcvtE4m3 _ _ _ _ => 0
  | .mcvtE5m2 _ _ _ _ => 0
  | .mloop _ _ => 0
  | .mloopP _ _ => 0
  | .mloopK _ _ => 0
  | .mend => 0
  | .msyncG => 0
  | .msyncS => 0
  | .msyncAll => 0
  | .mnop => 0
  | .cpywRelease _ => 0
  | .copyCommandStart _ _ => 0
  | .copyComplete _ _ => 0
  | .collwRelease _ => 0
  | .semwAcquire _ => 0
  | .rollback _ => 0
  | .translationFaultReport _ _ => 0
  | .abortCompletion _ _ => 0
  | .l1Fill _ _ => 0
  | .pageReclassify _ => 0
  | .invalidationArrival _ _ _ => 0
  | .appendReservation _ _ => 0
  | .commitAdvance _ _ => 0
  | .sealAtHome _ _ => 0
  | .sealComplete _ => 0
  | .replicaCopy _ _ => 0
  | .migrationRequest _ _ _ _ _ => 0
  | .migrationAck _ => 0
  | .migrationAckTimeout _ => 0
  | .migrationCopyDone _ => 0
  | .migrationHoldExpire _ => 0
  | .sampleAccept _ _ => 0
  | .tapReadAccept _ _ => 0
  | .ftickAccept _ _ => 0
  | .sweepVisit _ => 0
  | .tickComplete _ => 0
  | .fdiscAccept _ _ => 0
  | .cascadeDelivery _ => 0
  | .fbankAccept _ _ => 0
  | .fabricArrival _ => 0
  | .holdNotice _ _ => 0
  | .arrivalWaitExpire _ => 0
  | .fabricAck _ _ _ _ _ => 0
  | .putAckTimeout _ _ => 0
  | .handlerStart _ => 0
  | .collInputArrival _ => 0
  | .collRoundTimeout _ _ => 0
  | .lostMemberNotice _ => 0
  | .collAbortTimeout _ _ => 0
  | .flitReceive _ _ _ _ => 0
  | .replayRequest _ _ => 0
  | .laneRetire _ _ => 0
  | .launchPacket _ _ => 0
  | .dispatchPass => 0
  | .preemptionTimeout _ => 0
  | .contextSave _ => 0
  | .launchCompletion _ => 0
  | .classifierWindowEnd _ => 0
  | .debugBreak _ _ => 0
  | .debugHaltCommand _ => 0
  | .debugResumeCommand _ => 0
  | .debugAccessCommand => 0
  | .featureNegotiation => 0
  | .attestation => 0
  | .vfApertureFlush _ => 0
  | .hostBarAccess _ _ _ _ _ => 0
  | .queueControlWrite _ _ _ _ => 0
  | .configurationWordWrite _ => 0
  | .capWrite _ => 0
  | .powerCapRamp => 0
  | .uncorrectableError _ _ _ _ _ => 0
  | .correctedSummary _ _ _ _ => 0
  | .monitorSample _ _ => 0
  | .managementReset => 0
  | .quiesce => 0
  | .pcieLinkLoss => 0
  | .powerUp => 0
  | .powerLoss => 0
  | .registerWrite _ _ => 0
  | .voidBundle => 0
  | .unassignedOpcode => 0
  | .callQueueEntryEnd _ => 0
  | .storePerformAtHome _ _ => 0

/-- The word of a slot (R17). -/
def encodeSlot (s : Slot) : Nat :=
  (if s.stop then 2 ^ 31 else 0) + ((s.ins.lane.map Lane.code).getD 0) * 2 ^ 28
    + s.guard.toNat * 2 ^ 24 + encodeOperands s.ins

/-- The word of a micro-op (R34, R287); 0, which is no micro-op, for anything else. -/
def encodeMicro : Instr → Nat
  | .mgathA b x o r e u => fAt u 2 (fAt e 14 (fAt r 26 (fAt o 38 (fAt x 54 (fAt b 57 288230376151711744)))))
  | .mgathB b x o r e u => fAt u 2 (fAt e 14 (fAt r 26 (fAt o 38 (fAt x 54 (fAt b 57 576460752303423488)))))
  | .mgathAt b x o r e u => fAt u 2 (fAt e 14 (fAt r 26 (fAt o 38 (fAt x 54 (fAt b 57 864691128455135232)))))
  | .mgathBt b x o r e u => fAt u 2 (fAt e 14 (fAt r 26 (fAt o 38 (fAt x 54 (fAt b 57 1152921504606846976)))))
  | .mldbA b => fAt b 57 1441151880758558720
  | .mldbB b => fAt b 57 1729382256910270464
  | .mmacI8 a b t z n => fAt n 46 (fAt z 49 (fAt t 52 (fAt b 56 (fAt a 57 2017612633061982208))))
  | .mmacI6 a b t z n => fAt n 46 (fAt z 49 (fAt t 52 (fAt b 56 (fAt a 57 2305843009213693952))))
  | .mmacI4 a b t z n => fAt n 46 (fAt z 49 (fAt t 52 (fAt b 56 (fAt a 57 2594073385365405696))))
  | .mmacF4 a b t z n => fAt n 46 (fAt z 49 (fAt t 52 (fAt b 56 (fAt a 57 2882303761517117440))))
  | .mmacI16 a b t z n => fAt n 46 (fAt z 49 (fAt t 52 (fAt b 56 (fAt a 57 3170534137668829184))))
  | .mmacF a b t z n => fAt n 46 (fAt z 49 (fAt t 52 (fAt b 56 (fAt a 57 3458764513820540928))))
  | .mmacFZ a b t z n => fAt n 46 (fAt z 49 (fAt t 52 (fAt b 56 (fAt a 57 3746994889972252672))))
  | .mmacFD a b t z n g => fAt g 33 (fAt n 46 (fAt z 49 (fAt t 52 (fAt b 56 (fAt a 57 4035225266123964416)))))
  | .msclA x o z n => fAt n 33 (fAt z 36 (fAt o 39 (fAt x 55 4323455642275676160)))
  | .msclB x o z n => fAt n 33 (fAt z 36 (fAt o 39 (fAt x 55 4611686018427387904)))
  | .msclAb x o z n => fAt n 33 (fAt z 36 (fAt o 39 (fAt x 55 4899916394579099648)))
  | .msclClr => 5188146770730811392
  | .mscmA i z n => fAt n 40 (fAt z 43 (fAt i 46 5476377146882523136))
  | .mscmB i z n => fAt n 40 (fAt z 43 (fAt i 46 5764607523034234880))
  | .mscmAb i z n => fAt n 40 (fAt z 43 (fAt i 46 6052837899185946624))
  | .mscmSt i z n => fAt n 40 (fAt z 43 (fAt i 46 6341068275337658368))
  | .maccAdd d r => fAt r 50 (fAt d 54 6629298651489370112)
  | .maccSub d r => fAt r 50 (fAt d 54 6917529027641081856)
  | .maccMov d r => fAt r 50 (fAt d 54 7205759403792793600)
  | .maccDcy d g => fAt g 37 (fAt d 54 7493989779944505344)
  | .maccMax d r => fAt r 50 (fAt d 54 7782220156096217088)
  | .maccZero d => fAt d 54 8070450532247928832
  | .mcvtBf16 t x o r => fAt r 23 (fAt o 35 (fAt x 51 (fAt t 54 8358680908399640576)))
  | .mcvtF16 t x o r => fAt r 23 (fAt o 35 (fAt x 51 (fAt t 54 8646911284551352320)))
  | .mcvtE4m3 t x o r => fAt r 23 (fAt o 35 (fAt x 51 (fAt t 54 8935141660703064064)))
  | .mcvtE5m2 t x o r => fAt r 23 (fAt o 35 (fAt x 51 (fAt t 54 9223372036854775808)))
  | .mloop c n => fAt n 34 (fAt c 46 9511602413006487552)
  | .mloopP x n => fAt n 34 (fAt x 55 9799832789158199296)
  | .mloopK x n => fAt n 34 (fAt x 55 10088063165309911040)
  | .mend => 10376293541461622784
  | .msyncG => 10664523917613334528
  | .msyncS => 10952754293765046272
  | .msyncAll => 11240984669916758016
  | .mnop => 11529215046068469760
  | .br _ => 0
  | .brx _ => 0
  | .call _ => 0
  | .callR _ => 0
  | .ret => 0
  | .loop _ _ => 0
  | .loopR _ _ => 0
  | .loopRot _ _ => 0
  | .loopRotR _ _ => 0
  | .brk _ => 0
  | .brkR _ => 0
  | .lidx _ _ _ => 0
  | .fmtR _ _ _ => 0
  | .fmtV _ _ _ _ _ => 0
  | .fmtX _ _ _ => 0
  | .fmtShadowExpire _ => 0
  | .lift _ _ => 0
  | .liftR _ _ => 0
  | .lret => 0
  | .bifP _ _ => 0
  | .bifM _ _ => 0
  | .belse _ => 0
  | .bjoin => 0
  | .trap _ => 0
  | .trapR _ => 0
  | .svc _ => 0
  | .eret => 0
  | .park => 0
  | .parkComplete _ => 0
  | .abort _ => 0
  | .abortR _ => 0
  | .abchk => 0
  | .mark _ => 0
  | .join _ _ => 0
  | .joinR _ => 0
  | .joinRelease _ => 0
  | .ckpt _ => 0
  | .ckptR _ => 0
  | .ckrs _ => 0
  | .ckrsR _ => 0
  | .phase _ => 0
  | .phaseR _ => 0
  | .phaseEnd _ => 0
  | .halt => 0
  | .haltComplete _ => 0
  | .add _ _ _ => 0
  | .addW _ _ _ => 0
  | .sub _ _ _ => 0
  | .subW _ _ _ => 0
  | .mul _ _ _ => 0
  | .mulW _ _ _ => 0
  | .mulh _ _ _ => 0
  | .mulhU _ _ _ => 0
  | .div _ _ _ => 0
  | .divU _ _ _ => 0
  | .rem _ _ _ => 0
  | .remU _ _ _ => 0
  | .and _ _ _ => 0
  | .or _ _ _ => 0
  | .xor _ _ _ => 0
  | .andn _ _ _ => 0
  | .shl _ _ _ => 0
  | .shlW _ _ _ => 0
  | .shr _ _ _ => 0
  | .shrW _ _ _ => 0
  | .sar _ _ _ => 0
  | .sarW _ _ _ => 0
  | .min _ _ _ => 0
  | .minU _ _ _ => 0
  | .max _ _ _ => 0
  | .maxU _ _ _ => 0
  | .clz _ _ => 0
  | .clzW _ _ => 0
  | .popc _ _ => 0
  | .popcW _ _ => 0
  | .bfx _ _ _ => 0
  | .bfxU _ _ _ => 0
  | .bfi _ _ _ => 0
  | .bfiW _ _ _ => 0
  | .sel _ _ _ _ => 0
  | .movi _ _ => 0
  | .movs _ _ => 0
  | .addi _ _ _ => 0
  | .andi _ _ _ => 0
  | .ori _ _ _ => 0
  | .xori _ _ _ => 0
  | .muli _ _ _ => 0
  | .shli _ _ _ => 0
  | .shri _ _ _ => 0
  | .sari _ _ _ => 0
  | .cmpEq _ _ _ _ => 0
  | .cmpNe _ _ _ _ => 0
  | .cmpLt _ _ _ _ => 0
  | .cmpLe _ _ _ _ => 0
  | .cmpGt _ _ _ _ => 0
  | .cmpGe _ _ _ _ => 0
  | .cmpLtu _ _ _ _ => 0
  | .cmpGeu _ _ _ _ => 0
  | .pand _ _ _ => 0
  | .por _ _ _ => 0
  | .pnot _ _ => 0
  | .jmov _ _ _ _ => 0
  | .jmovV _ _ _ _ => 0
  | .jspl32 _ _ _ _ => 0
  | .jspl16 _ _ _ _ => 0
  | .jspl8 _ _ _ _ => 0
  | .jext _ _ _ _ => 0
  | .jpm _ _ => 0
  | .jmk _ _ _ _ => 0
  | .vadd _ _ _ _ _ => 0
  | .vsub _ _ _ _ _ => 0
  | .vmul _ _ _ _ _ => 0
  | .vfma _ _ _ _ _ => 0
  | .vfms _ _ _ _ _ => 0
  | .vmin _ _ _ _ _ => 0
  | .vmax _ _ _ _ _ => 0
  | .vaddI _ _ _ _ => 0
  | .vmulI _ _ _ _ => 0
  | .vminI _ _ _ _ => 0
  | .vmaxI _ _ _ _ => 0
  | .vcvt _ _ _ _ => 0
  | .vcvtLo _ _ _ _ _ => 0
  | .vcvtHi _ _ _ _ _ => 0
  | .vcmpEq _ _ _ _ _ => 0
  | .vcmpNe _ _ _ _ _ => 0
  | .vcmpLt _ _ _ _ _ => 0
  | .vcmpLe _ _ _ _ _ => 0
  | .vcmpGt _ _ _ _ _ => 0
  | .vcmpGe _ _ _ _ _ => 0
  | .vcmpUn _ _ _ _ _ => 0
  | .vcmpOrd _ _ _ _ _ => 0
  | .vcmpIeq _ _ _ _ _ => 0
  | .vcmpIne _ _ _ _ _ => 0
  | .vcmpIlt _ _ _ _ _ => 0
  | .vcmpIltu _ _ _ _ _ => 0
  | .vsel _ _ _ _ _ => 0
  | .viadd _ _ _ _ _ => 0
  | .viaddS _ _ _ _ _ => 0
  | .visub _ _ _ _ _ => 0
  | .visubS _ _ _ _ _ => 0
  | .vimul _ _ _ _ _ => 0
  | .vimulH _ _ _ _ _ => 0
  | .vand _ _ _ _ _ => 0
  | .vor _ _ _ _ _ => 0
  | .vxor _ _ _ _ _ => 0
  | .vshl _ _ _ _ _ => 0
  | .vshr _ _ _ _ _ => 0
  | .vsar _ _ _ _ _ => 0
  | .vandI _ _ _ _ => 0
  | .vorI _ _ _ _ => 0
  | .vxorI _ _ _ _ => 0
  | .vshlI _ _ _ _ => 0
  | .vshrI _ _ _ _ => 0
  | .vsarI _ _ _ _ => 0
  | .vperm _ _ _ _ _ => 0
  | .vpermI _ _ _ _ => 0
  | .vredAx _ _ _ _ _ => 0
  | .vpack _ _ _ _ _ => 0
  | .vunpkLo _ _ _ _ => 0
  | .vunpkHi _ _ _ _ => 0
  | .vmxqE _ _ _ _ _ => 0
  | .vmxqB _ _ _ _ _ => 0
  | .vrng _ _ _ => 0
  | .vrngU _ _ _ => 0
  | .mlog _ _ _ _ _ => 0
  | .vabs _ _ _ _ => 0
  | .vneg _ _ _ _ => 0
  | .vrcp _ _ _ _ => 0
  | .vrsq _ _ _ _ => 0
  | .vexp2 _ _ _ _ => 0
  | .vlog2 _ _ _ _ => 0
  | .vtanh _ _ _ _ => 0
  | .vmov _ _ _ _ => 0
  | .vabsI _ _ _ _ => 0
  | .vnegI _ _ _ _ => 0
  | .vredAdd _ _ _ _ => 0
  | .vredMax _ _ _ _ => 0
  | .vredMin _ _ _ _ => 0
  | .vscanAdd _ _ _ _ => 0
  | .vscanMax _ _ _ _ => 0
  | .vidx _ _ _ => 0
  | .tld _ _ => 0
  | .tldR _ _ => 0
  | .tlds _ _ _ _ => 0
  | .tldsR _ _ _ _ => 0
  | .loadDataReturn _ _ => 0
  | .tst _ _ _ _ => 0
  | .tstR _ _ _ _ => 0
  | .tsts _ _ _ _ _ => 0
  | .tstsR _ _ _ _ _ => 0
  | .spld _ _ => 0
  | .spldR _ _ => 0
  | .spst _ _ _ => 0
  | .spstR _ _ _ => 0
  | .remoteScratchpadRefusal _ _ => 0
  | .amoAdd _ _ _ _ _ _ => 0
  | .amoAnd _ _ _ _ _ _ => 0
  | .amoOr _ _ _ _ _ _ => 0
  | .amoXor _ _ _ _ _ _ => 0
  | .amoMin _ _ _ _ _ _ => 0
  | .amoMax _ _ _ _ _ _ => 0
  | .amoSwp _ _ _ _ _ _ => 0
  | .cas _ _ _ _ => 0
  | .casD _ _ _ _ => 0
  | .fst _ _ _ => 0
  | .fstR _ _ _ => 0
  | .fldt _ _ _ => 0
  | .fldtR _ _ _ => 0
  | .append _ _ _ _ _ _ => 0
  | .appendR _ _ _ _ _ _ => 0
  | .seal _ _ => 0
  | .span _ _ => 0
  | .spanClr _ => 0
  | .flushr _ _ => 0
  | .flushrD _ _ => 0
  | .invr _ _ _ => 0
  | .invrTt _ => 0
  | .invalidationComplete _ => 0
  | .pref _ => 0
  | .prefL2 _ => 0
  | .fence _ => 0
  | .fenceSt _ => 0
  | .xfence _ _ => 0
  | .drain _ => 0
  | .drainComplete _ => 0
  | .aiterH _ _ => 0
  | .aiterB _ _ _ => 0
  | .aiterS _ _ _ _ => 0
  | .aiterRd _ _ _ => 0
  | .airev _ _ => 0
  | .tdsc _ _ => 0
  | .tdscQ _ _ => 0
  | .tdscW _ _ _ => 0
  | .xcall _ => 0
  | .xcallR _ => 0
  | .xset _ _ => 0
  | .xsetR _ _ _ => 0
  | .xzero _ => 0
  | .xzeroAll => 0
  | .xacc _ _ => 0
  | .xaccSub _ _ => 0
  | .xaccMov _ _ => 0
  | .xdcy _ _ => 0
  | .xdcyR _ _ => 0
  | .xspl _ _ => 0
  | .xfil _ => 0
  | .xwait _ _ => 0
  | .xwaitAll => 0
  | .xwaitRelease _ => 0
  | .xldm _ => 0
  | .callQueueStart _ => 0
  | .routineEnd _ => 0
  | .escl _ _ _ _ => 0
  | .esclI _ _ _ => 0
  | .escm _ _ => 0
  | .escmSt _ _ => 0
  | .ebfx _ => 0
  | .ebfxClr => 0
  | .cpy _ => 0
  | .cpyBf _ => 0
  | .cpyw _ _ => 0
  | .cpywAll => 0
  | .cpywRelease _ => 0
  | .copyCommandStart _ _ => 0
  | .copyComplete _ _ => 0
  | .put _ => 0
  | .putH _ => 0
  | .putSmp _ => 0
  | .putm _ => 0
  | .putmS _ => 0
  | .collAr _ => 0
  | .collRs _ => 0
  | .collAg _ => 0
  | .collRsf _ => 0
  | .collw _ _ => 0
  | .collwRelease _ => 0
  | .grp _ _ => 0
  | .grpEx _ => 0
  | .grpQ _ _ => 0
  | .sems _ _ => 0
  | .semsI _ _ => 0
  | .semw _ _ => 0
  | .semwI _ _ => 0
  | .semwAcquire _ => 0
  | .qpush _ _ => 0
  | .qpushI _ _ => 0
  | .ftick _ => 0
  | .ftickW _ => 0
  | .fdisc _ => 0
  | .fdiscR _ _ => 0
  | .fexp _ _ _ => 0
  | .fexpF _ _ _ => 0
  | .fbank _ _ => 0
  | .fbankRd _ _ _ => 0
  | .emonSt _ => 0
  | .emonSp _ => 0
  | .emonRd _ _ => 0
  | .rollback _ => 0
  | .translationFaultReport _ _ => 0
  | .abortCompletion _ _ => 0
  | .l1Fill _ _ => 0
  | .pageReclassify _ => 0
  | .invalidationArrival _ _ _ => 0
  | .appendReservation _ _ => 0
  | .commitAdvance _ _ => 0
  | .sealAtHome _ _ => 0
  | .sealComplete _ => 0
  | .replicaCopy _ _ => 0
  | .migrationRequest _ _ _ _ _ => 0
  | .migrationAck _ => 0
  | .migrationAckTimeout _ => 0
  | .migrationCopyDone _ => 0
  | .migrationHoldExpire _ => 0
  | .sampleAccept _ _ => 0
  | .tapReadAccept _ _ => 0
  | .ftickAccept _ _ => 0
  | .sweepVisit _ => 0
  | .tickComplete _ => 0
  | .fdiscAccept _ _ => 0
  | .cascadeDelivery _ => 0
  | .fbankAccept _ _ => 0
  | .fabricArrival _ => 0
  | .holdNotice _ _ => 0
  | .arrivalWaitExpire _ => 0
  | .fabricAck _ _ _ _ _ => 0
  | .putAckTimeout _ _ => 0
  | .handlerStart _ => 0
  | .collInputArrival _ => 0
  | .collRoundTimeout _ _ => 0
  | .lostMemberNotice _ => 0
  | .collAbortTimeout _ _ => 0
  | .flitReceive _ _ _ _ => 0
  | .replayRequest _ _ => 0
  | .laneRetire _ _ => 0
  | .launchPacket _ _ => 0
  | .dispatchPass => 0
  | .preemptionTimeout _ => 0
  | .contextSave _ => 0
  | .launchCompletion _ => 0
  | .classifierWindowEnd _ => 0
  | .debugBreak _ _ => 0
  | .debugHaltCommand _ => 0
  | .debugResumeCommand _ => 0
  | .debugAccessCommand => 0
  | .featureNegotiation => 0
  | .attestation => 0
  | .vfApertureFlush _ => 0
  | .hostBarAccess _ _ _ _ _ => 0
  | .queueControlWrite _ _ _ _ => 0
  | .configurationWordWrite _ => 0
  | .capWrite _ => 0
  | .powerCapRamp => 0
  | .uncorrectableError _ _ _ _ _ => 0
  | .correctedSummary _ _ _ _ => 0
  | .monitorSample _ _ => 0
  | .managementReset => 0
  | .quiesce => 0
  | .pcieLinkLoss => 0
  | .powerUp => 0
  | .powerLoss => 0
  | .registerWrite _ _ => 0
  | .voidBundle => 0
  | .unassignedOpcode => 0
  | .callQueueEntryEnd _ => 0
  | .storePerformAtHome _ _ => 0

/-- Is the instruction a micro-op? -/
def Instr.isMicro (i : Instr) : Bool := encodeMicro i != 0

/-- Is the instruction a slot form? -/
def Instr.isSlot (i : Instr) : Bool := i.lane.isSome

/-- The instruction the decoder reads from `nbits` bits of value `w`, numbered as the opcode table
numbers them: a slot form in 32 bits, with its stop bit and guard read and left aside, a micro-op in
64.  A void slot is the void bundle's row, and no other length is an instruction of this device. -/
noncomputable def decodeTableWord (nbits w : Nat) : Option Instr :=
  if nbits = 32 then
    match decodeSlot (w % 2 ^ 32) with
    | .ok (some s) => some s.ins
    | .ok none => some .voidBundle
    | .error .unassigned => some .unassignedOpcode
    | .error .reservedField => none
  else if nbits = 64 then
    match decodeMicro (w % 2 ^ 64) with
    | .ok i => some i
    | .error _ => none
  else none

end Sys2Proof
end

