-- ==== Sys2Proof/Machine/Flags.lean ====
section
/-!
DEFINITION. Sys2Proof/Machine/Flags.lean: every flag the spec gives: the conditions of the scalar and
vector compares (R145, R163), the sticky flags FSAT and ACCSAT (R67, R68, R321, R335), and the
predicates that the sequencer drives (R106, R109).
-/

namespace Sys2Proof.Machine

/-- The scalar compares (R145). -/
inductive SCond where
  | eq | ne | lt | le | gt | ge | ltu | geu
  deriving DecidableEq, Repr

def SCond.holds (k : SCond) (x y : W64) : Bool :=
  match k with
  | .eq => x == y
  | .ne => x != y
  | .lt => x.slt y
  | .le => x.sle y
  | .gt => y.slt x
  | .ge => y.sle x
  | .ltu => x.ult y
  | .geu => y.ule x

/-- The vector compares (R163). -/
inductive VCond where
  | eq | ne | lt | le | gt | ge | un | ord | ieq | ine | ilt | iltu
  deriving DecidableEq, Repr

/-- Is the compare one of floating values? -/
def VCond.isFlt : VCond → Bool
  | .ieq | .ine | .ilt | .iltu => false
  | _ => true

/-- The condition on two elements of format `f`, with or without FTZ. -/
def VCond.holds (k : VCond) (f : EFmt) (ftz : Bool) (a b : Nat) : Bool :=
  let x := f.dec ftz a
  let y := f.dec ftz b
  let w := f.width
  match k with
  | .eq => x.eq y
  | .ne => !x.eq y
  | .lt => x.lt y
  | .le => x.lt y || x.eq y
  | .gt => y.lt x
  | .ge => y.lt x || x.eq y
  | .un => x.isNan || y.isNan
  | .ord => !x.isNan && !y.isNan
  | .ieq => a == b
  | .ine => a != b
  | .ilt => decide (intVal true w a < intVal true w b)
  | .iltu => decide (a < b)

/-- Set the context's FSAT (R67, R321, R335). -/
def setFsat (k : Nat) (b : Bool) : M Unit := if b then modCtx k fun c => { c with fsat := true } else pure ()
/-- Set the context's ACCSAT (R68, R290, R303). -/
def setAccsat (k : Nat) (b : Bool) : M Unit := if b then modCtx k fun c => { c with accsat := true } else pure ()

/-- The value the sequencer gives p(8 + s) for index `i` of a rotating level (R109). -/
def stagePred (l : Level) (s : Nat) : Bool :=
  decide (s ≤ l.index.toNat) && decide (l.index.toNat - s < l.count.toNat - l.depthE)

/-- p8 to p13 as the sequencer sets them before an iteration of a rotating level (R109). -/
def setStages (l : Level) (p : AMap (Reg 1)) : AMap (Reg 1) :=
  [0, 1, 2, 3, 4, 5].foldl (fun p s => p.set (8 + s) ⟨true, if stagePred l s then 1 else 0⟩) p

end Sys2Proof.Machine
end

