-- ==== Sys2Proof/Machine/Control.lean ====
section
/-!
DEFINITION. Sys2Proof/Machine/Control.lean: the sequencer (R104 to R109), framing (R21), and the control
forms of R118 to R133.

A control form sets the next address (`npc`), the loop stack or a wait; the other slots of the bundle
run before it, and the end-of-bundle test of R105 runs after it (`Ctx.endBundle`).
-/

namespace Sys2Proof.Machine

/-! ### Code (R21, R405) -/

/-- The launch of the context in issue. -/
def curLaunch : M Launch := do let s ← get; return s.launchOf s.focus

/-- The address of a code offset: the code stands 0x400 bytes into the kernel image (R405). -/
def codeAddr (l : Launch) (off : Nat) : Nat := l.img + 0x400 + off

/-- Frame a bundle at an offset (R21): its words, or the position of the slot where framing fails.
A slot past the end of the code fails (log entry 13). -/
def frameFrom (l : Launch) : Nat → Nat → Nat → List Nat → M (Except Nat (List Nat))
  | 0, _, _, _ => return .error 8
  | n + 1, pos, off, acc =>
    if l.codeSize < off + 4 then return .error pos
    else do
      let w ← rdN (codeAddr l off) 4
      if stopBit w then return (if 4 ≤ pos then .ok (acc ++ [w]) else .error pos)
      else frameFrom l n (pos + 1) (off + 4) (acc ++ [w])

def frameAt (l : Launch) (off : Nat) : M (Except Nat (List Nat)) := frameFrom l 8 1 off []

def wordLane (w : Nat) : Nat := w / 2 ^ 28 % 8
def wordGuard (w : Nat) : Nat := w / 2 ^ 24 % 16
def wordOp (w : Nat) : Nat := w / 2 ^ 18 % 64
/-- A MARK slot: lane 0, opcode 0x1F (R28). -/
def isMarkWord (w : Nat) : Bool := wordLane w == 0 && wordOp w == 0x1F

/-! ### The end of a bundle (R63, R105) -/

/-- The pending fmt value written (R63). -/
def Ctx.fmtExpire (c : Ctx) : Ctx := { c with sq := { c.sq with fmt := c.sq.pend, cd := 0 } }

/-- One bundle counted towards the fmt shadow; bundles in service do not count (R63, R226). -/
def Ctx.countFmt (c : Ctx) : Ctx :=
  if c.frame.isSome then c
  else match c.sq.cd with
    | 0 => c
    | 1 => c.fmtExpire
    | n + 2 => { c with sq := { c.sq with cd := n + 1 } }

/-- A level of the loop stack ends an iteration when the next address is its body end; the test then
applies to the level outside it (R105).  The end of an iteration of a rotating level moves the rotation
base (R108) and sets p8 to p13 for the next one (R109). -/
def Ctx.iterEnd : Nat → Ctx → Ctx
  | 0, c => c
  | n + 1, c =>
    match c.sq.loops.getLast? with
    | none => c
    | some l =>
      if c.sq.npc != l.stop then c
      else
        let rb := if l.rot then (c.sq.rb + 14) % 15 else c.sq.rb
        let l' := { l with index := l.index + 1 }
        let rest := c.sq.loops.dropLast
        if l'.index.toNat < l.count.toNat then
          let c1 := { c with sq := { c.sq with loops := rest ++ [l'], rb := rb, npc := l.start } }
          if l.rot then { c1 with files := { c1.files with p := setStages l' c1.files.p } } else c1
        else Ctx.iterEnd n { c with sq := { c.sq with loops := rest, rb := rb } }

/-- What happens between two bundles: the loop test, and the shadow unless the bundle wrote fmt. -/
def Ctx.endBundle (c : Ctx) (wroteFmt : Bool) : Ctx :=
  let c := c.iterEnd c.sq.loops.length
  if wroteFmt then c else c.countFmt

/-! ### Shared operations of the control forms -/

/-- The next address of the context in issue. -/
def goTo (t : W32) : M Unit := modCur fun c => { c with sq := { c.sq with npc := t } }

/-- The earliest clock of the context's next bundle, `n` clocks after this one (R120). -/
def delay (n : Nat) : M Unit := modCur fun c => { c with nextIssue := max c.nextIssue (c.fl.now + n) }

/-- Hold the context's next bundle. -/
def waitFor (w : Wait) : M Unit := modCur fun c => c.waits w

/-- The target of a displacement (R18). -/
def dispTarget {w : Nat} (d : BitVec w) : M W32 := do
  return (← get).cur.sq.pc + BitVec.ofInt 32 (4 * d.toInt)

/-- Control fault 3 unless the target is a multiple of 4 below the code size (R119, R122). -/
def needTarget (t : W32) : M Unit := do
  let l ← curLaunch
  if t.toNat % 4 = 0 ∧ t.toNat < l.codeSize then pure ()
  else M.trapV clsControl 3 (t.setWidth 64)

/-- A C register of a control form. -/
def rdCM (a : BitVec 5) : M W32 := liftC (rdC a)

/-- Forms that place an entry in the gate buffer (R220). -/
def gatedForm : Instr → Bool
  | .tst .. => true | .tstR .. => true | .tsts .. => true | .tstsR .. => true
  | .spst .. => true | .spstR .. => true
  | .amoAdd .. => true | .amoAnd .. => true | .amoOr .. => true | .amoXor .. => true
  | .amoMin .. => true | .amoMax .. => true | .amoSwp .. => true | .cas .. => true | .casD .. => true
  | .fst .. => true | .fstR .. => true | .append .. => true | .appendR .. => true | .seal .. => true
  | .ckpt .. => true | .ckptR .. => true | .ckrs .. => true | .ckrsR .. => true
  | .tdscW .. => true | .escmSt .. => true | .cpy .. => true | .cpyBf .. => true
  | .put .. => true | .putH .. => true | .putSmp .. => true | .putm .. => true | .putmS .. => true
  | .collAr .. => true | .collRs .. => true | .collAg .. => true | .collRsf .. => true
  | .grp .. => true | .grpEx .. => true | .sems .. => true | .semsI .. => true
  | .qpush .. => true | .qpushI .. => true | .ftick .. => true | .ftickW .. => true
  | .fdisc .. => true | .fdiscR .. => true | .fexp .. => true | .fexpF .. => true
  | .fbank .. => true | .emonSt .. => true | .emonSp .. => true
  | _ => false

/-- Does the form, with the registers as the bundle finds them, place an entry in the gate buffer (R220)?  A count of 0
does nothing (R308, R353). -/
def Ctx.gates (c : Ctx) (i : Instr) : Bool :=
  match i with
  | .fdiscR _ b => fieldN (c.regE b.toNat).val 0 48 != 0
  | .escmSt _ b => fieldN (c.regE b.toNat).val 16 13 != 0
  | i => gatedForm i

/-- The gate buffer is empty, and no other slot of the bundle adds to it (R119, R226, R228); in service
nothing is gated. -/
def gateClear : M Bool := do
  let s ← get
  return s.cur.fl.gate.isEmpty && (s.cur.frame.isSome || !s.issue.others.any s.cur.gates)

/-! ### Branches, calls and returns (R122) -/

def branch (t : W32) (n : Nat) : M Unit := do
  needTarget t
  goTo t
  delay n

def callTo (t : W32) (n : Nat) : M Unit := do
  needTarget t
  liftC do wrC 15 (← get).sq.after
  goTo t
  delay n

/-- BR (R122). -/
def execBr (i : BitVec 18) (s : State) : Host.Outcome State Fault Refusal :=
  finish s (do liftC noRegion; branch (← dispTarget i) 3)

/-- BRX (R122); in a masked region lift fault 2 comes before an invalid register, as in every control form (log entry 85). -/
def execBrx (a : BitVec 5) (s : State) : Host.Outcome State Fault Refusal :=
  finish s (do liftC noRegion; branch (← rdCM a) 4)

/-- CALL (R122). -/
def execCall (i : BitVec 18) (s : State) : Host.Outcome State Fault Refusal :=
  finish s (do liftC noRegion; callTo (← dispTarget i) 3)

/-- CALL.R (R122). -/
def execCallR (a : BitVec 5) (s : State) : Host.Outcome State Fault Refusal :=
  finish s (do liftC noRegion; callTo (← rdCM a) 4)

/-- RET (R122). -/
def execRet (s : State) : Host.Outcome State Fault Refusal :=
  finish s (do liftC noRegion; branch (← rdCM 15) 4)

/-! ### Loops (R124 to R127) -/

/-- Frame `n` bundles from an offset: the guards of their non-void slots, whether a MARK stands in any
but the first, and the end; a failure names the bundle (R125). -/
def frameBody (l : Launch) : Nat → Bool → Nat → M (List Nat × Bool × Nat)
  | 0, _, off => pure ([], false, off)
  | n + 1, first, off => do
    match ← frameAt l off with
    | .error _ => M.trapV clsEncoding 0 (BitVec.ofNat 64 off)
    | .ok ws => do
      let real := ws.filter fun w => !isVoidWord w
      let (gs, mk, e) ← frameBody l n false (off + 4 * ws.length)
      return (real.map wordGuard ++ gs, mk || (!first && real.any isMarkWord), e)

/-- The stage depth: the highest s with a slot guarded by p(8 + s), 0 where none is (R109). -/
def stageDepth (gs : List Nat) : Nat :=
  gs.foldl (fun e g => if 8 ≤ g ∧ g ≤ 13 ∧ e < g - 8 then g - 8 else e) 0

/-- The LOOP forms: `n` iterations of the len + 1 bundles that follow (R124, R125). -/
def pushLoop (n : W32) (len : Nat) (rot : Bool) : M Unit := do
  let l ← curLaunch
  let q := (← get).cur.sq
  let (gs, mk, e) ← frameBody l (len + 1) true q.after.toNat
  if mk then M.trap clsEncoding 0
  match q.inner with
  | some o =>
    if o.start.toNat ≤ q.pc.toNat ∧ q.pc.toNat < o.stop.toNat ∧ o.stop.toNat < e then M.trap clsEncoding 0
  | none => pure ()
  if n = 0 then goTo (BitVec.ofNat 32 e)
  else
    M.need (decide (q.loops.length < 6)) clsControl 1
    let lv : Level := { start := q.after, stop := BitVec.ofNat 32 e, count := n, index := 0, rot := rot,
                        depthE := if rot then stageDepth gs else 0 }
    modCur fun c =>
      let c1 := { c with sq := { c.sq with loops := c.sq.loops ++ [lv] } }
      if rot then { c1 with files := { c1.files with p := setStages lv c1.files.p } } else c1

/-- LOOP (R124). -/
def execLoop (n : BitVec 11) (k : BitVec 7) (s : State) : Host.Outcome State Fault Refusal :=
  finish s (do liftC noRegion; pushLoop (n.setWidth 32) k.toNat false)

/-- LOOP.R (R124). -/
def execLoopR (c : BitVec 5) (k : BitVec 7) (s : State) : Host.Outcome State Fault Refusal :=
  finish s (do liftC noRegion; pushLoop (← rdCM c) k.toNat false)

/-- LOOP.ROT (R108, R124). -/
def execLoopRot (n : BitVec 11) (k : BitVec 7) (s : State) : Host.Outcome State Fault Refusal :=
  finish s (do liftC noRegion; pushLoop (n.setWidth 32) k.toNat true)

/-- LOOP.ROT.R (R108, R124). -/
def execLoopRotR (c : BitVec 5) (k : BitVec 7) (s : State) : Host.Outcome State Fault Refusal :=
  finish s (do liftC noRegion; pushLoop (← rdCM c) k.toNat true)

/-- Pop `n` levels and go to the end of the last one popped (R126). -/
def breakOut (n : Nat) : M Unit := do
  let q := (← get).cur.sq
  M.need (decide (n ≤ q.loops.length)) clsControl 2
  match q.loops[q.loops.length - n]? with
  | some l =>
    modCur fun c => { c with sq := { c.sq with loops := c.sq.loops.take (q.loops.length - n), npc := l.stop } }
    delay 3
  | none => pure ()

/-- BRK (R126). -/
def execBrk (i : BitVec 13) (s : State) : Host.Outcome State Fault Refusal :=
  finish s (do liftC noRegion; breakOut i.toNat)

/-- BRK.R: a count above 6 is control fault 5, a count of 0 does nothing (R126). -/
def execBrkR (a : BitVec 5) (s : State) : Host.Outcome State Fault Refusal :=
  finish s (do
    liftC noRegion
    let n ← rdCM a
    if 6 < n.toNat then M.trapV clsControl 5 (n.setWidth 64)
    breakOut n.toNat)

/-- LIDX: level 0 is the innermost; a level not held is control fault 2 (R127). -/
def execLidx (d : BitVec 5) (c : BitVec 1) (v : BitVec 3) (s : State) : Host.Outcome State Fault Refusal :=
  onCtx s (do
    noRegion
    match (← get).sq.loops.reverse[v.toNat]? with
    | none => CM.trap clsControl 2
    | some l => wrC d.toNat (if c = 1 then l.count else l.index))

/-! ### The format register (R128) -/

/-- The value that would reach fmt next. -/
def Seqr.fmtBase (q : Seqr) : W32 := if q.cd = 0 then q.fmt else q.pend

/-- `n` bits of a number replaced in a word. -/
def setField {w : Nat} (x : BitVec w) (lo n v : Nat) : BitVec w :=
  BitVec.ofNat w (x.toNat / 2 ^ (lo + n) * 2 ^ (lo + n) + v % 2 ^ n * 2 ^ lo + x.toNat % 2 ^ lo)

/-- A legal value becomes pending with a countdown of 4; any other is the illegal-instruction trap. -/
def setPending (v : W32) : CM Unit := do
  CM.need (fmtLegal v) clsIllegal 0
  modify fun c => { c with sq := { c.sq with pend := v, cd := 4 } }

/-- FMT.R: with w = 1 it also returns fmt as this bundle reads it (R128). -/
def execFmtR (d a : BitVec 5) (w : BitVec 1) (s : State) : Host.Outcome State Fault Refusal :=
  onCtx s (do
    noRegion
    let v ← rdC a
    let f := (← get).sq.fmt
    setPending v
    if w = 1 then wrC d.toNat f)

/-- FMT.V: z FTZ, t SAT, r RM, d VD, v VS (R121, R128). -/
def execFmtV (z t : BitVec 1) (r : BitVec 2) (d v : BitVec 4) (s : State) : Host.Outcome State Fault Refusal :=
  onCtx s (do
    noRegion
    let f := (← get).sq.fmtBase
    let f := setField f 0 4 v.toNat
    let f := setField f 4 4 d.toNat
    let f := setField f 12 2 r.toNat
    let f := setField f 15 1 t.toNat
    setPending (setField f 16 1 z.toNat))

/-- FMT.X: c ACC, b TB, a TA (R121, R128). -/
def execFmtX (c : BitVec 1) (b a : BitVec 3) (s : State) : Host.Outcome State Fault Refusal :=
  onCtx s (do
    noRegion
    let f := (← get).sq.fmtBase
    let f := setField f 17 3 a.toNat
    let f := setField f 20 3 b.toNat
    setPending (setField f 23 1 c.toNat))

/-- FMT_SHADOW_EXPIRE: the pending value of context `k`, if one is pending, reaches fmt (R63). -/
def execFmtShadowExpire (k : Nat) (s : State) : Host.Outcome State Fault Refusal :=
  finish s (modCtx k fun c => if c.sq.cd = 0 then c else c.fmtExpire)

/-! ### Parking, aborting and checking (R113, R129 to R131) -/

/-- PARK: control fault 4 with gated effects; then it waits for the loads (R129). -/
def execPark (s : State) : Host.Outcome State Fault Refusal :=
  finish s (do
    liftC noRegion
    M.need (← gateClear) clsControl 4
    waitFor .park)

/-- A context as a start leaves it, but for the launch it belongs to (R99, R129). -/
def Ctx.dormant (c : Ctx) : Ctx :=
  { Ctx.free with
    st := .dormant, launch := c.launch, inst := c.inst, icore := c.icore, atLaunch := c.atLaunch,
    priv := c.priv, key := c.key, ctr := c.ctr,
    fl := { Flight.empty with seq := c.fl.seq, bundle := c.fl.bundle,
                              copies := c.fl.copies.map fun q => { q with orphan := true },
                              fabs := c.fl.fabs.map fun q => { q with orphan := true } } }

/-- PARK_COMPLETE: once every load of context `k` has returned, its state is discarded and it is
Dormant; committed engine commands run on (R129). -/
def execParkComplete (k : Nat) (s : State) : Host.Outcome State Fault Refusal :=
  finish s (do
    let c := (← get).ctx k
    if c.wait = .park ∧ c.more.isEmpty ∧ c.fl.loads.isEmpty ∧ c.fl.commits.isEmpty ∧ c.live then modCtx k Ctx.dormant)

/-- The clocks of the cores, as the abort line remembers them (R113). -/
def State.clocks (s : State) : AMap Nat := s.cores.map fun e => (e.1, e.2.clk)

/-- Is the abort line of context `k`'s instance raised for it at its clock: certainly 64 clocks after it
rose, by a free choice before (R113, log entry 3)? -/
def sampleAbort (k : Nat) : M Bool := do
  let s ← get
  match (s.inst (s.ctx k).inst).abort with
  | none => pure false
  | some cl =>
    let now := (s.core (coreOf k)).clk
    if cl.get 0 (coreOf k) + 64 ≤ now then pure true else return Config.freeBit (← freshFree)

/-- The end of a context by the abort line where no MARK commits: its gated effects and the queue entries since its last
mark are discarded as a rollback does, and no record is posted (R113, R130). -/
def abortEnd (k : Nat) : M Unit := do
  modCtx k fun c => { c with queues := c.queues.replay }
  endQuiet k

/-- Raise the abort line, recording the first code of the instance; the Dormant contexts of the instance are freed (a
context that parks later stays Dormant, log entry 71); the issuing context ends without a record.  An ABORT of a core
that has run no clock since the line rose issues in the same clock as the first, and there the lowest core and context
set the code (R113, R130, log entry 72). -/
def raiseAbort (code : BitVec 13) : M Unit := do
  let s ← get
  let k := s.focus
  let i := s.cur.inst
  let l := s.cur.launch
  let t := s.inst i
  match t.abort with
  | none => do
    modify fun s => s.setInst i { s.inst i with abort := some s.clocks, abortBy := k }
    if (s.launch l).aborted then pure ()
    else modify fun s => s.setLaunch l { s.launch l with aborted := true, abortCode := code, abortInst := i }
    modify fun s => { s with ctxs := s.ctxs.map fun e =>
      if e.2.inst = i ∧ e.2.st = .dormant then (e.1, Ctx.free) else e }
  | some cl =>
    if cl.get 0 (coreOf k) = (s.core (coreOf k)).clk ∧ k < t.abortBy then do
      modify fun s => s.setInst i { s.inst i with abortBy := k }
      if (s.launch l).abortInst = i then
        modify fun s => s.setLaunch l { s.launch l with abortCode := code }
  abortEnd k

/-- ABORT (R130). -/
def execAbort (i : BitVec 13) (s : State) : Host.Outcome State Fault Refusal :=
  finish s (do liftC noRegion; raiseAbort i)

/-- ABORT.R: bits [12:0] of the register (R130). -/
def execAbortR (a : BitVec 5) (s : State) : Host.Outcome State Fault Refusal :=
  finish s (do liftC noRegion; raiseAbort ((← rdCM a).setWidth 13))

/-- ABCHK (R113, R131). -/
def execAbchk (s : State) : Host.Outcome State Fault Refusal :=
  finish s (do
    liftC noRegion
    if ← sampleAbort s.focus then abortEnd s.focus)

/-! ### Moving the split (R132, R133) -/

/-- PHASE, in order: the gate buffer, then the size (log entry 96); then it waits for the loads and for an earlier PHASE of
the core, and the split moves (`startPhase`). -/
def phaseTo (n : Nat) : M Unit := do
  M.need (← gateClear) clsControl 4
  if 8 < n then M.trapV clsControl 5 (BitVec.ofNat 64 n)
  waitFor (.phase n)

/-- PHASE (R132). -/
def execPhase (n : BitVec 4) (s : State) : Host.Outcome State Fault Refusal :=
  finish s (do liftC noRegion; phaseTo n.toNat)

/-- PHASE.R (R132). -/
def execPhaseR (a : BitVec 5) (s : State) : Host.Outcome State Fault Refusal :=
  finish s (do liftC noRegion; phaseTo (← rdCM a).toNat)

/-- A waiting PHASE of context `k` starts once its loads have returned and no PHASE runs on the core: it
takes exactly 1,024 clocks. -/
def startPhase (k n : Nat) : M Unit := do
  let s ← get
  let c := coreOf k
  if (s.ctx k).fl.loads.isEmpty ∧ (s.core c).phase.isNone then
    modCore c fun x => { x with phase := some { oldSize := x.scrSize, newL1 := n, ctx := k, endAt := x.clk + 1024 } }
    modCtx k fun x => { x.lessWait (.phase n) with nextIssue := max x.nextIssue ((s.core c).clk + 1024) }

/-- The moving region of a PHASE: its first offset and its length (R132). -/
def Phase.region (p : Phase) : Nat × Nat :=
  let n := scrBytes - p.newL1 * 0x8000
  (min p.oldSize n, max p.oldSize n - min p.oldSize n)

/-- Does an access of `n` bytes at an offset of a core touch the moving region? -/
def Core.moving (x : Core) (off n : Nat) : Bool :=
  match x.phase with
  | none => false
  | some p => p.region.2 != 0 && decide (off < p.region.1 + p.region.2) && decide (p.region.1 < off + n)

/-- Bytes of free values (log entry 4). -/
def freeRange (mem : List Host.Cell) (a idx : Nat) : Nat → List Host.Cell
  | 0 => mem
  | n + 1 => freeRange (Mem.put mem a (Config.freeByte idx n)) (a + 1) idx n

/-- Is a block in the set that a number of sets gives its bay (R253)? -/
def inPlace (sets i : Nat) (b : Block) : Bool := decide (i < sets) && b.bay % sets == i

/-- PHASE_END: the new split of core `c`.  The content of the region is undefined where the L1 grew and
zero where it shrank.  A block that the new number of sets puts elsewhere leaves the L1, its dirty sectors written back
(R132, R253). -/
def execPhaseEnd (c : Nat) (s : State) : Host.Outcome State Fault Refusal :=
  finish s (do
    let x := (← get).core c
    match x.phase with
    | none => pure ()
    | some p =>
      let (lo, n) := p.region
      let idx ← freshFree
      modify fun s => { s with mem :=
        if x.l1n < p.newL1 then freeRange s.mem (scrAddr c lo) idx n else Mem.clearRange s.mem (scrAddr c lo) n }
      let sets := 32 * p.newL1
      (x.l1.flatMap fun e => e.2.filter fun b => !inPlace sets e.1 b).forM (leaveL1 c)
      modCore c fun x =>
        { x with phase := none, l1n := p.newL1, l1 := x.l1.map fun e => (e.1, e.2.filter (inPlace sets e.1)) })

end Sys2Proof.Machine
end

