-- ==== Sys2Proof/Machine/Lift.lean ====
section
/-!
DEFINITION. Sys2Proof/Machine/Lift.lean: lift-calls and masked regions (R200 to R214).
-/

namespace Sys2Proof.Machine

/-! ### LIFT and LRET (R206, R207) -/

/-- Would an axis of size `n` overflow the lift stack or the size of an axis (R204, R206)? -/
def Ctx.liftOver (c : Ctx) (n : Nat) : Bool := decide (3 ≤ c.sq.lifts.length) || n == 0 || decide (64 < n)

/-- The same of LIFT.R, whose register holds the size. -/
def Ctx.liftRegOver (c : Ctx) (a : BitVec 5) : Bool :=
  decide (3 ≤ c.sq.lifts.length) || ((c.regC a.toNat).valid && c.liftOver (c.regC a.toNat).val.toNat)

/-- Push an axis of size `n` and call the target; lift fault 1, then control fault 3. -/
def liftCall (n : Nat) (t : W32) (clocks : Nat) : M Unit := do
  let q := (← get).cur.sq
  M.need (decide (q.lifts.length < 3) && n != 0 && decide (n ≤ 64)) clsLift 1
  needTarget t
  let e : LiftEnt := { n := n, ret := q.after, ldp := q.loops.length }
  modCur fun c => { c with sq := { c.sq with lifts := c.sq.lifts ++ [e], npc := t } }
  delay clocks

/-- LIFT: the field holds n - 1 (R206). -/
def execLift (n : BitVec 6) (i : BitVec 12) (s : State) : Host.Outcome State Fault Refusal :=
  finish s (do
    liftC (do barRegion ((← get).liftOver (n.toNat + 1)))
    liftCall (n.toNat + 1) (← dispTarget i) 3)

/-- LIFT.R (R206). -/
def execLiftR (a b : BitVec 5) (s : State) : Host.Outcome State Fault Refusal :=
  finish s (do
    liftC (do barRegion ((← get).liftRegOver a))
    let n ← rdCM a
    let t ← rdCM b
    liftCall n.toNat t 4)

/-- Does a tag hold the axis `t`? -/
def hasAxis (tag t : BitVec 3) : Bool := tag &&& t != 0

/-- Does a queue entry hold, or will it hold, a value tagged with the axis (R207)? -/
def Queues.holdAxis (q : Queues) (t : BitVec 3) : Bool :=
  q.qs.any (fun e => hasAxis e.tag t && !e.kept) || q.qv.any (fun e => hasAxis e.tag t && !e.kept)
    || q.qw.any (fun e => hasAxis e.tag t && !e.kept) || q.qx.any (fun e => hasAxis e.tag t && !e.kept)

/-- Log every register of a file that the filter removes, then remove them. -/
def dropTagged {w : Nat} (m : AMap (TReg w)) (t : BitVec 3) (sv : Nat → TReg w → Saved) : CM (AMap (TReg w)) := do
  m.forM fun e => do if hasAxis e.2.tag t then logSave (sv e.1 e.2)
  return m.filter fun e => !hasAxis e.2.tag t

/-- LRET (R207). -/
def lretBody : CM Unit := do
  let c ← get
  match c.sq.lifts.getLast? with
  | none => CM.trap clsLift 4
  | some top =>
    let t := innerTag c.sq.lifts
    CM.need (c.sq.loops.length == top.ldp) clsLift 4
    CM.need (!c.queues.holdAxis t) clsLift 4
    let v ← dropTagged c.files.v t Saved.v
    let w ← dropTagged c.files.w t Saved.w
    let m ← dropTagged c.files.m t Saved.m
    let tl ← dropTagged c.files.t t Saved.t
    modify fun c => { c with
      files := { c.files with v := v, w := w, m := m, t := tl },
      sq := { c.sq with lifts := c.sq.lifts.dropLast, npc := top.ret },
      nextIssue := max c.nextIssue (c.fl.now + 4) }

/-- The tags of the registers that an LRET clears, by register key. -/
def Ctx.dropping (c : Ctx) : AMap (BitVec 3) :=
  let tags {w : Nat} (base : Nat) (m : AMap (TReg w)) : AMap (BitVec 3) :=
    (m.filter fun e => hasAxis e.2.tag (innerTag c.sq.lifts)).map fun e => (base + e.1, e.2.tag)
  tags 500 c.files.v ++ tags 600 c.files.w ++ tags 700 c.files.m ++ tags 800 c.files.t

/-- LRET; what its bundle's other slots have written tells how long they run (R202, R207). -/
def execLret (s : State) : Host.Outcome State Fault Refusal :=
  finish s (do
    let d := (← get).cur.dropping
    liftC (do noRegion; lretBody)
    modify fun s => { s with issue := { s.issue with dropped := d } })

/-! ### Masked regions (R212) -/

/-- Go to a displacement's target, 3 clocks later (R120). -/
def jump {w : Nat} (i : BitVec w) : M Unit := do
  goTo (← dispTarget i)
  delay 3

/-- BIF.P: branches where the predicate is false (R212). -/
def execBifP (p : BitVec 4) (i : BitVec 14) (s : State) : Host.Outcome State Fault Refusal :=
  finish s (do
    liftC noRegion
    if ← liftC (rdP p) then pure () else jump i)

/-- The examples of the innermost axis whose copy of a mask has bit 0 set. -/
def activeSet (ls : List LiftEnt) (r : TReg 128) : BitVec 64 :=
  let n := axisSize ls (ls.length - 1)
  BitVec.ofNat 64 (packNat 1 ((List.range n).map fun e => if (r.at' ls r.tag e).getLsbD 0 then 1 else 0))

/-- Every example of the innermost axis. -/
def allExamples (ls : List LiftEnt) : BitVec 64 := BitVec.ofNat 64 (2 ^ axisSize ls (ls.length - 1) - 1)

def setRegion (r : Option Region) : M Unit := modCur fun c => { c with sq := { c.sq with region := r } }

/-- BIF.M: opens a masked region; a mask whose tag is not exactly the innermost axis, or an open region,
is lift fault 2 (R212). -/
def execBifM (m : BitVec 3) (i : BitVec 14) (s : State) : Host.Outcome State Fault Refusal :=
  finish s (do
    liftC noRegion
    let r ← liftC (rdM m)
    let ls := (← get).cur.sq.lifts
    M.need (!ls.isEmpty && r.tag == innerTag ls) clsLift 2
    let a := activeSet ls r
    if a = 0 then do
      setRegion (some ⟨true, allExamples ls⟩)
      jump i
    else setRegion (some ⟨false, a⟩))

/-- BELSE: a plain branch outside a region; the else part inside one; out of place it is lift fault 2
(R212). -/
def execBelse (i : BitVec 14) (s : State) : Host.Outcome State Fault Refusal :=
  finish s (do
    let q := (← get).cur.sq
    match q.region with
    | none => jump i
    | some r =>
      M.need (!r.elsePart) clsLift 2
      let c := allExamples q.lifts &&& ~~~r.active
      if c = 0 then jump i else setRegion (some ⟨true, c⟩))

/-- BJOIN: closes an open region (R212). -/
def execBjoin (s : State) : Host.Outcome State Fault Refusal := finish s (setRegion none)

end Sys2Proof.Machine
end

