-- ==== Sys2Proof/Machine/Rollback.lean ====
section
/-!
DEFINITION. Sys2Proof/Machine/Rollback.lean: rolling a context back to its last mark (R112, R191, R221,
R222), and the reports that cause it (R191, R247).
-/

namespace Sys2Proof.Machine

/-- One entry of the shadow log put back. -/
def Saved.restore (v : Saved) (f : Files) : Files :=
  match v with
  | .c i r => { f with c := f.c.set i r }
  | .a i r => { f with a := f.a.set i r }
  | .s i r => { f with s := f.s.set i r }
  | .e i r => { f with e := f.e.set i r }
  | .x i r => { f with x := f.x.set i r }
  | .v i r => { f with v := f.v.set i r }
  | .w i r => { f with w := f.w.set i r }
  | .m i r => { f with m := f.m.set i r }
  | .t i r => { f with t := f.t.set i r }
  | .k i r => { f with k := f.k.set i r }
  | .p ps => { f with p := ps }

/-- A queue as a MARK leaves it: popped entries freed, the rest older than the mark (R112). -/
def markQueue {w : Nat} (q : List (QEnt w)) : List (QEnt w) :=
  (q.filter fun e => !e.kept).map fun e => { e with old := true, gated := false }

def Queues.mark (q : Queues) : Queues := ⟨markQueue q.qs, markQueue q.qv, markQueue q.qw, markQueue q.qx⟩

/-- The mark snapshot of a context that goes on at its next address (R221). -/
def Ctx.snapshot (c : Ctx) : Snapshot :=
  { pc := c.sq.npc, loops := c.sq.loops, rb := c.sq.rb, fmt := c.sq.fmt, pend := c.sq.pend, cd := c.sq.cd,
    lifts := c.sq.lifts, key := c.key, ctr := c.ctr, rounds := c.rounds, preds := c.files.p }

/-- The context as its last mark left it, ready to go on after that mark (R222 steps 3 to 7). -/
def Ctx.restore (c : Ctx) : Ctx :=
  let n := c.seg.snap
  let f := c.seg.log.foldr Saved.restore c.files
  { c with
    files := { f with p := n.preds }, queues := c.queues.replay, key := n.key, ctr := n.ctr, rounds := n.rounds,
    wait := .none, more := [], avail := [],
    sq := { pc := n.pc, npc := n.pc, after := n.pc, loops := n.loops, rb := n.rb, lifts := n.lifts, region := none,
            fmt := n.fmt, pend := n.pend, cd := n.cd },
    seg := { c.seg with count := 0, crc := 0xFFFFFFFF, rewinding := true, semTaken := [], log := [] },
    fl := { c.fl with gate := [], loads := [], pattern := none,
                      fences := c.fl.fences.filter fun f => decide (f.seq ≤ c.fl.markSeq) } }

/-- Add to a semaphore, saturating (R414, R416). -/
def semAdd (sems : AMap W32) (i : Nat) (v : W32) : AMap W32 :=
  sems.set i (BitVec.ofNat 32 (min ((sems.get 0 i).toNat + v.toNat) (2 ^ 32 - 1)))

/-- Is a page that context `k` asked for still on its way (R222)? -/
def State.awaitsMove (s : State) (k : Nat) : Bool :=
  s.mp.migs.any fun m => m.stage != .holding && m.askers.any fun a => match a with
    | .ctx j _ _ => j == k
    | _ => false

/-- Routines of the context issued since its last mark that have not ended (R222 step 2). -/
def State.youngCalls (s : State) (k : Nat) : Bool :=
  let x := s.core (coreOf k)
  let young (c : Call) : Bool := c.ctx == k && decide ((s.ctx k).fl.markSeq < c.seq)
  x.callQ.any young || (match x.run with | some r => young r.call | none => false)

/-- The rollback of context `k` once its routines have ended; counts that its SEMWs consumed return
(R222, R417). -/
def rollbackNow (k : Nat) : M Unit := do
  let c := (← get).ctx k
  modDist fun d => { d with sems := c.seg.semTaken.foldl (fun m e => semAdd m e.1 e.2) d.sems }
  modCtx k Ctx.restore

/-- A rollback starts: the context issues nothing more, its loads are discarded, and it leaves the waiters
of every semaphore (R222 steps 1 and 2, R417). -/
def startRewind (k : Nat) : M Unit := do
  modCtx k fun c => { c with wait := .rewind, more := [], fl := { c.fl with loads := [] } }
  modDist fun d => { d with waiters := d.waiters.map fun (i, ws) => (i, ws.filter fun w => w.1 != k) }

/-- May the rollback of context `k` end: its routines have ended, and the page that it faulted on is present (R222)? -/
def State.rewindReady (s : State) (k : Nat) : Bool := !s.youngCalls k && !s.awaitsMove k

/-- ROLLBACK: context `k`, whose rollback has started, waits for its routines and its page, then is as its last mark
left it (R222). -/
def execRollback (k : Nat) (s : State) : Host.Outcome State Fault Refusal :=
  finish s (do
    let s ← get
    if (s.ctx k).wait = .rewind ∧ s.rewindReady k then rollbackNow k)

/-- A report that cannot be resolved: the context rolls back and then ends with its record, whose PC is
the next address after the rollback (R231, R247).  In service nothing rolls back: the context ends after its bundle
where one is in issue, else at once, with its next address (R226, R231). -/
def rollbackEnd (k : Nat) (t : Trap) : M Unit := do
  let s ← get
  let t := { t with precise := false, slot := 0 }
  if (s.ctx k).frame.isNone then do
    rollbackNow k
    takeTrap k t
  else if s.issue.words.isEmpty then takeTrap k t
  else modify fun s => { s with issue := { s.issue with late := s.issue.late.or (some t) } }

/-- A migration request for a page (R250): requests of one direction for one page are merged. -/
def requestMove (l : Nat) (h : BitVec 16) (tile : Nat) (entry : Nat) (toHost : Bool) (who : Asker) : M Unit := do
  let s ← get
  if s.mp.migs.any (fun m => m.entry == entry && m.toHost == toHost) then
    let join (m : Mig) : Mig := if m.askers.contains who then m else { m with askers := m.askers ++ [who] }
    modMp fun mp => { mp with migs := updBy (fun m => m.entry == entry && m.toHost == toHost) join mp.migs }
  else
    let id ← freshId
    let m : Mig := { seq := id, ring := 0, askers := [who], entry := entry, launch := l, tenant := (s.launch l).tenant, handle := h, tile := tile,
                     toHost := toHost, stage := .waiting }
    modMp fun mp => { mp with migs := mp.migs ++ [m] }

/-- A translation fault of an access of context `k` at coordinate `x`, met at element `u` of it (R247): subcode 2 starts
the migration of that element's page and re-executes the segment, any other ends the context; in service every one ends
it (R226). -/
def translationFault (k : Nat) (h : BitVec 16) (x : Coord) (f : Nat × Coord) : M Unit := do
  let s ← get
  let c := s.ctx k
  let t : Trap := { Trap.mk' clsTranslation f.1 with handle := h, at' := x, precise := false }
  if f.1 = 2 ∧ c.frame.isNone then
    let d := s.desc (coreDie (coreOf k)) (s.launchOf k) h
    let n := d.tileNo f.2
    requestMove c.launch h n (d.entryAddr n) false (.ctx k h x)
    startRewind k
  else rollbackEnd k t

/-- An abort completion for a load of context `k`: the first of a segment rolls it back, a second for
uncorrectable data ends it with class 13; in service the first one does (R191, R222, R226). -/
def loadAborted (k : Nat) (data : Bool) : M Unit := do
  let c := (← get).ctx k
  if c.frame.isSome ∨ (data ∧ c.seg.abortedOnce) then rollbackEnd k (Trap.mk' clsData 0)
  else do
    if data then modCtx k fun c => { c with seg := { c.seg with abortedOnce := true } }
    startRewind k

end Sys2Proof.Machine
end

