-- ==== Sys2Proof/Machine/Access.lean ====
section
/-!
DEFINITION. Sys2Proof/Machine/Access.lean: the address lane (R181 to R199): targets and checks, loads and
their return, stores and atomics into the gate buffer, the scratchpads, iterators, fences, descriptors.
-/

namespace Sys2Proof.Machine

/-! ### Program order and the gate buffer (R76, R77, R220) -/

/-- The next place in the program order of the context in issue. -/
def nextSeq : M Nat := do
  let n := (← get).cur.fl.seq + 1
  modCur fun c => { c with fl := { c.fl with seq := n } }
  return n

/-- Is the effect one of a context in service, where nothing is gated (R226)? -/
def Ctx.inService (c : Ctx) : Bool := c.frame.isSome

/-- Add an effect to the gate buffer: a 129th entry is segment fault 1.  In service the effect is
committed at once. -/
def gate (e : Eff) : M Unit := do
  let n ← nextSeq
  let c := (← get).cur
  let g : GateEnt := ⟨e, n, c.sq.pc⟩
  if c.inService then modCur fun c => { c with fl := { c.fl with commits := c.fl.commits ++ [g] } }
  else
    M.need (decide (c.fl.gate.length < 128)) clsSegment 1
    modCur fun c => { c with fl := { c.fl with gate := c.fl.gate ++ [g] } }

/-- The die of the context in issue. -/
def curDie : M Nat := do return coreDie (coreOf (← get).focus)

/-! ### Targets and their checks (R107, R181 to R184, R187) -/

/-- The coordinate of an iterator in this bundle (R107). -/
def iterCoord (q : Seqr) (k : Iter) : Coord :=
  let idx (j : Nat) (l : Level) : W32 := if k.rev.getLsbD j then l.count - 1 - l.index else l.index
  let b (d : Nat) : W32 := match d with | 0 => k.b0 | 1 => k.b1 | 2 => k.b2 | _ => k.b3
  Coord.ofFn fun d =>
    ((q.loops.zipIdx).foldl (fun (x : W32) lj => x + idx lj.2 lj.1 * k.str.get 0 (4 * lj.2 + d)) (b d)).toInt

/-- A target: handle, coordinate if an iterator gives it, else an element offset, and the span hint. -/
structure Target where
  h : BitVec 16
  at' : Option Coord
  off : Nat
  span : BitVec 6
  deriving DecidableEq, Repr

/-- The target of a plain form. -/
def targetK (k : BitVec 3) : M Target := do
  let it ← liftC (rdK k)
  return ⟨it.handle, some (iterCoord (← get).cur.sq it), 0, it.span⟩

/-- A handle and offset (R181). -/
def handleOf (v : W64) : BitVec 16 := (v >>> 48).setWidth 16
def offsetOf (v : W64) : Nat := fieldN v 0 48

/-- The target of an .R form. -/
def targetA (a : BitVec 5) : M Target := do
  let v ← liftC (rdA' a)
  return ⟨handleOf v, none, offsetOf v, 0⟩

/-- The coordinate a fault record gives for a target whose tensor is not known. -/
def Target.raw (t : Target) : Coord := t.at'.getD ⟨(BitVec.ofNat 32 t.off).toInt, 0, 0, 0⟩

/-- What an access form asks of the tensor it names: in the order of R187 after the handle.  `form` is the part of the
width that the form settles whatever the tensor. -/
structure Ask where
  cls : Desc → Bool
  form : Bool
  width : Desc → Bool
  fmt : Desc → Bool
  align : Desc → Coord → Bool

/-- A target checked (R183, R187): its descriptor, whether that is valid, and the coordinate.  `base` says whether the
coordinate itself is accessed: of a bound access only the active examples' are checked (R213).  Of a tensor with an
invalid descriptor only the width of the form is checked at issue: its translation fault follows (log entry 14). -/
def checkTarget (l : Launch) (t : Target) (k : Ask) (base : Desc → Bool) : M (Desc × Bool × Coord) := do
  if t.h = 0xFFFF then M.trapAt clsAccess 4 t.h t.raw
  if !handleOk l t.h then M.trapAt clsAccess 5 t.h t.raw
  let (d, ok) ← descM (← curDie) l t.h
  if ok then
    let x := t.at'.getD (d.ofOffset t.off)
    if !k.cls d then M.trapAt clsAccess 4 t.h x
    if !k.form || !k.width d then M.trapAt clsAccess 3 t.h x
    if !k.fmt d then M.trapAt clsAccess 7 t.h x
    if base d then
      let inside := match t.at' with | some c => d.inside c | none => decide (t.off < d.elems)
      if !inside then M.trapAt clsAccess 1 t.h (if t.at'.isSome then x else t.raw)
      if !k.align d x then M.trapAt clsAccess 2 t.h x
    return (d, true, x)
  else do
    if !k.form then M.trapAt clsAccess 3 t.h t.raw
    return (d, false, t.raw)

/-- The check of an access at the coordinate itself. -/
def whole (_ : Desc) : Bool := true

/-- The coordinate of one example of a bound access, checked (R183, R187, R213). -/
def checkExample (h : BitVec 16) (k : Ask) (d : Desc) (y : Coord) : M Unit := do
  if !d.inside y then M.trapAt clsAccess 1 h y
  if !k.align d y then M.trapAt clsAccess 2 h y

/-- Vector accesses of an MX tensor start at a block (R187). -/
def mxAligned (vec : Bool) (d : Desc) (x : Coord) : Bool := !d.mx || !vec || x.c0 % 32 == 0

/-! ### Loads (R188, R209) -/

/-- The examples that a bound load reads: along dimension BDIM, under a lift, into qv or qw (R209). -/
def boundCoords (q : BitVec 2) (d : Desc) (ls : List LiftEnt) (x : Coord) : Option (List Coord) :=
  if !ls.isEmpty ∧ d.bnd ∧ (q = 1 ∨ q = 2) then
    some ((List.range (axisSize ls (ls.length - 1))).map fun e => x.move d.bdim (e : Nat))
  else none

/-- Enter a load: its queue entry is reserved and it is in flight (R110, R188). -/
def newLoad (q : BitVec 2) (kind : LoadKind) (strong acq : Bool) (scope : BitVec 3) (span : BitVec 6)
    (tag : BitVec 3) (copies : Nat) : M Load := do
  let id ← freshId
  liftC (reserve q id false tag copies)
  let n ← nextSeq
  let ld : Load := { id := id, q := q, seq := n, kind := kind, strong := strong, acq := acq, scope := scope,
                     pc := (← get).cur.sq.pc, span := span, got := none }
  modCur fun c => { c with fl := { c.fl with loads := c.fl.loads ++ [ld] } }
  return ld

def enterLoad (q : BitVec 2) (kind : LoadKind) (strong acq : Bool) (scope : BitVec 3) (span : BitVec 6)
    (tag : BitVec 3) (copies : Nat) : M Unit := do
  let _ ← newLoad q kind strong acq scope span tag copies

/-- TLD and TLDS: a load of one element or of 1,024 bits (R188, R209). -/
def tensorLoad (q : BitVec 2) (t : Target) (strong acq : Bool) (scope : BitVec 3) : M Unit := do
  let l ← curLaunch
  let ask : Ask :=
    { cls := fun d => d.cls != 1, form := !strong || q == 0, width := fun d => !(d.mx && q == 0), fmt := fun _ => true,
      align := mxAligned (q != 0) }
  let (d, ok, x) ← checkTarget l t ask whole
  let ls := (← get).cur.sq.lifts
  match if ok && !strong then boundCoords q d ls x else none with
  | none => enterLoad q (.elems t.h [x]) strong acq scope t.span 0 0
  | some cs => do
    cs.forM (checkExample t.h ask d)
    enterLoad q (.elems t.h cs) strong acq scope t.span (innerTag ls) (cs.length - 1)

/-! ### Effects as cells of memory (R189) -/

/-- The bytes of a number: cells from an address, `bits` bits long, the last masked. -/
def cellsOf (a v : Nat) (bits : Nat) : List (Nat × Byte × Byte) :=
  (List.range ((bits + 7) / 8)).map fun i =>
    (a + i, BitVec.ofNat 8 (v / 2 ^ (8 * i)), BitVec.ofNat 8 (2 ^ min 8 (bits - 8 * i) - 1))

/-- The bits of a unit that lie inside shape[0]. -/
def Desc.unitBits (t : Desc) (x : Coord) : Nat :=
  min t.unitElems (t.shape.c0 - x.c0).toNat * t.bits

/-- The cells of a store of `data` at a coordinate, or the fault of its translation. -/
def State.tensorCells (s : State) (die : Nat) (l : Launch) (h : BitVec 16) (x : Coord) (vec : Bool) (data : VBits) :
    Except (Nat × Coord) (List (Nat × Byte × Byte)) := do
  let t := s.desc die l h
  if !s.descOk die l t then throw (4, x)
  let us := t.units x (if vec then t.perVec else 1)
  let as ← s.unitAddrs die l h true us
  return ((us.zip as).zipIdx.map fun (ua, i) =>
    match ua with
    | (some u, some a) => cellsOf a (data.toNat / 2 ^ (8 * t.unitBytes * i) % 2 ^ (8 * t.unitBytes)) (t.unitBits u)
    | _ => []).flatten

/-- The cells of a store to a scratchpad. -/
def scrCells (core off : Nat) (vec : Bool) (data : VBits) : List (Nat × Byte × Byte) :=
  (cellsOf (scrAddr core off) data.toNat (if vec then 1024 else 64)).filter fun c => decide (c.1 < scrAddr (core + 1) 0)

/-- The cells that an effect of context `k` stores, as far as they are known before it performs. -/
def State.effCells (s : State) (k : Nat) (l : Launch) (e : Eff) : List (Nat × Byte × Byte) :=
  match e with
  | .store (.tensor h x) vec data _ _ _ =>
    match s.tensorCells (coreDie (coreOf k)) l h x vec data with | .ok cs => cs | .error _ => []
  | .store (.scr c off) vec data _ _ _ => scrCells c off vec data
  | .tdscW h sel v => cellsOf (descAddr l h + 8 * sel) v.toNat 64
  | _ => []

/-- The place of an effect's read-modify-write, for the order of accesses to one location. -/
def State.effRmw (s : State) (k : Nat) (l : Launch) (e : Eff) : List (Nat × Byte × Byte) :=
  let at' (h : BitVec 16) (x : Coord) :=
    match s.tensorCells (coreDie (coreOf k)) l h x false 0 with | .ok cs => cs | .error _ => []
  match e with
  | .amo _ h x _ _ _ _ _ => at' h x
  | .cas h x _ _ _ _ _ _ => at' h x
  | _ => []

/-- The context's own effects before a place in program order, oldest first: performing, committed,
gated (R77). -/
def State.ownEffects (s : State) (k seq : Nat) : List Eff :=
  let c := s.ctx k
  ((s.mp.outs.filter fun o => o.ctx == k && o.launch == c.launch && decide (o.seq < seq)).map OutOp.eff)
    ++ ((c.fl.commits.filter fun g => decide (g.seq < seq)).map GateEnt.eff)
    ++ ((c.fl.gate.filter fun g => decide (g.seq < seq)).map GateEnt.eff)

/-- The cells that forwarding supplies to an access at a place in program order. -/
def State.forwarded (s : State) (k seq : Nat) : List (Nat × Byte × Byte) :=
  ((s.ownEffects k seq).map (s.effCells k (s.launchOf k))).flatten

/-- A byte with the forwarded stores laid over it. -/
def overlay (fw : List (Nat × Byte × Byte)) (a : Nat) (b : Byte) : Byte :=
  fw.foldl (fun x c => if c.1 = a then (x &&& ~~~c.2.2) ||| (c.2.1 &&& c.2.2) else x) b

/-! ### Reading elements (R188, R272) -/

/-- The commit pointer of the append page of a tile (R267, R272). -/
def State.commitOf (s : State) (t : Desc) (tile : Nat) : Nat := s.seenN (t.w6 + 8 * tile) 8 / 2 ^ 32 % 2 ^ 17

/-- The state of the append page of a tile at its home (R268). -/
def State.apstOf (s : State) (t : Desc) (tile : Nat) : Nat := s.seenN (t.w6 + 8 * tile) 8 / 2 ^ 59 % 4

/-- Is the page of a unit one that no L1 caches: an append page that is not sealed (R272)? -/
def unsealed (t : Desc) (e : TileEntry) : Bool := t.cls == 2 && decide (e.apst ≤ 1)

/-- The byte of a unit at an address, by the agent's view `f` of memory: an append page reads as zero from COMMIT on
(R272). -/
def State.unitByte (s : State) (t : Desc) (u : Coord) (f : Nat → Byte) (a : Nat) : Byte :=
  if t.cls = 2 then (if a % 65536 < s.commitOf t (t.tileNo u) then f a else 0) else f a

/-- The value of an access: its units from bit 0 upwards, absent ones and elements beyond shape[0] zero. -/
def State.unitValue (s : State) (t : Desc) (fw : List (Nat × Byte × Byte)) (f : Nat → Byte) :
    List (Option Coord × Option Nat) → Nat
  | [] => 0
  | (some u, some a) :: r =>
    let v := bytesN (fun b => overlay fw b (s.unitByte t u f b)) a t.unitBytes % 2 ^ t.unitBits u
    v + 2 ^ (8 * t.unitBytes) * State.unitValue s t fw f r
  | _ :: r => 2 ^ (8 * t.unitBytes) * State.unitValue s t fw f r

/-- A qs value: signed integers are sign-extended, others zero-extended (R188). -/
def extendElem (efmt v : Nat) : VBits :=
  let w := efmtWidth efmt
  if efmtSigned efmt ∧ 2 ^ (w - 1) ≤ v then BitVec.ofNat 1024 (v + 2 ^ 64 - 2 ^ w) else BitVec.ofNat 1024 v

/-- The result of a load for its queue. -/
def queueValue (q : BitVec 2) (efmt v : Nat) : VBits := if q = 0 then extendElem efmt v else BitVec.ofNat 1024 v

/-- The bytes of the units of an access. -/
def unitSpan (t : Desc) (ps : List (Option Coord × Option Nat)) : List Nat :=
  (ps.map fun p => match p.2 with | some a => (List.range t.unitBytes).map (a + ·) | none => []).flatten

/-- The distinct values of a list, first occurrences. -/
def dedup : List Nat → List Nat
  | [] => []
  | x :: t => x :: (dedup t).filter (· != x)

/-- A die's replica pool: its size in frames, and its frames from the top of the die's memory (R277, log
entry 16). -/
def State.poolSize (s : State) (die : Nat) : Nat := (s.reg (0x5208 + 8 * die)).toNat
def poolFrame (die i : Nat) : Nat := (die + 1) * 0x180000 - 1 - i

/-- The first pool frame of a die that no replica uses. -/
def freePool (rs : List Replica) (die : Nat) : Nat → Nat → Nat
  | 0, i => poolFrame die i
  | n + 1, i => if rs.any (fun r => r.loc == poolFrame die i) then freePool rs die n (i + 1) else poolFrame die i

/-- Every L1 of a die gives up its blocks of a frame: it comes to hold another page (R15, R276). -/
def dropFrame (die f : Nat) : M Unit := modify fun s =>
  { s with cores := s.cores.map fun c => (c.1, if coreDie c.1 = die then c.2.dropBlocks (inPage f) else c.2) }

/-- A read by die `die` of a sealed page homed on another die: a replica is marked read, or requested, the least
recently read one being dropped where the pool is full (R276, R277). -/
def requestReplica (die : Nat) (t : Desc) (e : TileEntry) : M Unit := do
  let s ← get
  if t.cls = 2 ∧ e.p ∧ e.apst = 2 ∧ addrDie (e.frame * 65536) ≠ die ∧ s.poolSize die ≠ 0 then
    if s.mp.replicas.any (fun r => r.die == die && r.home == e.frame) then
      let mark := updBy (fun (r : Replica) => r.die == die && r.home == e.frame) fun r => { r with last := s.tick }
      modMp fun mp => { mp with replicas := mark mp.replicas }
    else
      let mine := s.mp.replicas.filter fun r => r.die == die
      let rs :=
        if mine.length < s.poolSize die then s.mp.replicas
        else
          let oldest := mine.foldl (fun (m : Nat) r => min m r.last) s.tick
          delBy (fun r => r.die == die && r.last == oldest) s.mp.replicas
      let loc := freePool rs die rs.length 0
      modMp fun mp =>
        { mp with replicas := rs ++ [{ die := die, home := e.frame, loc := loc, last := s.tick, ready := false }] }
      dropFrame die loc

/-- The units of a read: of each tile read, a replica is marked read or requested (R276).  Their addresses are taken after
it, for a replica that the pool gives up is read at its home from then on. -/
def askReplicas (die : Nat) (t : Desc) (us : List (Option Coord)) : M Unit := do
  if t.cls = 2 then
    us.forM fun u => match u with
      | some u => do requestReplica die t ((← get).entry die t (t.tileNo u))
      | none => pure ()

/-- Read `n` units at a coordinate for context `k`: weakly through its core's L1, or strongly at the home point (R85, R254).
`fw` are the forwarded stores. -/
def readUnits (k : Nat) (l : Launch) (h : BitVec 16) (x : Coord) (n : Nat) (strong : Bool) (span : BitVec 6) (pc : W32)
    (fw : List (Nat × Byte × Byte)) : M (Except (Nat × Coord) Nat) := do
  let c := coreOf k
  let die := coreDie c
  let (t, ok) ← descM die l h
  if !ok then return .error (4, x)
  let us := t.units x n
  match ← unitAddrsM die l h false us with
  | .error e => return .error e
  | .ok _ =>
    askReplicas die t us
    let s ← get
    let ps := us.map fun u => (u, u.map (s.elemAddr die t))
    let addrs := unitSpan t ps
    addrs.forM fun a => needAddr a 1
    let plain (p : Option Coord × Option Nat) : Bool := match p.1 with
      | some u => !unsealed t (s.entry die t (t.tileNo u))
      | none => false
    let cacheable := unitSpan t (ps.filter plain)
    if t.cls ≠ 2 then (dedup (cacheable.map frameOf)).forM fun f => touchByCore c f
    let s ← get
    let inL1 (a : Nat) : Bool := cacheable.contains a && (!strong || s.privateTo c (frameOf a))
    fillFor c (addrs.filter inL1) (if span = 0 then none else some span.toNat) pc (t.cls != 2)
    l2Addrs (s.ctx k).launch (addrs.filter fun a => !inL1 a) false
    let s ← get
    let e := atomOf (t.bits / 8)
    let f (a : Nat) : Byte := if strong then s.homeByte k e a else s.coreByte k e a
    let v := s.unitValue t fw f ps
    if strong then do
      learn k e addrs
      useAll c addrs
      modify fun s => s.applyWhere c fun f x => cacheable.any fun a => frameOf a == f && pageSector a == x
    raceStep
    return .ok v

/-! ### Own and peer scratchpads (R190, R191) -/

/-- A scratchpad access: the core number and offset, checked by R190; physical core. -/
def scrTarget (t : Target) : M (Nat × Nat) := do
  let s ← get
  let i := s.inst s.cur.inst
  match t.at' with
  | some x => do
    if t.h != 0xFFFF then M.trapAt clsAccess (if handleOk (s.launchOf s.focus) t.h then 4 else 5) t.h x
    let bad := !(decide (0 ≤ x.c0) && decide (x.c0 ≤ 0x7FFFF) && decide (0 ≤ x.c1) && decide (x.c1 < i.cores)
      && x.c2 == 0 && x.c3 == 0)
    if x.c0 % 8 != 0 then M.trapAt clsAccess 2 t.h x
    if bad then M.trapAt clsAccess 6 t.h x
    return (i.phys x.c1.toNat, x.c0.toNat)
  | none => do
    let v := t.h.toNat * 2 ^ 48 + t.off
    let x : Coord := ⟨(v % 2 ^ 19 : Nat), (v / 2 ^ 19 % 64 : Nat), 0, 0⟩
    if v % 8 != 0 then M.trapAt clsAccess 2 0 x
    if 2 ^ 25 ≤ v ∨ i.cores ≤ v / 2 ^ 19 % 64 then M.trapAt clsAccess 6 0 x
    return (i.phys (v / 2 ^ 19 % 64), v % 2 ^ 19)

/-- The checks of an access to the issuing core's own scratchpad: the moving region (control fault 6), the
size (access fault 6). -/
def needOwn (off n : Nat) : M Unit := do
  let s ← get
  let x := s.core (coreOf s.focus)
  if x.moving off n then M.trap clsControl 6
  if x.scrSize ≤ off then M.trapAt clsAccess 6 0xFFFF ⟨(off : Nat), (s.cur.icore : Nat), 0, 0⟩

/-- A byte of a scratchpad as a load of context `k` of `n` bytes finds it, where an engine's write may not be performed yet
(R309); past the size an access that began inside reads free values (log entry 15). -/
def State.scrByte (s : State) (k core off n i : Nat) : Byte :=
  if off + i < (s.core core).scrSize then s.raceByte k false (atomOf n) (scrAddr core (off + i)) else Config.freeByte s.free i

/-- `n` bytes of a scratchpad for context `k` with forwarded stores. -/
def readScr (k core off n : Nat) (fw : List (Nat × Byte × Byte)) : M Nat := do
  let s ← get
  let v := bytesN (fun i => overlay fw (scrAddr core (off + i)) (s.scrByte k core off n i)) 0 n
  let x := s.core core
  if x.scrSize < off + n ∨ x.quarantined then modify fun s => { s with free := s.free + 1 } else raceStep
  return v

/-- TLD (R188). -/
def execTld (q : BitVec 2) (k : BitVec 3) (s : State) : Host.Outcome State Fault Refusal :=
  finish s (do tensorLoad q (← targetK k) false false 0)

/-- TLD.R (R188). -/
def execTldR (q : BitVec 2) (a : BitVec 5) (s : State) : Host.Outcome State Fault Refusal :=
  finish s (do tensorLoad q (← targetA a) false false 0)

/-- TLDS: strong, at the home point; with r an acquire at its scope (R73, R188). -/
def execTlds (q : BitVec 2) (k c : BitVec 3) (r : BitVec 1) (s : State) : Host.Outcome State Fault Refusal :=
  finish s (do tensorLoad q (← targetK k) true (r == 1) c)

/-- TLDS.R (R73, R188). -/
def execTldsR (q : BitVec 2) (a : BitVec 5) (c : BitVec 3) (r : BitVec 1) (s : State) :
    Host.Outcome State Fault Refusal :=
  finish s (do tensorLoad q (← targetA a) true (r == 1) c)

/-! ### The return of a load (R188, R191, R247, R256) -/

def State.loadOf (s : State) (k id : Nat) : Option Load := findBy (fun ld => ld.id == id) (s.ctx k).fl.loads

/-- The load leaves the loads in flight with its entry filled; an acquire at .clu or wider applies the invalidations
pending for its core (R82). -/
def deliver (k : Nat) (ld : Load) (tag : BitVec 3) (vs : List VBits) : M Unit := do
  let now := ((← get).core (coreOf k)).clk
  modCtx k fun c => { c with queues := c.queues.fill ld.id now tag vs,
                             fl := { c.fl with loads := delBy (fun x => x.id == ld.id) c.fl.loads } }
  if ld.acq ∧ ld.scope ≠ 0 then modify fun s => s.applyInvals (coreOf k)

/-- The tag a load's entry was reserved with. -/
def Ctx.entryTag (c : Ctx) (id : Nat) : BitVec 3 :=
  match findBy (fun e => e.id == id) (c.queues.qv ++ c.queues.qw) with
  | some e => e.tag
  | none => 0

/-- Read a load's examples; a translation fault is reported at the first that meets one, with its coordinate. -/
def readLoad (k : Nat) (ld : Load) (h : BitVec 16) (cs : List Coord) :
    M (Except (Coord × (Nat × Coord)) (List VBits)) := do
  let l := (← get).launchOf k
  let t := (← get).desc (coreDie (coreOf k)) l h
  let fw := (← get).forwarded k ld.seq
  let rec go : List Coord → M (Except (Coord × (Nat × Coord)) (List VBits))
    | [] => return .ok []
    | x :: xs => do
      match ← readUnits k l h x (if ld.q = 0 then 1 else t.perVec) ld.strong ld.span ld.pc fw with
      | .error f => return .error (x, f)
      | .ok v => do
        match ← go xs with
        | .error e => return .error e
        | .ok vs => return .ok (queueValue ld.q t.efmt v :: vs)
  go cs

/-- A load of a scratchpad at a place of program order is refused past the target's size, and aborted in its moving region
(R191). -/
def peerOutcome (k core off n seq : Nat) : M (Option Nat) := do
  let s ← get
  let x := s.core core
  if x.moving off n then do
    loadAborted k false
    return none
  else if x.scrSize ≤ off then do
    let x : Coord := ⟨(off : Nat), (core - (s.inst (s.ctx k).inst).phys 0 : Nat), 0, 0⟩
    takeTrap k { Trap.mk' clsAccess 6 with precise := false, handle := 0xFFFF, at' := x }
    return none
  else return some (← readScr k core off n (s.forwarded k seq))

/-- LOAD_DATA_RETURN: the data of load `id` of context `k` returns and fills its entry; the misses of a
weak load fill the L1 on the way (R110, R188, R256).  A translation fault is reported instead (R247). -/
def returnLoad (k id : Nat) : M Unit := do
  let s ← get
  match s.loadOf k id with
  | none => pure ()
  | some ld =>
    match ld.got with
    | some vs =>
      if s.fops.any (fun f => f.kind == .read id) then pure () else deliver k ld ((s.ctx k).entryTag id) vs
    | none =>
      match ld.kind with
      | .elems h cs => do
        modify fun s => s.afterFences k ld.seq
        match ← readLoad k ld h cs with
        | .error (x, f) => translationFault k h x f
        | .ok vs => deliver k ld ((s.ctx k).entryTag id) vs
      | .peer core off => do
        match ← peerOutcome k core off (if ld.q = 0 then 8 else 128) ld.seq with
        | none => pure ()
        | some v => deliver k ld 0 [BitVec.ofNat 1024 v]
      | .desc h sel => do
        let l := s.launchOf k
        luTouch (coreDie (coreOf k)) (descAddr l h + 8 * sel) 1
        let v := (← get).luGet (coreDie (coreOf k)) (descAddr l h + 8 * sel)
        deliver k ld 0 [v.setWidth 1024]
      | .taps .. => pure ()

/-- LOAD_DATA_RETURN (R110, R188). -/
def execLoadDataReturn (k id : Nat) (s : State) : Host.Outcome State Fault Refusal := onEvent s k (returnLoad k id)

/-- The data of a load in flight captured. -/
def Ctx.setGot (c : Ctx) (id : Nat) (vs : List VBits) : Ctx :=
  { c with fl := { c.fl with loads := updBy (fun x => x.id == id) (fun x => { x with got := some vs }) c.fl.loads } }

/-- L1_FILL: the fill that a weak load waits for installs its blocks, and the load's data is captured; it
enters its queue later (R256, R261). -/
def execL1Fill (k id : Nat) (s : State) : Host.Outcome State Fault Refusal :=
  onEvent s k (do
    match (← get).loadOf k id with
    | none => pure ()
    | some ld =>
      match ld.kind, ld.strong, ld.got with
      | .elems h cs, false, none => do
        modify fun s => s.afterFences k ld.seq
        match ← readLoad k ld h cs with
        | .error (x, f) => translationFault k h x f
        | .ok vs => modCtx k fun c => c.setGot id vs
      | _, _, _ => pure ())

/-- REMOTE_SCRATCHPAD_REFUSAL: the refusal of load `id`'s access to a peer scratchpad returns: a moving
region rolls the context back, an offset past the size ends it (R191). -/
def execRemoteScratchpadRefusal (k id : Nat) (s : State) : Host.Outcome State Fault Refusal :=
  onEvent s k (do
    match (← get).loadOf k id with
    | none => pure ()
    | some ld => match ld.kind with
      | .peer core off => do let _ ← peerOutcome k core off (if ld.q = 0 then 8 else 128) ld.seq
      | _ => pure ())

/-- Words that an FLDT reads at each coordinate: taps selected, width of VD (R349). -/
def tapWords (mask : BitVec 4) (fmt : W32) (q : BitVec 2) : Nat :=
  let t := ((List.range 4).filter fun i => mask.getLsbD i).length
  if q = 0 then 1 else 1024 / (EFmt.ofCode (fmtVD fmt)).width / max t 1

/-- The fault that the translation of an FLDT of `m` words at each coordinate meets, with the coordinate of the first
example that meets one (R246, R346). -/
def State.tapsFault (s : State) (k : Nat) (h : BitVec 16) (cs : List Coord) (m : Nat) :
    Option (Coord × (Nat × Coord)) :=
  let l := s.launchOf k
  let die := coreDie (coreOf k)
  match s.bankFault die l h false with
  | some n => some (cs.headD Coord.zero, (n, cs.headD Coord.zero))
  | none =>
    let t := s.desc die l h
    (cs.filterMap fun x => (s.unitFault die l h false (t.units x m)).map fun f => (x, f)).head?

/-- What a gated effect's translation reports: handle and coordinate of its record, and the fault with the element that
meets it. -/
abbrev EffFault := BitVec 16 × Coord × (Nat × Coord)

/-- The units that an effect of launch `l` at a die writes, samples, appends to or reads a packet from, with the handle. -/
def State.effUnits (s : State) (die : Nat) (l : Launch) : Eff → Option (BitVec 16 × Coord × List (Option Coord) × Bool)
  | .store (.tensor h x) vec _ _ _ _ =>
    let t := s.desc die l h
    some (h, x, t.units x (if vec then t.perVec else 1), true)
  | .amo _ h x _ _ _ _ _ => some (h, x, [some x], true)
  | .cas h x _ _ _ _ _ _ => some (h, x, [some x], true)
  | .append h x _ _ _ _ _ => some (h, x, [some x], true)
  | .seal h x _ => some (h, x, [some x], true)
  | .fst h x xs => some (h, x, (s.desc die l h).units x xs.length, true)
  | .qpush h off _ _ =>
    let t := s.desc die l h
    some (h, t.ofOffset off, (List.range 32).map fun i => some (t.ofOffset (off + i)), false)
  | _ => none

/-- The bank that a gated effect reaches, and whether it writes it. -/
def Eff.bankOf : Eff → Option (BitVec 16 × Coord × Bool)
  | .fst h x _ => some (h, x, true)
  | .ftick h _ => some (h, Coord.zero, true)
  | .fdisc h _ _ => some (h, Coord.zero, false)
  | _ => none

/-- The fault that the translation of a gated effect meets (R246, R247, R346, R355).  Of an FEXP the source's bank alone
is looked at here: the rest is its engine's (R246). -/
def State.effFault (s : State) (k : Nat) (e : Eff) : Option EffFault :=
  let l := s.launchOf k
  let die := coreDie (coreOf k)
  let bank : Option EffFault := match e.bankOf with
    | some (h, x, wr) => (s.bankFault die l h wr).map fun n => (h, x, (n, x))
    | none => none
  let units : Option EffFault := match s.effUnits die l e with
    | some (h, x, us, wr) =>
      if s.descOk die l (s.desc die l h) then (s.unitFault die l h wr us).map fun f => (h, x, f) else some (h, x, (4, x))
    | none => none
  match e with
  | .fexp c =>
    if s.bankFault die l (handleOf c.src) false = some 4 then some (handleOf c.src, Coord.zero, (4, Coord.zero)) else none
  | .fbank h img _ =>
    let t := s.desc die l h
    if !s.descOk die l t || !s.bankValid die l h t (s.bankAt img) then some (h, Coord.zero, (4, Coord.zero))
    else if t.tenant != l.tenant.toNat then some (h, Coord.zero, (5, Coord.zero))
    else none
  | _ => bank.or units

/-- The layout units hold the descriptors of a bank and of its cascade bank. -/
def holdBank (die : Nat) (l : Launch) (h : BitVec 16) : M Unit := do
  let (d, _) ← descM die l h
  let b := (← get).bankAt d.w6
  if handleOk l b.casc then do let _ ← descM die l b.casc

/-- A gated effect is translated: the layout units hold what it uses, and its commit finds no other word there (R244,
R246). -/
def holdEff (k : Nat) (e : Eff) : M Unit := do
  let l := (← get).launchOf k
  let die := coreDie (coreOf k)
  match e with
  | .fexp c => holdBank die l (handleOf c.src)
  | .fst h _ _ => holdBank die l h
  | .fbank h _ _ => do holdBank die l h; holdTensor die l h
  | .ftick h _ => do holdBank die l h; holdTensor die l h
  | .fdisc h _ _ => do holdBank die l h; holdTensor die l h
  | _ => pure ()
  match (← get).effUnits die l e with
  | some (h, _) => do
    let _ ← descM die l h
    match (← get).effUnits die l e with
    | some (_, _, us, _) => holdUnits die l h us
    | none => pure ()
  | none => pure ()

/-- TRANSLATION_FAULT_REPORT: a layout unit reports the fault of an access of context `k` after issue: of
the load `n` with id 2 n, or of the gated effect at place n with id 2 n + 1 (R246, R247). -/
def execTranslationFaultReport (k id : Nat) (s : State) : Host.Outcome State Fault Refusal :=
  onEvent s k (do
    let s ← get
    if id % 2 = 0 then
      match s.loadOf k (id / 2) with
      | some ld => match ld.kind with
        | .elems h cs => do
          match ← readLoad k ld h cs with
          | .error (x, f) => translationFault k h x f
          | .ok _ => pure ()
        | .taps h cs mask fmt _ _ =>
          match s.tapsFault k h cs (tapWords mask fmt ld.q) with
          | some (x, f) => translationFault k h x f
          | none => pure ()
        | _ => pure ()
      | none => pure ()
    else
      match findBy (fun g => g.seq == id / 2) (s.ctx k).fl.gate with
      | some g => match s.effFault k g.eff with
        | some (h, x, f) => translationFault k h x f
        | none => pure ()
      | none => pure ())

/-- ABORT_COMPLETION: an abort completion for uncorrectable data, or because of a moving region, returns to
load `id` of context `k` (R191, R222). -/
def execAbortCompletion (k id : Nat) (s : State) : Host.Outcome State Fault Refusal :=
  onEvent s k (do
    match (← get).loadOf k id with
    | none => pure ()
    | some ld => loadAborted k (match ld.kind with | .peer .. => false | _ => true))

/-! ### Stores (R189, R210) -/

/-- The data of a store: its register, or the entry popped, by file. -/
def storeData (f : BitVec 2) (d : BitVec 5) : M (TReg 1024) :=
  if f = 0 then do
    let q ← liftC (popIfS [d])
    let v ← liftC (rdS q d)
    return ⟨true, 0, v.setWidth 1024, []⟩
  else do
    let l := if f = 1 then VW.v else VW.w
    let q ← liftC (popIfV l [d])
    liftC (rdV l q d)

/-- The sum of a reduction store across the examples (R210). -/
def reduceStore (r : TReg 1024) (q : Seqr) (fmt : W32) : CM VBits := do
  let fs := EFmt.ofCode (fmtVS fmt)
  let n := axisSize q.lifts (q.lifts.length - 1)
  let w := 2 ^ (Nat.log2 (2 * n - 1))
  let xs := (List.range n).map fun e => if q.active r.tag e then some (r.at' q.lifts r.tag e) else none
  let rho ← takeDraws (if fs.isFlt then fmtRM fmt else .rne) (1024 / fs.width * w)
  let ew := fs.width
  let cnt := 1024 / ew
  let fold (col : List (Option Nat)) (j : Nat) : Nat :=
    let es := (List.range w).map fun i => (col.getD i none)
    if fs.isFlt then
      let zs := es.map fun o => match o with
        | some b => fp32.round .rne false false 0 (fs.dec (fmtFTZ fmt) b)
        | none => 0
      let rec go : Nat → Nat → List Nat → Nat
        | 0, _, l => l.headD 0
        | f + 1, base, l =>
          if l.length ≤ 1 then l.headD 0
          else
            let h := l.length / 2
            let l' := (List.zip (l.take h) (l.drop h)).zipIdx.map fun (xy, i) =>
              fp32.round (fmtRM fmt) false false (rho (base + j * h + i))
                ((fp32.dec false xy.1).add (fmtRM fmt == .rdn) (fp32.dec false xy.2))
            go f (base + cnt * h) l'
      let root := go 8 0 zs
      convert (.flt fp32) fs (fmtRM fmt) (fmtSAT fmt) (fmtFTZ fmt) (rho (cnt * (w - 1) + j)) root
    else ((es.map fun o => o.getD 0).sum) % 2 ^ ew
  return ofElems ew ((List.range cnt).map fun j => fold (xs.map fun o => o.map fun v => elem ew v j) j)

/-- TST: plain or reducing, of S, V or W data (R189, R210).  Of tagged data that the tensor's binding takes, an element width
of VS that differs is a width mismatch, in its place of R187; of a tensor whose descriptor is invalid the innermost axis alone
goes on to its translation fault (log entries 14 and 37). -/
def tensorStore (r : TReg 1024) (t : Target) (f : BitVec 2) (red strong rel : Bool) (scope : BitVec 3) : M Unit := do
  let l ← curLaunch
  let vec := f != 0
  let q := (← get).cur.sq
  let fits (d : Desc) : Bool := r.tag == innerTag q.lifts && d.bnd != red
  let ask : Ask :=
    { cls := fun d => d.cls == 0 || d.cls == 3, form := (!strong || !vec) && (vec || !red),
      width := fun d => (vec || !d.mx) && (r.tag == 0 || !fits d || (EFmt.ofCode (fmtVS q.fmt)).width == d.bits),
      fmt := fun _ => true, align := mxAligned vec }
  let (d, ok, x) ← checkTarget l t ask fun d => r.tag == 0 || red || !d.bnd
  M.need (r.tag == 0 || r.tag == innerTag q.lifts && (!ok || fits d)) clsLift 3
  if r.tag = 0 ∨ !ok then gate (.store (.tensor t.h x) vec r.val strong rel scope)
  else
    if red then
      let v ← liftC (reduceStore r q q.fmt)
      gate (.store (.tensor t.h x) vec v strong rel scope)
    else
      (List.range (axisSize q.lifts (q.lifts.length - 1))).forM fun e =>
        if q.active r.tag e then do
          let y := x.move d.bdim (e : Nat)
          checkExample t.h ask d y
          gate (.store (.tensor t.h y) vec (r.at' q.lifts r.tag e) strong rel scope)
        else pure ()

/-- A red store of S data is access fault 3 whatever the tensor, after the handle and class (R187). -/
def execTst (d : BitVec 5) (k : BitVec 3) (e : BitVec 1) (f : BitVec 2) (s : State) :
    Host.Outcome State Fault Refusal :=
  finish s (do
    let t ← targetK k
    tensorStore (← storeData f d) t f (e == 1) false false 0)

/-- TST.R (R189). -/
def execTstR (d a : BitVec 5) (e : BitVec 1) (f : BitVec 2) (s : State) : Host.Outcome State Fault Refusal :=
  finish s (do
    let t ← targetA a
    tensorStore (← storeData f d) t f (e == 1) false false 0)

/-- TSTS: strong, of S data; with r a release at its scope (R73, R189). -/
def execTsts (d : BitVec 5) (k c : BitVec 3) (r : BitVec 1) (f : BitVec 2) (s : State) :
    Host.Outcome State Fault Refusal :=
  finish s (do
    let t ← targetK k
    tensorStore (← storeData f d) t f false true (r == 1) c)

/-- TSTS.R (R73, R189). -/
def execTstsR (d a : BitVec 5) (c : BitVec 3) (r : BitVec 1) (f : BitVec 2) (s : State) :
    Host.Outcome State Fault Refusal :=
  finish s (do
    let t ← targetA a
    tensorStore (← storeData f d) t f false true (r == 1) c)

/-- SPST: untagged data to the cluster scratchpad (R190, R210). -/
def scrStore (r : TReg 1024) (t : Target) (f : BitVec 2) : M Unit := do
  let (core, off) ← scrTarget t
  let s ← get
  if core = coreOf s.focus then needOwn off (if f = 0 then 8 else 128)
  M.need (r.tag == 0) clsLift 3
  gate (.store (.scr core off) (f != 0) r.val false false 0)

/-- SPST (R190). -/
def execSpst (d : BitVec 5) (k : BitVec 3) (f : BitVec 2) (s : State) : Host.Outcome State Fault Refusal :=
  finish s (do
    let t ← targetK k
    scrStore (← storeData f d) t f)

/-- SPST.R (R190). -/
def execSpstR (d a : BitVec 5) (f : BitVec 2) (s : State) : Host.Outcome State Fault Refusal :=
  finish s (do
    let t ← targetA a
    scrStore (← storeData f d) t f)

/-! ### Atomics (R194 to R196) -/

/-- The checks of an AMO or CAS: an ordinary or host-shared tensor whose elements are 4 bytes, or 8 with D;
ADD, MIN and MAX of a floating format other than FP32 are access fault 7. -/
def amoAsk (wide arith : Bool) : Ask :=
  { cls := fun d => d.cls == 0 || d.cls == 3, form := true, width := fun d => !d.mx && d.bits == (if wide then 64 else 32),
    fmt := fun d => !arith || !(decide (1 ≤ d.efmt) && decide (d.efmt ≤ 4)), align := fun _ _ => true }

/-- The gated AMO; with `ret` it reserves the qs entry that its commit will fill (R196). -/
def amo (op : AmoOp) (arith : Bool) (d : BitVec 5) (k c : BitVec 3) (o : BitVec 2) (w r : BitVec 1) : M Unit := do
  let t ← targetK k
  let q ← liftC (popIfS [d])
  let y ← liftC (rdS q d)
  let l ← curLaunch
  let (_, _, x) ← checkTarget l t (amoAsk (w == 1) arith) whole
  let ret ← if r = 1 then do
      let id ← freshId
      liftC (reserve 0 id (!(← get).cur.inService) 0 0)
      pure (some id)
    else pure none
  gate (.amo op t.h x (w == 1) y ret o c)

/-- AMO.ADD (R194). -/
def execAmoAdd (d : BitVec 5) (k c : BitVec 3) (o : BitVec 2) (w t : BitVec 1) (s : State) :
    Host.Outcome State Fault Refusal := finish s (amo .add true d k c o w t)
/-- AMO.AND (R194). -/
def execAmoAnd (d : BitVec 5) (k c : BitVec 3) (o : BitVec 2) (w t : BitVec 1) (s : State) :
    Host.Outcome State Fault Refusal := finish s (amo .and false d k c o w t)
/-- AMO.OR (R194). -/
def execAmoOr (d : BitVec 5) (k c : BitVec 3) (o : BitVec 2) (w t : BitVec 1) (s : State) :
    Host.Outcome State Fault Refusal := finish s (amo .or false d k c o w t)
/-- AMO.XOR (R194). -/
def execAmoXor (d : BitVec 5) (k c : BitVec 3) (o : BitVec 2) (w t : BitVec 1) (s : State) :
    Host.Outcome State Fault Refusal := finish s (amo .xor false d k c o w t)
/-- AMO.MIN (R194). -/
def execAmoMin (d : BitVec 5) (k c : BitVec 3) (o : BitVec 2) (w t : BitVec 1) (s : State) :
    Host.Outcome State Fault Refusal := finish s (amo .min true d k c o w t)
/-- AMO.MAX (R194). -/
def execAmoMax (d : BitVec 5) (k c : BitVec 3) (o : BitVec 2) (w t : BitVec 1) (s : State) :
    Host.Outcome State Fault Refusal := finish s (amo .max true d k c o w t)
/-- AMO.SWP (R194). -/
def execAmoSwp (d : BitVec 5) (k c : BitVec 3) (o : BitVec 2) (w t : BitVec 1) (s : State) :
    Host.Outcome State Fault Refusal := finish s (amo .swp false d k c o w t)

/-- CAS: expected s[d], new s[d + 1]; it always returns (R195). -/
def casWith (wide : Bool) (d : BitVec 5) (k c : BitVec 3) (o : BitVec 2) : M Unit := do
  let t ← targetK k
  let e ← liftC (rdS 0 d)
  let n ← liftC (rdS 0 (d + 1))
  let l ← curLaunch
  let (_, _, x) ← checkTarget l t (amoAsk wide false) whole
  let id ← freshId
  liftC (reserve 0 id (!(← get).cur.inService) 0 0)
  gate (.cas t.h x wide e n id o c)

/-- CAS (R195). -/
def execCas (d : BitVec 5) (k c : BitVec 3) (o : BitVec 2) (s : State) : Host.Outcome State Fault Refusal :=
  finish s (casWith false d k c o)
/-- CAS.D (R195). -/
def execCasD (d : BitVec 5) (k c : BitVec 3) (o : BitVec 2) (s : State) : Host.Outcome State Fault Refusal :=
  finish s (casWith true d k c o)

/-- The new value of an AMO on an element of a format (R194). -/
def AmoOp.apply (op : AmoOp) (efmt w old y : Nat) : Nat :=
  let a := fp32.dec false old
  let b := fp32.dec false y
  let flt := efmt == 0
  let sg := efmtSigned efmt
  match op with
  | .add => if flt then fp32.round .rne false false 0 (a.add false b) else (old + y) % 2 ^ w
  | .and => old &&& y
  | .or => old ||| y
  | .xor => old ^^^ y
  | .min =>
    if flt then fp32.round .rne false false 0 (a.min b) else if intVal sg w old < intVal sg w y then old else y
  | .max =>
    if flt then fp32.round .rne false false 0 (a.max b) else if intVal sg w old < intVal sg w y then y else old
  | .swp => y

/-! ### Prefetch (R197) -/

/-- The checks that a prefetch must pass; any other is dropped. -/
def prefetchOk (s : State) (die : Nat) (l : Launch) (h : BitVec 16) (x : Coord) : Bool :=
  handleOk l h && (let t := s.desc die l h
    s.descOk die l t && (t.cls == 0 || t.cls == 3) && t.inside x && mxAligned true t x
      && (match s.unitAddrs die l h false (t.units x t.perVec) with
        | .ok as => as.all fun a => addrOk (a.getD 0) t.unitBytes
        | .error _ => false))

/-- PREF: the bytes of a qv load are brought into the L1; a PHASE that runs holds no access that makes no result, and it is
dropped (R132, R197). -/
def execPref (k : BitVec 3) (s : State) : Host.Outcome State Fault Refusal :=
  finish s (do
    let t ← targetK k
    let s ← get
    let l := s.launchOf s.focus
    let x := t.at'.getD Coord.zero
    let c := coreOf s.focus
    if prefetchOk s (coreDie c) l t.h x ∧ (s.core c).phase.isNone then do
      let d := s.desc (coreDie c) l t.h
      let _ ← readUnits s.focus l t.h x d.perVec false t.span s.cur.sq.pc [])

/-- PREF.L2: into the L2 of the home die only (R197). -/
def execPrefL2 (k : BitVec 3) (s : State) : Host.Outcome State Fault Refusal :=
  finish s (do
    let t ← targetK k
    let s ← get
    let l := s.launchOf s.focus
    let x := t.at'.getD Coord.zero
    let die := coreDie (coreOf s.focus)
    if prefetchOk s die l t.h x then do
      let d := s.desc die l t.h
      match ← unitAddrsM die l t.h false (d.units x d.perVec) with
      | .ok as => l2Addrs s.cur.launch (unitSpan d ((d.units x d.perVec).zip as)) false
      | .error _ => pure ())

/-! ### Fences (R78, R79, R81, R198) -/

/-- A fence takes its place; in service every effect before it has been committed.  A FENCE or DRAIN at .clu or wider is yet
to apply invalidations (R82, R226). -/
def fence (kd : FenceKind) (sc : BitVec 3) : M Unit := do
  let n ← nextSeq
  modCur fun c =>
    let f : Fence := ⟨n, if c.inService then n else c.fl.markSeq, kd, sc, kd != .full || sc == 0⟩
    { c with fl := { c.fl with fences := c.fl.fences ++ [f] } }

/-- FENCE (R79). -/
def execFence (c : BitVec 3) (s : State) : Host.Outcome State Fault Refusal := finish s (fence .full c)
/-- FENCE.ST (R79). -/
def execFenceSt (c : BitVec 3) (s : State) : Host.Outcome State Fault Refusal := finish s (fence .st c)

/-- XFENCE: completed commands of an engine class that a wait form has seen are performed; later accesses
of class y wait for the covered ones of class x (R81).  Later loads of class CORE see what is performed: the
invalidations pending for the core are applied.  Later gathers of the context miss no store that has performed (R309). -/
def execXfence (x y : BitVec 3) (s : State) : Host.Outcome State Fault Refusal :=
  finish s (do
    let k := (← get).focus
    modMp fun mp => { mp with unperf := settle (fun w => w.ctx == k && w.cls == x && w.seen) [] mp.unperf }
    if x = 0 ∧ y = 2 then modify fun s => s.setCtx k { s.ctx k with fl := { (s.ctx k).fl with gath := s.tick } }
    if y = 0 then modify fun s => s.applyInvals (coreOf k)
    fence (.x x y) 3)

/-- DRAIN: a fence that also holds the next bundle (R79). -/
def execDrain (c : BitVec 3) (s : State) : Host.Outcome State Fault Refusal :=
  finish s (do
    fence .full c
    waitFor .drain)

/-- The widest scope of the acquires that fences before a place may stand for (R82). -/
def fenceAcq (fs : List Fence) (n : Nat) : Nat :=
  fs.foldl (fun m f => if f.kind == .full && decide (f.seq < n) then max m (f.scope.toNat + 1) else m) 0

/-- Does a scope include both contexts (R4, R6)? -/
def inScope (sc k j : Nat) : Bool :=
  match sc with
  | 0 => false
  | 1 => coreOf k == coreOf j
  | 2 => coreOf k / 64 == coreOf j / 64
  | 3 => coreDie (coreOf k) == coreDie (coreOf j)
  | _ => true

/-- Must an acquire of context `k` at a scope wait: an access of another context that a performed release or store
stands after, at a scope with `k` in it, is still on its way or at its home unperformed (R82, R95, R275)? -/
def State.owedTo (s : State) (k sc : Nat) : Bool :=
  let owes (j owed : Nat) : Bool := j != k && inScope owed j k && inScope sc k j
  s.mp.outs.any (fun p => owes p.ctx p.owed) || s.mp.seals.any (fun r => owes r.ctx r.owed)
    || s.mp.resvs.any fun r => match r.ctx with | some j => owes j r.owed | none => false

/-- Has what the fences of context `k` before place `n` acquire been performed (R82, R83)? -/
def State.acquired (s : State) (k n : Nat) : Bool := !s.owedTo k (fenceAcq (s.ctx k).fl.fences n)

/-- Has every committed CORE and FILT access of a context been performed, and what its fences acquire (R79, R80, R83)? -/
def State.drained (s : State) (k : Nat) : Bool :=
  let copyEff (e : Eff) : Bool := match e with | .fexp .. => true | _ => false
  let copyOp (d : FKind) : Bool := match d with | .taps _ => true | _ => false
  !s.mp.outs.any (fun o => o.ctx == k && !copyEff o.eff) && !s.fops.any (fun f => f.ctx == k && !copyOp f.kind)
    && !s.mp.seals.any (fun r => r.ctx == k) && !s.mp.resvs.any (fun r => r.ctx == some k) && (s.ctx k).fl.commits.isEmpty
    && (s.ctx k).fl.loads.isEmpty && s.acquired k ((s.ctx k).fl.seq + 1)

/-- DRAIN_COMPLETE: the earlier committed accesses of context `k` are performed, and its held bundle may
issue (R79). -/
def execDrainComplete (k : Nat) (s : State) : Host.Outcome State Fault Refusal :=
  finish s (do
    let s ← get
    if (s.ctx k).wait = .drain ∧ s.drained k then modCtx k Ctx.nextWait)

/-! ### Iterators (R184, R185, R263) -/

/-- The coordinates that AITER.H gives a handle and offset.  A coordinate keeps its low 32 bits, and a valid descriptor with a zero
extent, which gives no coordinates, counts as one with V = 0 (log entry 97). -/
def iterBase (v : W64) : M (W32 × W32 × W32 × W32) := do
  let h := handleOf v
  let l ← curLaunch
  if h = 0xFFFF then
    return (BitVec.ofNat 32 (fieldN v 0 19), BitVec.ofNat 32 (fieldN v 19 6), BitVec.ofNat 32 (fieldN v 25 23), 0)
  else
    let die ← curDie
    if handleOk l h then luTouch die (descAddr l h) 16
    let d := (← get).desc die l h
    if handleOk l h && d.v && (List.range 4).all (fun i => decide (1 ≤ d.shape.get i)) then
      let x := d.ofOffset (offsetOf v)
      return (BitVec.ofInt 32 x.c0, BitVec.ofInt 32 x.c1, BitVec.ofInt 32 x.c2, BitVec.ofInt 32 x.c3)
    else return (v.setWidth 32, 0, 0, 0)

/-- AITER.H (R184). -/
def execAiterH (k : BitVec 3) (a : BitVec 5) (s : State) : Host.Outcome State Fault Refusal :=
  finish s (do
    let v ← liftC (rdA' a)
    let (b0, b1, b2, b3) ← iterBase v
    liftC (wrK k { valid := true, handle := handleOf v, b0 := b0, b1 := b1, b2 := b2, b3 := b3, str := [], rev := 0,
                   span := 0 }))

def loW (v : W64) : W32 := v.setWidth 32
def hiW (v : W64) : W32 := (v >>> 32).setWidth 32

/-- AITER.B (R184). -/
def execAiterB (k : BitVec 3) (a : BitVec 5) (h : BitVec 1) (s : State) : Host.Outcome State Fault Refusal :=
  onCtx s (do
    let v ← rdA' a
    let it ← rdK k
    wrK k (if h = 0 then { it with b0 := loW v, b1 := hiW v } else { it with b2 := loW v, b3 := hiW v }))

/-- AITER.S: the stride pair of stack position j (R184). -/
def execAiterS (k : BitVec 3) (a : BitVec 5) (j : BitVec 3) (h : BitVec 1) (s : State) :
    Host.Outcome State Fault Refusal :=
  onCtx s (do
    let v ← rdA' a
    let it ← rdK k
    let p := 4 * j.toNat + 2 * h.toNat
    wrK k { it with str := (it.str.set p (loW v)).set (p + 1) (hiW v) })

/-- Two 32-bit words as one of 64. -/
def pairW (lo hi : W32) : W64 := hi ++ lo

/-- AITER.RD (R184). -/
def execAiterRd (d : BitVec 5) (k : BitVec 3) (c : BitVec 5) (s : State) : Host.Outcome State Fault Refusal :=
  onCtx s (do
    let it ← rdK k
    let p := 2 * (c.toNat - 4)
    wrA d (match c.toNat with
      | 0 => it.handle.setWidth 64 <<< 48
      | 1 => pairW it.b0 it.b1
      | 2 => pairW it.b2 it.b3
      | 3 => it.rev.setWidth 64
      | _ => pairW (it.str.get 0 p) (it.str.get 0 (p + 1))))

/-- AIREV (R184). -/
def execAirev (k : BitVec 3) (m : BitVec 6) (s : State) : Host.Outcome State Fault Refusal :=
  onCtx s (do
    let it ← rdK k
    wrK k { it with rev := m })

/-! ### Descriptors (R199) -/

/-- TDSC: handle and element offset of an iterator's coordinate, checked by R183 (R199). -/
def execTdsc (d : BitVec 5) (k : BitVec 3) (s : State) : Host.Outcome State Fault Refusal :=
  finish s (do
    let t ← targetK k
    let l ← curLaunch
    let (dd, ok, x) ← checkTarget l t
      { cls := fun _ => true, form := true, width := fun _ => true, fmt := fun _ => true, align := fun _ _ => true } whole
    if ok then liftC (wrA d ((t.h.setWidth 64 <<< 48) ||| BitVec.ofNat 64 (dd.offset x % 2 ^ 48)))
    else rollbackEnd (← get).focus { Trap.mk' clsTranslation 4 with handle := t.h, at' := x })

/-- The handle of an A register, with access faults 4 and 5 (R187, R199). -/
def rdHandle (a : BitVec 5) : M (BitVec 16) := do
  let v ← liftC (rdA' a)
  let l ← curLaunch
  if handleOf v = 0xFFFF then M.trapAt clsAccess 4 (handleOf v) Coord.zero
  if !handleOk l (handleOf v) then M.trapAt clsAccess 5 (handleOf v) Coord.zero
  return handleOf v

/-- TDSC.Q: a descriptor word into qs (R199). -/
def execTdscQ (c : BitVec 4) (a : BitVec 5) (s : State) : Host.Outcome State Fault Refusal :=
  finish s (do enterLoad 0 (.desc (← rdHandle a) c.toNat) false false 0 0 0 0)

/-- TDSC.W: a gated write of a descriptor word (R199). -/
def execTdscW (c : BitVec 4) (a b : BitVec 5) (s : State) : Host.Outcome State Fault Refusal :=
  finish s (do
    let s ← get
    M.need s.cur.priv clsPrivilege 0
    let h ← rdHandle a
    let v ← liftC (rdA' b)
    gate (.tdscW h c.toNat v))

end Sys2Proof.Machine
end

