-- ==== Sys2Proof/Machine/Span.lean ====
section
/-!
DEFINITION. Sys2Proof/Machine/Span.lean: SPAN, the range flushes and invalidations, and the moves of the
directory (R248, R259, R261, R262 to R265, R278).
-/

namespace Sys2Proof.Machine

/-- SPAN: the span hint of an iterator (R263). -/
def execSpan (k : BitVec 3) (n : BitVec 6) (s : State) : Host.Outcome State Fault Refusal :=
  onCtx s (do
    let it ← rdK k
    wrK k { it with span := n })

/-- SPAN.CLR (R263). -/
def execSpanClr (k : BitVec 3) (s : State) : Host.Outcome State Fault Refusal :=
  onCtx s (do
    let it ← rdK k
    wrK k { it with span := 0 })

/-- A range of elements: descriptor, start, count; `none` where the form does nothing (R264). -/
def rangeOf (a b : BitVec 5) : M (Option (BitVec 16 × Desc × Nat × Nat)) := do
  let v ← liftC (rdA' a)
  let n := offsetOf (← liftC (rdA' b))
  if n = 0 then return none
  else do
    let h := handleOf v
    let l ← curLaunch
    if !handleOk l h then M.trapAt clsAccess 5 h Coord.zero
    let (d, ok) ← descM (← curDie) l h
    if !ok then do
      rollbackEnd (← get).focus { Trap.mk' clsTranslation 4 with handle := h }
      return none
    else if d.cls = 1 then return none
    else do
      if d.elems ≤ offsetOf v ∨ d.elems < offsetOf v + n then
        M.trapAt clsAccess 1 h ⟨(BitVec.ofNat 32 (offsetOf v)).toInt, 0, 0, 0⟩
      return some (h, d, offsetOf v, n)

/-- The tiles of a range. -/
def rangeTiles (d : Desc) (off n : Nat) : List Nat := dedup ((List.range n).map fun i => d.tileNo (d.ofOffset (off + i)))

/-- The sectors, numbered over device memory, that the mapped elements of a range lie in (R264). -/
def State.rangeSectors (s : State) (die : Nat) (d : Desc) (off n : Nat) : List Nat :=
  dedup (((List.range n).map fun i =>
    let x := d.ofOffset (off + i)
    if (s.entry die d (d.tileNo x)).p then
      let a := s.elemAddr die d x
      let last := a + (d.inTile x * d.bits % 8 + d.bits - 1) / 8
      if a / 32 = last / 32 then [a / 32] else [a / 32, last / 32]
    else []).flatten)

/-- Does a block hold any of the sectors? -/
def Block.meetsAny (b : Block) (secs : List Nat) : Bool :=
  secs.any fun x => b.bay == x / 32 && decide (b.lo ≤ x % 32) && decide (x % 32 ≤ b.hi)

/-- The pages whose 2,048 sectors are all among those given. -/
def fullPages (secs : List Nat) : List Nat :=
  (dedup (secs.map (· / 2048))).filter fun f => (List.range 2048).all fun i => secs.contains (2048 * f + i)

/-- A block without dirty sectors, if it meets the range. -/
def Block.cleaned (secs : List Nat) (b : Block) : Block := if b.meetsAny secs then { b with dirty := 0 } else b

/-- Write back the dirty sectors of the core's blocks that meet the range to their home L2s; the blocks stay, clean. -/
def flushL1 (c : Nat) (secs : List Nat) : M Unit := do
  let s ← get
  let bs := (s.core c).blocks.filter fun b => b.meetsAny secs
  modify fun s => { s with mem := bs.foldl writeBack s.mem }
  bs.forM fun b => b.dirtySecs.forM fun i => l2Range (s.coreLaunch c) (1024 * b.bay + 32 * i) 32 true
  modCore c fun x => { x with l1 := x.l1.map fun e => (e.1, e.2.map (Block.cleaned secs)) }

/-- The sectors of a range, its tile entries being held by the layout units. -/
def sectorsM (d : Desc) (off n : Nat) : M (List Nat) := do
  let die ← curDie
  (rangeTiles d off n).forM fun t => luTouch die (d.entryAddr t) 2
  return (← get).rangeSectors die d off n

/-- FLUSHR (R264). -/
def execFlushr (a b : BitVec 5) (s : State) : Host.Outcome State Fault Refusal :=
  finish s (do
    match ← rangeOf a b with
    | none => pure ()
    | some (_, d, off, n) => flushL1 (coreOf (← get).focus) (← sectorsM d off n))

/-- FLUSHR.D: the home L2s write back too, and fully covered pages return to untouched (R264). -/
def execFlushrD (a b : BitVec 5) (s : State) : Host.Outcome State Fault Refusal :=
  finish s (do
    match ← rangeOf a b with
    | none => pure ()
    | some (_, d, off, n) => do
      let secs ← sectorsM d off n
      flushL1 (coreOf (← get).focus) secs
      let l2 := ((← get).mp.l2.map fun e => e.2.filter fun b => b.meetsAny secs).flatten
      countFor (← get).cur.launch (32 * (l2.map fun b => b.dirtySecs.length).sum) 0
      modMp fun mp => { mp with l2 := mp.l2.map fun e => (e.1, e.2.map (Block.cleaned secs)) }
      (fullPages secs).forM pageReset)

/-- A Sealed page whose tile the driver has unmapped is Freeing, in its state word and its tile entry; the frame that it
gives up (R268, R278). -/
def freePage (d : Desc) (t : Nat) : M (List Nat) := do
  let e ← rdW64 (d.entryAddr t)
  let w ← rdW64 (d.w6 + 8 * t)
  if !e.getLsbD 63 && fieldN w 59 2 == 2 then do
    wrW64 (d.w6 + 8 * t) (setField w 59 2 3)
    wrW64 (d.entryAddr t) (setField e 59 2 3)
    return [fieldN e 0 24]
  else return []

/-- An invalidation by R248 of a tensor's descriptor and the given tiles begins, and the context's next bundle waits for
its completion (R265, R278). -/
def beginInval (h : BitVec 16) (d : Desc) (tiles : List Nat) : M Unit := do
  let fs ← if d.cls = 2 then tiles.mapM (freePage d) else pure []
  let l ← curLaunch
  let k := (← get).focus
  let id ← freshId
  let v : Inval := { id := id, who := .ctx k, words := (descAddr l h, 128) :: tiles.map fun t => (d.entryAddr t, 16),
                     entries := tiles.map d.entryAddr, pages := if d.cls = 2 then tiles.map fun t => d.w6 + 8 * t else [],
                     frames := fs.flatten }
  modMp fun mp => { mp with pend := mp.pend ++ [v] }
  waitFor (.inval id)

/-- INVR: the issuing core's blocks that meet the range are discarded; with T = 1 the descriptor and the
range's tile entries are invalidated too (R264). -/
def execInvr (a b : BitVec 5) (t : BitVec 1) (s : State) : Host.Outcome State Fault Refusal :=
  finish s (do
    match ← rangeOf a b with
    | none => pure ()
    | some (h, d, off, n) => do
      let secs ← sectorsM d off n
      modCore (coreOf (← get).focus) fun x => x.dropBlocks fun b => b.meetsAny secs
      (fullPages secs).forM pageReset
      if t = 1 then beginInval h d (rangeTiles d off n))

/-- INVR.TT: the descriptor and every tile entry of a handle; privileged (R37, R264). -/
def execInvrTt (a : BitVec 5) (s : State) : Host.Outcome State Fault Refusal :=
  finish s (do
    M.need (← get).cur.priv clsPrivilege 0
    let h ← rdHandle a
    let (d, _) ← descM (← curDie) (← curLaunch) h
    beginInval h d (List.range d.count))

/-- The addresses of the descriptors and tile entries that the units of an access use. -/
def State.unitWords (s : State) (die : Nat) (l : Launch) (h : BitVec 16) (us : List (Option Coord)) : List Nat :=
  let t := s.desc die l h
  descAddr l h :: descAddr l (BitVec.ofNat 16 t.scale) :: us.filterMap fun u => u.map fun x => t.entryAddr (t.tileNo x)

/-- The words that a load in flight of context `k` is translated with. -/
def State.loadWords (s : State) (k : Nat) (ld : Load) : List Nat :=
  let die := coreDie (coreOf k)
  let l := s.launchOf k
  let at' (h : BitVec 16) (cs : List Coord) (n : Nat) : List Nat :=
    (cs.map fun x => s.unitWords die l h ((s.desc die l h).units x n)).flatten
  match ld.kind with
  | .elems h cs => at' h cs (if ld.q = 0 then 1 else (s.desc die l h).perVec)
  | .taps h cs mask fmt _ _ => at' h cs (tapWords mask fmt ld.q)
  | .desc h _ => [descAddr l h]
  | .peer .. => []

/-- The words that an effect of launch `l` is translated with. -/
def State.effWords (s : State) (die : Nat) (l : Launch) (e : Eff) : List Nat :=
  let bank (h : BitVec 16) : List Nat :=
    let d := s.desc die l h
    descAddr l h :: (List.range d.count).map d.entryAddr
  match e with
  | .fexp c => [descAddr l (handleOf c.src)]
  | .fbank h _ _ => bank h
  | .ftick h _ => bank h
  | .fdisc h _ _ => bank h
  | e => match s.effUnits die l e with
    | some (h, _, us, _) => s.unitWords die l h us
    | none => []

/-- Does an invalidation take one of the words? -/
def Inval.takes (v : Inval) (as : List Nat) : Bool := v.words.any fun w => as.contains w.1

/-- Does an invalidation take the descriptor, or a tile entry, of a bank? -/
def State.bankTaken (s : State) (v : Inval) (die launch : Nat) (h : BitVec 16) : Bool :=
  let l := s.launch launch
  let d := s.desc die l h
  v.takes [descAddr l h] || v.entries.any fun a => decide (d.tab ≤ a) && decide (a < d.tab + 16 * d.count)

/-- Does an invalidation take words of a bank that a planer sweeps, or has a cascade sample for? -/
def State.planerBusy (s : State) (v : Inval) : Bool :=
  s.planers.any fun e =>
    e.2.sweeps.any (fun w => match e.2.banks.find? w.bank with
        | some q => s.bankTaken v (e.1 / 12) q.launch q.tensor
        | none => false)
      || e.2.casc.any fun c => s.bankTaken v (e.1 / 12) c.2.2.1 c.2.1

/-- Has a load in flight been translated: that of a tensor's elements is as it is read, one of taps as it issues? -/
def Load.translated (ld : Load) : Bool := match ld.kind with | .elems .. => ld.got.isSome | _ => true

/-- Does an access of context `k` at a place follow, in the order of the context, the seal that an invalidation is of (R274)? -/
def State.afterSeal (s : State) (v : Inval) (k n : Nat) : Bool :=
  s.mp.seals.any fun r => v.who == .seal r.page && r.ctx == k && decide (r.seq < n)

/-- May an invalidation complete: no access translated with what it takes, that has left the gate buffer or was never
gated, is on its way (R248)?  A seal's waits neither for the seal nor for what its context is to do after it. -/
def State.invalReady (s : State) (v : Inval) : Bool :=
  let die (k : Nat) : Nat := coreDie (coreOf k)
  s.ctxs.all (fun e =>
      !(e.2.fl.loads.any fun ld => ld.translated && !s.afterSeal v e.1 ld.seq && v.takes (s.loadWords e.1 ld))
      && !(e.2.fl.commits.any fun g =>
        !s.afterSeal v e.1 g.seq && v.takes (s.effWords (die e.1) (s.launch e.2.launch) g.eff)))
    && !(s.mp.outs.any fun o =>
      !s.afterSeal v o.ctx o.seq && v.takes (s.effWords (die o.ctx) (s.launch o.launch) o.eff))
    && !(s.fops.any fun f => s.bankTaken v (die f.ctx) f.launch f.handle) && !s.planerBusy v
    && !(s.mp.resvs.any fun r => v.pages.contains r.page)
    && !(s.mp.seals.any fun r => v.who != .seal r.page && v.entries.contains r.entry)

/-- The frames that the layout units of some die, or the tile table itself, give a tile. -/
def State.framesOf (s : State) (a : Nat) : List Nat :=
  let held := ([0, 1, 2, 3] : List Nat).filterMap fun d => s.mp.lu.find? (luKey d a)
  ((held ++ [BitVec.ofNat 64 (s.seenN a 8)]).filter fun w => w.getLsbD 63).map fun w => fieldN w 0 24

/-- An invalidation completes: the layout units of every die give up its words, what engines have written to its pages is
performed, the pages return to untouched, and those of an append tensor lose their replicas and every cached block (R248,
R259, R278). -/
def completeInval (v : Inval) : M Unit := do
  let fs := dedup ((v.entries.map (← get).framesOf).flatten ++ v.frames)
  modMp fun mp => { mp with
    unperf := settle (fun w => w.cls != 0 && w.cells.any fun c => fs.contains (frameOf c.1)) [] mp.unperf }
  fs.forM pageReset
  if !v.pages.isEmpty then
    let old := (← get).mp.replicas.filter fun r => fs.contains r.home
    let gone (b : Block) : Bool := (fs ++ old.map Replica.loc).any fun f => inPage f b
    modify fun s => { s with cores := s.cores.map fun c => (c.1, c.2.dropBlocks gone) }
    modMp fun mp => { mp with replicas := mp.replicas.filter fun r => !fs.contains r.home,
                              l2 := mp.l2.map fun e => (e.1, e.2.filter fun b => !gone b) }
  v.words.forM fun w => luDrop w.1 w.2
  modMp fun mp => { mp with pend := delBy (fun p => p.id == v.id) mp.pend }

/-- Is an invalidation one of context `k`? -/
def Inval.ofCtx (v : Inval) (k : Nat) : Bool := v.who == .ctx k

/-- INVALIDATION_COMPLETE: an invalidation of context `k` completes, whether or not the context still waits for it (R248,
R265). -/
def execInvalidationComplete (k : Nat) (s : State) : Host.Outcome State Fault Refusal :=
  onEvent s k (do
    let s ← get
    match findBy (fun v => v.ofCtx k && s.invalReady v) s.mp.pend with
    | some v => do
      completeInval v
      modCtx k fun c => c.lessWait (.inval v.id)
    | none => pure ())

/-- PAGE_RECLASSIFY: the owner of private page `f` writes back and drops its blocks, and the page is shared
(R259). -/
def execPageReclassify (f : Nat) (s : State) : Host.Outcome State Fault Refusal := finish s (reclassify f)

/-- INVALIDATION_ARRIVAL: an invalidation for sector `x` of page `f` reaches the L1 of core `c` (R261). -/
def execInvalidationArrival (c f x : Nat) (s : State) : Host.Outcome State Fault Refusal :=
  finish s (do
    if (← get).mp.invals.contains (c, f, x) then do
      modCore c fun y => y.dropSector f x
      modMp fun mp => { mp with invals := delBy (fun i => i == (c, f, x)) mp.invals })

end Sys2Proof.Machine
end

