-- ==== Sys2Proof/Machine/Home.lean ====
section
/-!
DEFINITION. Sys2Proof/Machine/Home.lean: APPEND and SEAL, and what committed CORE accesses do when they
reach their homes (R77, R78, R85, R194, R195, R266 to R278).
-/

namespace Sys2Proof.Machine

/-! ### APPEND and SEAL at issue (R269, R270, R274) -/

def appendAsk : Ask :=
  { cls := fun d => d.cls == 2, form := true, width := fun _ => true, fmt := fun _ => true, align := fun _ _ => true }

/-- APPEND: checked, gated; an entry that is not Open is a write after seal at issue (R273). -/
def appendTo (r : TReg 1024) (t : Target) (c : BitVec 3) (rel ret : Bool) (f : BitVec 2) : M Unit := do
  let l ← curLaunch
  let (d, ok, x) ← checkTarget l t appendAsk whole
  M.need (r.tag == 0) clsLift 3
  if ok then do
    let e ← entryM (← curDie) d (d.tileNo x)
    if e.p ∧ (e.apst = 1 ∨ e.apst = 2) then M.trapAt clsSealed 0 t.h x
  let id ← if ret then do
      let id ← freshId
      liftC (reserve 0 id (!(← get).cur.inService) 0 0)
      pure (some id)
    else pure none
  gate (.append t.h x (if f = 0 then d.bits / 8 else 128) r.val id rel c)

/-- APPEND: r rel, t ret, f file (R269, R270). -/
def execAppend (d : BitVec 5) (k c : BitVec 3) (r t : BitVec 1) (f : BitVec 2) (s : State) :
    Host.Outcome State Fault Refusal :=
  finish s (do
    let tg ← targetK k
    appendTo (← storeData f d) tg c (r == 1) (t == 1) f)

/-- APPEND.R (R269, R270). -/
def execAppendR (d a : BitVec 5) (c : BitVec 3) (r t : BitVec 1) (f : BitVec 2) (s : State) :
    Host.Outcome State Fault Refusal :=
  finish s (do
    let tg ← targetA a
    appendTo (← storeData f d) tg c (r == 1) (t == 1) f)

/-- SEAL (R274). -/
def execSeal (k : BitVec 3) (t : BitVec 1) (s : State) : Host.Outcome State Fault Refusal :=
  finish s (do
    let tg ← targetK k
    let l ← curLaunch
    let (_, _, x) ← checkTarget l tg appendAsk whole
    let id ← if t = 1 then do
        let id ← freshId
        liftC (reserve 0 id (!(← get).cur.inService) 0 0)
        pure (some id)
      else pure none
    gate (.seal tg.h x id))

/-! ### The order of committed accesses (R78, R80, R81, R270) -/

/-- Is the effect a release? -/
def Eff.rel : Eff → Bool
  | .store _ _ _ _ r _ => r
  | .amo _ _ _ _ _ _ o _ => o.getLsbD 1
  | .cas _ _ _ _ _ _ o _ => o.getLsbD 1
  | .append _ _ _ _ _ r _ => r
  | _ => false

/-- The scope of a strong effect, as its code (R4, R73); every other effect orders for the device. -/
def Eff.scope : Eff → Nat
  | .store _ _ _ _ _ sc => sc.toNat
  | .amo _ _ _ _ _ _ _ sc => sc.toNat
  | .cas _ _ _ _ _ _ _ sc => sc.toNat
  | .append _ _ _ _ _ _ sc => sc.toNat
  | _ => 3

/-- Is the effect an acquire? -/
def Eff.acq : Eff → Bool
  | .amo _ _ _ _ _ _ o _ => o.getLsbD 0
  | .cas _ _ _ _ _ _ o _ => o.getLsbD 0
  | _ => false

def Eff.toPage : Eff → Bool
  | .append .. => true
  | .seal .. => true
  | .fexp .. => true
  | _ => false

/-- Is the effect of path class COPY, which fences and releases of CORE and FILT do not cover (R12, R80)? -/
def Eff.isFexp : Eff → Bool
  | .fexp .. => true
  | _ => false

def FKind.isFexp : FKind → Bool
  | .taps _ => true
  | _ => false

/-- The path class of an effect on its way: COPY 3, else CORE 0 (R12). -/
def Eff.cls (e : Eff) : BitVec 3 := if e.isFexp then 3 else 0

/-- The addresses an effect reads or writes at its home. -/
def State.effAddrs (s : State) (k : Nat) (l : Launch) (e : Eff) : List Nat :=
  (s.effCells k l e ++ s.effRmw k l e).map (·.1)

/-- The path class of a load: FILT 1, else CORE 0 (R12). -/
def Load.cls (ld : Load) : BitVec 3 := match ld.kind with | .taps .. => 1 | _ => 0

/-- The path class of an operation on its way to the planers: COPY 3, else FILT 1 (R12). -/
def FKind.cls (f : FKind) : BitVec 3 := if f.isFexp then 3 else 1

def FKind.isRead : FKind → Bool
  | .read _ => true
  | _ => false

/-- Does a fence between two places order accesses of the path classes given, CORE 0, FILT 1 and so on, `la` and `lb`
saying which is a load?  An effect still gated when a FENCE issues is not ordered before a later load, and one of CORE
still gated when an XFENCE issues is not covered (R78 cases 5 and 6, R81); one of FILT is, but for a later load, which its
MARK would wait for (log entry 93). -/
def Fence.orders (f : Fence) (a b : Nat) (ca cb : BitVec 3) (la lb : Bool) : Bool :=
  let full := decide (ca.toNat ≤ 1) && decide (cb.toNat ≤ 1)
  let out := la || decide (a ≤ f.markSeq)
  decide (a < f.seq) && decide (f.seq < b) && (match f.kind with
    | .full => full && (!lb || out)
    | .acq => full && (!lb || out)
    | .st => full && !la && !lb
    | .x x y => x == ca && y == cb && (out || x != 0 && !lb))

def fenceOrders (fs : List Fence) (a b : Nat) (ca cb : BitVec 3) (la lb : Bool) : Bool :=
  fs.any fun f => f.orders a b ca cb la lb

/-- Scopes below are codes plus 1, and 0 is no order.  The widest scope of the fences that order two effects. -/
def fenceScope (fs : List Fence) (a b : Nat) (ca cb : BitVec 3) : Nat :=
  fs.foldl (fun n f => if f.orders a b ca cb false false then max n (f.scope.toNat + 1) else n) 0

/-- Is an APPEND or SEAL of context `k`, at a place that meets a condition, at its page's home but not yet performed
(R272, R275)? -/
def State.sealing (s : State) (k : Nat) (p : Nat → Bool) : Bool :=
  s.mp.seals.any (fun r => r.ctx == k && p r.seq) || s.mp.resvs.any (fun r => r.ctx == some k && p r.seq)

/-- Is an operation of context `k` for the planers? -/
def Eff.isFilt : Eff → Bool
  | .fst .. => true
  | .ftick .. => true
  | .fdisc .. => true
  | .fbank .. => true
  | _ => false

/-- May an engine command at a place of context `k` begin: every access of CORE and FILT that an XFENCE before
it covers has been performed, loads and what they acquire among them (R81, R427)? -/
def State.engineReady (s : State) (k seq : Nat) (cls : BitVec 3) : Bool :=
  let c := s.ctx k
  let covered (n : Nat) (a : BitVec 3) (ld : Bool) : Bool := fenceOrders c.fl.fences n seq a cls ld false
  !s.mp.outs.any (fun o => o.ctx == k && o.launch == c.launch && !o.eff.isFexp && covered o.seq 0 false)
    && !s.fops.any (fun f => f.ctx == k && f.launch == c.launch && !f.kind.isFexp && covered f.seq 1 f.kind.isRead)
    && !(c.fl.loads.any fun x => covered x.seq x.cls true)
    && !((c.fl.commits ++ c.fl.gate).any fun g => !g.eff.isFexp && covered g.seq (if g.eff.isFilt then 1 else 0) false)
    && !s.sealing k (fun n => covered n 0 false)
    && !(c.fl.fences.any fun f => f.kind == .x 0 cls && decide (f.seq < seq) && !s.acquired k f.seq)

/-- Does effect `p` stand before `o` in the program order of one context? -/
def OutOp.precedes (p o : OutOp) : Bool := p.ctx == o.ctx && p.launch == o.launch && decide (p.seq < o.seq)

/-- The scope at which a release or a fence puts `p` before `o` (R78 cases 3, 5 and 6, R80). -/
def State.orderScope (s : State) (p o : OutOp) : Nat :=
  max (if o.eff.rel && !p.eff.isFexp then o.eff.scope + 1 else 0)
    (fenceScope (s.ctx o.ctx).fl.fences p.seq o.seq p.eff.cls o.eff.cls)

/-- Would the L1 of context `k`'s core serve one of the addresses, while a PHASE of the core holds such accesses (R132)? -/
def State.heldByPhase (s : State) (k : Nat) (as : List Nat) : Bool :=
  (s.core (coreOf k)).phase.isSome && as.any fun a => decide (a < devTop) && (match (s.page (frameOf a)).cls with
    | none => true
    | some (some c) => c == coreOf k
    | some none => false)

/-- May a committed access perform: nothing of its context that must come first is on its way, but for effects that
it follows only at a scope narrower than .dev and that `pass` lets it overtake? -/
def State.outFree (s : State) (o : OutOp) (pass : OutOp → Bool) : Bool :=
  let c := s.ctx o.ctx
  let l := s.launch o.launch
  let filt := s.fops.filter fun f => f.ctx == o.ctx && f.launch == o.launch && decide (f.seq < o.seq)
  let as := s.effAddrs o.ctx l o.eff
  (s.mp.outs.filter (·.precedes o)).all (fun p =>
      !p.eff.acq && !(p.eff.toPage && o.eff.toPage) && !(s.effAddrs o.ctx l p.eff).any (fun a => as.contains a)
        && (s.orderScope p o == 0 || decide (s.orderScope p o < 4) && pass p))
    && filt.all (fun f => f.kind.isFexp
        || (!o.eff.rel && !fenceOrders c.fl.fences f.seq o.seq 1 o.eff.cls f.kind.isRead false))
    && !s.sealing o.ctx (fun n =>
        decide (n < o.seq) && (o.eff.rel || fenceOrders c.fl.fences n o.seq 0 o.eff.cls false false))
    && !s.heldByPhase o.ctx as
    && !s.owedTo o.ctx (max (if o.eff.acq then o.eff.scope + 1 else 0) (fenceAcq c.fl.fences o.seq))

/-- May a committed access perform now?  It overtakes what a narrow release or fence puts before it only where that
may itself perform now, so that those in the scope wait for no more than its way (R95). -/
def State.outReady (s : State) (o : OutOp) : Bool := s.outFree o fun p => s.outFree p fun _ => false

/-- An effect that access `o` overtakes at a narrow scope is owed to the contexts in it. -/
def State.owe (s : State) (o p : OutOp) : OutOp :=
  if p.precedes o ∧ s.orderScope p o ≠ 0 then { p with owed := max p.owed (s.orderScope p o) } else p

/-- The addresses that a load in flight reads at the home. -/
def State.loadAddrs (s : State) (k : Nat) (x : Load) : List Nat :=
  let l := s.launchOf k
  let die := coreDie (coreOf k)
  match x.kind with
  | .elems h cs =>
    let t := s.desc die l h
    (cs.map fun y =>
      let us := t.units y (if x.q = 0 then 1 else t.perVec)
      match s.unitAddrs die l h false us with
      | .ok as => unitSpan t (us.zip as)
      | .error _ => []).flatten
  | _ => []

/-- Is a load one of its core's own scratchpad? -/
def Load.own (x : Load) (k : Nat) : Bool := match x.kind with | .peer c _ => c == coreOf k | _ => false

/-- Does a PHASE of its core hold a load: one that the L1 would serve, or of the moving region of the own scratchpad
(R132)? -/
def State.phaseHolds (s : State) (k : Nat) (ld : Load) (as : List Nat) : Bool :=
  let x := s.core (coreOf k)
  x.phase.isSome && (match ld.kind with
    | .elems .. => !ld.strong || s.heldByPhase k as
    | .peer c off => c == coreOf k && x.moving off (if ld.q = 0 then 8 else 128)
    | _ => false)

/-- Is the effect a store to the scratchpad of a core? -/
def Eff.ownStore (e : Eff) (c : Nat) : Bool := match e with | .store (.scr d _) .. => d == c | _ => false

/-- May a load return now (R78, R84): no earlier acquire, fenced access or read-modify-write of the same
location of its context is on its way, it follows the earlier strong loads of its location (those of another size order
as weak ones do, R75) and, in its own scratchpad, the earlier stores that have left the gate buffer (R76), and what an
acquire of it waits for has performed? -/
def State.loadReady (s : State) (k : Nat) (ld : Load) : Bool :=
  let c := s.ctx k
  let l := s.launchOf k
  let as := s.loadAddrs k ld
  let outs := s.mp.outs.filter fun o => o.ctx == k && o.launch == c.launch && decide (o.seq < ld.seq)
  let fenced (n : Nat) (ca : BitVec 3) (la : Bool) : Bool := fenceOrders c.fl.fences n ld.seq ca ld.cls la true
  let waits (e : Eff) (n : Nat) : Bool :=
    e.acq || fenced n (if e.isFilt then 1 else e.cls) false || (s.effRmw k l e).any fun a => as.contains a.1
  (c.fl.loads.filter fun x => decide (x.seq < ld.seq)).all (fun x => !x.acq && !fenced x.seq x.cls true
      && !(x.own k && ld.own k) && !(x.strong && !as.isEmpty && s.loadAddrs k x == as))
    && outs.all (fun o => !waits o.eff o.seq)
    && !(c.fl.commits.any fun g => decide (g.seq < ld.seq)
      && (waits g.eff g.seq || ld.own k && g.eff.ownStore (coreOf k)))
    && !s.sealing k (fun n => fenced n 0 false)
    && !(s.fops.any fun f => f.ctx == k && decide (f.seq < ld.seq) && fenced f.seq f.kind.cls f.kind.isRead)
    && !s.phaseHolds k ld as
    && !s.owedTo k (max (if ld.acq then ld.scope.toNat + 1 else 0) (fenceAcq c.fl.fences ld.seq))

/-- May a planer accept an operation of FILT now: no fence or acquire of its context holds it behind an access of CORE or
FILT on its way, and a tap read is a load that may return, after the earlier samples and ticks that have yet to leave
(R78, R79, R331)? -/
def State.fopReady (s : State) (f : FOp) : Bool :=
  let c := s.ctx f.ctx
  let fenced (n : Nat) (ca : BitVec 3) (la : Bool) : Bool := fenceOrders c.fl.fences n f.seq ca 1 la false
  f.kind.isFexp || (match f.kind with
    | .read id => !(c.fl.commits.any fun g => decide (g.seq < f.seq) && g.eff.isFilt)
        && (match s.loadOf f.ctx id with
          | some ld => s.loadReady f.ctx ld
          | none => true)
    | _ => !s.sealing f.ctx (fun n => fenced n 0 false)
        && (s.mp.outs.filter fun p => p.ctx == f.ctx && p.launch == f.launch && decide (p.seq < f.seq)).all (fun p =>
          !p.eff.acq && !fenced p.seq p.eff.cls false)
        && !(s.fops.any fun p => p.ctx == f.ctx && p.launch == f.launch && fenced p.seq p.kind.cls p.kind.isRead))

/-! ### The scratchpads (R76, R190, R191, R193) -/

/-- Has another context of the core issued in this clock, ahead of context `k`, a store to the core's own scratchpad that it
is still to perform (R102)? -/
def State.storesAhead (s : State) (k : Nat) : Bool :=
  let c := coreOf k
  ([0, 1, 2, 3] : List Nat).any fun i =>
    let j := 4 * c + i
    j != k && (s.ctx j).fl.now == (s.core c).clk && (s.ctx j).fl.commits.any fun g => g.eff.ownStore c

/-- SPLD: the own scratchpad is read at issue and the entry readable 4 clocks later, unless an earlier access orders the
load behind it (R78, R193); another core's is a load in flight.  It does not merge with a bundle whose stores to the
scratchpad are still to come (R102). -/
def scrLoad (q : BitVec 2) (t : Target) : M Unit := do
  let (core, off) ← scrTarget t
  let k := (← get).focus
  let n := if q = 0 then 8 else 128
  if core = coreOf k then do
    needOwn off n
    if (← get).storesAhead k then M.hold
  let ld ← newLoad q (.peer core off) false false 0 0 0 0
  let s ← get
  if core = coreOf k ∧ s.loadReady k ld then do
    let v ← readScr k core off n (s.forwarded k ld.seq)
    modCur fun c => { c with queues := c.queues.fill ld.id (c.fl.now + 4) 0 [BitVec.ofNat 1024 v],
                             fl := { c.fl with loads := delBy (fun x => x.id == ld.id) c.fl.loads } }

/-- SPLD (R190). -/
def execSpld (q : BitVec 2) (k : BitVec 3) (s : State) : Host.Outcome State Fault Refusal :=
  finish s (do scrLoad q (← targetK k))

/-- SPLD.R (R190). -/
def execSpldR (q : BitVec 2) (a : BitVec 5) (s : State) : Host.Outcome State Fault Refusal :=
  finish s (do scrLoad q (← targetA a))

/-! ### Performing at the home (R85, R194, R195) -/

/-- Push a value to the qs entry `id` of context `k`. -/
def pushRet (k : Nat) (ret : Option Nat) (v : VBits) : M Unit := do
  match ret with
  | none => pure ()
  | some id =>
    let now := ((← get).core (coreOf k)).clk
    modCtx k fun c => { c with queues := c.queues.fill id now 0 [v] }

/-- Access `o` leaves what is on its way, and those it overtakes at a narrow scope are owed; it comes after its
fences. -/
def State.left (s : State) (o : OutOp) : State :=
  ({ s with mp := { s.mp with
      outs := (delBy (fun p : OutOp => p.ctx == o.ctx && p.id == o.id) s.mp.outs).map (s.owe o) } }).afterFences o.ctx o.seq

def takeOut (k id : Nat) : M (Option OutOp) := do
  match findBy (fun o => o.ctx == k && o.id == id) (← get).mp.outs with
  | none => return none
  | some o => do
    modify fun s => s.left o
    return some o

/-- Is context `k` still one of the launch that committed the access? -/
def State.ofLaunch (s : State) (k l : Nat) : Bool := (s.ctx k).launch == l && (s.ctx k).live

/-- The context of a refused committed access ends with a record that is not precise. -/
def refuseOut (o : OutOp) (t : Trap) : M Unit := do
  if (← get).ofLaunch o.ctx o.launch then takeTrap o.ctx { t with precise := false, slot := 0 }

/-- A read-modify-write at the home point: the element's new value from its old one (R194, R195). -/
def rmwAt (o : OutOp) (h : BitVec 16) (x : Coord) (f : Desc → Nat → Nat) (ret : Option Nat) : M Unit := do
  let s ← get
  let l := s.launch o.launch
  let c := coreOf o.ctx
  match ← xlateM (coreDie c) l h x true with
  | .error n => refuseOut o { Trap.mk' clsTranslation n with handle := h, at' := x }
  | .ok a => do
    let t := s.desc (coreDie c) l h
    needAddr a (t.bits / 8)
    touchByCore c (frameOf a)
    let s ← get
    let old := bytesN (s.homeByte o.ctx (atomOf (t.bits / 8))) a (t.bits / 8)
    raceStep
    storeCells o.ctx o.pc (cellsOf a (f t old) t.bits)
    pushRet o.ctx ret (extendElem t.efmt old)
    if o.eff.acq ∧ o.eff.scope ≠ 0 then modify fun s => s.applyInvals c

/-- A committed store, AMO, CAS or descriptor write performs at a single moment, a weak one of several elements too (R74, log
entry 82). -/
def performOut (o : OutOp) : M Unit := do
  let s ← get
  let l := s.launch o.launch
  let c := coreOf o.ctx
  match o.eff with
  | .store (.tensor h x) vec data _ _ _ => do
    let (t, _) ← descM (coreDie c) l h
    let _ ← unitAddrsM (coreDie c) l h true (t.units x (if vec then t.perVec else 1))
    match (← get).tensorCells (coreDie c) l h x vec data with
    | .error f => refuseOut o { Trap.mk' clsTranslation f.1 with handle := h, at' := x }
    | .ok cs => storeCells o.ctx o.pc cs
  | .store (.scr core off) vec data _ _ _ =>
    let y := s.core core
    let n := if vec then 128 else 8
    if core ≠ c ∧ (y.moving off n ∨ y.scrSize ≤ off) then
      let x : Coord := ⟨(off : Nat), (core - (s.inst (s.ctx o.ctx).inst).phys 0 : Nat), 0, 0⟩
      refuseOut o { Trap.mk' clsAccess 6 with handle := 0xFFFF, at' := x }
    else do
      let cs := (scrCells core off vec data).filter fun e => decide (e.1 < scrAddr core y.scrSize)
      noteStore o.ctx (cs.map (·.1))
      wrCells cs
  | .amo op h x _ y ret _ _ =>
    rmwAt o h x (fun t old => op.apply t.efmt t.bits old (y.toNat % 2 ^ t.bits)) ret
  | .cas h x _ e n ret _ _ =>
    rmwAt o h x (fun t old => if old = e.toNat % 2 ^ t.bits then n.toNat % 2 ^ t.bits else old) (some ret)
  | .tdscW h sel v => storeCells o.ctx o.pc (cellsOf (descAddr l h + 8 * sel) v.toNat 64)
  | _ => pure ()

/-- STORE_PERFORM_AT_HOME: committed access `id` of context `k` performs at its home (R85). -/
def execStorePerformAtHome (k id : Nat) (s : State) : Host.Outcome State Fault Refusal :=
  onEvent s k (do
    match ← takeOut k id with
    | none => pure ()
    | some o => performOut o)

/-! ### Append pages at their home (R267 to R275) -/

/-- The state word of an append page: APST, COMMIT, TAIL (R267). -/
def pageWord (apst commit tail : Nat) : W64 := BitVec.ofNat 64 (apst * 2 ^ 59 + commit * 2 ^ 32 + tail)
def wordApst (w : W64) : Nat := fieldN w 59 2
def wordCommit (w : W64) : Nat := fieldN w 32 17
def wordTail (w : W64) : Nat := fieldN w 0 17

/-- A reservation of `size` bytes at the tail, in arrival order: refused after a seal, `none`; page full,
the tail; else the offset (R270). -/
def reserveTail (p size : Nat) : M (Option (Except Nat Nat)) := do
  let w ← rdW64 p
  if wordApst w ≠ 0 then return none
  else if 65536 < wordTail w + size then return some (.error (wordTail w))
  else do
    wrW64 p (pageWord 0 (wordCommit w) (wordTail w + size))
    return some (.ok (wordTail w))

/-- Change the copy command `id` of context `k`. -/
def modCopy (k id : Nat) (f : CopyRun → CopyRun) : M Unit :=
  modCtx k fun c => { c with fl := { c.fl with copies := updBy (fun q => q.id == id) f c.fl.copies } }

/-- The range of export command `id` of context `k` reaches its page's home: it is reserved as an APPEND's, or the
command keeps the code of its refusal (R354, R372). -/
def reserveFexp (k id launch : Nat) (c : ExpCmd) : M Unit := do
  let l := (← get).launch launch
  let die := coreDie (coreOf k)
  let h := handleOf c.dst
  let (t, ok) ← descM die l h
  let x := t.ofOffset (offsetOf c.dst)
  let bad (code sub info : Nat) : M Unit := modCopy k id fun q =>
    { q with code := BitVec.ofNat 8 code, sub := BitVec.ofNat 8 sub, info := BitVec.ofNat 32 info }
  if !ok ∨ t.cls ≠ 2 ∨ t.elems ≤ offsetOf c.dst then bad 1 4 0
  else do
    let e ← entryM die t (t.tileNo x)
    match xlateFault l t true e true with
    | some n => bad 1 n 0
    | none => do
      let p := t.w6 + 8 * t.tileNo x
      let size := c.count * ((EFmt.ofCode c.fmt.toNat).width / 8)
      match ← reserveTail p size with
      | none => bad 3 0 0
      | some (.error tail) => bad 4 0 tail
      | some (.ok off) => do
        let r : Resv := { page := p, frame := e.frame, off := off, len := size, data := [], ctx := none, id := id,
                          written := false, seq := 0, owed := 0 }
        modMp fun mp => { mp with resvs := mp.resvs ++ [r] }
        modCopy k id fun q => { q with resv := some (p, off) }

/-- APPEND_RESERVATION: committed append `id` of context `k` reaches its page's home (R270, R271, R273). -/
def execAppendReservation (k id : Nat) (s : State) : Host.Outcome State Fault Refusal :=
  onEvent s k (do
    match ← takeOut k id with
    | none => pure ()
    | some o =>
      match o.eff with
      | .append h x size data ret _ _ => do
        let l := (← get).launch o.launch
        let die := coreDie (coreOf k)
        let (t, _) ← descM die l h
        let e ← entryM die t (t.tileNo x)
        let p := t.w6 + 8 * t.tileNo x
        match ← reserveTail p size with
        | none => refuseOut o { Trap.mk' clsSealed 0 with handle := h, at' := x }
        | some (.error tail) => pushRet k ret (BitVec.ofNat 1024 (2 ^ 62 + tail))
        | some (.ok off) => do
          let r : Resv := { page := p, frame := e.frame, off := off, len := size, data := leBytes data.toNat size,
                            ctx := some k, id := id, written := false, seq := o.seq, owed := o.owed }
          modMp fun mp => { mp with resvs := mp.resvs ++ [r] }
          pushRet k ret (BitVec.ofNat 1024 off)
      | .fexp c => reserveFexp k id o.launch c
      | _ => pure ())

/-- COMMIT moves over the written reservations that follow it (R272). -/
def advance (rs : List Resv) (p : Nat) : Nat → Nat → Nat × List Resv
  | 0, c => (c, rs)
  | n + 1, c =>
    match findBy (fun r => r.page == p && r.off == c && r.written) rs with
    | none => (c, rs)
    | some r => advance (delBy (fun q => q == r) rs) p n (c + r.len)

/-- The launch that a reservation belongs to. -/
def State.resvLaunch (s : State) (r : Resv) : Nat :=
  match r.ctx with
  | some k => (s.ctx k).launch
  | none => match findBy (fun e => e.2.fl.copies.any fun q => q.id == r.id) s.ctxs with
    | some e => e.2.launch
    | none => 0

/-- The bytes of reservation `id` of the page with state word `p` are in the page, and COMMIT advances. -/
def writeResv (p id : Nat) : M Unit := do
  match findBy (fun r => r.page == p && r.id == id && !r.written && r.data.length == r.len) (← get).mp.resvs with
  | none => pure ()
  | some r => do
    let a := r.frame * 65536 + r.off
    devWriteFor ((← get).resvLaunch r) a r.data.length (ofBytes r.data)
    let rs := updBy (fun q => q == r) (fun q => { q with written := true }) (← get).mp.resvs
    let w ← rdW64 p
    let (c, rs') := advance rs p rs.length (wordCommit w)
    modMp fun mp => { mp with resvs := rs' }
    wrW64 p (pageWord (wordApst w) c (wordTail w))

/-- COMMIT_ADVANCE (R272). -/
def execCommitAdvance (p id : Nat) (s : State) : Host.Outcome State Fault Refusal := finish s (writeResv p id)

/-- SEAL_AT_HOME: committed seal `id` of context `k` reaches its page's home: an Open page is Sealing, and
the seal waits for COMMIT (R268, R274). -/
def execSealAtHome (k id : Nat) (s : State) : Host.Outcome State Fault Refusal :=
  onEvent s k (do
    match ← takeOut k id with
    | none => pure ()
    | some o =>
      match o.eff with
      | .seal h x ret => do
        let l := (← get).launch o.launch
        let die := coreDie (coreOf k)
        let (t, _) ← descM die l h
        let p := t.w6 + 8 * t.tileNo x
        let w ← rdW64 p
        if wordApst w = 3 then refuseOut o { Trap.mk' clsTranslation 1 with handle := h, at' := x }
        else do
          let a := t.entryAddr (t.tileNo x)
          if wordApst w = 0 then do
            wrW64 p (pageWord 1 (wordCommit w) (wordTail w))
            wrW64 a (setField (← rdW64 a) 59 2 1)
          let r : SealRun := { page := p, entry := a, ctx := k, id := id, ret := ret, seq := o.seq, owed := o.owed }
          modMp fun mp => { mp with seals := mp.seals ++ [r] }
      | _ => pure ())

/-- The seals of the page with state word `p` are performed: each returns TAIL (R274, R275). -/
def endSeals (p tail : Nat) : M Unit := do
  ((← get).mp.seals.filter fun r => r.page == p).forM fun r => pushRet r.ctx r.ret (BitVec.ofNat 1024 tail)
  modMp fun mp => { mp with seals := mp.seals.filter fun r => r.page != p }

/-- SEAL_COMPLETE: COMMIT has reached TAIL of the page with state word `p`: it is Sealed, and its entry is invalidated by
R248.  Once that has completed, at this event again, every seal of the page is performed (R274, R275). -/
def execSealComplete (p : Nat) (s : State) : Host.Outcome State Fault Refusal :=
  finish s (do
    let w ← rdW64 p
    let s ← get
    match findBy (fun v => v.who == .seal p) s.mp.pend with
    | some v => if s.invalReady v then do
        completeInval { v with pages := [] }
        endSeals p (wordTail w)
    | none =>
      if wordCommit w = wordTail w ∧ wordApst w = 1 then do
        wrW64 p (pageWord 2 (wordCommit w) (wordTail w))
        let es := dedup ((s.mp.seals.filter fun r => r.page == p).map SealRun.entry)
        es.forM fun a => do wrW64 a (setField (← rdW64 a) 59 2 2)
        let id ← freshId
        let v : Inval := { id := id, who := .seal p, words := es.map fun a => (a, 16), entries := es, pages := [p] }
        modMp fun mp => { mp with pend := mp.pend ++ [v] }
      else if wordApst w = 2 then endSeals p (wordTail w))

/-! ### Replicas (R276, R277) -/

/-- REPLICA_COPY: die `die` has copied sealed page `f` into its pool, through the L2s, and translates it to that frame
(R258, R276). -/
def execReplicaCopy (die f : Nat) (s : State) : Host.Outcome State Fault Refusal :=
  finish s (do
    match findBy (fun r => r.die == die && r.home == f && !r.ready) (← get).mp.replicas with
    | none => pure ()
    | some r => do
      let v ← rdN (f * 65536) 65536
      l2Range 0 (f * 65536) 65536 false
      dropFrame die r.loc
      wrN (r.loc * 65536) 65536 v
      l2Range 0 (r.loc * 65536) 65536 true
      modMp fun mp =>
        { mp with replicas := updBy (fun q => q == r) (fun q => { q with ready := true }) mp.replicas })

end Sys2Proof.Machine
end

