-- ==== Sys2Proof/Machine/Vector.lean ====
section
/-!
DEFINITION. Sys2Proof/Machine/Vector.lean: the V and W lanes (R154 to R180), with their per-example
execution under a lift (R201, R202, R213).
-/

namespace Sys2Proof.Machine

/-! ### Format checks (R155) -/

/-- The format trap: class 2, subcode 1. -/
def formatTrap {α : Type} : CM α := CM.trap clsIllegal 1
def needFmt (b : Bool) : CM Unit := CM.need b clsIllegal 1

def srcFmt : CM EFmt := do return EFmt.ofCode (fmtVS (← get).sq.fmt)
def dstFmt : CM EFmt := do return EFmt.ofCode (fmtVD (← get).sq.fmt)

/-! ### Per-example execution -/

/-- Run a slot for every example of tag `t` in ascending order, inactive examples of a masked region
keeping their own old copy, and write the result (R201, R202, R213).  More copies than any backing
holds are lift fault 1 before anything is written. -/
def vRun (l : VW) (d : BitVec 5) (t : BitVec 3) (old : TReg 1024) (f : Nat → CM VBits) : CM Unit := do
  let q := (← get).sq
  let n := exCount q.lifts t
  CM.need (decide (n ≤ 129)) clsLift 1
  let vs ← (List.range n).mapM fun e => do
    let v ← f e
    return if q.active t e then v else old.at' q.lifts t e
  wrV l d (TReg.ofExamples t vs)

/-- The union of tags. -/
def tagUnion (ts : List (BitVec 3)) : BitVec 3 := ts.foldl (· ||| ·) 0

/-- The common shape of a V or W form: pop once, read sources, mask and old destination, then compute
each example.  `readsD`: the form reads its destination as a source.  `keeps`: what the mask or the
form leaves is the old destination's.  `draws`: SR draws per example, each example from a fresh block (log entry 81). -/
def vForm (l : VW) (d : BitVec 5) (srcs : List (BitVec 5)) (m : BitVec 3) (readsD keeps : Bool) (rm : RM)
    (draws : Nat) (g : List VBits → MBits → VBits → (Nat → Nat) → VBits) : CM Unit := do
  let q ← popIfV l srcs
  let rs ← srcs.mapM (rdV l q)
  let mk ← rdM m
  let z ← if readsD then rdV l TReg.invalid d else oldV l d
  let sq := (← get).sq
  let t := tagUnion (rs.map TReg.tag) ||| mk.tag ||| sq.regionTag
    ||| (if readsD || keeps || sq.region.isSome then z.tag else 0)
  vRun l d t z fun e => do
    let rho ← takeDraws rm draws
    return g (rs.map fun r => r.at' sq.lifts t e) (mk.at' sq.lifts t e) (z.at' sq.lifts t e) rho

/-- Does the mask leave elements of the old destination (R156)? -/
def maskKeeps (m : BitVec 3) : Bool := m != 0

def v0 (vs : List VBits) : VBits := vs.headD 0
def v1 (vs : List VBits) : VBits := (vs.drop 1).headD 0

/-! ### Floating arithmetic (R159 to R161) -/

/-- A floating form: VS floating, VD of equal width; each element computed exactly and rounded once to
VD. -/
def vFlt (l : VW) (d : BitVec 5) (srcs : List (BitVec 5)) (m : BitVec 3) (readsD : Bool)
    (op : RM → XR → XR → XR → XR) : CM Unit := do
  let fmt := (← get).sq.fmt
  let fs ← srcFmt
  let fd ← dstFmt
  needFmt (fs.isFlt && fs.width == fd.width)
  let rm := fmtRM fmt
  let ftz := fmtFTZ fmt
  vForm l d srcs m readsD (maskKeeps m) rm (1024 / fd.width) fun vs mk z rho =>
    mergeElems fd.width mk z fun i =>
      let x := fs.dec ftz (elem fs.width (v0 vs) i)
      let y := fs.dec ftz (elem fs.width (v1 vs) i)
      let w := fs.dec ftz (elem fs.width z i)
      fd.round rm (fmtSAT fmt) ftz (rho i) (op rm x y w)

def rdnSum (rm : RM) : Bool := rm == .rdn

/-- The value of an imm8 converted to VS with RNE (R26, R161). -/
def immXR (fs : EFmt) (i : BitVec 8) : XR :=
  fs.dec false (fs.round .rne false false 0 (XR.ofInt i.toInt))

/-- A floating form with an immediate operand, under m0 (R161). -/
def vFltI (l : VW) (d a : BitVec 5) (i : BitVec 8) (op : RM → XR → XR → XR) : CM Unit := do
  let fs ← srcFmt
  vFlt l d [a] 0 false fun rm x _ _ => op rm x (immXR fs i)

/-! ### Conversion (R162) -/

/-- VCVT: VD of width equal to VS.  Under SR it draws for each element, of an integer format as well (log entry 80). -/
def vCvt (l : VW) (d a : BitVec 5) (m : BitVec 3) : CM Unit := do
  let fmt := (← get).sq.fmt
  let fs ← srcFmt
  let fd ← dstFmt
  needFmt (fs.width == fd.width)
  vForm l d [a] m false (maskKeeps m) (fmtRM fmt) (1024 / fd.width) fun vs mk z rho =>
    mergeElems fd.width mk z fun i =>
      convert fs fd (fmtRM fmt) (fmtSAT fmt) (fmtFTZ fmt) (rho i) (elem fs.width (v0 vs) i)

/-- VCVT.LO and .HI: widening reads one part of the source, narrowing writes one part of the
destination and keeps the rest.  A narrowing slot draws once for each element it converts. -/
def vCvtPart (hi : Bool) (l : VW) (d a b : BitVec 5) (m : BitVec 3) : CM Unit := do
  let fmt := (← get).sq.fmt
  let fs ← srcFmt
  let fd ← dstFmt
  let wide := max fs.width fd.width
  let r := wide / min fs.width fd.width
  needFmt (r == 2 || r == 4)
  needFmt (decide (b.toNat < r / 2))
  let p := if hi then r / 2 + b.toNat else b.toNat
  let ns := 1024 / fs.width
  let nd := 1024 / fd.width
  let cv := convert fs fd (fmtRM fmt) (fmtSAT fmt) (fmtFTZ fmt)
  if fs.width < fd.width then
    vForm l d [a] m false (maskKeeps m) (fmtRM fmt) nd fun vs mk z rho =>
      mergeElems fd.width mk z fun i => cv (rho i) (elem fs.width (v0 vs) (p * nd + i))
  else
    vForm l d [a] m false true (fmtRM fmt) ns fun vs mk z rho =>
      mergeElems fd.width mk z fun i =>
        if p * ns ≤ i ∧ i < (p + 1) * ns then cv (rho (i - p * ns)) (elem fs.width (v0 vs) (i - p * ns))
        else elem fd.width z i

/-! ### Compares, masks (R163, R165) -/

/-- A mask from its bits below `n`. -/
def maskOf (n : Nat) (f : Nat → Bool) : MBits :=
  BitVec.ofNat 128 (packNat 1 ((List.range n).map fun i => if f i then 1 else 0))

/-- A mask for every example of a tag, those of inactive examples as they were. -/
def maskEx (q : Seqr) (t : BitVec 3) (old : TReg 128) (f : Nat → MBits) : TReg 128 :=
  TReg.ofExamples t ((List.range (exCount q.lifts t)).map fun e => if q.active t e then f e else old.at' q.lifts t e)

/-- Write a mask for every example of a tag (as `vRun`). -/
def mRun (i : Nat) (t : BitVec 3) (old : TReg 128) (f : Nat → MBits) : CM Unit := do
  let q := (← get).sq
  CM.need (decide (exCount q.lifts t ≤ 1025)) clsLift 1
  wrM i (maskEx q t old f)

def oldM (i : Nat) : CM (TReg 128) := do
  let r := (← get).mask i
  return if r.valid then r else TReg.invalid

/-- VCMP: the condition to the even mask of the pair, its complement to the odd one; masked-off bits
and bits beyond the elements are 0 in both. -/
def vCmp (k : VCond) (l : VW) (p a b : BitVec 5) (m : BitVec 3) : CM Unit := do
  let fmt := (← get).sq.fmt
  let fs ← srcFmt
  needFmt (!k.isFlt || fs.isFlt)
  let q ← popIfV l [a, b]
  let x ← rdV l q a
  let y ← rdV l q b
  let mk ← rdM m
  let sq := (← get).sq
  let e := 2 * p.toNat
  let o1 ← oldM e
  let o2 ← oldM (e + 1)
  let t := x.tag ||| y.tag ||| mk.tag ||| sq.regionTag ||| (if sq.region.isSome then o1.tag ||| o2.tag else 0)
  let n := 1024 / fs.width
  let at1 (r : TReg 1024) (ex : Nat) : VBits := r.at' sq.lifts t ex
  let bit (ex i : Nat) : Bool :=
    k.holds fs (fmtFTZ fmt) (elem fs.width (at1 x ex) i) (elem fs.width (at1 y ex) i)
  CM.need (decide (exCount sq.lifts t ≤ 1025)) clsLift 1
  wrMPair e (maskEx sq t o1 fun ex => maskOf n fun i => (mk.at' sq.lifts t ex).getLsbD i && bit ex i)
    (maskEx sq t o2 fun ex => maskOf n fun i => (mk.at' sq.lifts t ex).getLsbD i && !bit ex i)

/-- The mask logic operations (R165). -/
def mlogOp (o : Nat) (a b : MBits) : MBits :=
  match o with
  | 0 => a &&& b | 1 => a ||| b | 2 => a ^^^ b | 3 => a &&& ~~~b | 4 => ~~~a | _ => a

/-- MLOG on all 128 bits; NOT and MOV read one mask. -/
def mLog (d a b : BitVec 5) (o : BitVec 3) : CM Unit := do
  let x ← rdM (a.setWidth 3)
  let y ← if o.toNat ≤ 3 then rdM (b.setWidth 3) else pure x
  let sq := (← get).sq
  let old ← oldM d.toNat
  let t := x.tag ||| y.tag ||| sq.regionTag ||| (if sq.region.isSome then old.tag else 0)
  mRun d.toNat t old fun e => mlogOp o.toNat (x.at' sq.lifts t e) (y.at' sq.lifts t e)

/-! ### Integer forms (R166) -/

/-- An integer or logic form on elements of VS's width and signedness. -/
def vInt (l : VW) (d : BitVec 5) (srcs : List (BitVec 5)) (m : BitVec 3) (op : Bool → Nat → Nat → Nat → Nat) :
    CM Unit := do
  let fs ← srcFmt
  let w := fs.width
  vForm l d srcs m false (maskKeeps m) .rne 0 fun vs mk z _ =>
    mergeElems w mk z fun i => op fs.signed w (elem w (v0 vs) i) (elem w (v1 vs) i)

/-- An integer form whose second operand is an immediate extended to the element width (R26). -/
def vIntI (l : VW) (d a : BitVec 5) (i : BitVec 8) (op : Bool → Nat → Nat → Nat → Nat) : CM Unit :=
  vInt l d [a] 0 fun sg w x _ => op sg w x (lowBits w i.toInt)

def iAdd (_ : Bool) (w x y : Nat) : Nat := (x + y) % 2 ^ w
def iSub (_ : Bool) (w x y : Nat) : Nat := (x + 2 ^ w - y) % 2 ^ w
def iAddS (sg : Bool) (w x y : Nat) : Nat := lowBits w (satInt sg w (intVal sg w x + intVal sg w y))
def iSubS (sg : Bool) (w x y : Nat) : Nat := lowBits w (satInt sg w (intVal sg w x - intVal sg w y))
def iMul (_ : Bool) (w x y : Nat) : Nat := x * y % 2 ^ w
def iMulH (sg : Bool) (w x y : Nat) : Nat := lowBits w (intVal sg w x * intVal sg w y / 2 ^ w)
def iAnd (_ : Bool) (_ x y : Nat) : Nat := x &&& y
def iOr (_ : Bool) (_ x y : Nat) : Nat := x ||| y
def iXor (_ : Bool) (_ x y : Nat) : Nat := x ^^^ y
def iShl (_ : Bool) (w x y : Nat) : Nat := if w ≤ y then 0 else x * 2 ^ y % 2 ^ w
def iShr (_ : Bool) (w x y : Nat) : Nat := if w ≤ y then 0 else x / 2 ^ y
def iSar (sg : Bool) (w x y : Nat) : Nat := lowBits w (intVal sg w x / 2 ^ min y w)
def iAbs (sg : Bool) (w x _ : Nat) : Nat := lowBits w (intVal sg w x).natAbs
def iNeg (_ : Bool) (w x _ : Nat) : Nat := lowBits w (-intVal true w x)

/-! ### Data movement (R164, R167 to R169) -/

/-- The index that VPERM.I reads for element `i` of `n` (R168). -/
def permIndex (imm n i : Nat) : Nat :=
  let k := imm % 64
  match imm / 64 with
  | 0 => (i + k) % n
  | 1 => k % n
  | _ => if n ≤ 2 ^ k then i else i ^^^ 2 ^ k

def vPerm (l : VW) (d a b : BitVec 5) (m : BitVec 3) : CM Unit := do
  let w := (← srcFmt).width
  vForm l d [a, b] m false (maskKeeps m) .rne 0 fun vs mk z _ =>
    mergeElems w mk z fun i =>
      let j := elem w (v1 vs) i
      if 1024 / w ≤ j then 0 else elem w (v0 vs) j

def vPermI (l : VW) (d a : BitVec 5) (i : BitVec 8) : CM Unit := do
  let w := (← srcFmt).width
  vForm l d [a] 0 false false .rne 0 fun vs mk z _ =>
    mergeElems w mk z fun j => elem w (v0 vs) (permIndex i.toNat (1024 / w) j)

/-- VPACK: a then b narrowed to half width with saturation; VS is i16, i32, n16 or n32. -/
def vPack (l : VW) (d a b : BitVec 5) (m : BitVec 3) : CM Unit := do
  let fs ← srcFmt
  needFmt (!fs.isFlt && fs.width != 8)
  let w := fs.width
  let n := 1024 / w
  vForm l d [a, b] m false (maskKeeps m) .rne 0 fun vs mk z _ =>
    mergeElems (w / 2) mk z fun i =>
      let x := if i < n then elem w (v0 vs) i else elem w (v1 vs) (i - n)
      lowBits (w / 2) (satInt fs.signed (w / 2) (intVal fs.signed w x))

/-- VUNPK.LO and .HI: half the elements widened to double width; VS is i8, i16, n8 or n16. -/
def vUnpk (hi : Bool) (l : VW) (d a : BitVec 5) (m : BitVec 3) : CM Unit := do
  let fs ← srcFmt
  needFmt (!fs.isFlt && fs.width != 32)
  let w := fs.width
  let n := 1024 / w
  vForm l d [a] m false (maskKeeps m) .rne 0 fun vs mk z _ =>
    mergeElems (2 * w) mk z fun i =>
      lowBits (2 * w) (intVal fs.signed w (elem w (v0 vs) (if hi then n / 2 + i else i)))

/-! ### Reductions and scans (R69, R170 to R172, R210) -/

/-- The reductions. -/
inductive RedOp where
  | add | max | min
  deriving DecidableEq, Repr

def RedOp.ofField (o : Nat) : RedOp := match o with | 0 => .add | 1 => .max | _ => .min

/-- The identity of a floating reduction, as an FP32 code. -/
def RedOp.fltId : RedOp → Nat
  | .add => 0 | .max => 0xFF800000 | .min => 0x7F800000

/-- One floating combination, rounded to FP32 by RM as if SAT = 0 and FTZ = 0. -/
def RedOp.flt (o : RedOp) (rm : RM) (rho : Nat) (x y : Nat) : Nat :=
  let a := fp32.dec false x
  let b := fp32.dec false y
  match o with
  | .add => fp32.round rm false false rho (a.add (rdnSum rm) b)
  | .max => fp32.round .rne false false 0 (a.max b)
  | .min => fp32.round .rne false false 0 (a.min b)

/-- The identity of an integer reduction of width `w`. -/
def RedOp.intId (o : RedOp) (sg : Bool) (w : Nat) : Int :=
  match o with | .add => 0 | .max => intMin sg w | .min => intMax sg w

def RedOp.int (o : RedOp) (x y : Int) : Int :=
  match o with | .add => x + y | .max => if x < y then y else x | .min => if x < y then x else y

/-- One level of the tree: element i with element i + half, drawing from `base` upwards. -/
def treeLevel {α : Type} (f : Nat → α → α → α) (base : Nat) (es : List α) : List α :=
  let h := es.length / 2
  (List.zip (es.take h) (es.drop h)).zipIdx.map fun (xy, i) => f (base + i) xy.1 xy.2

/-- The pairwise tree of R69 over a power of two of elements: at most `n` levels; the draws of the
levels follow one another. -/
def tree {α : Type} (f : Nat → α → α → α) : Nat → Nat → List α → List α
  | 0, _, es => es
  | n + 1, base, es =>
    if es.length ≤ 1 then es else tree f n (base + es.length / 2) (treeLevel f base es)

/-- A floating source element widened exactly to FP32, FTZ flushing a subnormal input. -/
def widen32 (fs : EFmt) (ftz : Bool) (b : Nat) : Nat := fp32.round .rne false false 0 (fs.dec ftz b)

/-- VRED.ADD, .MAX and .MIN: element 0 takes the result, every other element is 0; of integers it draws nothing (log entry
80). -/
def vRed (o : RedOp) (l : VW) (d a : BitVec 5) (m : BitVec 3) : CM Unit := do
  let fmt := (← get).sq.fmt
  let fs ← srcFmt
  let fd ← dstFmt
  let rm := fmtRM fmt
  let ftz := fmtFTZ fmt
  let w := fs.width
  let n := 1024 / w
  vForm l d [a] m false false (if fs.isFlt then rm else .rne) n fun vs mk _ rho =>
    if fs.isFlt then
      let es := (List.range n).map fun i =>
        if mk.getLsbD i then widen32 fs ftz (elem w (v0 vs) i) else o.fltId
      let r := (tree (fun k x y => o.flt rm (rho k) x y) 8 0 es).headD 0
      BitVec.ofNat 1024 (convert (.flt fp32) fd rm (fmtSAT fmt) ftz (rho (n - 1)) r)
    else
      let es := (List.range n).map fun i =>
        if mk.getLsbD i then intVal fs.signed w (elem w (v0 vs) i) else o.intId fs.signed w
      BitVec.ofNat 1024 (lowBits 32 ((tree (fun _ x y => o.int x y) 8 0 es).headD 0))

/-- The least power of two at or above `n` (for n up to 64). -/
def pow2ge (n : Nat) : Nat :=
  if n ≤ 1 then 1 else if n ≤ 2 then 2 else if n ≤ 4 then 4 else if n ≤ 8 then 8 else if n ≤ 16 then 16
  else if n ≤ 32 then 32 else if n ≤ 64 then 64 else 256

/-- The tree of R210 for one element position: examples beyond `n` and inactive ones enter as the
identity.  `draw lv i` is the draw of pair `i` at level `lv`, `fin` that of the final conversion. -/
def axisFlt (o : RedOp) (fs : EFmt) (rm : RM) (sat ftz : Bool) (draw : Nat → Nat) (fin : Nat)
    (xs : List (Option Nat)) : Nat :=
  let w := pow2ge xs.length
  let es := (List.range w).map fun i =>
    match xs.getD i none with | some b => widen32 fs ftz b | none => o.fltId
  let r := (tree (fun k x y => o.flt rm (draw k) x y) 8 0 es).headD 0
  convert (.flt fp32) fs rm sat ftz fin r

def axisInt (o : RedOp) (sg : Bool) (ew : Nat) (xs : List (Option Nat)) : Nat :=
  let w := pow2ge xs.length
  let es := (List.range w).map fun i =>
    match xs.getD i none with | some b => intVal sg ew b | none => o.intId sg ew
  lowBits ew ((tree (fun _ x y => o.int x y) 8 0 es).headD 0)

/-- The number of pairs of a tree of width `w` before level with pair index `k` counted through all
levels: the draws of R210 go level by level, within a level by element position, then by pair. -/
def axisDraw (w n j : Nat) : Nat → Nat → Nat
  | 0, k => k
  | f + 1, k =>
    -- the first level has w / 2 pairs for each of n element positions
    if k < w / 2 then j * (w / 2) + k
    else n * (w / 2) + axisDraw (w / 2) n j f (k - w / 2)

/-- A whole register reduced across examples (R171, R210): `xs` are the examples' values, `none` an
inactive one. -/
def axisReduce (o : RedOp) (fs : EFmt) (fmt : W32) (rho : Nat → Nat) (xs : List (Option VBits)) : VBits :=
  let ew := fs.width
  let n := 1024 / ew
  let w := pow2ge xs.length
  ofElems ew ((List.range n).map fun j =>
    let col := xs.map fun x => x.map fun v => elem ew v j
    if fs.isFlt then
      axisFlt o fs (fmtRM fmt) (fmtSAT fmt) (fmtFTZ fmt) (fun k => rho (axisDraw w n j 8 k)) (rho (n * (w - 1) + j)) col
    else axisInt o fs.signed ew col)

/-- VRED.AX: reduce across the innermost axis and remove it from the tag; a source without that axis is
copied.  A mask, or an old destination that is kept or read in a masked region, tagged with that axis is lift fault 3; lift
fault 1 comes first (R171, R201, R204). -/
def vRedAx (l : VW) (d a o : BitVec 5) (m : BitVec 3) : CM Unit := do
  let fmt := (← get).sq.fmt
  let fs ← srcFmt
  let q ← popIfV l [a]
  let x ← rdV l q a
  let mk ← rdM m
  let z ← oldV l d
  let sq := (← get).sq
  let it := innerTag sq.lifts
  if x.tag &&& it = 0 then
    let t := x.tag ||| mk.tag ||| sq.regionTag ||| (if maskKeeps m || sq.region.isSome then z.tag else 0)
    vRun l d t z fun e =>
      return mergeElems fs.width (mk.at' sq.lifts t e) (z.at' sq.lifts t e) fun i => elem fs.width (x.at' sq.lifts t e) i
  else
    let reads := maskKeeps m || sq.region.isSome
    let t := (x.tag ||| mk.tag ||| (if reads then z.tag else 0)) &&& ~~~it
    let n := axisSize sq.lifts (sq.lifts.length - 1)
    let cnt := exCount sq.lifts t
    CM.need (decide (cnt ≤ 129) && (← get).fitsV l d cnt) clsLift 1
    CM.need (mk.tag &&& it == 0 && (!reads || z.tag &&& it == 0)) clsLift 3
    let draws := 1024 / fs.width * pow2ge n
    let vs ← (List.range cnt).mapM fun e => do
      let rho ← takeDraws (if fs.isFlt then fmtRM fmt else .rne) draws
      -- example e of t with index i along the innermost axis is example e * n + i of t plus that axis
      let xs := (List.range n).map fun i =>
        if (match sq.region with | none => true | some r => r.active.getLsbD i) then
          some (x.at' sq.lifts (t ||| it) (e * n + i))
        else none
      let r := axisReduce (RedOp.ofField o.toNat) fs fmt rho xs
      return mergeElems fs.width (mk.at' sq.lifts t e) (z.at' sq.lifts t e) fun i => elem fs.width r i
    wrV l d (TReg.ofExamples t vs)

/-- The steps of VSCAN (R172): at distance s every element i ≥ s combines with element i - s; draws in
ascending i within a step. -/
def scanSteps (f : Nat → Nat → Nat → Nat) : Nat → Nat → Nat → List Nat → List Nat × Nat
  | 0, _, base, es => (es, base)
  | k + 1, s, base, es =>
    if es.length ≤ s then (es, base)
    else
      let hi := (List.zip es (es.drop s)).zipIdx.map fun (xy, i) => f (base + i) xy.1 xy.2
      scanSteps f k (2 * s) (base + (es.length - s)) (es.take s ++ hi)

/-- The draws of VSCAN before its final conversions: the sum over the steps of n - s (R179). -/
def scanDraws (n : Nat) : Nat → Nat → Nat
  | 0, _ => 0
  | k + 1, s => if n ≤ s then 0 else (n - s) + scanDraws n k (2 * s)

def vScan (o : RedOp) (l : VW) (d a : BitVec 5) (m : BitVec 3) : CM Unit := do
  let fmt := (← get).sq.fmt
  let fs ← srcFmt
  let fd ← dstFmt
  needFmt (fs.isFlt && fs.width == fd.width)
  let rm := fmtRM fmt
  let ftz := fmtFTZ fmt
  let w := fs.width
  let n := 1024 / w
  vForm l d [a] m false (maskKeeps m) rm (scanDraws n 8 1 + n) fun vs mk z rho =>
    let es := (List.range n).map fun i => if mk.getLsbD i then widen32 fs ftz (elem w (v0 vs) i) else o.fltId
    let r := scanSteps (fun k x y => o.flt rm (rho k) x y) 8 1 0 es
    mergeElems w mk z fun i => convert (.flt fp32) fd rm (fmtSAT fmt) ftz (rho (r.2 + i)) (r.1.getD i 0)

/-! ### Indices and random bits (R173, R180) -/

/-- A form without vector sources: tagged only by its mask, a kept old destination and a region. -/
def vGen (l : VW) (d : BitVec 5) (m : BitVec 3) (f : Ctx → MBits → VBits → VBits) (draws : Bool) : CM Unit := do
  let mk ← rdM m
  let z ← oldV l d
  let sq := (← get).sq
  let t := mk.tag ||| sq.regionTag ||| (if maskKeeps m || sq.region.isSome then z.tag else 0)
  vRun l d t z fun e => do
    let c ← get
    if draws then set { c with ctr := c.ctr + 1 }
    return f c (mk.at' sq.lifts t e) (z.at' sq.lifts t e)

def vIdx (l : VW) (d : BitVec 5) (m : BitVec 3) : CM Unit := do
  let w := (← srcFmt).width
  vGen l d m (fun _ mk z => mergeElems w mk z id) false

def vRng (l : VW) (d : BitVec 5) (m : BitVec 3) : CM Unit := do
  let w := (← srcFmt).width
  vGen l d m (fun c mk z => mergeElems w mk z fun i => elem w (genBlock c.key c.ctr) i) true

/-- VRNG.U: t * 2 ^ -p with t the top p bits of a field, held exactly in VD. -/
def vRngU (l : VW) (d : BitVec 5) (m : BitVec 3) : CM Unit := do
  match ← dstFmt with
  | .int _ _ => formatTrap
  | .flt g =>
    let w := g.width
    let p := g.fbits + 1
    vGen l d m (fun c mk z => mergeElems w mk z fun i =>
      g.enc false (elem w (genBlock c.key c.ctr) i / 2 ^ (w - p)) (-(p : Int))) true

/-! ### MX quantisation (R67, R174 to R176) -/

/-- The NaN scale of an element format. -/
def mxNan (ef : Nat) : Nat := if ef = 4 then 255 * 4096 else 255

/-- The least BS20 value at or above man * 2 ^ exp / 32767, e clamped to 0 to 254 (R175). -/
def bs20Ceil (man : Nat) (exp : Int) : Nat :=
  -- find e with 2 ^ (e - 127) ≤ amax / 32767 < 2 ^ (e - 126), then round the fraction up
  let q : Int := (man.log2 : Int) + exp - 15
  let q := if 32767 * 2 ^ (q + 1 - min exp (q + 1)).toNat ≤ man * 2 ^ (exp - min exp (q + 1)).toNat then q + 1 else q
  -- fraction f: least with 32767 * 2 ^ (q - 12) * (4096 + f) ≥ man * 2 ^ exp
  let lo := min exp (q - 12)
  let u := 32767 * 2 ^ (q - 12 - lo).toNat
  let v := man * 2 ^ (exp - lo).toNat
  let f := (v + u - 1) / u - 4096
  let (e, f) := if 4096 ≤ f then (q + 128, f - 4096) else (q + 127, f)
  if e < 0 then 0 else if 254 < e then 254 * 4096 + 4095 else e.toNat * 4096 + f

/-- The scale that VMXQ.E chooses for the unmasked elements, FP32 codes (R175). -/
def mxScale (ef : Nat) (ftz : Bool) (xs : List Nat) : Nat :=
  let vs := xs.map (fp32.dec ftz)
  if vs.any (fun v => match v with | .fin _ _ _ _ => false | _ => true) then mxNan ef
  else
    match vs.foldl (fun (a v : XR) => a.max v.abs) (XR.fin false 0 0 false) with
    | .fin _ man exp _ =>
      if man = 0 then (if ef = 4 then 0x7F000 else 127)
      else if ef = 4 then bs20Ceil man exp
      else
        let emax : Int := match ef with | 0 => 6 | 1 => 4 | 2 => 2 | _ => 2
        (clampInt 0 254 ((man.log2 : Int) + exp - emax + 127)).toNat
    | _ => mxNan ef

/-- VMXQ.E: the scale word in element 0, zeros elsewhere. -/
def vMxqE (l : VW) (d a e : BitVec 5) (m : BitVec 3) : CM Unit := do
  let fmt := (← get).sq.fmt
  needFmt (fmtVS fmt == 0)
  vForm l d [a] m false false .rne 0 fun vs mk _ _ =>
    let xs := ((List.range 32).filter fun i => mk.getLsbD i).map fun i => elem 32 (v0 vs) i
    BitVec.ofNat 1024 (e.toNat * 2 ^ 28 + mxScale e.toNat (fmtFTZ fmt) xs)

/-- The exact value of a scale: E8M0 or BS20 (R56); `none` for NaN. -/
def scaleVal (bs20 : Bool) (sc : Nat) : Option (Nat × Int) :=
  if bs20 then
    let e := sc / 4096 % 256
    if e = 255 then none else some (4096 + sc % 4096, (e : Int) - 127 - 12)
  else if sc % 256 = 255 then none else some (1, (sc % 256 : Nat) - (127 : Int))

/-- The code of an MX element: the quotient rounded and saturated (R57, R67).  FTZ does not flush it (log entry 79). -/
def mxCode (ef : Nat) (rm : RM) (rho : Nat) (x : XR) : Nat :=
  let w := match ef with | 0 => 8 | 1 => 6 | 2 => 4 | 3 => 4 | _ => 16
  if ef = 3 then
    -- E2M1: exponent bias 1, no NaN, no infinity
    match x with
    | .nan => 7
    | .inf neg => if neg then 15 else 7
    | .fin neg man exp more =>
      if man = 0 ∧ more = false then (if neg then 8 else 0)
      else
        let q : Int := max ((man.log2 : Int) + exp) 0 - 1
        let k := roundMul rm neg rho man exp more q
        -- k * 2 ^ q in halves
        let h := k * 2 ^ (q + 1).toNat
        let c := if h ≤ 4 then h else if h ≤ 6 then 5 else if h ≤ 8 then 6 else 7
        (if neg then 8 else 0) + c
  else
    match x with
    | .nan => lowBits w (intMax true w)
    | .inf neg => lowBits w (if neg then intMin true w else intMax true w)
    | .fin neg man exp more => lowBits w (satInt true w (XR.roundInt rm rho neg man exp more))

/-- An exact quotient by a scale; a BS20 divisor may leave it inexact. -/
def XR.divScale (x : XR) (s : Nat × Int) : XR :=
  match x with
  | .fin neg man exp _ =>
    if s.1 = 1 then .fin neg man (exp - s.2) false
    else
      let n := man * 2 ^ 64
      .fin neg (n / s.1) (exp - s.2 - 64) (n % s.1 != 0)
  | y => y

/-- VMXQ.B: the packed block; a scale word that breaks R174 is the format trap (R176).  A scale word
may differ by example: every active example's is checked (R213). -/
def vMxqB (l : VW) (d a b : BitVec 5) (m : BitVec 3) : CM Unit := do
  let fmt := (← get).sq.fmt
  needFmt (fmtVS fmt == 0)
  let q ← popIfV l [a, b]
  let x ← rdV l q a
  let y ← rdV l q b
  let mk ← rdM m
  let z ← oldV l d
  let sq := (← get).sq
  let t := x.tag ||| y.tag ||| mk.tag ||| sq.regionTag ||| (if sq.region.isSome then z.tag else 0)
  vRun l d t z fun e => do
    let sw := elem 32 (y.at' sq.lifts t e) 0
    let ef := sw / 2 ^ 28
    needFmt (!sq.active t e || decide (ef ≤ 4) && sw / 2 ^ 20 % 256 == 0 && (ef == 4 || sw / 256 % 4096 == 0))
    let rho ← takeDraws (fmtRM fmt) 32
    let w := match ef with | 0 => 8 | 1 => 6 | 2 => 4 | 3 => 4 | _ => 16
    let mask := mk.at' sq.lifts t e
    return match scaleVal (ef == 4) (sw % 2 ^ 20) with
      | none => 0
      | some sc => BitVec.ofNat 1024 (packNat w ((List.range 32).map fun i =>
          if mask.getLsbD i then
            mxCode ef (fmtRM fmt) (rho i) ((fp32.dec (fmtFTZ fmt) (elem 32 (x.at' sq.lifts t e) i)).divScale sc)
          else 0))

/-! ### The forms -/

/-- VADD (R159). -/
def execVadd (l : VW) (d a b : BitVec 5) (m : BitVec 3) (s : State) : Host.Outcome State Fault Refusal :=
  onCtx s (vFlt l d [a, b] m false (fun rm x y _ => x.add (rdnSum rm) y))

/-- VSUB (R159). -/
def execVsub (l : VW) (d a b : BitVec 5) (m : BitVec 3) (s : State) : Host.Outcome State Fault Refusal :=
  onCtx s (vFlt l d [a, b] m false (fun rm x y _ => x.add (rdnSum rm) y.neg))

/-- VMUL (R159). -/
def execVmul (l : VW) (d a b : BitVec 5) (m : BitVec 3) (s : State) : Host.Outcome State Fault Refusal :=
  onCtx s (vFlt l d [a, b] m false (fun _ x y _ => x.mul y))

/-- VMIN (R160). -/
def execVmin (l : VW) (d a b : BitVec 5) (m : BitVec 3) (s : State) : Host.Outcome State Fault Refusal :=
  onCtx s (vFlt l d [a, b] m false (fun _ x y _ => x.min y))

/-- VMAX (R160). -/
def execVmax (l : VW) (d a b : BitVec 5) (m : BitVec 3) (s : State) : Host.Outcome State Fault Refusal :=
  onCtx s (vFlt l d [a, b] m false (fun _ x y _ => x.max y))

/-- VFMA rounds once; it reads d (R159). -/
def execVfma (l : VW) (d a b : BitVec 5) (m : BitVec 3) (s : State) : Host.Outcome State Fault Refusal :=
  onCtx s (vFlt l d [a, b] m true (fun rm x y z => (x.mul y).add (rdnSum rm) z))

/-- VFMS: z - x y, rounded once (R159). -/
def execVfms (l : VW) (d a b : BitVec 5) (m : BitVec 3) (s : State) : Host.Outcome State Fault Refusal :=
  onCtx s (vFlt l d [a, b] m true (fun rm x y z => z.add (rdnSum rm) (x.mul y).neg))

/-- VADD.I (R161). -/
def execVaddI (l : VW) (d a : BitVec 5) (i : BitVec 8) (s : State) : Host.Outcome State Fault Refusal :=
  onCtx s (vFltI l d a i (fun rm x y => x.add (rdnSum rm) y))

/-- VMUL.I (R161). -/
def execVmulI (l : VW) (d a : BitVec 5) (i : BitVec 8) (s : State) : Host.Outcome State Fault Refusal :=
  onCtx s (vFltI l d a i (fun _ x y => x.mul y))

/-- VMIN.I (R160, R161). -/
def execVminI (l : VW) (d a : BitVec 5) (i : BitVec 8) (s : State) : Host.Outcome State Fault Refusal :=
  onCtx s (vFltI l d a i (fun _ x y => x.min y))

/-- VMAX.I (R160, R161). -/
def execVmaxI (l : VW) (d a : BitVec 5) (i : BitVec 8) (s : State) : Host.Outcome State Fault Refusal :=
  onCtx s (vFltI l d a i (fun _ x y => x.max y))

/-- VCVT (R162). -/
def execVcvt (l : VW) (d a : BitVec 5) (m : BitVec 3) (s : State) : Host.Outcome State Fault Refusal :=
  onCtx s (vCvt l d a m)

/-- VCVT.LO (R162). -/
def execVcvtLo (l : VW) (d a b : BitVec 5) (m : BitVec 3) (s : State) : Host.Outcome State Fault Refusal :=
  onCtx s (vCvtPart false l d a b m)

/-- VCVT.HI (R162). -/
def execVcvtHi (l : VW) (d a b : BitVec 5) (m : BitVec 3) (s : State) : Host.Outcome State Fault Refusal :=
  onCtx s (vCvtPart true l d a b m)

/-- VCMP.EQ (R163). -/
def execVcmpEq (l : VW) (p a b : BitVec 5) (m : BitVec 3) (s : State) : Host.Outcome State Fault Refusal :=
  onCtx s (vCmp .eq l p a b m)

/-- VCMP.NE (R163). -/
def execVcmpNe (l : VW) (p a b : BitVec 5) (m : BitVec 3) (s : State) : Host.Outcome State Fault Refusal :=
  onCtx s (vCmp .ne l p a b m)

/-- VCMP.LT (R163). -/
def execVcmpLt (l : VW) (p a b : BitVec 5) (m : BitVec 3) (s : State) : Host.Outcome State Fault Refusal :=
  onCtx s (vCmp .lt l p a b m)

/-- VCMP.LE (R163). -/
def execVcmpLe (l : VW) (p a b : BitVec 5) (m : BitVec 3) (s : State) : Host.Outcome State Fault Refusal :=
  onCtx s (vCmp .le l p a b m)

/-- VCMP.GT (R163). -/
def execVcmpGt (l : VW) (p a b : BitVec 5) (m : BitVec 3) (s : State) : Host.Outcome State Fault Refusal :=
  onCtx s (vCmp .gt l p a b m)

/-- VCMP.GE (R163). -/
def execVcmpGe (l : VW) (p a b : BitVec 5) (m : BitVec 3) (s : State) : Host.Outcome State Fault Refusal :=
  onCtx s (vCmp .ge l p a b m)

/-- VCMP.UN (R163). -/
def execVcmpUn (l : VW) (p a b : BitVec 5) (m : BitVec 3) (s : State) : Host.Outcome State Fault Refusal :=
  onCtx s (vCmp .un l p a b m)

/-- VCMP.ORD (R163). -/
def execVcmpOrd (l : VW) (p a b : BitVec 5) (m : BitVec 3) (s : State) : Host.Outcome State Fault Refusal :=
  onCtx s (vCmp .ord l p a b m)

/-- VCMP.IEQ (R163). -/
def execVcmpIeq (l : VW) (p a b : BitVec 5) (m : BitVec 3) (s : State) : Host.Outcome State Fault Refusal :=
  onCtx s (vCmp .ieq l p a b m)

/-- VCMP.INE (R163). -/
def execVcmpIne (l : VW) (p a b : BitVec 5) (m : BitVec 3) (s : State) : Host.Outcome State Fault Refusal :=
  onCtx s (vCmp .ine l p a b m)

/-- VCMP.ILT (R163). -/
def execVcmpIlt (l : VW) (p a b : BitVec 5) (m : BitVec 3) (s : State) : Host.Outcome State Fault Refusal :=
  onCtx s (vCmp .ilt l p a b m)

/-- VCMP.ILTU (R163). -/
def execVcmpIltu (l : VW) (p a b : BitVec 5) (m : BitVec 3) (s : State) : Host.Outcome State Fault Refusal :=
  onCtx s (vCmp .iltu l p a b m)

/-- VSEL reads its mask as a selector and writes every element (R164). -/
def execVsel (l : VW) (d a b : BitVec 5) (m : BitVec 3) (s : State) : Host.Outcome State Fault Refusal :=
  onCtx s (do
    let w := (← srcFmt).width
    vForm l d [a, b] m false false .rne 0 fun vs mk _ _ => mergeElems w mk (v1 vs) fun i => elem w (v0 vs) i)

/-- VIADD (R166). -/
def execViadd (l : VW) (d a b : BitVec 5) (m : BitVec 3) (s : State) : Host.Outcome State Fault Refusal :=
  onCtx s (vInt l d [a, b] m iAdd)

/-- VIADD.S (R166). -/
def execViaddS (l : VW) (d a b : BitVec 5) (m : BitVec 3) (s : State) : Host.Outcome State Fault Refusal :=
  onCtx s (vInt l d [a, b] m iAddS)

/-- VISUB (R166). -/
def execVisub (l : VW) (d a b : BitVec 5) (m : BitVec 3) (s : State) : Host.Outcome State Fault Refusal :=
  onCtx s (vInt l d [a, b] m iSub)

/-- VISUB.S (R166). -/
def execVisubS (l : VW) (d a b : BitVec 5) (m : BitVec 3) (s : State) : Host.Outcome State Fault Refusal :=
  onCtx s (vInt l d [a, b] m iSubS)

/-- VIMUL (R166). -/
def execVimul (l : VW) (d a b : BitVec 5) (m : BitVec 3) (s : State) : Host.Outcome State Fault Refusal :=
  onCtx s (vInt l d [a, b] m iMul)

/-- VIMUL.H (R166). -/
def execVimulH (l : VW) (d a b : BitVec 5) (m : BitVec 3) (s : State) : Host.Outcome State Fault Refusal :=
  onCtx s (vInt l d [a, b] m iMulH)

/-- VAND (R166). -/
def execVand (l : VW) (d a b : BitVec 5) (m : BitVec 3) (s : State) : Host.Outcome State Fault Refusal :=
  onCtx s (vInt l d [a, b] m iAnd)

/-- VOR (R166). -/
def execVor (l : VW) (d a b : BitVec 5) (m : BitVec 3) (s : State) : Host.Outcome State Fault Refusal :=
  onCtx s (vInt l d [a, b] m iOr)

/-- VXOR (R166). -/
def execVxor (l : VW) (d a b : BitVec 5) (m : BitVec 3) (s : State) : Host.Outcome State Fault Refusal :=
  onCtx s (vInt l d [a, b] m iXor)

/-- VSHL (R166). -/
def execVshl (l : VW) (d a b : BitVec 5) (m : BitVec 3) (s : State) : Host.Outcome State Fault Refusal :=
  onCtx s (vInt l d [a, b] m iShl)

/-- VSHR (R166). -/
def execVshr (l : VW) (d a b : BitVec 5) (m : BitVec 3) (s : State) : Host.Outcome State Fault Refusal :=
  onCtx s (vInt l d [a, b] m iShr)

/-- VSAR (R166). -/
def execVsar (l : VW) (d a b : BitVec 5) (m : BitVec 3) (s : State) : Host.Outcome State Fault Refusal :=
  onCtx s (vInt l d [a, b] m iSar)

/-- VAND.I (R26, R166). -/
def execVandI (l : VW) (d a : BitVec 5) (i : BitVec 8) (s : State) : Host.Outcome State Fault Refusal :=
  onCtx s (vIntI l d a i iAnd)

/-- VOR.I (R26, R166). -/
def execVorI (l : VW) (d a : BitVec 5) (i : BitVec 8) (s : State) : Host.Outcome State Fault Refusal :=
  onCtx s (vIntI l d a i iOr)

/-- VXOR.I (R26, R166). -/
def execVxorI (l : VW) (d a : BitVec 5) (i : BitVec 8) (s : State) : Host.Outcome State Fault Refusal :=
  onCtx s (vIntI l d a i iXor)

/-- VSHL.I (R26, R166). -/
def execVshlI (l : VW) (d a : BitVec 5) (i : BitVec 8) (s : State) : Host.Outcome State Fault Refusal :=
  onCtx s (vIntI l d a i iShl)

/-- VSHR.I (R26, R166). -/
def execVshrI (l : VW) (d a : BitVec 5) (i : BitVec 8) (s : State) : Host.Outcome State Fault Refusal :=
  onCtx s (vIntI l d a i iShr)

/-- VSAR.I (R26, R166). -/
def execVsarI (l : VW) (d a : BitVec 5) (i : BitVec 8) (s : State) : Host.Outcome State Fault Refusal :=
  onCtx s (vIntI l d a i iSar)

/-- VPERM (R168). -/
def execVperm (l : VW) (d a b : BitVec 5) (m : BitVec 3) (s : State) : Host.Outcome State Fault Refusal :=
  onCtx s (vPerm l d a b m)

/-- VPERM.I (R168). -/
def execVpermI (l : VW) (d a : BitVec 5) (i : BitVec 8) (s : State) : Host.Outcome State Fault Refusal :=
  onCtx s (vPermI l d a i)

/-- VRED.AX (R171). -/
def execVredAx (l : VW) (d a o : BitVec 5) (m : BitVec 3) (s : State) : Host.Outcome State Fault Refusal :=
  onCtx s (vRedAx l d a o m)

/-- VPACK (R169). -/
def execVpack (l : VW) (d a b : BitVec 5) (m : BitVec 3) (s : State) : Host.Outcome State Fault Refusal :=
  onCtx s (vPack l d a b m)

/-- VUNPK.LO (R169). -/
def execVunpkLo (l : VW) (d a : BitVec 5) (m : BitVec 3) (s : State) : Host.Outcome State Fault Refusal :=
  onCtx s (vUnpk false l d a m)

/-- VUNPK.HI (R169). -/
def execVunpkHi (l : VW) (d a : BitVec 5) (m : BitVec 3) (s : State) : Host.Outcome State Fault Refusal :=
  onCtx s (vUnpk true l d a m)

/-- VMXQ.E (R175). -/
def execVmxqE (l : VW) (d a e : BitVec 5) (m : BitVec 3) (s : State) : Host.Outcome State Fault Refusal :=
  onCtx s (vMxqE l d a e m)

/-- VMXQ.B (R176). -/
def execVmxqB (l : VW) (d a b : BitVec 5) (m : BitVec 3) (s : State) : Host.Outcome State Fault Refusal :=
  onCtx s (vMxqB l d a b m)

/-- VRNG (R180). -/
def execVrng (l : VW) (d : BitVec 5) (m : BitVec 3) (s : State) : Host.Outcome State Fault Refusal :=
  onCtx s (vRng l d m)

/-- VRNG.U (R180). -/
def execVrngU (l : VW) (d : BitVec 5) (m : BitVec 3) (s : State) : Host.Outcome State Fault Refusal :=
  onCtx s (vRngU l d m)

/-- MLOG, on either lane (R165). -/
def execMlog (_l : VW) (d a b : BitVec 5) (op : BitVec 3) (s : State) : Host.Outcome State Fault Refusal :=
  onCtx s (mLog d a b op)

/-- VABS (R159). -/
def execVabs (l : VW) (d a : BitVec 5) (m : BitVec 3) (s : State) : Host.Outcome State Fault Refusal :=
  onCtx s (vFlt l d [a] m false (fun _ x _ _ => x.abs))

/-- VNEG (R159). -/
def execVneg (l : VW) (d a : BitVec 5) (m : BitVec 3) (s : State) : Host.Outcome State Fault Refusal :=
  onCtx s (vFlt l d [a] m false (fun _ x _ _ => x.neg))

/-- VRCP (R159). -/
def execVrcp (l : VW) (d a : BitVec 5) (m : BitVec 3) (s : State) : Host.Outcome State Fault Refusal :=
  onCtx s (vFlt l d [a] m false (fun _ x _ _ => x.rcp))

/-- VRSQ (R159). -/
def execVrsq (l : VW) (d a : BitVec 5) (m : BitVec 3) (s : State) : Host.Outcome State Fault Refusal :=
  onCtx s (vFlt l d [a] m false (fun _ x _ _ => x.rsq))

/-- VEXP2 (R159). -/
def execVexp2 (l : VW) (d a : BitVec 5) (m : BitVec 3) (s : State) : Host.Outcome State Fault Refusal :=
  onCtx s (vFlt l d [a] m false (fun _ x _ _ => x.exp2))

/-- VLOG2 (R159). -/
def execVlog2 (l : VW) (d a : BitVec 5) (m : BitVec 3) (s : State) : Host.Outcome State Fault Refusal :=
  onCtx s (vFlt l d [a] m false (fun _ x _ _ => x.log2))

/-- VTANH (R159). -/
def execVtanh (l : VW) (d a : BitVec 5) (m : BitVec 3) (s : State) : Host.Outcome State Fault Refusal :=
  onCtx s (vFlt l d [a] m false (fun _ x _ _ => x.tanh))

/-- VMOV (R167). -/
def execVmov (l : VW) (d a : BitVec 5) (m : BitVec 3) (s : State) : Host.Outcome State Fault Refusal :=
  onCtx s (do
    let w := (← srcFmt).width
    vForm l d [a] m false (maskKeeps m) .rne 0 fun vs mk z _ => mergeElems w mk z fun i => elem w (v0 vs) i)

/-- VABS.I (R166). -/
def execVabsI (l : VW) (d a : BitVec 5) (m : BitVec 3) (s : State) : Host.Outcome State Fault Refusal :=
  onCtx s (vInt l d [a] m iAbs)

/-- VNEG.I (R166). -/
def execVnegI (l : VW) (d a : BitVec 5) (m : BitVec 3) (s : State) : Host.Outcome State Fault Refusal :=
  onCtx s (vInt l d [a] m iNeg)

/-- VRED.ADD (R170). -/
def execVredAdd (l : VW) (d a : BitVec 5) (m : BitVec 3) (s : State) : Host.Outcome State Fault Refusal :=
  onCtx s (vRed .add l d a m)

/-- VRED.MAX (R170). -/
def execVredMax (l : VW) (d a : BitVec 5) (m : BitVec 3) (s : State) : Host.Outcome State Fault Refusal :=
  onCtx s (vRed .max l d a m)

/-- VRED.MIN (R170). -/
def execVredMin (l : VW) (d a : BitVec 5) (m : BitVec 3) (s : State) : Host.Outcome State Fault Refusal :=
  onCtx s (vRed .min l d a m)

/-- VSCAN.ADD (R172). -/
def execVscanAdd (l : VW) (d a : BitVec 5) (m : BitVec 3) (s : State) : Host.Outcome State Fault Refusal :=
  onCtx s (vScan .add l d a m)

/-- VSCAN.MAX (R172). -/
def execVscanMax (l : VW) (d a : BitVec 5) (m : BitVec 3) (s : State) : Host.Outcome State Fault Refusal :=
  onCtx s (vScan .max l d a m)

/-- VIDX (R173). -/
def execVidx (l : VW) (d : BitVec 5) (m : BitVec 3) (s : State) : Host.Outcome State Fault Refusal :=
  onCtx s (vIdx l d m)

end Sys2Proof.Machine
end

