-- ==== Sys2Proof/Machine/Truss.lean ====
section
/-!
DEFINITION. Sys2Proof/Machine/Truss.lean: the truss: tiles, routines, scales, the X lane and the E-lane
scale forms (R68, R280 to R309).

A core runs the entries of its call queue one at a time.  A micro-word acts whole when its turn comes;
an MMAC acts block by block, each block reading the latches as they then stand (R297).
-/

namespace Sys2Proof.Machine

/-! ### Tiles (R280) -/

/-- Element (i, j) of a tile as an FP32 code. -/
def tileElem (t : TBits) (i j : Nat) : Nat := t.toNat / 2 ^ (32 * (16 * i + j)) % 2 ^ 32

/-- A tile from its elements. -/
def tileOf (f : Nat → Nat → Nat) : TBits :=
  BitVec.ofNat 8192 (packNat 32 ((List.range 256).map fun n => f (n / 16) (n % 16)))

/-- The tile slots that a context takes. -/
def Ctx.tileSlots (c : Ctx) : Nat := (c.files.t.filter fun e => e.2.valid).length + copiesOf c.files.t

/-- The core's 64 tile slots suffice; lift fault 1 otherwise (R280). -/
def needSlots : M Unit := do
  let s ← get
  let c := coreOf s.focus
  M.need (decide ((([0, 1, 2, 3] : List Nat).map fun i => (s.ctx (4 * c + i)).tileSlots).sum ≤ 64)) clsLift 1

/-- The tiles of a mask that outstanding calls of the context keep busy (R281). -/
def State.busyTiles (s : State) (k : Nat) : BitVec 16 :=
  let x := s.core (coreOf k)
  let cs := x.callQ ++ (match x.run with | some r => [r.call] | none => [])
  (cs.filter fun c => c.ctx == k).foldl (fun m c => m ||| c.busy) 0

/-- An X slot that reads or writes a busy tile is not ready (R281). -/
def needIdle (ts : List (BitVec 5)) : M Unit := do
  let s ← get
  let b := s.busyTiles s.focus
  if ts.any (fun t => b.getLsbD t.toNat) then M.hold

/-! ### Arithmetic (R56, R68, R291) -/

/-- acc_limit: an infinite value in saturating mode is clamped and sets ACCSAT (R68). -/
def accLimit (acc : Bool) (v : Nat) : Nat × Bool :=
  if acc then (v, false)
  else if v = 0x7F800000 then (0x7F7FFFFF, true)
  else if v = 0xFF800000 then (0xFF7FFFFF, true)
  else (v, false)

def fpAdd (x y : Nat) : Nat := fp32.round .rne false false 0 ((fp32.dec false x).add false (fp32.dec false y))
def fpMul (x : XR) (y : Nat) : Nat := fp32.round .rne false false 0 (x.mul (fp32.dec false y))

/-- Element width of a truss format code (R59). -/
def trussWidth : Nat → Nat
  | 0 => 8 | 1 => 6 | 2 => 4 | 3 => 4 | _ => 16
/-- Blocks in a slab row (R288). -/
def slabBlocks : Nat → Nat
  | 0 => 4 | 1 => 5 | 2 => 8 | 3 => 8 | _ => 2
def trussInt (f : Nat) : Bool := decide (f ≤ 4)

/-- The integer an element enters the dot product as; an MXFP4 element as twice its value. -/
def trussElem (f b : Nat) : Int :=
  if f = 3 then
    let e := b / 2 % 4
    let m := if e = 0 then b % 2 else (2 + b % 2) * 2 ^ (e - 1)
    if b / 8 % 2 = 1 then -(m : Int) else (m : Int)
  else intVal true (trussWidth f) b

/-- Element `e` of block `blk` of a slab row. -/
def slabElem (f : Nat) (row : VBits) (blk e : Nat) : Nat := elem (trussWidth f) row (32 * blk + e)

/-- The value of a BS20 code; none for NaN. -/
def bs20Val (v : Nat) : Option (Nat × Int) := scaleVal true v

/-- The block result p before acc_limit. -/
def blockProd (fa fb : Nat) (ra rb : VBits) (la lb blk : Nat) : Nat :=
  if trussInt fa then
    let d := ((List.range 32).map fun e => trussElem fa (slabElem fa ra blk e) * trussElem fb (slabElem fb rb blk e)).sum
    match bs20Val la, bs20Val lb with
    | some a, some b =>
      let g : Int := if fa = 3 then -2 else 0
      fp32.round .rne false false 0 (.fin (decide (d < 0)) (d.natAbs * a.1 * b.1) (a.2 + b.2 + g) false)
    | _, _ => fp32.cnan
  else
    let ff := if fa = 5 then bf16 else fp16
    let d := (List.range 32).foldl (fun (x : XR) e =>
      x.add false ((ff.dec false (slabElem fa ra blk e)).mul (ff.dec false (slabElem fb rb blk e))))
      (XR.fin false 0 0 false)
    match d with
    | .fin _ 0 _ _ => 0
    | x => fp32.round .rne false false 0 x

/-- One block accumulated into a cell. -/
def accCell (acc : Bool) (t p : Nat) : Nat × Bool :=
  let (p, s1) := accLimit acc p
  let (t, s2) := accLimit acc (fpAdd t p)
  (t, s1 || s2)

/-- Map the cells of a tile, gathering ACCSAT. -/
def mapTile (f : Nat → Nat → Nat × Bool) : TBits × Bool :=
  let rs := (List.range 256).map fun n => f (n / 16) (n % 16)
  (BitVec.ofNat 8192 (packNat 32 (rs.map (·.1))), rs.any (·.2))

/-- The MACC operations (R291). -/
inductive MaccOp where
  | add | sub | mov | dcy (g : Nat) | maximum | zero
  deriving DecidableEq, Repr

/-- One element of TD from TD and TS. -/
def MaccOp.elem (o : MaccOp) (acc : Bool) (d t : Nat) : Nat × Bool :=
  match o with
  | .add => accLimit acc (fpAdd d t)
  | .sub => accLimit acc (fp32.round .rne false false 0 ((fp32.dec false d).add false (fp32.dec false t).neg))
  | .mov => accLimit acc t
  | .dcy g => accLimit acc (fpMul (.fin false g (-12) false) d)
  | .maximum => accLimit acc (fp32.round .rne false false 0 ((fp32.dec false d).max (fp32.dec false t)))
  | .zero => (0, false)

def MaccOp.tile (o : MaccOp) (acc : Bool) (d t : TBits) : TBits × Bool :=
  mapTile fun i j => o.elem acc (tileElem d i j) (tileElem t i j)

/-! ### The routine table and the check of an image (R283, R295) -/

/-- A routine table entry. -/
structure Routine where
  rt : BitVec 16
  wt : BitVec 16
  xr : BitVec 8
  start : Nat
  v : Bool
  deriving DecidableEq, Repr

def Routine.parse (w : W64) : Routine :=
  { rt := (w >>> 48).setWidth 16, wt := (w >>> 32).setWidth 16, xr := (w >>> 24).setWidth 8, start := fieldN w 12 12,
    v := w.getLsbD 0 }

/-- What a micro-word reads and writes: tiles read, tiles written, x registers. -/
def microUses : Instr → List Nat × List Nat × List Nat
  | .mgathA _ x _ _ _ _ => ([], [], [x.toNat]) | .mgathB _ x _ _ _ _ => ([], [], [x.toNat])
  | .mgathAt _ x _ _ _ _ => ([], [], [x.toNat]) | .mgathBt _ x _ _ _ _ => ([], [], [x.toNat])
  | .mmacI8 _ _ t _ _ => ([t.toNat], [t.toNat], []) | .mmacI6 _ _ t _ _ => ([t.toNat], [t.toNat], [])
  | .mmacI4 _ _ t _ _ => ([t.toNat], [t.toNat], []) | .mmacF4 _ _ t _ _ => ([t.toNat], [t.toNat], [])
  | .mmacI16 _ _ t _ _ => ([t.toNat], [t.toNat], []) | .mmacF _ _ t _ _ => ([t.toNat], [t.toNat], [])
  | .mmacFZ _ _ t _ _ => ([], [t.toNat], []) | .mmacFD _ _ t _ _ _ => ([t.toNat], [t.toNat], [])
  | .msclA x _ _ _ => ([], [], [x.toNat]) | .msclB x _ _ _ => ([], [], [x.toNat])
  | .msclAb x _ _ _ => ([], [], [x.toNat])
  | .maccAdd d r => ([d.toNat, r.toNat], [d.toNat], []) | .maccSub d r => ([d.toNat, r.toNat], [d.toNat], [])
  | .maccMov d r => ([r.toNat], [d.toNat], []) | .maccDcy d _ => ([d.toNat], [d.toNat], [])
  | .maccMax d r => ([d.toNat, r.toNat], [d.toNat], []) | .maccZero d => ([], [d.toNat], [])
  | .mcvtBf16 t x _ _ => ([t.toNat], [], [x.toNat]) | .mcvtF16 t x _ _ => ([t.toNat], [], [x.toNat])
  | .mcvtE4m3 t x _ _ => ([t.toNat], [], [x.toNat]) | .mcvtE5m2 t x _ _ => ([t.toNat], [], [x.toNat])
  | .mloopP x _ => ([], [], [x.toNat]) | .mloopK x _ => ([], [], [x.toNat])
  | _ => ([], [], [])

/-- The blocks of an MSCL or MSCM end at 7, and an MLOOP count is not 0 (R295). -/
def microFieldsOk : Instr → Bool
  | .msclA _ _ z n => decide (z.toNat + n.toNat ≤ 7) | .msclB _ _ z n => decide (z.toNat + n.toNat ≤ 7)
  | .msclAb _ _ z n => decide (z.toNat + n.toNat ≤ 7) | .mscmA _ z n => decide (z.toNat + n.toNat ≤ 7)
  | .mscmB _ z n => decide (z.toNat + n.toNat ≤ 7) | .mscmAb _ z n => decide (z.toNat + n.toNat ≤ 7)
  | .mscmSt _ z n => decide (z.toNat + n.toNat ≤ 7)
  | .mloop c _ => c != 0
  | _ => true

/-- The LEN of a micro-loop. -/
def microLoop : Instr → Option Nat
  | .mloop _ n => some n.toNat
  | .mloopP _ n => some n.toNat
  | .mloopK _ n => some n.toNat
  | _ => none

/-- Walk a routine's words from `i`: `ends` are the last words of the open micro-loops, innermost first.
The first failing word, or none where MEND is reached well (R295).  Of a body that runs past the MEND the MEND is the failing
word; one that ends with it does not run past it (log entry 73). -/
def walkRoutine (f : Nat → W64) (e : Routine) (idx : Nat) : Nat → Nat → List Nat → Option Nat
  | 0, _, _ => some idx
  | n + 1, i, ends =>
    if 4096 ≤ i then some idx
    else
      let ends := ends.filter fun x => decide (i ≤ x)
      match decodeMicro (f i).toNat with
      | .error _ => some i
      | .ok m =>
        let (rd, wr, xs) := microUses m
        if !microFieldsOk m || rd.any (fun t => !e.rt.getLsbD t) || wr.any (fun t => !e.wt.getLsbD t)
            || xs.any (fun x => !e.xr.getLsbD x) then some i
        else match m with
          | .mend => if ends.any fun x => decide (i < x) then some i else none
          | _ => match microLoop m with
            | none => walkRoutine f e idx n (i + 1) ends
            | some len =>
              if 2 ≤ ends.length then some i else walkRoutine f e idx n (i + 1) ((i + 1 + len) :: ends)

/-- The first failing word of a microprogram image, by index; none where it passes (R295). -/
def checkImage (f : Nat → W64) : Option Nat :=
  let bad := ((List.range 64).map fun i =>
    let e := Routine.parse (f i)
    if !e.v then (if f i = 0 then [] else [i])
    else if e.start < 64 then [i]
    else match walkRoutine f e i 4096 e.start [] with | some j => [j] | none => []).flatten
  match bad with
  | [] => none
  | b :: bs => some (bs.foldl min b)

/-! ### The call queue (R284) -/

/-- Enter a call; a full queue makes the bundle not ready. -/
def enterCall (kd : CallKind) (busy : BitVec 16) : M Nat := do
  let s ← get
  let c := coreOf s.focus
  let n := (s.core c).callQ.length + (if (s.core c).run.isSome then 1 else 0)
  if 4 ≤ n then M.hold
  let id ← freshId
  let sq ← nextSeq
  let e : Call := { id := id, ctx := s.focus, seq := sq, kind := kd, busy := busy, issued := s.cur.fl.now }
  modCore c fun x => { x with callQ := x.callQ ++ [e] }
  modCur fun c => { c with fl := { c.fl with calls := c.fl.calls ++ [id] } }
  return id

/-- The fault that a refused or starved call left, raised by the first XWAIT or MARK after the call ended;
it is not precise (R286, R289). -/
def raiseTrussFault : M Unit := do
  match (← get).cur.fl.trussFault with
  | none => pure ()
  | some t => throw (.trap { t with precise := false })

/-! ### XCALL (R62, R300) -/

/-- The pairs of truss formats that XCALL accepts (R62). -/
def pairOk (a b : Nat) : Bool := (decide (a ≤ 2) && decide (b ≤ 2)) || (decide (3 ≤ a) && a == b)

/-- The numbers of the bits set in a mask. -/
def bitsOf {w : Nat} (m : BitVec w) : List Nat := (List.range w).filter fun i => m.getLsbD i

/-- XCALL of routine `r`: captured, and run once per active example of the union of its tiles' tags and the region's axis; each
tile of the write mask takes a copy for every example, which its backing must hold (R203, R213, R285). -/
def callRoutine (r : Nat) : M Unit := do
  let s ← get
  let c := s.cur
  let f := c.sq.fmt
  M.need (pairOk (fmtTA f) (fmtTB f)) clsIllegal 0
  let e := Routine.parse ((s.core (coreOf s.focus)).store.get 0 r)
  if !e.v then M.trapV clsIllegal 2 (BitVec.ofNat 64 r)
  liftC do
    (bitsOf e.rt).forM fun t => do let _ ← rdT (BitVec.ofNat 5 t)
    (bitsOf e.xr).forM fun x => do let _ ← rdX (BitVec.ofNat 5 x)
  let tag := (bitsOf (e.rt ||| e.wt)).foldl (fun m t => m ||| (if (c.regT t).valid then (c.regT t).tag else 0)) c.sq.regionTag
  let n := exCount c.sq.lifts tag
  M.need (e.wt == 0 || decide (n ≤ 49)) clsLift 1
  let xs := (List.range 8).map fun i => (c.regX i).val
  let exs := (List.range n).filter fun i => c.sq.active tag i
  let _ ← enterCall (.routine (BitVec.ofNat 6 r) f xs tag exs) (e.rt ||| e.wt)
  (bitsOf e.wt).forM fun t => liftC do
    let old := c.regT t
    let at' (i : Nat) : TBits := if old.valid then old.at' c.sq.lifts tag i else 0
    wrT t (TReg.ofExamples tag ((List.range n).map at'))
  needSlots

/-- XCALL (R300). -/
def execXcall (r : BitVec 6) (s : State) : Host.Outcome State Fault Refusal := finish s (callRoutine r.toNat)

/-- XCALL.R: the routine from bits [5:0] of the register (R300). -/
def execXcallR (a : BitVec 5) (s : State) : Host.Outcome State Fault Refusal :=
  finish s (do callRoutine ((← liftC (rdX a)).toNat % 64))

/-! ### X registers and tiles (R301 to R304) -/

/-- XSET (R301). -/
def execXset (d : BitVec 5) (i : BitVec 13) (s : State) : Host.Outcome State Fault Refusal :=
  onCtx s (wrX d (i.signExtend 64))

/-- XSET.R (R301). -/
def execXsetR (d a : BitVec 5) (i : BitVec 8) (s : State) : Host.Outcome State Fault Refusal :=
  onCtx s (do
    let v ← rdX a
    wrX d (v + i.signExtend 64))

def zeroTile (t : Nat) : CM Unit := wrT t ⟨true, 0, 0, []⟩

/-- XZERO (R302). -/
def execXzero (d : BitVec 5) (s : State) : Host.Outcome State Fault Refusal :=
  finish s (do
    needIdle [d]
    liftC (zeroTile d.toNat)
    needSlots)

/-- XZERO.ALL (R302). -/
def execXzeroAll (s : State) : Host.Outcome State Fault Refusal :=
  finish s (do
    needIdle ((List.range 16).map fun i => BitVec.ofNat 5 i)
    liftC ((List.range 16).forM zeroTile)
    needSlots)

/-- A form over tiles: TD from TD and TS, per example of the union of their tags (R213, R303).  `readsD`:
TD is an operand. -/
def tileForm (o : MaccOp) (d t : BitVec 5) (readsD : Bool) : M Unit := do
  needIdle [d, t]
  let k := (← get).focus
  let sat ← liftC (do
    let src ← rdT t
    let dst ← if readsD then rdT d else (do
      let r := (← get).regT d.toNat
      return if r.valid then r else TReg.invalid)
    let q := (← get).sq
    let tag := src.tag ||| q.regionTag ||| (if readsD || q.region.isSome then dst.tag else 0)
    let n := exCount q.lifts tag
    CM.need (decide (n ≤ 49)) clsLift 1
    let rs := (List.range n).map fun e =>
      let old := dst.at' q.lifts tag e
      if q.active tag e then o.tile false old (src.at' q.lifts tag e) else (old, false)
    wrT d.toNat (TReg.ofExamples tag (rs.map (·.1)))
    return rs.any (·.2))
  setAccsat k sat
  needSlots

/-- XACC (R303). -/
def execXacc (d a : BitVec 5) (s : State) : Host.Outcome State Fault Refusal := finish s (tileForm .add d a true)
/-- XACC.SUB (R303). -/
def execXaccSub (d a : BitVec 5) (s : State) : Host.Outcome State Fault Refusal := finish s (tileForm .sub d a true)
/-- XACC.MOV (R303). -/
def execXaccMov (d a : BitVec 5) (s : State) : Host.Outcome State Fault Refusal := finish s (tileForm .mov d a false)
/-- XDCY: G from the immediate (R303). -/
def execXdcy (d : BitVec 5) (i : BitVec 13) (s : State) : Host.Outcome State Fault Refusal :=
  finish s (tileForm (.dcy i.toNat) d d true)
/-- XDCY.R: G from x[a][12:0] (R303). -/
def execXdcyR (d a : BitVec 5) (s : State) : Host.Outcome State Fault Refusal :=
  finish s (do
    let g ← liftC (rdX a)
    tileForm (.dcy (g.toNat % 8192)) d d true)

/-- XSPL: the image of an untagged tile to a scratchpad address, through the call queue (R304). -/
def execXspl (t x : BitVec 5) (s : State) : Host.Outcome State Fault Refusal :=
  finish s (do
    needIdle [t]
    let r ← liftC (rdT t)
    let a ← liftC (rdX x)
    if a.toNat % 8 ≠ 0 then M.trapAt clsAccess 2 0 ⟨fieldN a 0 19, fieldN a 19 6, 0, 0⟩
    M.need (r.tag == 0) clsLift 3
    let _ ← enterCall (.spill t a) (1 <<< t.toNat))

/-- Is a routine of the context outstanding (R289)? -/
def State.routineOut (s : State) (k : Nat) : Bool :=
  let x := s.core (coreOf k)
  let cs := x.callQ ++ (match x.run with | some r => [r.call] | none => [])
  cs.any fun c => c.ctx == k && (match c.kind with | .routine .. => true | _ => false)

/-- Entries of qx that a pop may still take. -/
def Queues.xAvail (q : Queues) : Nat := (q.qx.filter fun e => !e.kept).length

/-- XFIL: eight qx entries make an untagged tile (R304). -/
def execXfil (d : BitVec 5) (s : State) : Host.Outcome State Fault Refusal :=
  finish s (do
    needIdle [d]
    let s ← get
    if s.routineOut s.focus then M.hold
    M.need (decide (8 ≤ s.cur.queues.xAvail)) clsQueue 0
    let vs ← liftC ((List.range 8).mapM fun _ => popX)
    let v := packNat 1024 (vs.map fun r => r.val.toNat)
    liftC (wrT d.toNat ⟨true, 0, BitVec.ofNat 8192 v, []⟩)
    needSlots)

/-! ### XWAIT and XLDM (R305, R306) -/

/-- The scale words that ESCMs replaced, newest first, without those of ESCMs that a condition settles and, of older ones,
the indices that these wrote (R298). -/
def settleScales (p : Nat × Nat × AMap W32 → Bool) : List Nat → List (Nat × Nat × AMap W32) → List (Nat × Nat × AMap W32)
  | _, [] => []
  | gone, o :: t =>
    if p o then settleScales p (o.2.2.map (·.1) ++ gone) t
    else (o.1, o.2.1, o.2.2.filter fun e => !gone.contains e.1) :: settleScales p gone t

/-- Calls that have ended are seen complete for R81; words that an ESCM replaced are gone (R298). -/
def seeCalls (k : Nat) : M Unit := do
  let open' := ((← get).ctx k).fl.calls
  let see (w : EWrite) : EWrite := if w.ctx == k && w.cls == 2 && !open'.contains w.id then { w with seen := true } else w
  modMp fun mp => { mp with unperf := mp.unperf.map see }
  modify fun s => { s with cores := s.cores.map fun e =>
    (e.1, { e.2 with smemOld := settleScales (fun o => o.1 == k && !open'.contains o.2.1) [] e.2.smemOld }) }

/-- The end of an XWAIT: ACCSAT into x[d], then clear (R305). -/
def xwaitDone (k : Nat) (d : Option (BitVec 5)) : M Unit := do
  seeCalls k
  match d with
  | none => pure ()
  | some d => do
    let s ← get
    match (wrX d (if (s.ctx k).accsat then 1 else 0)) (s.ctx k) with
    | .ok (_, c) => set (s.setCtx k { c with accsat := false })
    | .error h => throw h

def Eff.isCall : Eff → Bool
  | .escmSt .. => true
  | _ => false

/-- The calls that a wait form counts: those outstanding, and the ESCM.STs committed that are yet to enter the queue (R226,
R305, R308). -/
def Flight.ownCalls (f : Flight) : Nat := f.calls.length + (f.commits.filter fun g => g.eff.isCall).length

/-- XWAIT: at once where at most `n` calls are outstanding, else it holds the next bundle. -/
def xwait (d : Option (BitVec 5)) (n : Nat) : M Unit := do
  raiseTrussFault
  let s ← get
  if s.cur.fl.ownCalls ≤ n then xwaitDone s.focus d
  else do
    match d with
    | some r => liftC (logSave (.x r.toNat (s.cur.regX r.toNat)))
    | none => pure ()
    waitFor (.xwait d n)

/-- XWAIT (R305). -/
def execXwait (d : BitVec 5) (n : BitVec 13) (s : State) : Host.Outcome State Fault Refusal :=
  finish s (xwait (some d) n.toNat)

/-- XWAIT.ALL (R305). -/
def execXwaitAll (s : State) : Host.Outcome State Fault Refusal := finish s (xwait none 0)

/-- XWAIT_RELEASE: the outstanding calls of context `k` have fallen to the count it waits for (R305).  The queue-starved trap
that one of them left is taken here, by the context's next XWAIT (R289); access fault 6 is for the first XWAIT or MARK that
issues after the call has ended (R286; log entry 17). -/
def execXwaitRelease (k : Nat) (s : State) : Host.Outcome State Fault Refusal :=
  onEvent s k (do
    let c := (← get).ctx k
    match c.wait with
    | .xwait d n =>
      if c.fl.ownCalls ≤ n then
        match c.fl.trussFault.filter fun t => t.cls == clsQueue with
        | some t => takeTrap k t
        | none => do
          modCtx k Ctx.nextWait
          xwaitDone k d
    | _ => pure ())

/-- The checks of a GATH tensor of the given element format (R306, R308): access fault 5, 4 where `cls`
says so, 3, and 1 for a range beyond the tensor. -/
def gathTensor (v : W64) (efmt n : Nat) (cls : Bool) : M (BitVec 16 × Nat × Bool) := do
  let l ← curLaunch
  let h := handleOf v
  let off := offsetOf v
  let x : Coord := ⟨(BitVec.ofNat 32 off).toInt, 0, 0, 0⟩
  if !handleOk l h then M.trapAt clsAccess 5 h x
  let (d, ok) ← descM (← curDie) l h
  if ok then do
    if cls && (d.cls == 1 || d.cls == 2) then M.trapAt clsAccess 4 h x
    if d.efmt ≠ efmt then M.trapAt clsAccess 3 h x
    if d.elems < off + n then M.trapAt clsAccess 1 h x
  return (h, off, ok)

/-- The bytes of an element of an append page up to COMMIT; the rest read as zero (R272). -/
def State.committed (s : State) (d : Desc) (x : Coord) (a v : Nat) : Nat :=
  if d.cls = 2 then v % 2 ^ (8 * (s.commitOf d (d.tileNo x) - a % 65536)) else v

/-- Read `n` elements of `w` bytes from an element offset over the home L2s for path class `cls`, or the first fault. -/
def readElems (k : Nat) (cls : BitVec 3) (l : Launch) (h : BitVec 16) (off w : Nat) :
    Nat → M (Except (Nat × Coord) (List Nat))
  | 0 => return .ok []
  | n + 1 => do
    let die := coreDie (coreOf k)
    let (d, _) ← descM die l h
    let x := d.ofOffset off
    match ← xlateM die l h x false with
    | .error e => return .error (e, x)
    | .ok a => do
      requestReplica die d ((← get).entry die d (d.tileNo x))
      let v ← engineRead k cls (d.cls != 2) a w
      let v := (← get).committed d x a v
      match ← readElems k cls l h (off + 1) w n with
      | .error e => return .error e
      | .ok vs => return .ok (v :: vs)

/-- XLDM: privileged; once the call queue is empty it enters the load of the store there, which holds the context's next
bundle (R306). -/
def execXldm (a : BitVec 5) (s : State) : Host.Outcome State Fault Refusal :=
  finish s (do
    M.need (← get).cur.priv clsPrivilege 0
    let v ← liftC (rdX a)
    let (h, off, _) ← gathTensor v 12 4096 true
    let s ← get
    let x := s.core (coreOf s.focus)
    if !x.callQ.isEmpty || x.run.isSome then M.hold
    let _ ← enterCall (.load h off s.cur.sq.pc s.issue.pos) 0
    waitFor .xldm)

/-- Addresses of words as runs: the first address and the number of words. -/
def wordRuns : List Nat → List (Nat × Nat)
  | [] => []
  | a :: t => match wordRuns t with
    | (b, n) :: r => if b = a + 8 then (a, n + 1) :: r else (a, 1) :: (b, n) :: r
    | [] => [(a, 1)]

/-- The store of core `c` takes an image read from a tensor, whose addresses are recorded (R306); of an image that fails the
check nothing is written, and the XLDM's context takes its trap (R35, R295). -/
def loadStore (c k : Nat) (l : Launch) (h : BitVec 16) (off : Nat) (pc : W32) (slot : Nat) (ws : List Nat) : M Unit := do
  match checkImage fun i => BitVec.ofNat 64 (ws.getD i 0) with
  | some i =>
    let y := (← get).ctx k
    if y.wait = .xldm ∨ y.more.contains .xldm then do
      modCtx k fun c => { c with sq := { c.sq with pc := pc } }
      takeTrap k { Trap.mk' clsIllegal 2 with value := BitVec.ofNat 64 i, slot := slot }
  | none => do
    let die := coreDie c
    let (d, _) ← descM die l h
    let s ← get
    let st : AMap W64 := (ws.zipIdx.filter fun w => w.1 != 0).map fun w => (w.2, BitVec.ofNat 64 w.1)
    let img := wordRuns ((List.range 4096).map fun i => s.elemAddr die d (d.ofOffset (off + i)))
    modCore c fun x => { x with store := st, image := img }

/-! ### Edge scale latches and scale memory (R296 to R298, R308) -/

def latchKey (side index blk : Nat) : Nat := 128 * side + 8 * index + blk
/-- A latch; 1.0 where nothing was written. -/
def Core.latchAt (x : Core) (key : Nat) : Nat := (x.latch.get 0x7F000#20 key).toNat
/-- An E8M0 code as a BS20 value (R56, R296). -/
def ofE8M0 (c : Nat) : BitVec 20 := BitVec.ofNat 20 (c % 256 * 4096)

/-- Latch writes that take effect 6 clocks after the bundle (R297). -/
def esclWrite (ws : List (Nat × BitVec 20)) : M Unit := do
  let s ← get
  let t := s.cur.fl.now + 6
  modCore (coreOf s.focus) fun x => { x with esclQ := x.esclQ ++ ws.map fun w => (t, w.1, w.2) }

/-- ESCL: w side, k block; byte i of e[a] and e[b] to latches i and 8 + i (R308). -/
def execEscl (w : BitVec 1) (k : BitVec 3) (a b : BitVec 5) (s : State) : Host.Outcome State Fault Refusal :=
  finish s (do
    let x ← liftC (rdE a)
    let y ← liftC (rdE b)
    esclWrite ((List.range 16).map fun i =>
      (latchKey w.toNat i k.toNat, ofE8M0 (if i < 8 then fieldN x (8 * i) 8 else fieldN y (8 * (i - 8)) 8))))

/-- ESCL.I: one code to the 16 latches of a side and block (R308). -/
def execEsclI (w : BitVec 1) (k : BitVec 3) (c : BitVec 8) (s : State) : Host.Outcome State Fault Refusal :=
  finish s (esclWrite ((List.range 16).map fun i => (latchKey w.toNat i k.toNat, ofE8M0 c.toNat)))

/-- ESCL writes due by the core's clock take effect. -/
def Core.applyEscl (x : Core) : Core :=
  let due := x.esclQ.filter fun e => decide (e.1 ≤ x.clk)
  { x with latch := due.foldl (fun l e => l.set e.2.1 e.2.2) x.latch,
           esclQ := x.esclQ.filter fun e => !decide (e.1 ≤ x.clk) }

/-- The anchor core of a physical core's group (R298). -/
def anchorOf (c : Nat) : Nat := c / 16 * 16

/-- Index and count of an ESCM (R308). -/
def escmArgs (y : W64) : Nat × Nat := (fieldN y 0 12, fieldN y 16 13)

/-- ESCM: the group's scale memory is loaded from an n32 tensor, through the call queue (R308). -/
def execEscm (a b : BitVec 5) (s : State) : Host.Outcome State Fault Refusal :=
  finish s (do
    let x ← liftC (rdE a)
    let y ← liftC (rdE b)
    let (idx, n) := escmArgs y
    if n = 0 then pure ()
    else do
      let (h, off, _) ← gathTensor x 10 n false
      let _ ← enterCall (.scaleLoad h off idx n) 0)

/-- ESCM.ST: the range of scale memory is stored to the tensor; gated (R308). -/
def execEscmSt (a b : BitVec 5) (s : State) : Host.Outcome State Fault Refusal :=
  finish s (do
    let x ← liftC (rdE a)
    let y ← liftC (rdE b)
    let (idx, n) := escmArgs y
    if n = 0 then pure ()
    else do
      let (h, off, _) ← gathTensor x 10 n false
      gate (.escmSt h off idx n))

/-! ### Serving the call queue (R284, R285) -/

/-- Unloaded time of a queue entry that is no routine (R453). -/
def CallKind.clocks : CallKind → Nat
  | .routine .. => 0
  | .spill _ a => if a.toNat % 128 = 0 then 8 else 16
  | .load .. => 256 + 4096
  | .scaleLoad _ _ _ n => (n + 15) / 16
  | .scaleStore _ _ _ n => (n + 15) / 16

/-- CALL_QUEUE_START: the truss of core `c` is free and the head of the queue starts, no earlier than 2
clocks after its bundle and the clock after the entry before it ended (R284). -/
def execCallQueueStart (c : Nat) (s : State) : Host.Outcome State Fault Refusal :=
  finish s (do
    let x := (← get).core c
    match x.run, x.callQ with
    | none, e :: q =>
      if e.issued + 2 ≤ x.clk ∧ x.lastEnd < x.clk ∧ s.engineReady e.ctx e.seq 2 then
        let (pc, ex, rest, done) := match e.kind with
          | .routine r _ _ _ exs =>
            ((Routine.parse (x.store.get 0 r.toNat)).start, exs.headD 0, exs.drop 1, exs.isEmpty)
          | _ => (0, 0, [], false)
        let r : Run := { call := e, pc := pc, loops := [], ex := ex, rest := rest, blk := 0,
                         freeAt := x.clk + e.kind.clocks, refused := false, starved := false, done := done }
        modCore c fun x => { x with callQ := q, run := some r }
    | _, _ => pure ())

/-- A call ends: it is no longer outstanding, and a refused or starved one leaves its fault (R286, R289). -/
def endCall (c : Nat) (r : Run) : M Unit := do
  modCore c fun x => { x with run := none, lastEnd := x.clk }
  let t : Option Trap :=
    if r.refused then some { Trap.mk' clsAccess 6 with precise := false }
    else if r.starved then some { Trap.mk' clsQueue 0 with precise := false } else none
  modCtx r.call.ctx fun x =>
    if x.fl.calls.contains r.call.id then
      let x := { x with fl := { x.fl with calls := x.fl.calls.filter fun i => i != r.call.id,
                                          trussFault := x.fl.trussFault.orElse fun _ => t } }
      x.lessWait .xldm
    else x

/-- ROUTINE_END: the routine that core `c` runs has passed its MEND and finished (R285). -/
def execRoutineEnd (c : Nat) (s : State) : Host.Outcome State Fault Refusal :=
  finish s (do
    let x := (← get).core c
    match x.run with
    | some r => if r.done ∧ r.freeAt ≤ x.clk then endCall c r
    | none => pure ())

/-! ### The GATH path (R286, R288, R294, R309) -/

/-- A byte as the truss gathers it for a call: writes not yet performed race, and stores of other contexts that no XFENCE
CORE, GATH of the calling one follows, but for writes of the call that an MSYNC has passed; stores of the calling context are
forwarded (R294, R309). -/
def State.trussByte (s : State) (k : Call) (fw : List (Nat × Byte × Byte)) (a : Nat) : Byte :=
  let past (i : Nat) (w : EWrite) : Bool :=
    !(w.cls == 2 && w.id == k.id && w.synced) && s.goesPast k.ctx true 8 (a / 8) i w
  overlay fw a ((oldByte past 8 a 0 none (s.pending true)).getD (s.seen a))

/-- A scratchpad address of an x register with `add` bytes added in the offset field: physical core and
offset, or none where it is refused (R286, R288). -/
def State.trussAddr (s : State) (k : Call) (xv : W64) (add n : Nat) : Option (Nat × Nat) :=
  let i := s.inst (s.ctx k.ctx).inst
  let core := fieldN xv 19 6
  let off := fieldN xv 0 19 + add
  let p := i.phys core
  if 2 ^ 25 ≤ xv.toNat ∨ i.cores ≤ core ∨ 0x80000 ≤ off ∨ (s.core p).scrSize ≤ off ∨ (s.core p).moving off n then none
  else some (p, off)

/-- Note a refusal in the run of core `c`. -/
def refuseRun (c : Nat) : M Unit := modCore c fun x => { x with run := x.run.map fun r => { r with refused := true } }

/-- Read `n` bytes for a call: zero where refused. -/
def readTruss (c : Nat) (k : Call) (xv : W64) (add n : Nat) : M Nat := do
  let s ← get
  match s.trussAddr k xv add n with
  | none => do
    refuseRun c
    return 0
  | some (p, off) => do
    let fw := s.forwarded k.ctx k.seq
    let size := (s.core p).scrSize
    let v := bytesN (fun i => if off + i < size then s.trussByte k fw (scrAddr p (off + i)) else Config.freeByte s.free i) 0 n
    if size < off + n then modify fun s => { s with free := s.free + 1 } else raceStep
    return v

/-- Write `n` bytes for a call; nothing where refused, or past the size. -/
def writeTruss (c : Nat) (k : Call) (xv : W64) (add n v : Nat) : M Unit := do
  let s ← get
  match s.trussAddr k xv add n with
  | none => refuseRun c
  | some (p, off) =>
    let m := min n ((s.core p).scrSize - off)
    wrEngine k.ctx 2 k.id (scrAddr p off) m (v % 2 ^ (8 * m))

/-- The transfer waits while the page of an element is the host's (R249). -/
def holdCall (k : Nat) (r : Run) (h : BitVec 16) (y : Coord) : M Unit := do
  let s ← get
  let d := s.desc (coreDie (coreOf k)) (s.launchOf k) h
  requestMove (s.ctx k).launch h (d.tileNo y) (d.entryAddr (d.tileNo y)) false (.cmd k 2 r.call.id)

/-- CALL_QUEUE_ENTRY_END: the spill, store load or scale transfer that core `c` serves acts and ends (R284,
R304, R308). -/
def execCallQueueEntryEnd (c : Nat) (s : State) : Host.Outcome State Fault Refusal :=
  finish s (do
    let s ← get
    let x := s.core c
    match x.run with
    | none => pure ()
    | some r =>
      if r.freeAt ≤ x.clk then
        let k := r.call.ctx
        let l := s.launchOf k
        let a := anchorOf c
        match r.call.kind with
        | .routine .. => pure ()
        | .spill t xv => do
          writeTruss c r.call xv 0 1024 ((s.ctx k).regT t.toNat).val.toNat
          match ((← get).core c).run with
          | some r => endCall c r
          | none => pure ()
        | .load h off pc slot => do
          match ← readElems k 2 l h off 8 4096 with
          | .error (2, y) => holdCall k r h y
          | .error (e, y) => do
            endCall c r
            if s.ofLaunch k (s.ctx k).launch then translationFault k h y (e, y)
          | .ok ws => do
            loadStore c k l h off pc slot ws
            endCall c r
        | .scaleLoad h off idx n => do
          match ← readElems k 2 l h off 4 n with
          | .error (2, y) => holdCall k r h y
          | .error (e, y) => do
            endCall c r
            if s.ofLaunch k (s.ctx k).launch then translationFault k h y (e, y)
          | .ok ws => do
            let put := ws.zipIdx.map fun w => ((idx + w.2) % 4096, BitVec.ofNat 32 w.1)
            modCore a fun y =>
              { y with smemOld := (k, r.call.id, put.map fun w => (w.1, y.smem.get 0 w.1)) :: y.smemOld,
                       smem := put.foldl (fun m w => m.set w.1 w.2) y.smem }
            endCall c r
        | .scaleStore h off idx n => do
          let die := coreDie c
          let (d, _) ← descM die l h
          let fs ← (List.range n).mapM fun i => do
            match ← xlateM die l h (d.ofOffset (off + i)) true with
            | .error 2 => return [d.ofOffset (off + i)]
            | _ => return []
          match fs.flatten with
          | y :: _ => holdCall k r h y
          | [] => do
            let s ← get
            let closed (i : Nat) : Bool :=
              let n := d.tileNo (d.ofOffset (off + i))
              d.cls == 2 && (s.entry die d n).p && s.apstOf d n != 0
            if (List.range n).any closed then do
              endCall c r
              if s.ofLaunch k (s.ctx k).launch then
                takeTrap k { Trap.mk' clsSealed 0 with precise := false, handle := h, at' := d.ofOffset off }
            else do
              (List.range n).forM fun i => do
                match ← xlateM die l h (d.ofOffset (off + i)) true with
                | .error _ => refuseRun c
                | .ok adr =>
                  engineWrite k 2 r.call.id (d.cls != 2) adr 4 (((← get).core a).smem.get 0 ((idx + i) % 4096)).toNat
              match ((← get).core c).run with
              | some r => endCall c r
              | none => pure ())

end Sys2Proof.Machine
end

