-- ==== Sys2Proof/Machine/Micro.lean ====
section
/-!
DEFINITION. Sys2Proof/Machine/Micro.lean: the micro-ops of a routine (R282, R285, R287 to R294, R296).

Each acts on the routine that the core of the context in focus is running, and moves it on to its next
micro-word.  `Run.freeAt` takes the time of R282 and R453; the micro-words of a routine act one after another,
as R285 lets a program see them.
-/

namespace Sys2Proof.Machine

/-! ### The routine under way (R285, R293) -/

/-- The micro-word after the one at `pc`, and the micro-loops then open. -/
def stepLoops (pc : Nat) : List MLevel → Nat × List MLevel
  | [] => (pc + 1, [])
  | l :: t =>
    if l.last = pc then
      if l.index + 1 < l.count then (l.start, { l with index := l.index + 1 } :: t) else stepLoops pc t
    else (pc + 1, l :: t)

/-- The run after the word at `pc`, the array or gather unit being taken until clock `free`. -/
def Run.next (r : Run) (pc free : Nat) : Run :=
  let (p, ls) := stepLoops pc r.loops
  { r with pc := p, loops := ls, blk := 0, freeAt := free }

/-- Change the run of core `c`. -/
def modRun (c : Nat) (f : Core → Run → Run) : M Unit := modCore c fun x => { x with run := x.run.map (f x) }

/-- Move on to the next micro-word after `n` clocks. -/
def microNext (c n : Nat) : M Unit := modRun c fun x r => r.next r.pc (x.clk + n)

/-- What a micro-word knows: the core, its run, and the fmt, x registers and tag its call captured. -/
structure Micro where
  c : Nat
  r : Run
  fmt : W32
  xs : List W64
  tag : BitVec 3

/-- Act for the routine that the core in focus runs; nothing where none runs. -/
def micro (f : Micro → M Unit) : M Unit := do
  let s ← get
  let c := coreOf s.focus
  match (s.core c).run with
  | none => pure ()
  | some r => match r.call.kind with
    | .routine _ fmt xs tag _ => if r.done then pure () else f ⟨c, r, fmt, xs, tag⟩
    | _ => pure ()

/-- A parameter register as the call captured it. -/
def Micro.x (m : Micro) (i : BitVec 3) : W64 := m.xs.getD i.toNat 0

/-- The innermost loop's index, 0 outside any loop (R288, R293). -/
def Micro.n (m : Micro) : Nat := match m.r.loops with | [] => 0 | l :: _ => l.index

/-! ### Tiles and buffers of the run (R215, R285, R288) -/

/-- The run's copy of a tile: its example's (R285). -/
def Micro.tile (m : Micro) (s : State) (t : Nat) : TBits :=
  let x := s.ctx m.r.call.ctx
  if x.fl.calls.contains m.r.call.id && (x.regT t).valid then (x.regT t).at' x.sq.lifts m.tag m.r.ex else 0

/-- A register with copy `i` replaced. -/
def TReg.setCopy {w : Nat} (r : TReg w) (i : Nat) (v : BitVec w) : TReg w :=
  match i with
  | 0 => { r with val := v }
  | i + 1 => { r with copies := r.copies.set i v }

/-- A tile with the run's copy of it replaced: of a tile that a later XCALL has widened, every copy that stands for the run's
example, for routines run in call order (R281, R284). -/
def Micro.withCopy (m : Micro) (x : Ctx) (v : TBits) (r : TReg 8192) : TReg 8192 :=
  ((List.range (exCount x.sq.lifts r.tag)).filter fun j => exCopy x.sq.lifts r.tag m.tag j == m.r.ex).foldl
    (fun r j => r.setCopy j v) r

/-- The shadow log as a run of a routine called before the last mark leaves it: the log holds what a tile is at the
later XCALL that logged it, and so what the earlier routine wrote there (R221, R281). -/
def Micro.relog (m : Micro) (x : Ctx) (t : Nat) (v : TBits) : Saved → Saved
  | .t i r => if i = t ∧ r.valid then .t i (m.withCopy x v r) else .t i r
  | e => e

/-- Write the run's copy of a tile; a tile invalidated meanwhile takes nothing. -/
def Micro.setTile (m : Micro) (t : Nat) (v : TBits) : M Unit :=
  modCtx m.r.call.ctx fun x =>
    let r := x.regT t
    if x.fl.calls.contains m.r.call.id && r.valid then
      { x with files := { x.files with t := x.files.t.set t (m.withCopy x v r) },
               seg := if m.r.call.seq ≤ x.fl.markSeq then { x.seg with log := x.seg.log.map (m.relog x t v) } else x.seg }
    else x

/-- ACCSAT of the calling context. -/
def Micro.accsat (m : Micro) (b : Bool) : M Unit := do
  if ((← get).ctx m.r.call.ctx).fl.calls.contains m.r.call.id then setAccsat m.r.call.ctx b

def bufKey (side buf row : Nat) : Nat := 32 * side + 16 * buf + row
def Core.row (x : Core) (side buf row : Nat) : VBits := x.buf.get 0 (bufKey side buf row)

/-- Fill the 16 slab rows of a buffer. -/
def fillBuf (c side buf : Nat) (rows : List VBits) : M Unit :=
  modCore c fun x =>
    { x with buf := rows.zipIdx.foldl (fun m r => m.set (bufKey side buf r.2) r.1) x.buf }

/-! ### Gathers (R288, R289) -/

/-- Bytes added to x[XB] for row `r` of a gather (R288). -/
def Micro.gathOff (m : Micro) (o : BitVec 16) (st est lst : BitVec 12) (r : Nat) : Nat :=
  8 * o.toNat + 8 * st.toNat * r + 128 * est.toNat * m.r.ex + 128 * lst.toNat * m.n

/-- Unloaded gather clocks per row set: doubled where OFF and STR are not multiples of 16. -/
def gathClocks (o : BitVec 16) (st : BitVec 12) (n : Nat) : Nat :=
  if o.toNat % 16 = 0 ∧ st.toNat % 16 = 0 then n else 2 * n

/-- MGATH.A and .B: 16 rows of 128 bytes. -/
def gather (side : Nat) (b : BitVec 1) (x : BitVec 3) (o : BitVec 16) (st est lst : BitVec 12) : M Unit :=
  micro fun m => do
    let rows ← (List.range 16).mapM fun r => do
      let v ← readTruss m.c m.r.call (m.x x) (m.gathOff o st est lst r) 128
      return BitVec.ofNat 1024 v
    fillBuf m.c side b.toNat rows
    microNext m.c (gathClocks o st 16)

/-- The format of a side under the call: TA for A, TB for B. -/
def Micro.side (m : Micro) (side : Nat) : Nat := if side = 0 then fmtTA m.fmt else fmtTB m.fmt

/-- MGATH.AT and .BT: region row k holds element k of all 16 slab rows. -/
def gatherT (side : Nat) (b : BitVec 1) (x : BitVec 3) (o : BitVec 16) (st est lst : BitVec 12) : M Unit :=
  micro fun m => do
    let f := m.side side
    let w := trussWidth f
    let n := 32 * slabBlocks f
    let region ← (List.range n).mapM fun k =>
      readTruss m.c m.r.call (m.x x) (m.gathOff o st est lst k) (2 * w)
    let rows := (List.range 16).map fun r =>
      BitVec.ofNat 1024 (packNat w (region.map fun v => v / 2 ^ (w * r) % 2 ^ w))
    fillBuf m.c side b.toNat rows
    microNext m.c (gathClocks o st ((n * ((2 * w + 7) / 8) + 15) / 16))

/-- MGATH.A (R288). -/
def execMgathA (b : BitVec 1) (x : BitVec 3) (o : BitVec 16) (r e u : BitVec 12) (s : State) :
    Host.Outcome State Fault Refusal := finish s (gather 0 b x o r e u)
/-- MGATH.B (R288). -/
def execMgathB (b : BitVec 1) (x : BitVec 3) (o : BitVec 16) (r e u : BitVec 12) (s : State) :
    Host.Outcome State Fault Refusal := finish s (gather 1 b x o r e u)
/-- MGATH.AT (R288). -/
def execMgathAt (b : BitVec 1) (x : BitVec 3) (o : BitVec 16) (r e u : BitVec 12) (s : State) :
    Host.Outcome State Fault Refusal := finish s (gatherT 0 b x o r e u)
/-- MGATH.BT (R288). -/
def execMgathBt (b : BitVec 1) (x : BitVec 3) (o : BitVec 16) (r e u : BitVec 12) (s : State) :
    Host.Outcome State Fault Refusal := finish s (gatherT 1 b x o r e u)

/-- The first `n` entries of a queue not yet popped, and the queue without them; entries older than the
last mark are kept (R112). -/
def takeEntries {w : Nat} : Nat → List (QEnt w) → List (QEnt w) × List (QEnt w)
  | _, [] => ([], [])
  | n, e :: t =>
    if e.kept then let (a, q) := takeEntries n t; (a, e :: q)
    else match n with
      | 0 => ([], e :: t)
      | n + 1 =>
        let (a, q) := takeEntries n t
        (e :: a, if e.old then { e with kept := true } :: q else q)

/-- MLDB: 16 entries of the context's qx; it waits for them to fill, and with fewer than 16 standing the
routine ends, starved (R289). -/
def loadBuf (side : Nat) (b : BitVec 1) : M Unit :=
  micro fun m => do
    let s ← get
    let x := s.ctx m.r.call.ctx
    if !x.fl.calls.contains m.r.call.id ∨ x.queues.xAvail < 16 then
      modRun m.c fun _ r => { r with starved := true, rest := [], done := true }
    else
      let (es, q) := takeEntries 16 x.queues.qx
      if es.any (fun e => e.data.isNone || decide ((s.core m.c).clk < e.readyAt)) then pure ()
      else do
        modCtx m.r.call.ctx fun x => { x with queues := { x.queues with qx := q } }
        fillBuf m.c side b.toNat (es.map fun e => e.data.getD 0)
        microNext m.c 16

/-- MLDB.A (R289). -/
def execMldbA (b : BitVec 1) (s : State) : Host.Outcome State Fault Refusal := finish s (loadBuf 0 b)
/-- MLDB.B (R289). -/
def execMldbB (b : BitVec 1) (s : State) : Host.Outcome State Fault Refusal := finish s (loadBuf 1 b)

/-! ### MMAC (R68, R282, R290) -/

/-- Clocks per block of a pair of formats (R282). -/
def blockClocks (a b : Nat) : Nat :=
  match min a b, max a b with
  | 0, 0 => 8 | 0, 1 => 7 | 0, 2 => 4 | 1, 1 => 5 | 1, 2 => 4 | 2, 2 => 2
  | 3, _ => 1 | 4, _ => 32 | 5, _ => 8 | _, _ => 32

/-- Block `blk` of the buffers accumulated into a tile. -/
def Core.mmacBlock (x : Core) (acc : Bool) (fa fb ba bb blk : Nat) (t : TBits) : TBits × Bool :=
  mapTile fun i j =>
    accCell acc (tileElem t i j)
      (blockProd fa fb (x.row 0 ba i) (x.row 1 bb j) (x.latchAt (latchKey 0 i blk)) (x.latchAt (latchKey 1 j blk)) blk)

/-- What an MMAC does to the tile before its first block (R290). -/
inductive MmacPre where
  | keep | zero | decay (g : Nat)
  deriving DecidableEq, Repr

/-- Blocks at or beyond the slab's block count are skipped: those that are left of `nb` from `b0`. -/
def liveBlocks (fa fb b0 nb : Nat) : Nat := min nb (min (slabBlocks fa) (slabBlocks fb) - b0)

/-- One block of an MMAC, two of MXFP4; the first also does what comes before.  `fm` names the format of
both operands, or none for TA and TB. -/
def mmac (fm : Option Nat) (pre : MmacPre) (a b : BitVec 1) (t : BitVec 4) (z n : BitVec 3) : M Unit :=
  micro fun m => do
    let fa := fm.getD (fmtTA m.fmt)
    let fb := fm.getD (fmtTB m.fmt)
    let acc := fmtACC m.fmt
    let s ← get
    let x := s.core m.c
    let live := liveBlocks fa fb z.toNat (n.toNat + 1)
    let t0 := m.tile s t.toNat
    let (t1, s1) :=
      if m.r.blk = 0 then
        match pre with
        | .keep => (t0, false)
        | .zero => (0, false)
        | .decay g => MaccOp.tile (.dcy g) acc t0 t0
      else (t0, false)
    let todo := min (if fa = 3 then 2 else 1) (live - m.r.blk)
    let (t2, s2) := (List.range todo).foldl (fun (p : TBits × Bool) i =>
      let (u, f) := x.mmacBlock acc fa fb a.toNat b.toNat (z.toNat + m.r.blk + i) p.1
      (u, p.2 || f)) (t1, false)
    m.setTile t.toNat t2
    m.accsat (s1 || s2)
    countFor (s.ctx m.r.call.ctx).launch 0 (2 * 16 * 16 * 32 * todo)
    if live ≤ m.r.blk + todo then microNext m.c (if todo = 0 then 1 else blockClocks fa fb)
    else modRun m.c fun x r => { r with blk := r.blk + todo, freeAt := x.clk + blockClocks fa fb }

/-- MMAC.I8 (R290). -/
def execMmacI8 (a b : BitVec 1) (t : BitVec 4) (z n : BitVec 3) (s : State) : Host.Outcome State Fault Refusal :=
  finish s (mmac (some 0) .keep a b t z n)
/-- MMAC.I6 (R290). -/
def execMmacI6 (a b : BitVec 1) (t : BitVec 4) (z n : BitVec 3) (s : State) : Host.Outcome State Fault Refusal :=
  finish s (mmac (some 1) .keep a b t z n)
/-- MMAC.I4 (R290). -/
def execMmacI4 (a b : BitVec 1) (t : BitVec 4) (z n : BitVec 3) (s : State) : Host.Outcome State Fault Refusal :=
  finish s (mmac (some 2) .keep a b t z n)
/-- MMAC.F4 (R290). -/
def execMmacF4 (a b : BitVec 1) (t : BitVec 4) (z n : BitVec 3) (s : State) : Host.Outcome State Fault Refusal :=
  finish s (mmac (some 3) .keep a b t z n)
/-- MMAC.I16 (R290). -/
def execMmacI16 (a b : BitVec 1) (t : BitVec 4) (z n : BitVec 3) (s : State) : Host.Outcome State Fault Refusal :=
  finish s (mmac (some 4) .keep a b t z n)
/-- MMAC.F (R290). -/
def execMmacF (a b : BitVec 1) (t : BitVec 4) (z n : BitVec 3) (s : State) : Host.Outcome State Fault Refusal :=
  finish s (mmac none .keep a b t z n)
/-- MMAC.F.Z (R290). -/
def execMmacFZ (a b : BitVec 1) (t : BitVec 4) (z n : BitVec 3) (s : State) : Host.Outcome State Fault Refusal :=
  finish s (mmac none .zero a b t z n)
/-- MMAC.F.D (R290). -/
def execMmacFD (a b : BitVec 1) (t : BitVec 4) (z n : BitVec 3) (g : BitVec 13) (s : State) :
    Host.Outcome State Fault Refusal :=
  finish s (mmac none (.decay g.toNat) a b t z n)

/-! ### Scale latches (R296, R298) -/

/-- A scale word as the latch of a side of format `f` takes it. -/
def latchOf (f : Nat) (w : Nat) : BitVec 20 := if f = 4 then BitVec.ofNat 20 w else ofE8M0 w
/-- A latch as a scale word of a side's format. -/
def wordOf (f : Nat) (l : Nat) : W32 := if f = 4 then BitVec.ofNat 32 l else BitVec.ofNat 32 (l / 4096)

/-- Set latches at once. -/
def setLatches (c : Nat) (ws : List (Nat × BitVec 20)) : M Unit :=
  modCore c fun x => { x with latch := ws.foldl (fun l w => l.set w.1 w.2) x.latch }

/-- MSCL: `nb` blocks from `b0` of one side from scale words, the first `skip` bytes on. -/
def loadScales (m : Micro) (side skip : Nat) (x : BitVec 3) (o : BitVec 16) (b0 nb : Nat) : M Unit :=
  (List.range nb).forM fun k => do
    let v ← readTruss m.c m.r.call (m.x x) (8 * o.toNat + skip + 64 * k) 64
    setLatches m.c ((List.range 16).map fun i =>
      (latchKey side i (b0 + k), latchOf (m.side side) (v / 2 ^ (32 * i) % 2 ^ 32)))

/-- MSCL.A (R296). -/
def execMsclA (x : BitVec 3) (o : BitVec 16) (z n : BitVec 3) (s : State) : Host.Outcome State Fault Refusal :=
  finish s (micro fun m => do
    loadScales m 0 0 x o z.toNat (n.toNat + 1)
    microNext m.c ((n.toNat + 2) / 2))
/-- MSCL.B (R296). -/
def execMsclB (x : BitVec 3) (o : BitVec 16) (z n : BitVec 3) (s : State) : Host.Outcome State Fault Refusal :=
  finish s (micro fun m => do
    loadScales m 1 0 x o z.toNat (n.toNat + 1)
    microNext m.c ((n.toNat + 2) / 2))
/-- MSCL.AB: the B words follow the A words (R296). -/
def execMsclAb (x : BitVec 3) (o : BitVec 16) (z n : BitVec 3) (s : State) : Host.Outcome State Fault Refusal :=
  finish s (micro fun m => do
    loadScales m 0 0 x o z.toNat (n.toNat + 1)
    loadScales m 1 (64 * (n.toNat + 1)) x o z.toNat (n.toNat + 1)
    microNext m.c (n.toNat + 1))
/-- MSCL.CLR: every latch is 1.0 (R296). -/
def execMsclClr (s : State) : Host.Outcome State Fault Refusal :=
  finish s (micro fun m => do
    modCore m.c fun x => { x with latch := [] }
    microNext m.c 1)

/-- The word at an index that now holds `w`, where ESCMs that no XWAIT has covered replaced it: of those that the read goes
past, by `past`, what the oldest replaced. -/
def oldScale (past : Nat → Bool) (i : Nat) : Nat → W32 → List (Nat × Nat × AMap W32) → W32
  | _, w, [] => w
  | n, w, o :: t => match AMap.find? o.2.2 i with
    | some v => if past n then oldScale past i (n + 1) v t else w
    | none => oldScale past i (n + 1) w t

/-- A word of the group's scale memory as a routine of core `c` reads it (R298). -/
def State.scaleWord (s : State) (c i : Nat) : W32 :=
  let a := s.core (anchorOf c)
  oldScale (Config.raceBit s.free (i % 4096)) (i % 4096) 0 (a.smem.get 0 (i % 4096)) a.smemOld

/-- MSCM: `nb` blocks from `b0` of one side from scale memory, from index `i`. -/
def loadScaleMem (m : Micro) (side i b0 nb : Nat) : M Unit := do
  let s ← get
  setLatches m.c (((List.range nb).map fun k => (List.range 16).map fun j =>
    (latchKey side j (b0 + k), latchOf (m.side side) (s.scaleWord m.c (i + 16 * k + j)).toNat)).flatten)
  modify fun s => if (s.core (anchorOf m.c)).smemOld.isEmpty then s else { s with free := s.free + 1 }

/-- MSCM.A (R296). -/
def execMscmA (i : BitVec 12) (z n : BitVec 3) (s : State) : Host.Outcome State Fault Refusal :=
  finish s (micro fun m => do
    loadScaleMem m 0 i.toNat z.toNat (n.toNat + 1)
    microNext m.c (n.toNat + 1))
/-- MSCM.B (R296). -/
def execMscmB (i : BitVec 12) (z n : BitVec 3) (s : State) : Host.Outcome State Fault Refusal :=
  finish s (micro fun m => do
    loadScaleMem m 1 i.toNat z.toNat (n.toNat + 1)
    microNext m.c (n.toNat + 1))
/-- MSCM.AB: the B words follow the A words (R296). -/
def execMscmAb (i : BitVec 12) (z n : BitVec 3) (s : State) : Host.Outcome State Fault Refusal :=
  finish s (micro fun m => do
    loadScaleMem m 0 i.toNat z.toNat (n.toNat + 1)
    loadScaleMem m 1 (i.toNat + 16 * (n.toNat + 1)) z.toNat (n.toNat + 1)
    microNext m.c (2 * (n.toNat + 1)))

/-- The scale words of the latches of one side, `nb` blocks from `b0`. -/
def Micro.latchWords (m : Micro) (x : Core) (side b0 nb : Nat) : List W32 :=
  ((List.range nb).map fun k => (List.range 16).map fun j =>
    wordOf (m.side side) (x.latchAt (latchKey side j (b0 + k)))).flatten

/-- MSCM.ST: the A latches and then the B latches to scale memory, after the ESCMs that have written there; words in the form
of each side's format (R296, R298). -/
def execMscmSt (i : BitVec 12) (z n : BitVec 3) (s : State) : Host.Outcome State Fault Refusal :=
  finish s (micro fun m => do
    let x := (← get).core m.c
    let ws := m.latchWords x 0 z.toNat (n.toNat + 1) ++ m.latchWords x 1 z.toNat (n.toNat + 1)
    let put := ws.zipIdx.map fun w => ((i.toNat + w.2) % 4096, w.1)
    modCore (anchorOf m.c) fun a =>
      { a with smem := put.foldl (fun l w => l.set w.1 w.2) a.smem,
               smemOld := settleScales (fun _ => false) (put.map (·.1)) a.smemOld }
    microNext m.c (n.toNat + 1))

/-! ### MACC and MCVT (R291, R292) -/

/-- A MACC form on TD from TD and TS, under the ACC of the call. -/
def macc (o : MaccOp) (d t : BitVec 4) : M Unit :=
  micro fun m => do
    let s ← get
    let (v, sat) := o.tile (fmtACC m.fmt) (m.tile s d.toNat) (m.tile s t.toNat)
    m.setTile d.toNat v
    m.accsat sat
    microNext m.c 16

/-- MACC.ADD (R291). -/
def execMaccAdd (d r : BitVec 4) (s : State) : Host.Outcome State Fault Refusal := finish s (macc .add d r)
/-- MACC.SUB (R291). -/
def execMaccSub (d r : BitVec 4) (s : State) : Host.Outcome State Fault Refusal := finish s (macc .sub d r)
/-- MACC.MOV (R291). -/
def execMaccMov (d r : BitVec 4) (s : State) : Host.Outcome State Fault Refusal := finish s (macc .mov d r)
/-- MACC.DCY (R291). -/
def execMaccDcy (d : BitVec 4) (g : BitVec 13) (s : State) : Host.Outcome State Fault Refusal :=
  finish s (macc (.dcy g.toNat) d d)
/-- MACC.MAX (R291). -/
def execMaccMax (d r : BitVec 4) (s : State) : Host.Outcome State Fault Refusal := finish s (macc .maximum d r)
/-- MACC.ZERO (R291). -/
def execMaccZero (d : BitVec 4) (s : State) : Host.Outcome State Fault Refusal := finish s (macc .zero d d)

/-- MCVT: the tile's rows in format `f` to scratchpad; SR rounds as RNE (R292). -/
def mcvt (f : FFmt) (t : BitVec 4) (x : BitVec 3) (o : BitVec 16) (st : BitVec 12) : M Unit :=
  micro fun m => do
    let v := m.tile (← get) t.toNat
    let rm := if fmtRM m.fmt = .sr then .rne else fmtRM m.fmt
    (List.range 16).forM fun i =>
      writeTruss m.c m.r.call (m.x x) (8 * o.toNat + 8 * st.toNat * i) (2 * f.width)
        (packNat f.width ((List.range 16).map fun j =>
          convert (.flt fp32) (.flt f) rm (fmtSAT m.fmt) (fmtFTZ m.fmt) 0 (tileElem v i j)))
    microNext m.c 16

/-- MCVT.BF16 (R292). -/
def execMcvtBf16 (t : BitVec 4) (x : BitVec 3) (o : BitVec 16) (r : BitVec 12) (s : State) :
    Host.Outcome State Fault Refusal := finish s (mcvt bf16 t x o r)
/-- MCVT.F16 (R292). -/
def execMcvtF16 (t : BitVec 4) (x : BitVec 3) (o : BitVec 16) (r : BitVec 12) (s : State) :
    Host.Outcome State Fault Refusal := finish s (mcvt fp16 t x o r)
/-- MCVT.E4M3 (R292). -/
def execMcvtE4m3 (t : BitVec 4) (x : BitVec 3) (o : BitVec 16) (r : BitVec 12) (s : State) :
    Host.Outcome State Fault Refusal := finish s (mcvt e4m3 t x o r)
/-- MCVT.E5M2 (R292). -/
def execMcvtE5m2 (t : BitVec 4) (x : BitVec 3) (o : BitVec 16) (r : BitVec 12) (s : State) :
    Host.Outcome State Fault Refusal := finish s (mcvt e5m2 t x o r)

/-! ### Micro-loops, the end and the waits (R293, R294) -/

/-- Repeat the `len + 1` words that follow `n` times; 0 skips them. -/
def microLoopBy (n len : Nat) : M Unit :=
  micro fun m => modRun m.c fun x r =>
    let last := r.pc + 1 + len
    if n = 0 then r.next last (x.clk + 1)
    else
      { r with pc := r.pc + 1, blk := 0, freeAt := x.clk + 1,
               loops := { start := r.pc + 1, last := last, count := n, index := 0 } :: r.loops }

/-- MLOOP (R293). -/
def execMloop (c n : BitVec 12) (s : State) : Host.Outcome State Fault Refusal :=
  finish s (microLoopBy c.toNat n.toNat)
/-- MLOOP.P: the count from x[XR][31:0] (R293). -/
def execMloopP (x : BitVec 3) (n : BitVec 12) (s : State) : Host.Outcome State Fault Refusal :=
  finish s (micro fun m => microLoopBy (fieldN (m.x x) 0 32) n.toNat)
/-- MLOOP.K: over the slabs of x[XR][31:0] elements in TA (R293). -/
def execMloopK (x : BitVec 3) (n : BitVec 12) (s : State) : Host.Outcome State Fault Refusal :=
  finish s (micro fun m =>
    let per := 32 * slabBlocks (fmtTA m.fmt)
    microLoopBy ((fieldN (m.x x) 0 32 + per - 1) / per) n.toNat)

/-- MEND: the next example of the call, or the end of the routine (R215, R285, R294). -/
def execMend (s : State) : Host.Outcome State Fault Refusal :=
  finish s (micro fun m => modRun m.c fun x r =>
    match r.rest with
    | [] => { r with done := true, loops := [], freeAt := x.clk + 1 }
    | e :: es =>
      let pc := match r.call.kind with
        | .routine n _ _ _ _ => (Routine.parse (x.store.get 0 n.toNat)).start
        | _ => r.pc
      { r with ex := e, rest := es, pc := pc, loops := [], blk := 0, freeAt := x.clk + 1 })

/-- The stores of the run so far are performed for its own later gathers (R294). -/
def syncStores (id : Nat) : M Unit :=
  modMp fun mp => { mp with unperf := mp.unperf.map fun w => if w.cls == 2 && w.id == id then { w with synced := true } else w }

/-- MSYNC.G: the gathers before it have acted (R294). -/
def execMsyncG (s : State) : Host.Outcome State Fault Refusal := finish s (micro fun m => microNext m.c 1)
/-- MSYNC.S: later gathers of the routine see its earlier stores (R294). -/
def execMsyncS (s : State) : Host.Outcome State Fault Refusal :=
  finish s (micro fun m => do
    syncStores m.r.call.id
    microNext m.c 1)
/-- MSYNC.ALL: both (R294). -/
def execMsyncAll (s : State) : Host.Outcome State Fault Refusal :=
  finish s (micro fun m => do
    syncStores m.r.call.id
    microNext m.c 1)
/-- MNOP (R294). -/
def execMnop (s : State) : Host.Outcome State Fault Refusal := finish s (micro fun m => microNext m.c 1)

end Sys2Proof.Machine
end

