-- ==== Sys2Proof/Machine/Marks.lean ====
section
/-!
DEFINITION. Sys2Proof/Machine/Marks.lean: MARK and the segments (R216 to R219, R223), joints (R224), generator
checkpoints (R225), service entry and return (R226, R227) and HALT (R228).
-/

namespace Sys2Proof.Machine

/-! ### Signatures (R217, R218) -/

/-- One bit of CRC-32C, reflected. -/
def crcBit (c : W32) : W32 := if c.getLsbD 0 then (c >>> 1) ^^^ 0x82F63B78 else c >>> 1
/-- CRC-32C fed with one byte. -/
def crcByte (c : W32) (b : Byte) : W32 :=
  crcBit (crcBit (crcBit (crcBit (crcBit (crcBit (crcBit (crcBit (c ^^^ b.setWidth 32))))))))
/-- CRC-32C fed with a slot word as 4 little-endian bytes. -/
def crcWord (c : W32) (w : Nat) : W32 := (leBytes w 4).foldl crcByte c

/-- The path of the open segment with one more bundle (R216, R218). -/
def Segment.step (g : Segment) (ws : List Nat) : Segment :=
  { g with count := g.count + 1, crc := ws.foldl crcWord g.crc }

/-- Does the path differ from what the segment table holds (R219)? -/
def Segment.mismatch (g : Segment) : Bool :=
  g.checked && (g.count != g.expCount || (g.crc ^^^ 0xFFFFFFFF) != g.expCrc)

/-- A segment just opened, from its table entry and snapshot (R217). -/
def Segment.opened (id : BitVec 14) (e : W64) (snap : Snapshot) : Segment :=
  { Segment.start with id := id, checked := e.getLsbD 63, expCount := BitVec.ofNat 16 (fieldN e 32 16),
                       expCrc := e.setWidth 32, snap := snap }

/-! ### MARK (R219, R223, R246, R273) -/

/-- Persistent mismatch: the core is quarantined and every context on it ends; its L1 is not read again, and its
scratchpad reads as free values (R223, log entry 70). -/
def quarantine (k : Nat) : M Unit := do
  let c := coreOf k
  modCore c fun x => { x with quarantined := true, l1 := [] }
  ([0, 1, 2, 3] : List Nat).forM fun i => do
    let j := 4 * c + i
    let x := (← get).ctx j
    if j = k then takeTrap j { Trap.mk' clsSegment 3 with precise := false }
    else if x.live ∨ x.st = .dormant then takeTrap j { Trap.mk' clsSegment 9 with precise := false }

/-- The gated effects translated: the layout units hold the words that they use from then on.  The first whose
translation faults, or the first APPEND whose page is found sealed (R246, R273). -/
def badGate (k : Nat) : List GateEnt → M (Option (GateEnt × Option EffFault))
  | [] => return none
  | g :: t => do
    holdEff k g.eff
    let s ← get
    match s.effFault k g.eff with
    | some f => return some (g, some f)
    | none => match g.eff with
      | .append h x .. =>
        let d := s.desc (coreDie (coreOf k)) (s.launchOf k) h
        let a := (s.entry (coreDie (coreOf k)) d (d.tileNo x)).apst
        if a = 1 ∨ a = 2 then return some (g, none) else badGate k t
      | _ => badGate k t

/-- A generator state taken from a CKRS that has committed (R225). -/
def Ctx.takeCkrs (c : Ctx) : Ctx :=
  match c.fl.ckrs with
  | none => c
  | some (key, ctr) => { c with key := key, ctr := ctr, fl := { c.fl with ckrs := none } }

/-- The context that a MARK takes on: the gated effects are committed and wait their turn, the log is clear, the queues are
at their replay pointers, and a new segment is open (R112, R219, R369). -/
def Ctx.opened (c : Ctx) (seg : Segment) : Ctx :=
  { c with queues := c.queues.mark, seg := seg,
           fl := { c.fl with gate := [], commits := c.fl.commits ++ c.fl.gate, markSeq := c.fl.seq, pattern := none } }

/-- The context after its ERET, which acts as a mark: the snapshot is that of the address after the bundle (R221, R227). -/
def Ctx.marked (c : Ctx) (seg : Snapshot → Segment) (wroteFmt : Bool) : Ctx :=
  let c := c.takeCkrs
  c.opened (seg (c.endBundle wroteFmt).snapshot)

/-- The context whose MARK has committed: the generator state of a CKRS is taken, and the snapshot is that of the address
after the MARK's bundle, which has ended where the context has waited for the commit (R221, R225); it is no longer rewinding
(R224). -/
def Ctx.markTaken (c : Ctx) : Ctx :=
  let c := c.takeCkrs
  let snap := (if c.wait = .commit then c else c.endBundle false).snapshot
  { c.nextWait with seg := { c.seg with snap := snap, rewinding := false } }

/-- A MARK of context `k` has committed its effects: its snapshot is taken, the abort line is sampled, and a
Stopping context stops (R113, R114, R219, R221). -/
def markDone (k : Nat) : M Unit := do
  modCtx k Ctx.markTaken
  if ← sampleAbort k then endQuiet k
  else modCtx k fun c => if c.st = .stopping then { c with st := .saved } else c

/-- The image at an address, in device memory as it is seen there. -/
def State.imageAt (s : State) (a : Nat) : List W64 := (List.range 8).map fun i => BitVec.ofNat 64 (s.seenN (a + 8 * i) 8)

/-- A gated FBANK keeps the image that its MARK has checked (R355). -/
def State.withImage (s : State) (g : GateEnt) : GateEnt :=
  match g.eff with
  | .fbank h img _ => { g with eff := .fbank h img (some (s.imageAt img)) }
  | _ => g

/-- The commit of MARK `id`: it is done once the effects of the gate buffer are, and until then the context keeps its
snapshot and stays rewinding where it was (R224, R225). -/
def commitMark (id : BitVec 14) : M Unit := do
  let s ← get
  let e ← rdW64 ((s.launchOf s.focus).segTab + 8 * id.toNat)
  modCur fun c =>
    { c with fl := { c.fl with gate := c.fl.gate.map s.withImage } }.opened
      { Segment.opened id e c.seg.snap with rewinding := c.seg.rewinding }
  if s.cur.fl.gate.isEmpty then markDone s.focus else waitFor .commit

/-- The faults of a MARK at issue, in order (R219). -/
def markFaults (id : BitVec 14) : M Unit := do
  let s ← get
  if 1 < (s.issue.words.filter fun w => !isVoidWord w).length then M.trap clsSegment 6
  if s.cur.inService then M.trap clsSegment 7
  if (s.launchOf s.focus).segLen ≤ id.toNat then M.trap clsSegment 5

/-- MARK (R219). -/
def execMark (i : BitVec 14) (s : State) : Host.Outcome State Fault Refusal :=
  finish s (do
    liftC noRegion
    markFaults i
    let s ← get
    let c := s.cur
    if !c.fl.loads.isEmpty || !c.fl.commits.isEmpty then M.hold
    raiseTrussFault
    if c.seg.mismatch then
      if c.seg.rewound then quarantine s.focus
      else do
        modCur fun c => { c with seg := { c.seg with rewound := true } }
        startRewind s.focus
    else match ← badGate s.focus c.fl.gate with
      | some (_, some (h, x, f)) => translationFault s.focus h x f
      | some (g, none) =>
        match g.eff with
        | .append h x .. =>
          rollbackEnd s.focus { Trap.mk' clsSealed 0 with handle := h, at' := x, value := g.pc.setWidth 64 }
        | _ => pure ()
      | none => commitMark i)

/-! ### Joints (R224) -/

/-- Key of a round of a group in an instance's joints. -/
def jointKey (g : BitVec 4) (r : BitVec 16) : Nat := 65536 * g.toNat + r.toNat

/-- Is the context between its rollback and the commit that ends it (R224)? -/
def Ctx.rewinding (c : Ctx) : Bool := c.live && (c.seg.rewinding || c.wait == .rewind)

/-- The contexts that have arrived at a group in any round that is remembered. -/
def Inst.arrivedAt (i : Inst) (g : BitVec 4) : List Nat :=
  ((i.joints.filter fun e => e.1 / 65536 == g.toNat).map fun e => e.2.arrived).flatten

/-- Contexts of an instance that are Halted or Ended: they have arrived at every later round. -/
def State.goneFrom (s : State) (i : Nat) : List Nat :=
  (s.ctxs.filter fun e => e.2.inst == i && (e.2.st == .halted || e.2.st == .ended)).map (·.1)

/-- May context `k` pass its JOIN: its round is complete, and no other context that has arrived at the group
is rewinding? -/
def State.joinOpen (s : State) (k : Nat) (g : BitVec 4) (members : Nat) : Bool :=
  let c := s.ctx k
  let i := s.inst c.inst
  let j := i.joints.get ⟨members, []⟩ (jointKey g (c.rounds.get 0 g.toNat))
  decide (members ≤ (dedup (j.arrived ++ s.goneFrom c.inst)).length)
    && (i.arrivedAt g).all fun m => m == k || !(s.ctx m).rewinding

/-- A JOIN arrives at its round once the earlier accesses of its context are performed: its arrival is a release
(R430).  Another count of members in the round is segment fault 8.  Rounds half the
numbering away are forgotten. -/
def joinAt (g : BitVec 4) (members : Nat) : M Unit := do
  let s ← get
  let c := s.cur
  let r := c.rounds.get 0 g.toNat
  let i := s.inst c.inst
  let j := i.joints.get ⟨members, []⟩ (jointKey g r)
  M.need (j.members == members) clsSegment 8
  if !s.drained s.focus then M.hold
  let far := jointKey g (r + 32768)
  let js := (i.joints.erase far).set (jointKey g r) ⟨members, dedup (j.arrived ++ [s.focus])⟩
  modify fun s => s.setInst c.inst { s.inst c.inst with joints := js }
  waitFor (.join g members)

/-- JOIN: group r, n is members - 1 (R224). -/
def execJoin (n : BitVec 8) (r : BitVec 4) (s : State) : Host.Outcome State Fault Refusal :=
  finish s (do liftC noRegion; joinAt r (n.toNat + 1))

/-- JOIN.R: members - 1 in [11:4] of the register, the group in [3:0] (R224). -/
def execJoinR (a : BitVec 5) (s : State) : Host.Outcome State Fault Refusal :=
  finish s (do
    liftC noRegion
    let v ← rdCM a
    joinAt (BitVec.ofNat 4 (fieldN v 0 4)) (fieldN v 4 8 + 1))

/-- JOIN_RELEASE: the JOIN of context `k` passes, its round number goes up, and it acquires (R224, R430). -/
def execJoinRelease (k : Nat) (s : State) : Host.Outcome State Fault Refusal :=
  onEvent s k (do
    let s ← get
    match (s.ctx k).wait with
    | .join g n =>
      if s.joinOpen k g n then
        modCtx k fun c => { c.nextWait with rounds := c.rounds.set g.toNat (c.rounds.get 0 g.toNat + 1) }
        modify fun s => s.applyInvals (coreOf k)
    | _ => pure ())

/-! ### Generator checkpoints (R225) -/

/-- The checks of an image's offset: a multiple of 128, inside the scratchpad, not moving. -/
def ckptOffset (off : Nat) : M Unit := do
  let s ← get
  let x := s.core (coreOf s.focus)
  let at' : Coord := ⟨(BitVec.ofNat 32 off).toInt, (s.cur.icore : Nat), 0, 0⟩
  if off % 128 ≠ 0 then M.trapAt clsAccess 2 0xFFFF at'
  if x.scrSize < off + 4096 then M.trapAt clsAccess 6 0xFFFF at'
  if x.moving off 4096 then M.trap clsControl 6

/-- CKPT (R225). -/
def execCkpt (i : BitVec 13) (s : State) : Host.Outcome State Fault Refusal :=
  finish s (do
    liftC noRegion
    ckptOffset (128 * i.toNat)
    gate (.ckpt (128 * i.toNat) none))

/-- CKPT.R (R225). -/
def execCkptR (a : BitVec 5) (s : State) : Host.Outcome State Fault Refusal :=
  finish s (do
    liftC noRegion
    let v ← rdCM a
    ckptOffset v.toNat
    gate (.ckpt v.toNat none))

/-- CKRS (R225). -/
def execCkrs (i : BitVec 13) (s : State) : Host.Outcome State Fault Refusal :=
  finish s (do
    liftC noRegion
    ckptOffset (128 * i.toNat)
    gate (.ckrs (128 * i.toNat)))

/-- CKRS.R (R225). -/
def execCkrsR (a : BitVec 5) (s : State) : Host.Outcome State Fault Refusal :=
  finish s (do
    liftC noRegion
    let v ← rdCM a
    ckptOffset v.toNat
    gate (.ckrs v.toNat))

/-- The generator state of the bundle that has ended, given to the CKPT it held (R225). -/
def Ctx.fillCkpt (c : Ctx) : Ctx :=
  let fill (g : GateEnt) : GateEnt := match g.eff with
    | .ckpt off none => { g with eff := .ckpt off (some (c.key, c.ctr)) }
    | _ => g
  { c with fl := { c.fl with gate := c.fl.gate.map fill, commits := c.fl.commits.map fill } }

/-- The 256 entries of an image, by `4 core + context`: key and counter (R225). -/
def State.ckptImage (s : State) (k : Nat) (gen : W64 × W64) : List W64 :=
  let i := (s.ctx k).inst
  let t := s.inst i
  ((List.range 256).map fun n =>
    let j := 4 * t.phys (n / 4) + n % 4
    let c := s.ctx j
    if t.cores ≤ n / 4 || c.inst != i || !c.live then [0, 0]
    else if j = k then [gen.1, gen.2]
    else [c.seg.snap.key, c.seg.snap.ctr]).flatten

/-- CKPT commits: the image is in the scratchpad. -/
def commitCkpt (k off : Nat) (gen : Option (W64 × W64)) : M Unit := do
  let s ← get
  let c := s.ctx k
  let ws := s.ckptImage k (gen.getD (c.key, c.ctr))
  ws.zipIdx.forM fun w => wrN (scrAddr (coreOf k) (off + 8 * w.2)) 8 w.1.toNat

/-- CKRS commits: each Active or Stopping context is given its entry, all ones skipped, for its next MARK; the
issuing context takes it now, as its MARK's (R225). -/
def commitCkrs (k off : Nat) : M Unit := do
  let s ← get
  let i := (s.ctx k).inst
  let t := s.inst i
  (List.range (4 * min 64 t.cores)).forM fun n => do
    let j := 4 * t.phys (n / 4) + n % 4
    let c := (← get).ctx j
    if c.inst = i ∧ c.live then
      let key ← rdW64 (scrAddr (coreOf k) (off + 16 * n))
      let ctr ← rdW64 (scrAddr (coreOf k) (off + 16 * n + 8))
      if key = BitVec.allOnes 64 ∧ ctr = BitVec.allOnes 64 then pure ()
      else if j = k ∧ !c.inService then
        modCtx j fun c =>
          { c with key := key, ctr := ctr, seg := { c.seg with snap := { c.seg.snap with key := key, ctr := ctr } } }
      else modCtx j fun c => { c with fl := { c.fl with ckrs := some (key, ctr) } }

/-! ### Service (R226, R227) -/

/-- TRAP and SVC: entering service, or the record of class 15 (R226). -/
def enterService (svc : Bool) (code : BitVec 13) (arg : Option W32) : M Unit := do
  M.need (← gateClear) clsSegment 4
  let s ← get
  if s.cur.inService then M.trap clsTrap 2
  match (s.launchOf s.focus).service with
  | none => M.trap clsTrap (if svc then 1 else 0)
  | some entry => do
    let c := s.cur.countFmt
    let f : Frame :=
      { ret := c.sq.after, c12 := c.regC 12, c13 := c.regC 13, c14 := c.regC 14, c15 := c.regC 15, fmt := c.sq.fmt,
        pend := c.sq.pend, cd := c.sq.cd, depth := c.sq.loops.length, priv := c.priv }
    liftC do
      wrC 12 ((if svc then 0x80000000 else 0) ||| code.setWidth 32)
      wrC 13 (arg.getD 0)
      wrC 14 f.ret
    modCur fun x => { x with frame := some f, priv := true,
                             sq := { x.sq with fmt := c.sq.fmt, pend := c.sq.fmt, cd := 0, npc := entry } }
    delay 4

/-- TRAP (R226). -/
def execTrap (i : BitVec 13) (s : State) : Host.Outcome State Fault Refusal :=
  finish s (do liftC noRegion; enterService false i none)

/-- TRAP.R: c13 takes the register; c12 holds code 0 (R226). -/
def execTrapR (a : BitVec 5) (s : State) : Host.Outcome State Fault Refusal :=
  finish s (do
    liftC noRegion
    let v ← rdCM a
    enterService false 0 (some v))

/-- SVC (R226). -/
def execSvc (i : BitVec 13) (s : State) : Host.Outcome State Fault Refusal :=
  finish s (do liftC noRegion; enterService true i none)

/-- ERET: leaves service with the frame restored, and acts as a mark that opens an unchecked segment (R37,
R227). -/
def execEret (s : State) : Host.Outcome State Fault Refusal :=
  finish s (do
    liftC noRegion
    let c := (← get).cur
    M.need c.priv clsPrivilege 0
    match c.frame with
    | none => M.trap clsSegment 7
    | some f => do
      M.need (c.sq.loops.length == f.depth) clsSegment 7
      if !c.fl.loads.isEmpty then M.hold
      modCur fun c =>
        let fs := (((c.files.c.set 12 f.c12).set 13 f.c13).set 14 f.c14).set 15 f.c15
        let c := { c with files := { c.files with c := fs }, frame := none, priv := f.priv,
                          sq := { c.sq with fmt := f.fmt, pend := f.pend, cd := f.cd, npc := f.ret } }
        c.marked (fun n => { Segment.start with id := c.seg.id, snap := n }) true
      delay 4)

/-! ### HALT (R228) -/

/-- HALT: segment fault 4 with gated effects; then it waits (R228). -/
def execHalt (s : State) : Host.Outcome State Fault Refusal :=
  finish s (do
    liftC noRegion
    M.need (← gateClear) clsSegment 4
    waitFor .halt)

/-- Has context `k` nothing under way: loads, committed effects and engine commands, those of the planers among them
(R228)? -/
def State.quiet (s : State) (k : Nat) : Bool :=
  let f := (s.ctx k).fl
  f.loads.isEmpty && f.commits.isEmpty && f.calls.isEmpty && f.copies.isEmpty && f.fabs.isEmpty
    && !(s.fops.any fun o => o.ctx == k) && !(s.ticks.any fun t => t.ctx == k)

/-- HALT_COMPLETE: the loads and engine commands of context `k` have completed and it is Halted (R228). -/
def execHaltComplete (k : Nat) (s : State) : Host.Outcome State Fault Refusal :=
  finish s (do
    let s ← get
    let c := s.ctx k
    if c.wait = .halt ∧ c.more.isEmpty ∧ s.quiet k ∧ c.live then modCtx k fun c => c.stopped .halted)

end Sys2Proof.Machine
end

