-- ==== Sys2Proof/Machine/Planer.lean ====
section
/-!
DEFINITION. Sys2Proof/Machine/Planer.lean: filter memory: samples, taps, ticks and sweeps, and the forms that
reach the planers (R317 to R356).

An operation of a context on filter words is an `FOp`; each planer it reaches accepts it in its turn, after
the earlier ones of the context (R331).  A planer reads and writes filter words in memory directly.
-/

namespace Sys2Proof.Machine

/-! ### Words and banks at their planers (R318, R324, R346) -/

/-- A filter word. -/
structure FWord where
  q1 : Int
  q2 : Int
  acc : Int
  stamp : Nat
  deriving DecidableEq, Repr

/-- A filter word from its 128 bits (R318). -/
def FWord.parse (n : Nat) : FWord :=
  { q1 := intVal true 32 n, q2 := intVal true 32 (n / 2 ^ 32), acc := intVal true 48 (n / 2 ^ 64),
    stamp := n / 2 ^ 112 % 65536 }

def FWord.bits (w : FWord) : Nat :=
  lowBits 32 w.q1 + 2 ^ 32 * lowBits 32 w.q2 + 2 ^ 64 * lowBits 48 w.acc + 2 ^ 112 * (w.stamp % 65536)

def State.planer (s : State) (pl : Nat) : Planer := s.planers.get Planer.empty pl
def modPlaner (pl : Nat) (f : Planer → Planer) : M Unit :=
  modify fun s => { s with planers := s.planers.set pl (f (s.planer pl)) }

def BankState.fresh : BankState := ⟨0, false, none, 0, 0⟩
/-- What planer `pl` keeps for the bank with descriptor at `b`. -/
def State.bankState (s : State) (pl b : Nat) : BankState := (s.planer pl).banks.get BankState.fresh b
def modBank (pl b : Nat) (f : BankState → BankState) : M Unit :=
  modPlaner pl fun p => { p with banks := p.banks.set b (f (p.banks.get BankState.fresh b)) }

/-- The parameters of a bank at a planer: the image installed there, else the descriptor in memory. -/
def State.bankParams (s : State) (pl b : Nat) : Bank :=
  match (s.bankState pl b).img with
  | some ws => Bank.parse fun i => ws.getD i 0
  | none => s.bankAt b

/-- A filter tensor: launch, handle, the address of its bank descriptor, and the die whose layout units translate the
access: that of the issuing context, or of the planer for its own visits. -/
structure BankRef where
  l : Nat
  h : BitVec 16
  b : Nat
  die : Nat
  deriving DecidableEq, Repr

/-- The address of word `i` of a bank, where its tile is mapped. -/
def State.wordAddr (s : State) (r : BankRef) (i : Nat) : Option Nat :=
  let l := s.launch r.l
  let d := s.desc r.die l r.h
  let x := d.ofOffset i
  if (s.entry r.die d (d.tileNo x)).p then some (s.elemAddr r.die d x) else none

/-- Insert a pair into a list sorted by its second part. -/
def insertBySnd (p : Nat × Nat) : List (Nat × Nat) → List (Nat × Nat)
  | [] => [p]
  | q :: t => if p.2 < q.2 then p :: q :: t else q :: insertBySnd p t

/-- The words `lo` to `lo + n - 1` of a bank that planer `pl` homes, in ascending address order. -/
def State.homeWords (s : State) (pl : Nat) (r : BankRef) (lo n : Nat) : List (Nat × Nat) :=
  ((List.range n).foldl (fun acc i => match s.wordAddr r (lo + i) with
    | some a => if addrChannel a = pl then insertBySnd (lo + i, a) acc else acc
    | none => acc) [])

/-- Every word of a bank that planer `pl` homes. -/
def State.allWords (s : State) (pl : Nat) (r : BankRef) : List (Nat × Nat) :=
  s.homeWords pl r 0 (s.desc r.die (s.launch r.l) r.h).elems

/-- The planers that home any of the words. -/
def State.planersOf (s : State) (r : BankRef) (words : List Nat) : List Nat :=
  dedup ((words.map fun i => match s.wordAddr r i with | some a => [addrChannel a] | none => []).flatten)

/-- A planer reads or writes a filter word for launch `l`: 16 bytes at its channel (R317, R410). -/
def readWord (l a : Nat) : M FWord := do
  countFor l 16 0
  return FWord.parse (← rdN a 16)
def writeWord (l a : Nat) (w : FWord) : M Unit := do
  countFor l 16 0
  wrN a 16 w.bits

/-! ### One step, catch-up and samples (R319 to R325) -/

/-- The rounding of S / 2^22 (R320). -/
def Bank.round (b : Bank) (key ctr : W64) (j : Nat) (v : Int) : Int :=
  let rm : RM := match b.rnd with | 0 => .rne | 1 => .rtz | _ => .sr
  XR.roundInt rm ((mix key ctr j).toNat % 65536) (decide (v < 0)) v.natAbs (-22) false

/-- A step of word `i` with input `x`: the new word, and whether a state was clamped (R319). -/
def Bank.step (b : Bank) (addr i : Nat) (w : FWord) (x : Int) : FWord × Bool :=
  let stamp := (w.stamp + 1) % 65536
  let key := BitVec.ofNat 64 addr
  let ctr := BitVec.ofNat 64 (i * 65536 + stamp)
  let r1 := b.round key ctr 0 (b.a11 * w.q1 + b.a12 * w.q2 + b.b1 * x)
  let r2 := if b.ord2 then b.round key ctr 1 (b.a21 * w.q1 + b.a22 * w.q2 + b.b2 * x) else w.q2
  let s1 := satInt true 32 r1
  let s2 := satInt true 32 r2
  (⟨s1, s2, 0, stamp⟩, decide (s1 ≠ r1) || decide (s2 ≠ r2))

/-- A fixed-point value moved from units of 2^e to units of 2^f, by RNE (R329). -/
def rescale (v e f : Int) : Int := XR.roundInt .rne 0 (decide (v < 0)) v.natAbs (e - f) false

/-- The tick that a step numbered `n` of a bank serves at a planer: the ticket of its sweep, 0 for none. -/
def Planer.ticket (p : Planer) (b n : Nat) : Nat :=
  match findBy (fun w => w.bank == b && w.tick.toNat == n) p.sweeps with | some w => w.ticket | none => 0

/-- Step a word at its planer with input `x`: the new state is in `w`; a clamp sets BSAT; a cascade sample
leaves (R319, R329). -/
def stepWord (pl : Nat) (r : BankRef) (i : Nat) (w : FWord) (x : Int) : M FWord := do
  let s ← get
  let b := s.bankParams pl r.b
  let (w', sat) := b.step r.b i w x
  if sat then modBank pl r.b fun q => { q with bsat := true }
  if b.casc ≠ 0 then
    let (d, _) ← descM (pl / 12) (s.launch r.l) b.casc
    let s ← get
    let v := rescale w'.q2 b.e (s.bankAt d.w6).e
    modPlaner pl fun p => { p with casc := p.casc ++ [(d.w6, b.casc, r.l, i, v, p.ticket r.b w'.stamp)] }
  return w'

/-- Catch a word of a TICK bank up to the planer's tick count (R325). -/
def catchWord (pl : Nat) (r : BankRef) (i : Nat) (w : FWord) : M FWord := do
  let s ← get
  if (s.bankParams pl r.b).tick then
    let n := ((s.bankState pl r.b).t.toNat + 65536 - w.stamp) % 65536
    (List.range n).foldlM (fun w k => stepWord pl r i w (if k = 0 then w.acc else 0)) w
  else return w

/-- Catch the word at an address up, in memory. -/
def catchUp (pl : Nat) (r : BankRef) (i a : Nat) : M Unit := do
  writeWord r.l a (← catchWord pl r i (← readWord r.l a))

/-- A planer accepts a sample for word `i`: STEP steps with it, a sample from elsewhere than a context here being clamped to
32 bits first; TICK adds it to ACC, with saturation (R321 to R323, R329, R348). -/
def acceptSample (pl : Nat) (r : BankRef) (i a : Nat) (x : Int) (here : Bool) : M Unit := do
  let w ← catchWord pl r i (← readWord r.l a)
  if ((← get).bankParams pl r.b).tick then
    let v := satInt true 48 (w.acc + x)
    if v ≠ w.acc + x then modBank pl r.b fun q => { q with bsat := true }
    writeWord r.l a { w with acc := v }
  else
    let y := if here then x else satInt true 32 x
    if y ≠ x then modBank pl r.b fun q => { q with bsat := true }
    writeWord r.l a (← stepWord pl r i w y)

/-- Tap `t` of a word as an integer in units of 2^E, and whether tap 2 was clamped (R335). -/
def Bank.tap (b : Bank) (w : FWord) (t : Nat) : Int × Bool :=
  match t with
  | 0 => (w.q1, false)
  | 1 => (w.q2, false)
  | 2 =>
    let v := b.c1 * w.q1 + b.c2 * w.q2
    let n := XR.roundInt .rne 0 (decide (v < 0)) v.natAbs (-22) false
    (satInt true 32 n, decide (satInt true 32 n ≠ n))
  | _ => (if b.tick then w.acc else 0, false)

/-- The exact value of a tap. -/
def Bank.tapVal (b : Bank) (v : Int) : XR := .fin (decide (v < 0)) v.natAbs b.e false

/-! ### Samples at issue (R321, R348) -/

/-- A sample of format `f` as an integer in units of 2^e of `w` bits, and whether it was saturated or infinite;
a NaN is 0 (R321). -/
def sampleInt (f : EFmt) (e : Int) (xf w b : Nat) : Int × Bool :=
  let x := f.dec false b
  let y := match xf with | 1 => x.mul x | 2 => x.neg | 3 => x.abs | _ => x
  match y with
  | .nan => (0, false)
  | .inf n => (if n then intMin true w else intMax true w, true)
  | .fin n m g _ =>
    let v := XR.roundInt .rne 0 n m (g - e) false
    (satInt true w v, decide (satInt true w v ≠ v))

/-- The samples of a register. -/
def sampleRow (f : EFmt) (b : Bank) (n : Nat) (v : VBits) : List (Int × Bool) :=
  (List.range n).map fun i => sampleInt f b.e b.xf (if b.tick then 48 else 32) (elem f.width v i)

def filterAsk (width : Bool) (m : Nat) : Ask :=
  { cls := fun d => d.cls == 1, form := width, width := fun _ => true, fmt := fun _ => true, align := fun _ x => x.c0 % (m : Int) == 0 }

/-- FST: samples gated, converted by the bank in force; of tagged rows one entry per active example
(R211, R348). -/
def sampleStore (r : TReg 1024) (t : Target) (f : BitVec 2) : M Unit := do
  let l ← curLaunch
  let q := (← get).cur.sq
  let vs := EFmt.ofCode (fmtVS q.fmt)
  let n := if f = 0 then 1 else 1024 / vs.width
  let ask := filterAsk true n
  let (d, ok, x) ← checkTarget l t ask fun d => r.tag == 0 || !d.bnd
  let b := (← get).bankAt d.w6
  let k := (← get).focus
  let one (x : Coord) (v : VBits) : M Unit := do
    let xs := if ok && b.okHere then sampleRow vs b n v else (List.range n).map fun _ => (0, false)
    setFsat k (xs.any (·.2))
    gate (.fst t.h x (xs.map fun p => some p.1))
  M.need (r.tag == 0 || r.tag == innerTag q.lifts) clsLift 3
  if r.tag = 0 ∨ !ok then one x r.val
  else
    (List.range (axisSize q.lifts (q.lifts.length - 1))).forM fun e =>
      if q.active r.tag e then do
        let y := if d.bnd then x.move d.bdim (e : Nat) else x
        checkExample t.h ask d y
        one y (r.at' q.lifts r.tag e)
      else pure ()

/-- FST (R348). -/
def execFst (d : BitVec 5) (k : BitVec 3) (f : BitVec 2) (s : State) : Host.Outcome State Fault Refusal :=
  finish s (do
    let t ← targetK k
    sampleStore (← storeData f d) t f)

/-- FST.R (R348). -/
def execFstR (d a : BitVec 5) (f : BitVec 2) (s : State) : Host.Outcome State Fault Refusal :=
  finish s (do
    let t ← targetA a
    sampleStore (← storeData f d) t f)

/-! ### Reading taps (R349, R350) -/

/-- FLDT with tap mask 0: FSAT to qs, then clear (R350). -/
def readFsat (q : BitVec 2) : M Unit := do
  M.need (q == 0) clsAccess 3
  let id ← freshId
  liftC (reserve 0 id false 0 0)
  modCur fun c =>
    { c with fsat := false,
             queues := c.queues.fill id c.fl.now 0 [if c.fsat then 1 else 0] }

/-- The reference of a launch's filter tensor. -/
def State.bankRef (s : State) (die l : Nat) (h : BitVec 16) : BankRef := ⟨l, h, (s.desc die (s.launch l) h).w6, die⟩

/-- An operation put among those of its context by its place: a tap read enters as it issues, in service before the commit of
what the context has issued before it (R331, R343). -/
def insertFOp (f : FOp) : List FOp → List FOp
  | [] => [f]
  | g :: t => if g.ctx = f.ctx ∧ g.launch = f.launch ∧ f.seq < g.seq then f :: g :: t else g :: insertFOp f t

/-- Enter an operation of context `k` on filter words. -/
def enterFOp (k seq : Nat) (r : BankRef) (kd : FKind) (todo : List Nat) : M Unit :=
  let f : FOp := { ctx := k, launch := r.l, seq := seq, bank := r.b, handle := r.h, kind := kd, todo := todo }
  modify fun s => { s with fops := insertFOp f s.fops }

/-- The word offsets that an FLDT of `m` words reads at a coordinate. -/
def tapOffsets (d : Desc) (m : Nat) (x : Coord) : List Nat :=
  ((d.units x m).map fun u => match u with | some c => [d.offset c] | none => []).flatten

/-- FLDT: checked, entered as a load and into the planers' acceptance order at issue (R343, R349). -/
def tapLoad (q : BitVec 2) (t : Target) (mask : BitVec 4) : M Unit := do
  let l ← curLaunch
  let c := (← get).cur
  let n := (bitsOf mask).length
  let vd := EFmt.ofCode (fmtVD c.sq.fmt)
  let m := tapWords mask c.sq.fmt q
  let ask := filterAsk (q != 0 || decide (n * vd.width ≤ 64)) m
  let (d, ok, x) ← checkTarget l t ask whole
  let bound := if ok then boundCoords q d c.sq.lifts x else none
  let cs := bound.getD [x]
  if ok then cs.forM (checkExample t.h ask d)
  let _ ← liftC (takeDraws (fmtRM c.sq.fmt) (n * m * cs.length))
  let id := (← get).nextId
  let tag := if bound.isSome then innerTag c.sq.lifts else 0
  enterLoad q (.taps t.h cs mask c.sq.fmt c.key c.ctr) false false 0 t.span tag (cs.length - 1)
  let k := (← get).focus
  let die := coreDie (coreOf k)
  holdBank die l t.h
  cs.forM fun y => holdUnits die l t.h (d.units y m)
  let s ← get
  match s.tapsFault k t.h cs m with
  | some _ => pure ()
  | none =>
    let r := s.bankRef die c.launch t.h
    enterFOp k s.cur.fl.seq r (.read id) (s.planersOf r ((cs.map (tapOffsets d m)).flatten))

/-- FLDT (R349, R350). -/
def execFldt (q : BitVec 2) (k : BitVec 3) (t : BitVec 4) (s : State) : Host.Outcome State Fault Refusal :=
  finish s (do
    let tg ← targetK k
    if t = 0 then readFsat q else tapLoad q tg t)

/-- FLDT.R (R349, R350). -/
def execFldtR (q : BitVec 2) (a : BitVec 5) (t : BitVec 4) (s : State) : Host.Outcome State Fault Refusal :=
  finish s (do
    let tg ← targetA a
    if t = 0 then readFsat q else tapLoad q tg t)

/-! ### Acceptance at a planer (R330, R331, R343) -/

/-- The operation of context `k` that planer `pl` accepts next. -/
def State.nextFOp (s : State) (k pl : Nat) : Option FOp := findBy (fun f => f.ctx == k && f.todo.contains pl) s.fops

def FOp.ref (f : FOp) : BankRef := ⟨f.launch, f.handle, f.bank, coreDie (coreOf f.ctx)⟩

/-- Planer `pl` has accepted the operation; accepted everywhere it is gone. -/
def doneAt (f : FOp) (pl : Nat) : M Unit :=
  modify fun s =>
    let left := f.todo.filter (· != pl)
    { s with fops := if left.isEmpty then delBy (fun g => g == f) s.fops
                     else updBy (fun g => g == f) (fun g => { g with todo := left }) s.fops }

/-- The home planer of a word of an operation. -/
def State.homeOf (s : State) (pl : Nat) (r : BankRef) (i : Nat) : Option Nat :=
  match s.wordAddr r i with
  | some a => if addrChannel a = pl then some a else none
  | none => none

/-- SAMPLE_ACCEPT: planer `pl` accepts the next sample of context `k` (R321 to R323). -/
def execSampleAccept (k pl : Nat) (s : State) : Host.Outcome State Fault Refusal :=
  finish s (do
    let s ← get
    match s.nextFOp k pl with
    | none => pure ()
    | some f => match f.kind with
      | .samples xs =>
        let mine (x : Nat × Int) : Bool := (s.homeOf pl f.ref x.1).isSome
        match findBy mine xs with
        | none => doneAt f pl
        | some x => do
          let rest := delBy (fun y => mine y) xs
          let f' : FOp := { f with kind := .samples rest }
          modify fun s => { s with fops := updBy (fun g => g == f) (fun _ => f') s.fops }
          if rest.any mine then pure () else doneAt f' pl
          match s.homeOf pl f.ref x.1 with
          | some a => acceptSample pl f.ref x.1 a x.2 true
          | none => pure ()
      | _ => pure ())

/-- The value of one example of an FLDT: the taps of the words that `ws` lists by place (R349).  A tap is converted as a real
value: to an integer format too it is rounded by RM and always clamped, as a floating source is (R66, R67, log entry 94). -/
def tapRow (pl : Nat) (r : BankRef) (ld : Load) (mask : BitVec 4) (fmt : W32) (key ctr : W64) (ex m : Nat)
    (ws : List (Nat × Nat × Nat)) : M (Nat × Bool) := do
  let taps := bitsOf mask
  let t := taps.length
  let vd := EFmt.ofCode (fmtVD fmt)
  let rows ← ws.mapM fun (place, i, a) => do
    catchUp pl r i a
    let w ← readWord r.l a
    let b := (← get).bankParams pl r.b
    let vs := taps.zipIdx.map fun (tp, j) =>
      let (v, sat) := b.tap w tp
      let rho := drawAt key ctr (ex * t * m + t * place + j)
      (vd.round (fmtRM fmt) (fmtSAT fmt) (fmtFTZ fmt) rho (b.tapVal v) * 2 ^ (vd.width * (t * place + j)), sat)
    return ((vs.map (·.1)).sum, vs.any (·.2))
  return (((rows.map (·.1)).sum) % (if ld.q = 0 then 2 ^ 64 else 2 ^ 1024), rows.any (·.2))

/-- Planer `pl` reads its words of a load of context `k` at one point (R336). -/
def readTaps (k pl : Nat) (r : BankRef) (ld : Load) : M Unit := do
  match ld.kind with
  | .taps h cs mask fmt key ctr => do
    let s ← get
    let d := s.desc r.die (s.launch r.l) h
    let m := tapWords mask fmt ld.q
    let old := ld.got.getD (cs.map fun _ => 0)
    let rows ← cs.zipIdx.mapM fun (x, ex) => do
      let ws := ((d.units x m).zipIdx.map fun (u, place) => match u with
        | none => []
        | some c => match s.homeOf pl r (d.offset c) with
          | some a => [(place, d.offset c, a)]
          | none => []).flatten
      if ws.isEmpty then return (old.getD ex 0, false)
      else do
        let (v, sat) ← tapRow pl r ld mask fmt key ctr ex m ws
        return (BitVec.ofNat 1024 v, sat)
    modCtx k fun c => c.setGot ld.id (rows.map (·.1))
    setFsat k (rows.any (·.2))
  | _ => pure ()

/-- A copy command of context `k` by number. -/
def State.copyOf (s : State) (k id : Nat) : Option CopyRun := findBy (fun c => c.id == id) (s.ctx k).fl.copies

/-- The words of an export that are read: those before the one whose data was withheld (R354). -/
def CopyRun.limit (c : CopyRun) (n : Nat) : Nat := if c.code = 0 then n else min n c.info.toNat

/-- The translation fault that word `i` of an export's bank meets: of the whole bank, or of the word's tile (R246, R247,
R354). -/
def State.exportFault (s : State) (r : BankRef) (i : Nat) : Option Nat :=
  let l := s.launch r.l
  match s.bankFault r.die l r.h false with
  | some n => some n
  | none =>
    match s.xlate r.die l r.h ((s.desc r.die l r.h).ofOffset i) false with
    | .error n => some n
    | .ok _ => none

/-- The layout units hold what the words of an export use. -/
def holdExport (r : BankRef) (e : ExpCmd) : M Unit := do
  let l := (← get).launch r.l
  holdBank r.die l r.h
  let d := (← get).desc r.die l r.h
  holdUnits r.die l r.h ((List.range e.count).map fun i => some (d.ofOffset (offsetOf e.src + i)))

/-- What the next word of an export meets: nothing is left; its translation fails; or it stands at an address (R354). -/
inductive ExportWord where
  | none
  | bad (sub : Nat)
  | at' (addr : Nat)
  deriving DecidableEq, Repr

def State.exportWord (s : State) (r : BankRef) (c : CopyRun) (e : ExpCmd) : ExportWord :=
  let i := c.got.length
  if c.limit e.count ≤ i then .none
  else match s.exportFault r (offsetOf e.src + i), s.wordAddr r (offsetOf e.src + i) with
    | some n, _ => .bad n
    | Option.none, some a => .at' a
    | Option.none, Option.none => .bad 1

/-- Word `i` of an export has failed: it and every later word read as zeros, and the status carries the code (R354, R372). -/
def failExport (k id i sub : Nat) : M Unit :=
  modCopy k id fun q => { q with code := 1, sub := BitVec.ofNat 8 sub, info := BitVec.ofNat 32 i }

/-- Planer `pl` reads its words of an export of context `k` as far as they come next, ascending; a clamp of tap 2 sets BSAT
(R346, R354). -/
def readFexp (k pl : Nat) (r : BankRef) (id : Nat) (e : ExpCmd) : Nat → M Unit
  | 0 => pure ()
  | n + 1 => do
    let s ← get
    match s.copyOf k id with
    | none => pure ()
    | some c =>
      match s.exportWord r c e with
      | .none => pure ()
      | .bad sub => failExport k id c.got.length sub
      | .at' a =>
        if addrChannel a = pl then do
          let i := c.got.length
          catchUp pl r (offsetOf e.src + i) a
          let w ← readWord r.l a
          let b := (← get).bankParams pl r.b
          let (v, sat) := b.tap w e.tap.toNat
          if sat then modBank pl r.b fun q => { q with bsat := true }
          let code := (EFmt.ofCode e.fmt.toNat).round .rne true false 0 (b.tapVal v)
          modCopy k id fun q => { q with got := q.got.set i (BitVec.ofNat 32 code) }
          readFexp k pl r id e n

/-- Has planer `pl` no word of an export still to read? -/
def State.exportDone (s : State) (pl : Nat) (r : BankRef) (c : CopyRun) (e : ExpCmd) : Bool :=
  let n := c.got.length
  (s.homeWords pl r (offsetOf e.src + n) (c.limit e.count - n)).isEmpty

/-- May planer `pl` read for an export, or let it go: the next word is its own or fails, or none of its words is left? -/
def State.exportTurn (s : State) (pl : Nat) (r : BankRef) (c : CopyRun) (e : ExpCmd) : Bool :=
  s.exportDone pl r c e || (match s.exportWord r c e with
    | .at' a => addrChannel a == pl
    | _ => true)

/-- TAP_READ_ACCEPT: planer `pl` reads the taps of context `k`'s next operation there (R336, R349, R354).  An
export is read only once its range is reserved, word by word in ascending order over the planers. -/
def execTapReadAccept (k pl : Nat) (s : State) : Host.Outcome State Fault Refusal :=
  finish s (do
    let s ← get
    match s.nextFOp k pl with
    | none => pure ()
    | some f => match f.kind with
      | .read id => do
        match s.loadOf k id with
        | some ld => readTaps k pl f.ref ld
        | none => pure ()
        doneAt f pl
      | .taps id =>
        match s.copyOf k id with
        | none => doneAt f pl
        | some c => match c.resv, c.exp with
          | some _, some e => do
            holdExport f.ref e
            readFexp k pl f.ref id e e.count
            let s ← get
            match s.copyOf k id with
            | some c => if s.exportDone pl f.ref c e then doneAt f pl
            | none => doneAt f pl
          | _, _ => if c.code = 0 then pure () else doneAt f pl
      | _ => pure ())

/-! ### Ticks and sweeps (R324 to R327) -/

/-- A tick has been swept at a planer. -/
def sweptAt (ticket pl : Nat) : M Unit :=
  modify fun s =>
    { s with ticks := updBy (fun t => t.ticket == ticket) (fun t => { t with todo := t.todo.filter (· != pl) }) s.ticks }

/-- FTICK_ACCEPT: planer `pl` counts the tick and queues a sweep; a ninth waits; a STEP bank is not changed
(R324, R326, R352). -/
def execFtickAccept (k pl : Nat) (s : State) : Host.Outcome State Fault Refusal :=
  finish s (do
    let s ← get
    match s.nextFOp k pl with
    | none => pure ()
    | some f => match f.kind with
      | .tick ticket =>
        if !(s.bankParams pl f.bank).tick then do
          doneAt f pl
          sweptAt ticket pl
        else if 8 ≤ ((s.planer pl).sweeps.filter fun w => w.bank == f.bank).length then pure ()
        else do
          doneAt f pl
          holdTensor (pl / 12) (s.launch f.launch) f.handle
          let t := (s.bankState pl f.bank).t + 1
          modBank pl f.bank fun q => { q with t := t, tensor := f.handle, launch := f.launch }
          modPlaner pl fun p => { p with sweeps := p.sweeps ++ [⟨f.bank, t, ticket, 0⟩] }
      | _ => pure ())

/-- SWEEP_VISIT: the sweep that runs at planer `pl` visits its next four words (R326). -/
def execSweepVisit (pl : Nat) (s : State) : Host.Outcome State Fault Refusal :=
  finish s (do
    let s ← get
    match (s.planer pl).sweeps with
    | [] => pure ()
    | w :: ws => do
      let q := s.bankState pl w.bank
      let r : BankRef := ⟨q.launch, q.tensor, w.bank, pl / 12⟩
      let words := s.allWords pl r
      (words.drop w.next |>.take 4).forM fun (i, a) => catchUp pl r i a
      if words.length ≤ w.next + 4 then do
        modPlaner pl fun p => { p with sweeps := ws }
        sweptAt w.ticket pl
      else modPlaner pl fun p => { p with sweeps := { w with next := w.next + 4 } :: ws })

/-- Is a tick completed: swept at every planer, its cascade samples accepted (R327)? -/
def State.tickDone (s : State) (t : Tick) : Bool :=
  t.todo.isEmpty && s.planers.all fun p => p.2.casc.all fun c => c.2.2.2.2.2 != t.ticket

/-- TICK_COMPLETE: the oldest completed tick of the bank at `b` is gone, and its FTICK.W holds no more
(R327, R352). -/
def execTickComplete (b : Nat) (s : State) : Host.Outcome State Fault Refusal :=
  finish s (modify fun s => { s with ticks := delBy (fun t => t.bank == b && s.tickDone t) s.ticks })

/-- FDISC_ACCEPT: planer `pl` catches the words of the range up and discards their accumulators (R328, R353). -/
def execFdiscAccept (k pl : Nat) (s : State) : Host.Outcome State Fault Refusal :=
  finish s (do
    let s ← get
    match s.nextFOp k pl with
    | none => pure ()
    | some f => match f.kind with
      | .discard lo n => do
        doneAt f pl
        if (s.bankParams pl f.bank).tick then
          (s.homeWords pl f.ref lo n).forM fun (i, a) => do
            let w ← catchWord pl f.ref i (← readWord f.launch a)
            writeWord f.launch a { w with acc := 0 }
      | _ => pure ())

/-- CASCADE_DELIVERY: the oldest cascade sample that planer `pl` still holds is accepted by the word of the
cascade bank (R329). -/
def execCascadeDelivery (pl : Nat) (s : State) : Host.Outcome State Fault Refusal :=
  finish s (do
    let s ← get
    match (s.planer pl).casc with
    | [] => pure ()
    | (b, h, l, i, v, _) :: cs => do
      modPlaner pl fun p => { p with casc := cs }
      let r : BankRef := ⟨l, h, b, pl / 12⟩
      let (d, _) ← descM (pl / 12) (s.launch l) h
      luTouch (pl / 12) (d.entryAddr (d.tileNo (d.ofOffset i))) 2
      match (← get).wordAddr r i with
      | some a => acceptSample (addrChannel a) r i a v false
      | none => pure ())

/-- Planer `pl` ends the bank's sweeps, catches its words up under the old descriptor, clears ACC, STAMP, T and
BSAT, and installs the image (R355). -/
def installBank (pl : Nat) (r : BankRef) (img : List W64) : M Unit := do
  let s ← get
  let old := (s.bankParams pl r.b).okHere
  (s.allWords pl r).forM fun (i, a) => do
    let w ← readWord r.l a
    let w ← if old then catchWord pl r i w else pure w
    writeWord r.l a { w with acc := 0, stamp := 0 }
  let ended := (s.planer pl).sweeps.filter fun w => w.bank == r.b
  modPlaner pl fun p => { p with sweeps := p.sweeps.filter fun w => w.bank != r.b }
  modBank pl r.b fun _ => { t := 0, bsat := false, img := some img, tensor := r.h, launch := r.l }
  ended.forM fun w => sweptAt w.ticket pl

/-- FBANK_ACCEPT: planer `pl` accepts an FBANK in its order and installs its image (R355). -/
def execFbankAccept (k pl : Nat) (s : State) : Host.Outcome State Fault Refusal :=
  finish s (do
    let s ← get
    match s.nextFOp k pl with
    | none => pure ()
    | some f => match f.kind with
      | .bank img => do
        doneAt f pl
        installBank pl f.ref img
      | _ => pure ())

/-! ### E-lane commands (R351 to R356) -/

/-- The bank that a command names: access fault 5, then 4 (R351). -/
def bankOperand (v : W64) : M (BitVec 16 × Desc × Bool) := do
  let l ← curLaunch
  let h := handleOf v
  if !handleOk l h then M.trapAt clsAccess 5 h Coord.zero
  let (d, ok) ← descM (← curDie) l h
  if ok ∧ d.cls ≠ 1 then M.trapAt clsAccess 4 h Coord.zero
  return (h, d, ok)

/-- FTICK (R352). -/
def execFtick (a : BitVec 5) (s : State) : Host.Outcome State Fault Refusal :=
  finish s (do
    let (h, _, _) ← bankOperand (← liftC (rdE a))
    gate (.ftick h false))

/-- FTICK.W: later commits of the context wait for the tick (R352). -/
def execFtickW (a : BitVec 5) (s : State) : Host.Outcome State Fault Refusal :=
  finish s (do
    let (h, _, _) ← bankOperand (← liftC (rdE a))
    gate (.ftick h true))

/-- FDISC: the whole bank (R353). -/
def execFdisc (a : BitVec 5) (s : State) : Host.Outcome State Fault Refusal :=
  finish s (do
    let (h, d, ok) ← bankOperand (← liftC (rdE a))
    gate (.fdisc h 0 (if ok then d.elems else 0)))

/-- The coordinate a fault record gives for an element offset. -/
def offCoord (off : Nat) : Coord := ⟨(BitVec.ofNat 32 off).toInt, 0, 0, 0⟩

/-- FDISC.R: a range of words; a count of 0 does nothing (R353). -/
def execFdiscR (a b : BitVec 5) (s : State) : Host.Outcome State Fault Refusal :=
  finish s (do
    let v ← liftC (rdE a)
    let n := offsetOf (← liftC (rdE b))
    let (h, d, ok) ← bankOperand v
    if n = 0 then pure ()
    else do
      if ok ∧ d.elems < offsetOf v + n then M.trapAt clsAccess 1 h (offCoord (offsetOf v))
      gate (.fdisc h (offsetOf v) n))

/-- FEXP: its checks at issue; the format is captured (R354). -/
def fexpForm (d a b : BitVec 5) (fmtOf : W64 → Bank → Nat) : M Unit := do
  let dst ← liftC (rdE d)
  let src ← liftC (rdE a)
  let y ← liftC (rdE b)
  let l ← curLaunch
  let n := fieldN y 0 32
  let (h, sd, ok) ← bankOperand src
  let dh := handleOf dst
  if !handleOk l dh then M.trapAt clsAccess 5 dh Coord.zero
  let (dd, dok) ← descM (← curDie) l dh
  if dok ∧ dd.cls ≠ 2 then M.trapAt clsAccess 4 dh Coord.zero
  let f := fmtOf y ((← get).bankAt sd.w6)
  if 10 < f then M.trapAt clsAccess 7 h Coord.zero
  if ok ∧ sd.elems < offsetOf src + n then M.trapAt clsAccess 1 h (offCoord (offsetOf src))
  if n = 0 ∨ 65536 < n * ((EFmt.ofCode f).width / 8) then M.trapAt clsAccess 1 h (offCoord (offsetOf src))
  if dok ∧ dd.elems ≤ offsetOf dst then M.trapAt clsAccess 1 dh (offCoord (offsetOf dst))
  gate (.fexp { dst := dst, src := src, count := n, tap := BitVec.ofNat 2 (fieldN y 32 2), fmt := BitVec.ofNat 4 f })

/-- FEXP: in the bank's export format as it stands at issue (R354). -/
def execFexp (d a b : BitVec 5) (s : State) : Host.Outcome State Fault Refusal :=
  finish s (fexpForm d a b fun _ k => k.expf)

/-- FEXP.F: in the format of e[b][39:36] (R354). -/
def execFexpF (d a b : BitVec 5) (s : State) : Host.Outcome State Fault Refusal :=
  finish s (fexpForm d a b fun y _ => fieldN y 36 4)

/-- FBANK: privileged; the image's address is a device address, a multiple of 64 (R355). -/
def execFbank (a b : BitVec 5) (s : State) : Host.Outcome State Fault Refusal :=
  finish s (do
    M.need (← get).cur.priv clsPrivilege 0
    let v ← liftC (rdE a)
    let img := offsetOf (← liftC (rdE b))
    let (h, _, _) ← bankOperand v
    if img % 64 ≠ 0 ∨ devTop < img + 64 then M.trapAt clsAccess 2 h Coord.zero
    gate (.fbank h img none))

/-- FBANK.RD: privileged; BSAT over all planers, cleared with c set (R356). -/
def execFbankRd (d a : BitVec 5) (c : BitVec 1) (s : State) : Host.Outcome State Fault Refusal :=
  finish s (do
    M.need (← get).cur.priv clsPrivilege 0
    let (h, t, ok) ← bankOperand (← liftC (rdE a))
    let s ← get
    if !ok || !s.bankValid (coreDie (coreOf s.focus)) (s.launchOf s.focus) h t (s.bankAt t.w6) then
      rollbackEnd s.focus { Trap.mk' clsTranslation 4 with handle := h }
    else do
      let any := (List.range 48).any fun pl => (s.bankState pl t.w6).bsat
      liftC (wrE d (if any then 1 else 0))
      if c = 1 then
        (List.range 48).forM fun pl =>
          if (s.bankState pl t.w6).bsat then modBank pl t.w6 fun q => { q with bsat := false } else pure ())

end Sys2Proof.Machine
end

