-- ==== Sys2Proof/Machine/Copy.lean ====
section
/-!
DEFINITION. Sys2Proof/Machine/Copy.lean: the copy engine: command groups, extraction patterns, copies,
exports and their completion (R362 to R375).

A running copy moves all its elements at its COPY_COMPLETE (log entry 20); what it wrote races with every
reader until an XFENCE covers it.
-/

namespace Sys2Proof.Machine

/-! ### Extraction patterns (R369) -/

/-- A pattern: period P, first bit o, field width f, distance g, fields per period F, sign extension. -/
structure Pattern where
  per : Nat
  ofs : Nat
  f : Nat
  g : Nat
  n : Nat
  sx : Bool
  deriving DecidableEq, Repr

def Pattern.parse (w : W64) : Pattern :=
  { per := fieldN w 0 7 + 1, ofs := fieldN w 7 7, f := fieldN w 14 5 + 1, g := fieldN w 19 7, n := fieldN w 26 7 + 1,
    sx := w.getLsbD 33 }

/-- The pattern checks. -/
def patternOk (w : W64) : Bool :=
  let p := Pattern.parse w
  (p.n == 1 || decide (p.f ≤ p.g)) && decide (p.ofs + (p.n - 1) * p.g + p.f ≤ p.per) && fieldN w 34 30 == 0

/-- EBFX (R369). -/
def execEbfx (a : BitVec 5) (s : State) : Host.Outcome State Fault Refusal :=
  finish s (do
    let w ← liftC (rdE a)
    M.need (patternOk w) clsAccess 7
    modCur fun c => { c with fl := { c.fl with pattern := some w } })

/-- EBFX.CLR (R369). -/
def execEbfxClr (s : State) : Host.Outcome State Fault Refusal :=
  finish s (modCur fun c => { c with fl := { c.fl with pattern := none } })

/-! ### The command group (R363, R364) -/

/-- The loop levels' strides of a group's two stride words. -/
def groupStrides (x y : W64) : List Int :=
  [x, y].flatMap fun w => (List.range 3).map fun j => intVal true 21 (fieldN w (21 * j) 21)

/-- The copy command that eight e registers hold. -/
def CopyCmd.parse (e : Nat → W64) (pat : Option W64) : CopyCmd :=
  { src := e 0, dst := e 1,
    counts := ((List.range 4).map fun j => fieldN (e 2) (16 * j) 16 + 1) ++ [fieldN (e 3) 0 16 + 1, fieldN (e 3) 16 16 + 1],
    ssc := fieldN (e 3) 32 4, dsc := fieldN (e 3) 36 4, sstr := groupStrides (e 4) (e 5), dstr := groupStrides (e 6) (e 7),
    pat := pat }

/-- Is a side the cluster scratchpad? -/
def isScr (side : W64) : Bool := handleOf side == 0xFFFF

/-- The reserved fields of a group. -/
def groupClean (e : Nat → W64) : Bool :=
  fieldN (e 3) 40 24 == 0 && ([4, 5, 6, 7] : List Nat).all (fun i => !(e i).getLsbD 63)
    && ([0, 1] : List Nat).all fun i => !isScr (e i) || fieldN (e i) 25 23 == 0

/-- The indices of visit `n` of a loop nest, level 0 first. -/
def visitIdx : List Nat → Nat → List Nat
  | [], _ => []
  | c :: cs, n => n % c :: visitIdx cs (n / c)

/-- The element term of a visit: the stride of level 0 as it is, the others scaled (R364). -/
def strideTerm (strs : List Int) (sc : Nat) (is : List Nat) : Int :=
  match strs, is with
  | t :: ts, i :: js => t * i + 2 ^ sc * ((ts.zip js).map fun x => x.1 * (x.2 : Int)).sum
  | _, _ => 0

def CopyCmd.visits (c : CopyCmd) : Nat := c.counts.foldl (· * ·) 1

/-- The least and greatest terms of a nest. -/
def termRange (counts : List Nat) (strs : List Int) (sc : Nat) : Int × Int :=
  (counts.zip strs).zipIdx.foldl (fun (m : Int × Int) x =>
    let v := x.1.2 * ((x.1.1 - 1 : Nat) : Int) * (if x.2 = 0 then 1 else 2 ^ sc)
    if v < 0 then (m.1 + v, m.2) else (m.1, m.2 + v)) (0, 0)

/-- Source elements that a CPY.BF reads: bits kP + … of a stream of w-bit elements (R370). -/
def CopyCmd.streamLen (c : CopyCmd) (p : Pattern) (w : Nat) : Nat :=
  let k := (c.visits + p.n - 1) / p.n
  (k * p.per + w - 1) / w

/-! ### Checks at issue (R365, R370) -/

/-- A side's descriptor with its validity; none for the scratchpad.  Access fault 5 for a handle the launch
lacks. -/
def copySide (side : W64) : M (Option (Desc × Bool)) := do
  if isScr side then return none
  else
    let l ← curLaunch
    let h := handleOf side
    if !handleOk l h then M.trapAt clsAccess 5 h Coord.zero
    return some (← descM (← curDie) l h)

/-- Element widths in bits of the source and destination: a scratchpad takes the other side's, 64 for two. -/
def sideWidths (s d : Option (Desc × Bool)) : Nat × Nat :=
  let w (x : Option (Desc × Bool)) : Option Nat := match x with
    | some (t, true) => some t.bits
    | _ => none
  match w s, w d with
  | some a, some b => (a, b)
  | some a, none => (a, a)
  | none, some b => (b, b)
  | none, none => (64, 64)

/-- Does a side that is valid meet a condition? -/
def sideIs (x : Option (Desc × Bool)) (p : Desc → Bool) : Bool :=
  match x with
  | some (t, true) => p t
  | _ => false

/-- Access fault 1: elements `lo` to `hi` from the side's offset, of `w` bits, lie outside it. -/
def sideOutside (cores : Nat) (side : W64) (x : Option (Desc × Bool)) (w : Nat) (lo hi : Int) : Bool :=
  if isScr side then
    let a : Int := fieldN side 0 25
    decide (a + lo * (w / 8 : Nat) < 0) || decide ((cores * 0x80000 : Nat) ≤ a + hi * (w / 8 : Nat))
  else sideIs x fun t => decide ((offsetOf side : Int) + lo < 0) || decide ((t.elems : Int) ≤ offsetOf side + hi)

/-- Access fault 2: a scratchpad address that is no multiple of the element's bytes. -/
def sideCrooked (side : W64) (w : Nat) : Bool := isScr side && fieldN side 0 25 % (w / 8) != 0

/-- CPY and CPY.BF: read the group, check it in the order of R365, and gate it. -/
def copyForm (a : BitVec 5) (bf : Bool) : M Unit := do
  M.need (a == 0 || a == 8) clsAccess 7
  let es ← liftC ((List.range 8).mapM fun i => rdE (a + BitVec.ofNat 5 i))
  let e (i : Nat) : W64 := es.getD i 0
  M.need (groupClean e) clsAccess 7
  let s ← get
  let c := CopyCmd.parse e (if bf then s.cur.fl.pattern else none)
  let sd ← copySide c.src
  let dd ← copySide c.dst
  let at' (k : Nat) : M Unit := M.trapAt clsAccess k (handleOf c.src) (offCoord (offsetOf c.src))
  if sideIs sd (fun t => t.cls == 1) || sideIs dd (fun t => t.cls == 1 || t.cls == 2) then at' 4
  let (sw, dw) := sideWidths sd dd
  if sideIs sd Desc.mx || sideIs dd Desc.mx || (!bf && sw != dw) then at' 3
  let p := Pattern.parse (c.pat.getD 0)
  if bf then
    M.need (c.pat.isSome && c.ssc == 0 && c.sstr.all (· == 0) && decide (p.f ≤ dw)) clsAccess 7
  let cores := (s.inst s.cur.inst).cores
  let (slo, shi) := if bf then (0, (c.streamLen p sw : Int) - 1) else termRange c.counts c.sstr c.ssc
  let (dlo, dhi) := termRange c.counts c.dstr c.dsc
  if sideOutside cores c.src sd sw slo shi then at' 1
  if sideOutside cores c.dst dd dw dlo dhi then M.trapAt clsAccess 1 (handleOf c.dst) (offCoord (offsetOf c.dst))
  if sideCrooked c.src sw then at' 2
  if sideCrooked c.dst dw then M.trapAt clsAccess 2 (handleOf c.dst) (offCoord (offsetOf c.dst))
  gate (.cpy c)

/-- CPY (R368). -/
def execCpy (a : BitVec 5) (s : State) : Host.Outcome State Fault Refusal := finish s (copyForm a false)

/-- CPY.BF (R370). -/
def execCpyBf (a : BitVec 5) (s : State) : Host.Outcome State Fault Refusal := finish s (copyForm a true)

/-! ### The start of a command (R362, R371) -/

/-- May command `id` of context `k` start: those of the context before it have, and what an XFENCE before it
covers has been performed (R81, R362)? -/
def State.copyReady (s : State) (k : Nat) (r : CopyRun) : Bool :=
  r.stage == .queued
    && (s.ctx k).fl.copies.all (fun q => decide (r.seq ≤ q.seq) || q.stage != .queued)
    && s.engineReady k r.seq 3

/-- COPY_COMMAND_START: committed command `id` of context `k` starts (R362). -/
def execCopyCommandStart (k id : Nat) (s : State) : Host.Outcome State Fault Refusal :=
  finish s (do
    match s.copyOf k id with
    | none => pure ()
    | some r => if s.copyReady k r then modCopy k id fun q => { q with stage := .running } else pure ())

/-! ### Elements of a side (R364, R366) -/

/-- Where an element lies: an address of a scratchpad, or of device memory.  Of an append page, which the directory keeps no
class for, the bytes from `lim` on read as zero (R272). -/
structure CopyLoc where
  adr : Nat
  scr : Bool
  lim : Option Nat
  deriving DecidableEq, Repr

/-- What translating an element gives: its place, a page that the host owns, or the code and subcode of the
command's failure. -/
inductive Where where
  | ok (l : CopyLoc)
  | wait (h : BitVec 16) (x : Coord)
  | bad (code sub : Nat)
  deriving DecidableEq, Repr

/-- A scratchpad address of `n` bytes as an engine command of context `k` reaches it, or code 2 (R286, R373). -/
def State.scrWhere (s : State) (k : Nat) (a : Int) (n : Nat) : Where :=
  let i := s.inst (s.ctx k).inst
  let core := (a / 0x80000).toNat
  let off := (a % 0x80000).toNat
  let p := i.phys core
  if a < 0 ∨ i.cores ≤ core ∨ (s.core p).scrSize < off + n ∨ (s.core p).moving off n then .bad 2 0
  else .ok ⟨scrAddr p off, true, none⟩

/-- Element `off` of tensor `h` as an engine command of context `k` reaches it; a write to an append page that is not Open at
its home is a write after seal (R273). -/
def elemWhere (k : Nat) (h : BitVec 16) (off : Int) (write : Bool) : M Where := do
  let s ← get
  let l := s.launchOf k
  let die := coreDie (coreOf k)
  let (t, ok) ← descM die l h
  if !ok then return .bad 1 4
  else if off < 0 ∨ (t.elems : Int) ≤ off then return .bad 1 1
  else
    let x := t.ofOffset off.toNat
    match ← xlateM die l h x write with
    | .error 2 => return .wait h x
    | .error n => return .bad 1 n
    | .ok adr => do
      let s ← get
      if !write then requestReplica die t (s.entry die t (t.tileNo x))
      if write ∧ t.cls = 2 ∧ s.apstOf t (t.tileNo x) ≠ 0 then return .bad 9 0
      else return .ok ⟨adr, false, if t.cls = 2 then some (s.commitOf t (t.tileNo x) - adr % 65536) else none⟩

/-- The element of a side at a term of its loop nest. -/
def sideWhere (k : Nat) (side : W64) (term : Int) (w : Nat) (write : Bool) : M Where := do
  if isScr side then return (← get).scrWhere k ((fieldN side 0 25 : Int) + term * (w / 8 : Nat)) (w / 8)
  else elemWhere k (handleOf side) ((offsetOf side : Int) + term) write

/-- Read `n` bytes of a place for an engine of path class `cls` of context `k`. -/
def readLoc (k : Nat) (cls : BitVec 3) (l : CopyLoc) (n : Nat) : M Nat := do
  if l.scr then rdA k false l.adr n
  else
    let v ← engineRead k cls l.lim.isNone l.adr n
    return match l.lim with
      | some m => v % 2 ^ (8 * m)
      | none => v

def writeLoc (k id : Nat) (cls : BitVec 3) (l : CopyLoc) (n v : Nat) : M Unit :=
  if l.scr then wrEngine k cls id l.adr n v else engineWrite k cls id l.lim.isNone l.adr n v

/-- The elements of the source that visit `n` reads, as terms from the source offset (R364, R370). -/
def CopyCmd.sources (c : CopyCmd) (sw n : Nat) : List Int :=
  match c.pat with
  | none => [strideTerm c.sstr c.ssc (visitIdx c.counts n)]
  | some w =>
    let p := Pattern.parse w
    let b := n / p.n * p.per + p.ofs + n % p.n * p.g
    (List.range ((b + p.f - 1) / sw + 1 - b / sw)).map fun i => ((b / sw + i : Nat) : Int)

/-- The elements of the stream that are reached before visit `n` is done, beyond its own: those since the visit before, and
after the last visit the rest of the stream (R370). -/
def CopyCmd.passed (c : CopyCmd) (sw n : Nat) : List Int :=
  match c.pat with
  | none => []
  | some w =>
    let p := Pattern.parse w
    let last (n : Nat) : Nat := (n / p.n * p.per + p.ofs + n % p.n * p.g + p.f - 1) / sw
    let lo := if n = 0 then 0 else last (n - 1) + 1
    let hi := if n + 1 = c.visits then c.streamLen p sw else last n + 1
    ((List.range (hi - lo)).map fun i => ((lo + i : Nat) : Int)).filter fun i => !(c.sources sw n).contains i

/-- The value of visit `n` from its source elements: the element, or the field extended (R368, R370). -/
def CopyCmd.value (c : CopyCmd) (sw dw n : Nat) (vs : List Nat) : Nat :=
  match c.pat with
  | none => vs.headD 0
  | some w =>
    let p := Pattern.parse w
    let b := n / p.n * p.per + p.ofs + n % p.n * p.g
    let v := packNat sw vs / 2 ^ (b % sw) % 2 ^ p.f
    if p.sx ∧ 2 ^ (p.f - 1) ≤ v then v + 2 ^ dw - 2 ^ p.f else v

/-- The places of a visit: what it reads of the source, its own elements first and then those that the stream passes, and its
destination; or the first that is not there. -/
def visitWhere (k : Nat) (c : CopyCmd) (sw dw n : Nat) : M (Except Where (List CopyLoc × CopyLoc)) := do
  let rec go : List Int → M (Except Where (List CopyLoc))
    | [] => return .ok []
    | t :: ts => do
      match ← sideWhere k c.src t sw false with
      | .ok l =>
        match ← go ts with
        | .ok ls => return .ok (l :: ls)
        | .error e => return .error e
      | w => return .error w
  match ← go (c.sources sw n ++ c.passed sw n) with
  | .error e => return .error e
  | .ok ls =>
    match ← sideWhere k c.dst (strideTerm c.dstr c.dsc (visitIdx c.counts n)) dw true with
    | .ok d => return .ok (ls, d)
    | w => return .error w

/-- The first visit from `n` on that cannot be carried out, of `todo` visits. -/
def firstBad (k : Nat) (c : CopyCmd) (sw dw n : Nat) : Nat → M (Option (Nat × Where))
  | 0 => return none
  | todo + 1 => do
    match ← visitWhere k c sw dw n with
    | .error w => return some (n, w)
    | .ok _ => firstBad k c sw dw (n + 1) todo

/-- Carry out `todo` visits from `n` on. -/
def runVisits (k id : Nat) (c : CopyCmd) (sw dw n : Nat) : Nat → M Unit
  | 0 => pure ()
  | todo + 1 => do
    match ← visitWhere k c sw dw n with
    | .error _ => pure ()
    | .ok (ls, d) => do
      let vs ← ls.mapM fun l => readLoc k 3 l (sw / 8)
      writeLoc k id 3 d (dw / 8) (c.value sw dw n (vs.take (c.sources sw n).length))
      runVisits k id c sw dw (n + 1) todo

/-! ### Completion (R372, R373) -/

/-- A status word with one more result merged; `off` is the OFF of a successful export (R372, R387). -/
def mergeStatus (w : W64) (code sub : BitVec 8) (info : W32) (off : Option W32) : W64 :=
  let w := setField w 63 1 1
  let w := setField w 32 8 (min 255 (fieldN w 32 8 + 1))
  if fieldN w 48 8 ≠ 0 then w
  else if code = 0 then (match off with | some o => setField w 0 32 o.toNat | none => w)
  else setField (setField (setField w 48 8 code.toNat) 40 8 sub.toNat) 0 32 info.toNat

/-- Command `id` of context `k` completes and its result merges into the copy status word; that of a command whose
context has parked is not kept (R129). -/
def endCopy (k id : Nat) (code sub : BitVec 8) (info : W32) (off : Option W32) : M Unit :=
  modCtx k fun c =>
    let own := c.fl.copies.any fun q => q.id == id && !q.orphan
    { c with fl := { c.fl with copies := delBy (fun q => q.id == id) c.fl.copies,
                               copyStat := if own then mergeStatus c.fl.copyStat code sub info off else c.fl.copyStat } }

/-- Does the engine hold the command while the host's page moves (R249)? -/
def holdForPage (k : Nat) (cls : BitVec 3) (id : Nat) (w : Where) : M Unit := do
  match w with
  | .wait h x =>
    let s ← get
    let t := s.desc (coreDie (coreOf k)) (s.launchOf k) h
    requestMove (s.ctx k).launch h (t.tileNo x) (t.entryAddr (t.tileNo x)) false (.cmd k cls id)
  | _ => pure ()

/-- A copy does its visits up to the first that fails, and completes; where the driver has refused the page, it fails
with the code it was given (R368, R370, R373, R247). -/
def runCopy (k : Nat) (r : CopyRun) (c : CopyCmd) : M Unit := do
  let s ← get
  let side (x : W64) : M (Option (Desc × Bool)) := do
    if isScr x then return none else return some (← descM (coreDie (coreOf k)) (s.launchOf k) (handleOf x))
  let (sw, dw) := sideWidths (← side c.src) (← side c.dst)
  match ← firstBad k c sw dw 0 c.visits with
  | none => do
    runVisits k r.id c sw dw 0 c.visits
    endCopy k r.id 0 0 0 none
  | some (n, .bad code sub) => do
    runVisits k r.id c sw dw 0 n
    endCopy k r.id (BitVec.ofNat 8 code) (BitVec.ofNat 8 sub) (BitVec.ofNat 32 n) none
  | some (n, w) =>
    if r.code ≠ 0 then do
      runVisits k r.id c sw dw 0 n
      endCopy k r.id r.code r.sub (BitVec.ofNat 32 n) none
    else holdForPage k 3 r.id w

/-- The words that an export read, up to the first missing one. -/
def fexpWords (got : AMap W32) (n i : Nat) : List Nat :=
  match n with
  | 0 => []
  | m + 1 => match got.find? i with
    | some v => v.toNat :: fexpWords got m (i + 1)
    | none => []

/-- An export whose taps have been read writes its range, zeros from the first word that failed, and completes;
one that was refused completes with its code (R354, R372, R373). -/
def runFexp (k : Nat) (r : CopyRun) (c : ExpCmd) : M Unit := do
  let s ← get
  match r.resv with
  | none => if r.code ≠ 0 then endCopy k r.id r.code r.sub r.info none else pure ()
  | some (p, off) =>
    if s.fops.any (fun f => f.kind == .taps r.id) then pure ()
    else do
      let w := (EFmt.ofCode c.fmt.toNat).width
      let vs := fexpWords r.got (r.limit c.count) 0
      let data := leBytes (packNat w vs) (c.count * (w / 8))
      modMp fun mp => { mp with resvs := updBy (fun q => q.page == p && q.id == r.id) (fun q => { q with data := data }) mp.resvs }
      writeResv p r.id
      if vs.length < c.count then
        let ref := s.bankRef (coreDie (coreOf k)) (s.ctx k).launch (handleOf c.src)
        let sub := (s.exportFault ref (offsetOf c.src + vs.length)).getD 1
        endCopy k r.id (if r.code = 0 then 1 else r.code) (if r.code = 0 then BitVec.ofNat 8 sub else r.sub)
          (BitVec.ofNat 32 vs.length) none
      else endCopy k r.id 0 0 0 (some (BitVec.ofNat 32 off))

/-- COPY_COMPLETE: the reads and writes of running command `id` of context `k` finish, and it completes (R368,
R370, R354, R372). -/
def execCopyComplete (k id : Nat) (s : State) : Host.Outcome State Fault Refusal :=
  finish s (do
    match s.copyOf k id with
    | none => pure ()
    | some r =>
      if r.stage = .running then
        match r.cpy, r.exp with
        | some c, _ => runCopy k r c
        | none, some c => runFexp k r c
        | none, none => pure ())

/-! ### Waiting (R374) -/

/-- Completed copy commands of context `k` are seen complete (R81, R374). -/
def seeCopies (k : Nat) : M Unit := do
  let open' := ((← get).ctx k).fl.copies.map CopyRun.id
  let see (w : EWrite) : EWrite := if w.ctx == k && w.cls == 3 && !open'.contains w.id then { w with seen := true } else w
  modMp fun mp => { mp with unperf := mp.unperf.map see }

/-- An e register written for context `k`. -/
def putE (k : Nat) (d : BitVec 5) (v : W64) : M Unit := do
  match (wrE d v) ((← get).ctx k) with
  | .ok (_, c) => modCtx k fun _ => c
  | .error h => throw h

/-- The end of a CPYW: the status word is in e[d] and clear. -/
def cpywDone (k : Nat) (d : Option (BitVec 5)) : M Unit := do
  seeCopies k
  match d with
  | none => pure ()
  | some d => do
    putE k d ((← get).ctx k).fl.copyStat
    modCtx k fun c => { c with fl := { c.fl with copyStat := 0 } }

/-- The copy commands outstanding at the engine. -/
def Flight.liveCopies (f : Flight) : Nat := (f.copies.filter fun q => !q.orphan).length

def Eff.isCopy : Eff → Bool
  | .cpy _ => true
  | .fexp _ => true
  | _ => false

/-- The copy commands that a wait form counts: those outstanding, and those committed that are yet to pass to the engine
(R226, R374). -/
def Flight.ownCopies (f : Flight) : Nat := f.liveCopies + (f.commits.filter fun g => g.eff.isCopy).length

/-- The log entry of a register that a wait form will write. -/
def saveE (d : Option (BitVec 5)) : M Unit := do
  match d with
  | some d => do
    let c := (← get).cur
    liftC (logSave (.e d.toNat (c.regE d.toNat)))
  | none => pure ()

def cpyw (d : Option (BitVec 5)) (n : Nat) : M Unit := do
  let s ← get
  if s.cur.fl.ownCopies ≤ n then cpywDone s.focus d
  else do
    saveE d
    waitFor (.cpyw d n)

/-- CPYW (R374). -/
def execCpyw (d : BitVec 5) (n : BitVec 3) (s : State) : Host.Outcome State Fault Refusal :=
  finish s (cpyw (some d) n.toNat)

/-- CPYW.ALL (R374). -/
def execCpywAll (s : State) : Host.Outcome State Fault Refusal := finish s (cpyw none 0)

/-- CPYW_RELEASE: the outstanding copy commands of context `k` have fallen to the count it waits for (R374). -/
def execCpywRelease (k : Nat) (s : State) : Host.Outcome State Fault Refusal :=
  onEvent s k (do
    let c := (← get).ctx k
    match c.wait with
    | .cpyw d n =>
      if c.fl.ownCopies ≤ n then do
        modCtx k Ctx.nextWait
        cpywDone k d
    | _ => pure ())

end Sys2Proof.Machine
end

