-- ==== Sys2Proof/Machine/Fabric.lean ====
section
/-!
DEFINITION. Sys2Proof/Machine/Fabric.lean: the fabric engine: puts, grants, groups, collectives, handlers and
links (R98, R377 to R399, R421).

A message leaves by `State.outbox`; the messages of peers come in as events.  A message of the device to
itself leaves and comes back by the outside.  A timeout is an event of the outside too (log entry 21).
-/

namespace Sys2Proof.Machine

/-! ### Messages out (R398) -/

/-- A payload cut into at most `n` flits of 244 bytes, and at least one. -/
def flitsOf : Nat → List Byte → List (List Byte)
  | 0, b => [b.take 244]
  | n + 1, b => b.take 244 :: (if b.length ≤ 244 then [] else flitsOf n (b.drop 244))

/-- The flits of a message, the last of them with the message that it ends.  How a message's fields stand beside its payload
is not the spec's (log entry 74). -/
def FabMsg.flits (m : FabMsg) : List (List Byte × Option FabMsg) :=
  let fs := flitsOf m.data.length m.data
  fs.zipIdx.map fun f => (f.1, if f.2 + 1 = fs.length then some m else none)

/-- At most `n` of the flits that wait at a port leave, while its replay buffer has room for them; the messages that have
left whole (R398). -/
def Port.pump : Nat → Port → Port × List FabMsg
  | 0, p => (p, [])
  | n + 1, p =>
    match p.queue with
    | [] => (p, [])
    | (b, m) :: q =>
      if 256 ≤ p.replay.length then (p, [])
      else
        let r := Port.pump n { p with txSeq := p.txSeq + 1, replay := p.replay ++ [(p.txSeq, b)], queue := q }
        (r.1, m.toList ++ r.2)

def State.port (s : State) (n : Nat) : Port := s.ports.get Port.trained n

/-- What can leave port `n` leaves. -/
def pumpPort (n : Nat) : M Unit :=
  modify fun s =>
    let r := (s.port n).pump (s.port n).queue.length
    { s with ports := s.ports.set n r.1, outbox := s.outbox ++ r.2 }

/-- The port that a destination is reached by: of the routes to it, the first whose port is up (R399). -/
def State.routeTo (s : State) (dst : Nat) : Option Nat :=
  findBy (fun n => !(s.port n).down) ((List.range 12).map fun i => Config.route dst i % 12)

/-- A message leaves in flits of the port that its destination is reached by, and what the replay buffer has no room for
waits there; one that no route is left for is lost (R398, R399). -/
def sendMsg (m : FabMsg) : M Unit := do
  match (← get).routeTo m.dst.toNat with
  | none => pure ()
  | some n => do
    modify fun s => { s with ports := s.ports.set n { s.port n with queue := (s.port n).queue ++ FabMsg.flits m } }
    pumpPort n

/-- The answer of device `dev` to a message: a code, or a hold notice. -/
def answerTo (dev : Nat) (m : FabMsg) (kd : FabKind) (code sub : Nat) : FabMsg :=
  { m with kind := kd, src := BitVec.ofNat 8 dev, dst := m.src, data := [], flag := none, chunk := code,
           form := sub }

def ack (m : FabMsg) (code sub : Nat) : M Unit := do
  sendMsg (answerTo (← get).mg.dev m .ack code sub)

/-! ### Grants (R379, R380) -/

/-- The rights of a grant entry, by their bit. -/
inductive Right where
  | wr | sm | hd
  deriving DecidableEq, Repr

def Right.bit : Right → Nat
  | .wr => 126 | .sm => 125 | .hd => 124

/-- Does an entry admit targets `lo` to `hi - 1` of a handle to a device? -/
def grantAdmits (e : BitVec 128) (src : BitVec 8) (h : BitVec 16) (lo hi : Nat) (r : Right) : Bool :=
  e.getLsbD 127 && e.getLsbD r.bit && decide (fieldN e 104 8 ≤ src.toNat) && decide (src.toNat ≤ fieldN e 112 8)
    && fieldN e 80 16 == h.toNat && (decide (hi ≤ lo) || (decide (fieldN e 0 32 ≤ lo) && decide (hi ≤ fieldN e 32 32)))

/-- Is an arrival admitted: one valid entry meets every condition? -/
def Launch.admits (l : Launch) (src : BitVec 8) (h : BitVec 16) (lo hi : Nat) (r : Right) : Bool :=
  l.grants.any fun e => grantAdmits e src h lo hi r

/-! ### Starting a context (R98, R99, R177, R222) -/

/-- The generator key of a context (R177). -/
def genKey (seed : W64) (inst core ctx : Nat) : W64 := seed ^^^ BitVec.ofNat 64 (inst * 2 ^ 24 + core * 2 ^ 8 + ctx)

/-- A context as a start leaves it: s0 to s7 hold the launch words, and it begins at `entry`; the start counts as
its first mark. -/
def Ctx.start (c : Ctx) (l : Launch) (idx k : Nat) (entry : W32) : Ctx :=
  let ss : AMap (Reg 64) := (List.range 8).map fun i => (i, ⟨true, l.words.getD i 0⟩)
  let c : Ctx :=
    { c.dormant with
      st := .active, key := genKey l.seed idx c.icore (k % 4), ctr := 0, priv := l.priv,
      files := { Files.empty with s := ss }, sq := { Seqr.zero with pc := entry, npc := entry, after := entry } }
  { c with seg := { Segment.start with snap := c.snapshot }, fl := { c.fl with markSeq := c.fl.seq } }

/-! ### Completion (R386 to R388) -/

def State.fabOf (s : State) (k id : Nat) : Option FabRun := findBy (fun r => r.id == id) (s.ctx k).fl.fabs
def modFab (k id : Nat) (f : FabRun → FabRun) : M Unit :=
  modCtx k fun c => { c with fl := { c.fl with fabs := updBy (fun r => r.id == id) f c.fl.fabs } }

/-- Forms whose denial is a grant fault: plain puts and the strict multicast (R386). -/
def FabOp.strict : FabOp → Bool
  | .put => true
  | .putH => true
  | .putSmp => true
  | .putmS => true
  | _ => false

/-- Fabric command `r` of context `k` completes: its result merges into the fabric status word, but for a command
whose context has parked; a denial of a strict form ends the context with a grant fault (R386, R387, R129). -/
def endFab (k : Nat) (r : FabRun) (code sub : Nat) (info : W32) : M Unit := do
  modCtx k fun c =>
    let own := c.fl.fabs.any fun q => q.id == r.id && !q.orphan
    let st := mergeStatus c.fl.fabStat (BitVec.ofNat 8 code) (BitVec.ofNat 8 sub) info none
    { c with fl := { c.fl with fabs := delBy (fun q => q.id == r.id) c.fl.fabs,
                               fabStat := if own then st else c.fl.fabStat } }
  let c := (← get).ctx k
  if code = 1 ∧ r.cmd.op.strict ∧ !r.orphan ∧ c.live then
    takeTrap k { Trap.mk' clsGrant 0 with precise := false }

/-! ### Checks at issue (R381, R382, R454) -/

/-- The four registers of a group; access fault 7 where it does not start at 0, 4, 8 or 12 (R381). -/
def fabGroup (a : BitVec 5) : M (W64 × W64 × W64 × W64) := do
  M.need (a.toNat % 4 == 0) clsAccess 7
  liftC do
    return (← rdE a, ← rdE (a + 1), ← rdE (a + 2), ← rdE (a + 3))

/-- A field of a group that must be zero. -/
def zeroAt (w : W64) (lo n : Nat) : Bool := fieldN w lo n == 0

def FabOp.isMulti (o : FabOp) : Bool := o == .putm || o == .putmS

/-- The fields of a put group: limits, alignment and reserved fields (R382, R454). -/
def putFieldsOk (o : FabOp) (g1 g2 g3 : W64) : Bool :=
  let len := fieldN g2 0 24
  let smp := o == .putSmp
  decide (8 ≤ len) && decide (len ≤ 524288) && len % 8 == 0 && zeroAt g2 24 8 && zeroAt g2 36 28
    && (o.isMulti || zeroAt g2 32 4) && zeroAt g3 20 4
    && (if smp then fieldN g1 48 16 != 0 && zeroAt g3 9 55
        else zeroAt g1 48 16 && zeroAt g1 29 11 && fieldN g1 0 19 % 8 == 0 && fieldN g3 0 19 % 8 == 0)
    && (match o with
        | .put => zeroAt g3 24 8 && (g3.getLsbD 19 || (zeroAt g3 32 32 && zeroAt g3 0 19))
        | .putH => !g3.getLsbD 19
        | .putSmp => true
        | _ => g3 == 0)

/-- Access faults 4, 3, 1 and 2 of a side of `n` elements of `w` bits, in the order of R365; `cls` says which
classes do not serve. -/
def fabSide (side : W64) (x : Option (Desc × Bool)) (cls : Desc → Bool) (w n : Nat) : M Unit := do
  let s ← get
  let bad (k : Nat) : M Unit := M.trapAt clsAccess k (handleOf side) (offCoord (offsetOf side))
  if sideIs x cls then bad 4
  if sideIs x Desc.mx || sideIs x (fun t => t.bits != w) then bad 3
  if isScr side && fieldN side 25 23 != 0 then bad 7
  if n ≠ 0 ∧ sideOutside (s.inst s.cur.inst).cores side x w 0 ((n : Int) - 1) then bad 1
  if sideCrooked side w then bad 2

def isFilter (t : Desc) : Bool := t.cls == 1

/-- The bits of an element of a put's source: of its tensor, or 64 for a scratchpad. -/
def putWidth (x : Option (Desc × Bool)) : Nat := (sideWidths x none).1

/-- A put form: checked and gated; VS is captured (R383, R385). -/
def putForm (o : FabOp) (a : BitVec 5) : M Unit := do
  let (g0, g1, g2, g3) ← fabGroup a
  M.need (putFieldsOk o g1 g2 g3) clsAccess 7
  let x ← copySide g0
  let w := putWidth x
  fabSide g0 x isFilter w (fieldN g2 0 24 * 8 / w)
  let f := (← get).cur.sq.fmt
  gate (.fab { op := o, g0 := g0, g1 := g1, g2 := g2, g3 := g3, vs := BitVec.ofNat 4 (fmtVS f) })

/-- PUT (R383). -/
def execPut (a : BitVec 5) (s : State) : Host.Outcome State Fault Refusal := finish s (putForm .put a)
/-- PUT.H (R384). -/
def execPutH (a : BitVec 5) (s : State) : Host.Outcome State Fault Refusal := finish s (putForm .putH a)
/-- PUT.SMP (R385). -/
def execPutSmp (a : BitVec 5) (s : State) : Host.Outcome State Fault Refusal := finish s (putForm .putSmp a)
/-- PUTM (R386). -/
def execPutm (a : BitVec 5) (s : State) : Host.Outcome State Fault Refusal := finish s (putForm .putm a)
/-- PUTM.S (R386). -/
def execPutmS (a : BitVec 5) (s : State) : Host.Outcome State Fault Refusal := finish s (putForm .putmS a)

/-! ### Groups (R392, R393) -/

/-- A group slot after a gated group form has committed. -/
def groupAfter (slot : BitVec 4) (g : Option Group) (e : Eff) : Option Group :=
  match e with
  | .grp sl ms self tmo => if sl = slot then some { epoch := 0, tmo := tmo, self := self, members := ms } else g
  | .grpEx sl pos =>
    if sl = slot then g.map fun x =>
      if pos < x.members.length ∧ pos ≠ x.self then
        { x with epoch := x.epoch + 1, self := if pos < x.self then x.self - 1 else x.self,
                 members := x.members.eraseIdx pos }
      else x
    else g
  | _ => g

/-- A slot as context `k` sees it: its own group forms, committed or gated, applied (R393). -/
def State.groupView (s : State) (k : Nat) (slot : BitVec 4) : Option Group :=
  let c := s.ctx k
  ((c.fl.commits ++ c.fl.gate).map GateEnt.eff).foldl (groupAfter slot) ((s.inst c.inst).groups.find? slot.toNat)

/-- The position of device `dev` in a member list. -/
def selfPos (dev : Nat) (ms : List (BitVec 8)) : Nat := ms.findIdx fun d => d.toNat == dev

/-- GRP: the member list is read and checked at issue (R393). -/
def execGrp (a b : BitVec 5) (s : State) : Host.Outcome State Fault Refusal :=
  finish s (do
    let v ← liftC (rdE a)
    let y ← liftC (rdE b)
    let n := fieldN y 8 8 + 1
    let (h, off, _) ← gathTensor v 8 n false
    let k := (← get).focus
    let dev := (← get).mg.dev
    match ← readElems k 4 ((← get).launchOf k) h off 1 n with
    | .error (e, x) => translationFault k h (offCoord off) (e, x)
    | .ok ms => do
      if !ms.Nodup || ms.any (fun d => decide (143 < d)) || !ms.contains dev then
        M.trapAt clsAccess 7 h (offCoord off)
      let ds := ms.map (BitVec.ofNat 8)
      let tmo := fieldN y 16 16
      gate (.grp (BitVec.ofNat 4 (fieldN y 0 4)) ds (selfPos dev ds) (if tmo = 0 then 20 else tmo)))

/-- GRP.EX (R393). -/
def execGrpEx (a : BitVec 5) (s : State) : Host.Outcome State Fault Refusal :=
  finish s (do
    let v ← liftC (rdE a)
    let slot := BitVec.ofNat 4 (fieldN v 0 4)
    let pos := fieldN v 8 8
    match (← get).groupView (← get).focus slot with
    | none => M.trap clsAccess 7
    | some g => do
      M.need (decide (pos < g.members.length) && pos != g.self) clsAccess 7
      gate (.grpEx slot pos))

/-- A group's header word (R392). -/
def Group.header (g : Group) : W64 :=
  BitVec.ofNat 64 (2 ^ 63 + g.epoch.toNat * 2 ^ 48 + g.tmo % 65536 * 2 ^ 32 + g.members.length % 256 * 2 ^ 16
    + g.self % 256 * 2 ^ 8)

/-- GRP.Q: not gated (R393). -/
def execGrpQ (d a : BitVec 5) (s : State) : Host.Outcome State Fault Refusal :=
  finish s (do
    let v ← liftC (rdE a)
    let sel := fieldN v 8 8
    match (← get).groupView (← get).focus (BitVec.ofNat 4 (fieldN v 0 4)) with
    | none => M.trap clsAccess 7
    | some g => do
      M.need (decide (sel ≤ g.members.length)) clsAccess 7
      liftC (wrE d (if sel = 0 then g.header else (g.members.getD (sel - 1) 0).setWidth 64)))

/-! ### Collectives at issue (R382, R394, R395) -/

/-- What a collective does: its form, elements, format, op, algorithm with auto resolved, and group size. -/
structure Coll where
  op : FabOp
  n : Nat
  fm : Nat
  red : Nat
  alg : Nat
  size : Nat
  deriving DecidableEq, Repr

/-- A collective of a group of `size` members: auto is direct where 4n is at most 1,024 bytes; RSF always runs
direct (R394, R395). -/
def Coll.of (c : FabCmd) (size : Nat) : Coll :=
  let n := fieldN c.g2 0 32
  let a := fieldN c.g2 40 2
  { op := c.op, n := n, fm := fieldN c.g2 36 4, red := fieldN c.g2 42 2,
    alg := if c.op = .rsf then 3 else if a = 0 then (if 4 * n ≤ 1024 then 3 else 1) else a, size := size }

/-- The elements of chunk j (R394). -/
def Coll.chunk (c : Coll) (j : Nat) : List Nat :=
  let w := (c.n + c.size - 1) / c.size
  (List.range (min ((j + 1) * w) c.n - min (j * w) c.n)).map (j * w + ·)

/-- The fields of a collective group (R382). -/
def collFieldsOk (o : FabOp) (g2 g3 : W64) : Bool :=
  fieldN g2 0 32 != 0 && zeroAt g2 44 20 && decide (fieldN g2 36 4 ≤ 2) && fieldN g2 42 2 != 3 && g3 == 0
    && (o != .rsf || zeroAt g2 42 2)

/-- A collective form: checked and gated; RSF captures VS (R394, R395). -/
def collForm (o : FabOp) (a : BitVec 5) : M Unit := do
  let (g0, g1, g2, g3) ← fabGroup a
  M.need (collFieldsOk o g2 g3) clsAccess 7
  let s ← get
  let vs := fmtVS s.cur.sq.fmt
  let cmd : FabCmd := { op := o, g0 := g0, g1 := g1, g2 := g2, g3 := g3, vs := BitVec.ofNat 4 vs }
  let n := fieldN g2 0 32
  let own := match s.groupView s.focus (BitVec.ofNat 4 (fieldN g2 32 4)) with
    | some g => ((Coll.of cmd g.members.length).chunk g.self).length
    | none => 0
  let x ← copySide g0
  let y ← copySide g1
  fabSide g0 x isFilter (if o = .rsf then (EFmt.ofCode vs).width else 32) (if o = .ag then own else n)
  if o = .rsf then
    if isScr g1 || sideIs y (fun t => t.cls != 1) then M.trapAt clsAccess 4 (handleOf g1) (offCoord (offsetOf g1))
    if sideIs y (fun t => decide (t.elems < offsetOf g1 + own)) then
      M.trapAt clsAccess 1 (handleOf g1) (offCoord (offsetOf g1))
  else fabSide g1 y (fun t => t.cls == 1 || t.cls == 2) 32 (if o = .rs then own else n)
  gate (.fab cmd)

/-- COLL.AR (R394). -/
def execCollAr (a : BitVec 5) (s : State) : Host.Outcome State Fault Refusal := finish s (collForm .ar a)
/-- COLL.RS (R394). -/
def execCollRs (a : BitVec 5) (s : State) : Host.Outcome State Fault Refusal := finish s (collForm .rs a)
/-- COLL.AG (R394). -/
def execCollAg (a : BitVec 5) (s : State) : Host.Outcome State Fault Refusal := finish s (collForm .ag a)
/-- COLL.RSF (R395). -/
def execCollRsf (a : BitVec 5) (s : State) : Host.Outcome State Fault Refusal := finish s (collForm .rsf a)

/-! ### The rounds of a collective (R394) -/

/-- ⊕ on two elements (R394). -/
def Coll.comb (c : Coll) (x y : Nat) : Nat :=
  let op : AmoOp := match c.red with | 0 => .add | 1 => .max | _ => .min
  op.apply (match c.fm with | 0 => 0 | 1 => 7 | _ => 10) 32 x y

/-- ceil(log2 N). -/
def Coll.levels (c : Coll) : Nat := if c.size ≤ 1 then 0 else Nat.log2 (2 * c.size - 1)

/-- Rounds in which the ring combines; the rest pass completed chunks on. -/
def Coll.redRounds (c : Coll) : Nat := if c.op = .ag then 0 else c.size - 1

def Coll.rounds (c : Coll) : Nat :=
  match c.alg with
  | 1 => c.redRounds + (if c.op = .rs then 0 else c.size - 1)
  | 2 => 2 * c.levels
  | _ => 1

def Coll.others (c : Coll) (p : Nat) : List Nat := (List.range c.size).filter (· != p)

/-- The half-width of tree round `r`, on the way up and then down. -/
def Coll.half (c : Coll) (r : Nat) : Nat := if r ≤ c.levels then 2 ^ (c.levels - r) else 2 ^ (r - c.levels - 1)

/-- Whom position `p` sends to in round `r`. -/
def Coll.targets (c : Coll) (p r : Nat) : List Nat :=
  match c.alg with
  | 1 => [(p + 1) % c.size]
  | 2 =>
    let h := c.half r
    if r ≤ c.levels then (if h ≤ p ∧ p < 2 * h then [p - h] else [])
    else if p < h ∧ p + h < c.size then [p + h] else []
  | _ => c.others p

/-- Whose input position `p` awaits in round `r`. -/
def Coll.awaits (c : Coll) (p r : Nat) : List Nat := (c.others p).filter fun q => (c.targets q r).contains p

/-- The elements that position `p` sends in round `r`. -/
def Coll.sent (c : Coll) (p r : Nat) : List Nat :=
  match c.alg with
  | 1 =>
    if r ≤ c.redRounds then c.chunk ((p + c.size - r) % c.size)
    else c.chunk ((p + c.size + 1 - (r - c.redRounds)) % c.size)
  | 2 =>
    if c.op = .ag ∧ r ≤ c.levels then
      ((List.range c.size).filter fun q => q % (2 * c.half r) == p).flatMap c.chunk
    else List.range c.n
  | _ => if c.op = .ag then c.chunk p else List.range c.n

/-- Elements as a message's bytes, and back. -/
def elemBytes (w : Nat) (vs : List Nat) : List Byte := leBytes (packNat w vs) (vs.length * (w / 8))
def elemsOf (w n : Nat) (b : List Byte) : List Nat := (List.range n).map fun i => ofBytes b / 2 ^ (w * i) % 2 ^ w

/-- Put values at their element numbers. -/
def putVals (m : AMap W32) (is vs : List Nat) : AMap W32 :=
  (is.zip vs).foldl (fun m x => m.set x.1 (BitVec.ofNat 32 x.2)) m

/-- The values that position `p` holds after round `r`, from those before and the inputs by position. -/
def Coll.combine (c : Coll) (p r : Nat) (acc : AMap W32) (ins : List (Nat × List Byte)) : AMap W32 :=
  let vals (q : Nat) : List Nat :=
    elemsOf 32 (c.sent q r).length (match findBy (fun i => i.1 == q) ins with | some i => i.2 | none => [])
  let pass : AMap W32 := (c.awaits p r).foldl (fun m q => putVals m (c.sent q r) (vals q)) acc
  let cur (i : Nat) : Nat := (acc.get 0 i).toNat
  if c.op = .ag then pass
  else match c.alg with
    | 1 =>
      if r ≤ c.redRounds then
        (c.awaits p r).foldl (fun m q =>
          putVals m (c.sent q r) ((c.sent q r).zip (vals q) |>.map fun x => c.comb x.2 (cur x.1))) acc
      else pass
    | 2 =>
      if r ≤ c.levels then
        (c.awaits p r).foldl (fun m q =>
          putVals m (c.sent q r) ((c.sent q r).zip (vals q) |>.map fun x => c.comb (cur x.1) x.2)) acc
      else pass
    | _ =>
      let rows := (List.range c.size).map fun q => if q = p then (List.range c.n).map cur else vals q
      putVals acc (List.range c.n) ((List.range c.n).map fun i =>
        match rows.map fun v => v.getD i 0 with
        | [] => 0
        | x :: xs => xs.foldl c.comb x)

/-- The elements of the destination that position `p` writes: element of the vector, place in the destination. -/
def Coll.dest (c : Coll) (p : Nat) : List (Nat × Nat) :=
  if c.op = .rs then (c.chunk p).zipIdx else (List.range c.n).map fun i => (i, i)

/-- The places of the destination of position `p` that elements sent to it fill. -/
def Coll.lands (c : Coll) (p : Nat) (is : List Nat) : List Nat :=
  ((c.dest p).filter fun d => is.contains d.1).map (·.2)

/-! ### The engine takes a command (R383 to R386, R394, R395) -/

/-- The destination of an element of a side, from its place (R364). -/
def fabWhere (k : Nat) (side : W64) (i w : Nat) (write : Bool) : M Where := sideWhere k side (i : Nat) w write

/-- `n` elements of a source, or the first that cannot be read. -/
def readSide (k : Nat) (side : W64) (w i : Nat) : Nat → M (Except Where (List Nat))
  | 0 => return .ok []
  | n + 1 => do
    match ← fabWhere k side i w false with
    | .ok l => do
      let v ← readLoc k 4 l (w / 8)
      match ← readSide k side w (i + 1) n with
      | .ok vs => return .ok (v :: vs)
      | .error e => return .error e
    | e => return .error e

/-- The code and subcode of a command that meets a place it cannot use: 2, 9 for a write after seal, or 10 with the subcode
of its translation (R273, R387). -/
def whereCode (code sub : Nat) : Nat × Nat := if code = 2 ∨ code = 9 then (code, 0) else (10, sub)

/-- A command that meets a place it cannot use: the page moves first, or the command completes with its code (R249, R387). -/
def fabBad (k : Nat) (r : FabRun) (w : Where) : M Unit :=
  match w with
  | .bad code sub => endFab k r (whereCode code sub).1 (whereCode code sub).2 0
  | w => holdForPage k 4 r.id w

/-- A message of command `r` of context `k`, without its content. -/
def FabRun.msg (s : State) (k : Nat) (r : FabRun) (kd : FabKind) (dst : BitVec 8) : FabMsg :=
  { kind := kd, job := (s.launchOf k).job, src := BitVec.ofNat 8 s.mg.dev, dst := dst, id := r.id, addr := r.cmd.g1,
    data := [], flag := none, handler := 0, inst := BitVec.ofNat 4 (s.inst (s.ctx k).inst).idx,
    slot := BitVec.ofNat 4 (fieldN r.cmd.g2 32 4), epoch := r.epoch, k := r.k, round := 0, chunk := 0, form := 0, count := 0,
    pos := 0, exform := 0 }

/-- Samples from a source: their 48-bit values, and whether any was saturated (R321, R385). -/
def samplesOf (vs : BitVec 4) (e : Int) (xf : Nat) (xs : List Nat) : List Int × Bool :=
  let ys := xs.map fun x => sampleInt (EFmt.ofCode vs.toNat) e xf 48 x
  (ys.map (·.1), ys.any (·.2))

def sampleBytes (xs : List Int) : List Byte := elemBytes 48 (xs.map (lowBits 48))

/-- A put that has read its source: the message to each destination with its position. -/
def putMsgs (s : State) (k : Nat) (r : FabRun) (data : List Byte) : List FabMsg :=
  let c := r.cmd
  let len := fieldN c.g2 0 24
  let flag : W64 := BitVec.ofNat 64 (fieldN c.g3 32 32 * 2 ^ 32 + s.mg.dev * 2 ^ 24 + len)
  let m := r.msg s k .put (BitVec.ofNat 8 (fieldN c.g1 40 8))
  let f := some (fieldN c.g3 0 19, flag)
  match c.op with
  | .putH => [{ m with kind := .putH, data := data, flag := f, handler := BitVec.ofNat 8 (fieldN c.g3 24 8) }]
  | .putSmp => [{ m with kind := .sample, data := data, count := data.length / 6, exform := BitVec.ofNat 9 (fieldN c.g3 0 9) }]
  | .put => [{ m with data := data, flag := if c.g3.getLsbD 19 then f else none }]
  | _ => (r.members.zipIdx.filter fun d => d.2 != r.self).map fun d => { m with dst := d.1, data := data, pos := d.2 }

/-- The engine reaches a put: it reads the source and sends (R383, R385, R386). -/
def startPut (k : Nat) (r : FabRun) : M Unit := do
  let s ← get
  let c := r.cmd
  if c.op.isMulti ∧ (r.members.isEmpty ∨ 32 < r.members.length) then endFab k r 7 0 0
  else do
    let x ← if isScr c.g0 then pure none
      else (do return some (← descM (coreDie (coreOf k)) (s.launchOf k) (handleOf c.g0)))
    let w := putWidth x
    let len := fieldN c.g2 0 24
    match ← readSide k c.g0 w 0 (len * 8 / w) with
    | .error e => fabBad k r e
    | .ok vs => do
      let raw := packNat w vs
      let data ← if c.op = .putSmp then (do
          let v := (EFmt.ofCode c.vs.toNat).width
          let (xs, sat) := samplesOf c.vs (intVal true 7 (fieldN c.g3 0 7)) (fieldN c.g3 7 2)
            ((List.range (len * 8 / v)).map fun i => raw / 2 ^ (v * i) % 2 ^ v)
          if r.orphan then pure () else setFsat k sat
          pure (sampleBytes xs))
        else pure (leBytes raw len)
      let ms := putMsgs (← get) k r data
      ms.forM sendMsg
      if ms.isEmpty then endFab k r 0 0 0
      else modFab k r.id fun q => { q with stage := .running, pending := ms.map FabMsg.pos }

def FabRun.coll (r : FabRun) : Coll := Coll.of r.cmd r.members.length

/-- The number that a collective's messages carry for its form, format, op and algorithm (R394). -/
def FabCmd.formNo (c : FabCmd) : Nat :=
  (match c.op with | .ar => 0 | .rs => 1 | .ag => 2 | _ => 3) + 8 * fieldN c.g2 36 8

/-- The messages of the round that a collective is in leave (R396). -/
def sendRound (k : Nat) (r : FabRun) : M Unit := do
  let s ← get
  let c := r.coll
  (c.targets r.self r.round).forM fun q =>
    let vs := (c.sent r.self r.round).map fun i => (r.acc.get 0 i).toNat
    sendMsg { r.msg s k .coll (r.members.getD q 0) with
              data := elemBytes 32 vs, round := r.round, form := r.cmd.formNo, count := c.n, pos := r.self }

/-- The inputs of a round by position. -/
def FabRun.inputsOf (r : FabRun) (n : Nat) : List (Nat × List Byte) :=
  (r.inputs.filter fun i => i.1 == n).map (·.2)

/-- Rounds whose inputs have all arrived are combined, and the next round's messages leave (R396). -/
def advanceColl (k id : Nat) : Nat → M Unit
  | 0 => pure ()
  | n + 1 => do
    match (← get).fabOf k id with
    | none => pure ()
    | some r =>
      let c := r.coll
      let ins := r.inputsOf r.round
      if r.stage = .running ∧ r.round ≤ c.rounds ∧ (c.awaits r.self r.round).all (fun q => ins.any fun i => i.1 == q) then do
        let acc := c.combine r.self r.round r.acc ins
        modFab k id fun q => { q with acc := acc, round := r.round + 1 }
        match (← get).fabOf k id with
        | none => pure ()
        | some r =>
          if r.round ≤ c.rounds then sendRound k r else pure ()
          advanceColl k id n
      else pure ()

/-- The engine reaches an all-reduce, reduce-scatter or all-gather: it reads the source and the first round begins. -/
def startColl (k : Nat) (r : FabRun) : M Unit := do
  let c := r.coll
  let is := if c.op = .ag then c.chunk r.self else List.range c.n
  match ← readSide k r.cmd.g0 32 0 is.length with
  | .error e => fabBad k r e
  | .ok vs => do
    modFab k r.id fun q => { q with stage := .running, round := 1, acc := putVals [] is vs }
    match (← get).fabOf k r.id with
    | none => pure ()
    | some r =>
      if 1 ≤ c.rounds then sendRound k r else pure ()
      advanceColl k r.id (c.rounds + 1)

/-- Accept a sample that a fabric command carries, for word `i` of a bank at its planer. -/
def sampleHere (r : BankRef) (i : Nat) (x : Int) : M Bool := do
  match (← get).wordAddr r i with
  | none => return false
  | some a => do
    acceptSample (addrChannel a) r i a x false
    return true

/-- Samples for consecutive words, in ascending order; false where a word is not mapped. -/
def samplesHere (r : BankRef) (i : Nat) : List Int → M Bool
  | [] => return true
  | x :: xs => do
    if ← sampleHere r i x then samplesHere r (i + 1) xs else return false

/-- The engine reaches a COLL.RSF: the source is sampled for the banks of the members, its own chunk locally (R395). -/
def startRsf (k : Nat) (r : FabRun) : M Unit := do
  let s ← get
  let c := r.coll
  let die := coreDie (coreOf k)
  let h := handleOf r.cmd.g1
  let off := offsetOf r.cmd.g1
  holdBank die (s.launchOf k) h
  holdTensor die (s.launchOf k) h
  match (← get).bankFault die (s.launchOf k) h true with
  | some n => endFab k r 10 n 0
  | none => do
    match ← readSide k r.cmd.g0 (EFmt.ofCode r.cmd.vs.toNat).width 0 c.n with
    | .error e => fabBad k r e
    | .ok vs => do
      let s ← get
      let ref := s.bankRef die (s.ctx k).launch h
      let b := s.bankAt ref.b
      let (xs, sat) := samplesOf r.cmd.vs b.e b.xf vs
      if r.orphan then pure () else setFsat k sat
      let ex : BitVec 9 := BitVec.ofNat 9 (lowBits 7 b.e + 128 * b.xf)
      let others := (c.others r.self).filter fun q => !(c.chunk q).isEmpty
      others.forM fun q => do
        let ys := (c.chunk q).map fun i => xs.getD i 0
        sendMsg { r.msg (← get) k .sample (r.members.getD q 0) with
                  data := sampleBytes ys, count := ys.length, round := 1, form := r.cmd.formNo, chunk := c.n, pos := q, exform := ex }
      let ok ← samplesHere ref off ((c.chunk r.self).map fun i => xs.getD i 0)
      let code : BitVec 8 := if ok then 0 else 10
      modFab k r.id fun q => { q with stage := .running, round := 1, pending := others, code := code, sub := if ok then 0 else 1 }
      if others.isEmpty then endFab k r code.toNat (if ok then 0 else 1) 0 else pure ()

end Sys2Proof.Machine
end

