-- ==== Sys2Proof/Machine/Arrive.lean ====
section
/-!
DEFINITION. Sys2Proof/Machine/Arrive.lean: what arrives at the fabric engine: puts, samples, inputs of
collectives, notices and answers; the timeouts; the ends of commands; COLLW; links (R377 to R399, R421).
-/

namespace Sys2Proof.Machine

/-! ### Finding the receiver (R377, R392) -/

/-- The running launch of a job, the lowest-numbered. -/
def State.launchFor (s : State) (job : BitVec 16) : Option Nat :=
  (findBy (fun e => e.2.running && e.2.job == job) s.dist.launches).map (·.1)

/-- The instance of a launch with a number. -/
def State.instFor (s : State) (l idx : Nat) : Option Nat :=
  (findBy (fun e => e.2.launch == l && e.2.idx == idx) s.dist.insts).map (·.1)

/-- The outcome of taking an arrival: it is done with, or it must be held. -/
inductive Taken where
  | done
  | hold
  deriving DecidableEq, Repr

/-- Does an uncorrectable error withhold data at one of the addresses that an arrival reaches?  The arrival that finds it is
answered with code 5, and the error is spent (R380, R443). -/
def takeBad (p : Nat → Bool) : M Bool := do
  let hit := (← get).mg.bad.any p
  if hit then modMg fun m => { m with bad := m.bad.filter fun a => !p a }
  return hit

/-- Is an address one of the `n` from `a` on? -/
def within (a n x : Nat) : Bool := decide (a ≤ x) && decide (x < a + n)

/-! ### Puts and handlers (R380, R384, R390) -/

/-- Does a put write past the target core's scratchpad, or in a moving region (R380)? -/
def State.putRefused (s : State) (core : Nat) (m : FabMsg) (off : Nat) : Bool :=
  let x := s.core core
  let out (a n : Nat) : Bool := decide (x.scrSize < a + n) || x.moving a n
  out off m.data.length || (match m.flag with | some f => out f.1 8 | none => false)

/-- The bytes of a put, then its flag word, in the scratchpad of a physical core: writes of another agent, which gathers may
not see yet (R309, R383, R390). -/
def writePut (core off : Nat) (m : FabMsg) : M Unit := do
  noteStore (4 * numCores) ((List.range m.data.length).map fun i => scrAddr core off + i)
  wrN (scrAddr core off) m.data.length (ofBytes m.data)
  match m.flag with
  | some f => do
    noteStore (4 * numCores) ((List.range 8).map fun i => scrAddr core f.1 + i)
    wrN (scrAddr core f.1) 8 f.2.toNat
  | none => pure ()

/-- Does an uncorrectable error stand where a put writes? -/
def putBad (core off : Nat) (m : FabMsg) : M Bool :=
  takeBad fun a => within (scrAddr core off) m.data.length a
    || (match m.flag with | some f => within (scrAddr core f.1) 8 a | none => false)

/-- A PUT, PUT.H or multicast arrives at launch `l`.  A handler's arrival that finds the core's arrival queue full is
held before it writes (R98), and so is one for an instance that is saved. -/
def takePut (l : Nat) (m : FabMsg) : M Taken := do
  let s ← get
  let la := s.launch l
  let a := fieldN m.addr 0 29
  let base := a / 2 ^ 19 * 2 ^ 19
  let r := if m.kind = .putH then Right.hd else Right.wr
  let one := la.grants.any fun e => grantAdmits e m.src 0 a (a + m.data.length) r
    && (match m.flag with | some f => grantAdmits e m.src 0 (base + f.1) (base + f.1 + 8) r | none => true)
  if !one || (m.kind == .putH && decide (la.handlers ≤ m.handler.toNat)) then do
    ack m 1 0
    return .done
  else
    match s.instFor l (fieldN m.addr 25 4) with
    | none => do
      ack m 2 0
      return .done
    | some i =>
      if !(s.inst i).placed then return .hold
      let core := fieldN m.addr 19 6
      let p := (s.inst i).phys core
      let off := fieldN m.addr 0 19
      if (s.inst i).cores ≤ core ∨ s.putRefused p m off then do
        ack m 2 0
        return .done
      else if m.kind = .putH then
        if 8 ≤ (s.core p).arrQ.length then return .hold
        else if ← putBad p off m then do
          ack m 5 0
          return .done
        else do
          writePut p off m
          let e ← rdN (la.img + 0x300 + 4 * m.handler.toNat) 4
          modCore p fun x => { x with arrQ := x.arrQ ++ [(l, m.handler.toNat, BitVec.ofNat 32 e)] }
          ack m 0 0
          return .done
      else if ← putBad p off m then do
        ack m 5 0
        return .done
      else do
        writePut p off m
        ack m 0 0
        return .done

/-! ### Samples (R380, R385, R395) -/

/-- The 48-bit samples of a message. -/
def FabMsg.samples (m : FabMsg) : List Int := (elemsOf 48 (m.data.length / 6) m.data).map (intVal true 48)

/-- Samples arrive for a bank of launch `l`; translation is by the layout units of die 0 (log entry 22). -/
def takeSamples (l : Nat) (m : FabMsg) : M Unit := do
  let la := (← get).launch l
  let h := handleOf m.addr
  let off := if m.round = 0 then fieldN m.addr 0 40 else offsetOf m.addr
  let xs := FabMsg.samples m
  if !la.admits m.src h off (off + xs.length) .sm then ack m 1 0
  else if !handleOk la h then ack m 10 4
  else do
    let (d, ok) ← descM 0 la h
    if ok then holdBank 0 la h
    holdTensor 0 la h
    let s ← get
    match (if ok && d.cls == 1 then s.bankFault 0 la h true else some 4) with
    | some n => ack m 10 n
    | none => do
      let s ← get
      let r := s.bankRef 0 l h
      let b := s.bankAt r.b
      if d.elems < off + xs.length then ack m 10 1
      else if lowBits 7 b.e + 128 * b.xf ≠ m.exform.toNat then ack m 3 0
      else if ← takeBad (fun a => (List.range xs.length).any fun i =>
          match s.wordAddr r (off + i) with | some w => within w 16 a | none => false) then ack m 5 0
      else do
        let done ← samplesHere r off xs
        ack m (if done then 0 else 10) (if done then 0 else 1)

/-! ### Collectives (R380, R392 to R397, R421) -/

/-- The collective of an instance that a message belongs to, with its context. -/
def State.collFor (s : State) (i : Nat) (m : FabMsg) : Option (Nat × FabRun) :=
  let mine (r : FabRun) : Bool := !r.cmd.op.isMulti && r.epoch == m.epoch && r.k == m.k && fieldN r.cmd.g2 32 4 == m.slot.toNat
    && (match r.cmd.op with | .ar => true | .rs => true | .ag => true | .rsf => true | _ => false)
  ((s.ctxs.filter fun e => e.2.inst == i).flatMap fun e => (e.2.fl.fabs.filter mine).map fun r => (e.1, r)).head?

/-- Key of a slot and EPOCH among the collectives that an instance has committed (R421). -/
def collKey (slot : BitVec 4) (epoch : BitVec 8) : Nat := 256 * slot.toNat + epoch.toNat

/-- The refusal that a destination of command `r` of context `k` gives to elements that land at `is` (R380). -/
def landFault (k : Nat) (r : FabRun) : List Nat → M (Option (Nat × Nat))
  | [] => return none
  | i :: is => do
    match ← fabWhere k r.cmd.g1 i 32 true with
    | .bad code sub => return some (whereCode code sub)
    | .ok l => if ← takeBad (within l.adr 4) then return some (5, 0) else landFault k r is
    | .wait .. => landFault k r is

/-- Is a message's data admitted into the destination of command `r` of context `k`?  Where none of it lands here, as where a
ring's partial passes through, one entry must still name its sender, its handle and the right (R10, R380, R394). -/
def State.landAdmitted (s : State) (k : Nat) (r : FabRun) (src : BitVec 8) (is : List Nat) : Bool :=
  let l := s.launchOf k
  let lo := is.foldl min (is.headD 0)
  let hi := if is.isEmpty then 0 else is.foldl max 0 + 1
  let g := r.cmd.g1
  if isScr g then
    let b := fieldN g 0 25 + (s.inst (s.ctx k).inst).idx * 2 ^ 25
    l.admits src 0 (b + 4 * lo) (b + 4 * hi) .wr
  else l.admits src (handleOf g) (offsetOf g + lo) (offsetOf g + hi) .wr

/-- An input of a round arrives for running command `r` of context `k` (R380, R394, R396). -/
def takeInput (k : Nat) (r : FabRun) (m : FabMsg) : M Unit := do
  let c := r.coll
  if m.form ≠ r.cmd.formNo ∨ m.count ≠ c.n then endFab k r 7 0 0
  else
    let is := c.lands r.self (c.sent m.pos m.round)
    if !(← get).landAdmitted k r m.src is then ack m 1 0
    else do
      match ← landFault k r is with
      | some (code, sub) => do
        ack m code sub
        endFab k r code sub 0
      | none => do
        modFab k r.id fun q => { q with inputs := q.inputs ++ [(m.round, m.pos, m.data)] }
        advanceColl k r.id (c.rounds + 1)

/-- A member enters Abort, or hears of a lower lost position there (R396). -/
def lostAt (k : Nat) (r : FabRun) (pos : Nat) : M Unit := do
  let dev := (r.members.getD pos 0).toNat
  match r.stage with
  | .abort p _ => if pos < p then modFab k r.id fun q => { q with stage := .abort pos dev } else pure ()
  | _ => modFab k r.id fun q => { q with stage := .abort pos dev }

/-- A message of a collective arrives at launch `l`: one for an instance the launch lacks is refused, one of another
EPOCH discarded, one whose collective has not started here held (R392 to R394). -/
def takeColl (l : Nat) (m : FabMsg) : M Taken := do
  let s ← get
  match s.instFor l m.inst.toNat with
  | none => do
    if m.kind = .lost then pure () else ack m 4 0
    return .done
  | some i =>
    match (s.inst i).groups.find? m.slot.toNat with
    | some g => if g.epoch ≠ m.epoch then return .done
    | none => pure ()
    match s.collFor i m with
    | some (k, r) =>
      match r.stage with
      | .queued => return .hold
      | .abort .. => do
        if m.kind = .lost then lostAt k r m.pos
        return .done
      | .running => do
        if m.kind = .lost then lostAt k r m.pos else takeInput k r m
        return .done
    | none => return if (s.inst i).colls.get 0 (collKey m.slot m.epoch) ≤ m.k then .hold else .done

/-- Samples of a COLL.RSF: as a collective's they are matched by EPOCH, order and form, and held until the receiver's own
command has started; they are accepted even where that command has completed, its own samples having been accepted (R393
to R395, R421). -/
def takeRsf (l : Nat) (m : FabMsg) : M Taken := do
  let s ← get
  match s.instFor l m.inst.toNat with
  | none => do
    ack m 4 0
    return .done
  | some i =>
    match (s.inst i).groups.find? m.slot.toNat with
    | some g => if g.epoch ≠ m.epoch then return .done
    | none => pure ()
    match s.collFor i m with
    | some (k, r) =>
      if r.stage = .queued then return .hold
      else do
        if m.form ≠ r.cmd.formNo ∨ m.chunk ≠ r.coll.n then endFab k r 7 0 0 else takeSamples l m
        return .done
    | none =>
      if (s.inst i).colls.get 0 (collKey m.slot m.epoch) ≤ m.k then return .hold
      else do
        takeSamples l m
        return .done

/-! ### Taking a message -/

/-- Take a message for a running launch. -/
def takeMsg (l : Nat) (m : FabMsg) : M Taken := do
  match m.kind with
  | .put => takePut l m
  | .putH => takePut l m
  | .sample =>
    if m.round = 0 then do
      takeSamples l m
      return .done
    else takeRsf l m
  | .coll => takeColl l m
  | .lost => takeColl l m
  | .ack => return .done
  | .hold => return .done

/-- Hold a message at the base die. -/
def holdMsg (m : FabMsg) : M Unit := modify fun s => { s with heldMsgs := s.heldMsgs ++ [m] }

/-- A message arrives.  One for a job with no running launch waits, with a hold notice to its requester; where the
job's launch has completed, or the device has lost its host link, it is refused (R377, R450). -/
def arrive (m : FabMsg) : M Unit := do
  let s ← get
  match s.launchFor m.job with
  | some l => do
    match ← takeMsg l m with
    | .done => pure ()
    | .hold => holdMsg m
  | none =>
    if m.kind = .lost then pure ()
    else if !s.mg.linkUp || s.dist.doneJobs.contains m.job then ack m 4 0
    else do
      holdMsg m
      sendMsg (answerTo s.mg.dev m .hold 0 0)

/-- The messages held are tried again: those that still wait stay, in order. -/
def retryHeld : M Unit := do
  let ms := (← get).heldMsgs
  modify fun s => { s with heldMsgs := [] }
  ms.forM fun m => do
    match (← get).launchFor m.job with
    | none => holdMsg m
    | some l => do
      match ← takeMsg l m with
      | .done => pure ()
      | .hold => holdMsg m

/-- HANDLER_START: the oldest arrival that waits at core `c` starts the lowest-numbered Dormant context of its
launch there, and an arrival that the full queue held back takes the place (R98); the context is Stopping at once while its
instance is being stopped (R114). -/
def execHandlerStart (c : Nat) (s : State) : Host.Outcome State Fault Refusal :=
  finish s (do
    let s ← get
    match (s.core c).arrQ with
    | [] => pure ()
    | (l, _, entry) :: q =>
      if !(s.launch l).running then do
        modCore c fun x => { x with arrQ := q }
        retryHeld
      else match findBy (fun k => (s.ctx k).st == .dormant && (s.ctx k).launch == l) ([0, 1, 2, 3].map fun i => 4 * c + i) with
        | none => pure ()
        | some k => do
          modCore c fun x => { x with arrQ := q }
          modCtx k fun x =>
            let y := x.start (s.launch l) (s.inst x.inst).idx k entry
            if (s.inst x.inst).stopping then { y with st := .stopping } else y
          retryHeld)

/-- The payloads that carry data. -/
def payloads (data : List Byte) : List (List Byte) := flitsOf data.length data

/-- The port whose delivered payloads begin with those of a message's data, the lowest-numbered. -/
def State.deliverer (s : State) (data : List Byte) : Option Nat :=
  findBy (fun n => (s.port n).rx.take (payloads data).length == payloads data) (List.range 12)

/-- The state with the data's payloads taken from the port that has delivered them. -/
def State.received (s : State) (data : List Byte) (n : Nat) : State :=
  { s with ports := s.ports.set n { s.port n with rx := (s.port n).rx.drop (payloads data).length } }

/-- A message whose flits a port has delivered, each once and in order, is taken from there and acted on; one that no port has
delivered has not arrived (R398, log entry 74). -/
def receive (data : List Byte) (act : M Unit) : M Unit := do
  match (← get).deliverer data with
  | none => pure ()
  | some n => do
    modify fun s => s.received data n
    act

/-- FABRIC_ARRIVAL: an arrival, which its last flit has completed, is checked, and written, sampled, held or refused (R377,
R380, R398; log entry 74). -/
def execFabricArrival (m : FabMsg) (s : State) : Host.Outcome State Fault Refusal :=
  finish s (receive m.data (arrive m))

/-- COLL_INPUT_ARRIVAL: an input of a round arrives; a complete round sends the next, or the collective's result is
ready (R394, R396). -/
def execCollInputArrival (m : FabMsg) (s : State) : Host.Outcome State Fault Refusal :=
  finish s (if m.kind = .coll then receive m.data (arrive m) else pure ())

/-- LOST_MEMBER_NOTICE: a notice moves the member to Abort (R396). -/
def execLostMemberNotice (m : FabMsg) (s : State) : Host.Outcome State Fault Refusal :=
  finish s (if m.kind = .lost then receive m.data (arrive m) else pure ())

/-- ARRIVAL_WAIT_EXPIRE: the arrivals for a job that still has no running launch are refused with code 4 (R377). -/
def execArrivalWaitExpire (job : BitVec 16) (s : State) : Host.Outcome State Fault Refusal :=
  finish s (do
    let s ← get
    if (s.launchFor job).isSome then pure ()
    else do
      modify fun s => { s with heldMsgs := s.heldMsgs.filter fun m => m.job != job }
      (s.heldMsgs.filter fun m => m.job == job).forM fun m => if m.kind = .lost then pure () else ack m 4 0)

/-! ### The engine starts and ends commands (R383, R388, R394, R396, R397) -/

/-- May command `r` of context `k` start: those of its context before it have, and what an XFENCE before it covers has
been performed (R81)? -/
def State.fabReady (s : State) (k : Nat) (r : FabRun) : Bool :=
  r.stage == .queued && (s.ctx k).fl.fabs.all (fun q => decide (r.seq ≤ q.seq) || q.stage != .queued)
    && s.engineReady k r.seq 4

/-- The engine takes up command `id` of context `k`; messages that waited for it are delivered (R383, R394). -/
def startFab (k id : Nat) : M Unit := do
  let s ← get
  match s.fabOf k id with
  | none => pure ()
  | some r =>
    if s.fabReady k r then do
      match r.cmd.op with
      | .ar => if r.members.isEmpty then endFab k r 7 0 0 else startColl k r
      | .rs => if r.members.isEmpty then endFab k r 7 0 0 else startColl k r
      | .ag => if r.members.isEmpty then endFab k r 7 0 0 else startColl k r
      | .rsf => if r.members.isEmpty then endFab k r 7 0 0 else startRsf k r
      | _ => startPut k r
      retryHeld
    else pure ()

/-- Is a collective of AR, RS or AG past its last round, its result not yet written? -/
def FabRun.ready (r : FabRun) : Bool :=
  r.stage == .running && decide (r.coll.rounds < r.round)
    && (match r.cmd.op with | .ar => true | .rs => true | .ag => true | _ => false)

/-- Write the elements of the destination of command `r` of context `k`; the first place that cannot be written. -/
def writeDest (k : Nat) (r : FabRun) (val : Nat → Nat) : List (Nat × Nat) → M (Option Where)
  | [] => return none
  | d :: ds => do
    match ← fabWhere k r.cmd.g1 d.2 32 true with
    | .ok l => do
      writeLoc k r.id 4 l 4 (val d.1)
      writeDest k r val ds
    | w => return some w

/-- A collective that is ready writes its destination and completes with code 0 (R394, R396). -/
def endColl (k id : Nat) : M Unit := do
  match (← get).fabOf k id with
  | none => pure ()
  | some r =>
    if r.ready then do
      match ← writeDest k r (fun i => (r.acc.get 0 i).toNat) (r.coll.dest r.self) with
      | none => endFab k r 0 0 0
      | some w => fabBad k r w
    else pure ()

/-- Answers so far: a position has been answered with a code (R386, R387). -/
def answered (k : Nat) (r : FabRun) (code sub : Nat) (pos : Nat) : M Unit := do
  let left := r.pending.filter (· != pos)
  let multi := r.cmd.op.isMulti
  let denied := if multi && code == 1 then r.denied ||| (1 <<< pos) else r.denied
  let first := r.code == 0 && code != 0 && !(multi && code == 1)
  let c := if first then BitVec.ofNat 8 code else r.code
  let sb := if first then BitVec.ofNat 8 sub else r.sub
  modFab k r.id fun q => { q with pending := left, denied := denied, code := c, sub := sb }
  if left.isEmpty then
    if denied ≠ 0 then endFab k r 1 0 denied else endFab k r c.toNat sb.toNat 0

/-- FABRIC_ACK: an answer to command `id` of context `k` returns from the destination at `pos`.  A put or COLL.RSF completes
with the last one; a refused input ends another collective with its code (R383, R386, R395, R396). -/
def execFabricAck (k id : Nat) (code sub : BitVec 8) (pos : Nat) (s : State) : Host.Outcome State Fault Refusal :=
  onEvent s k (receive [] do
    match (← get).fabOf k id with
    | none => pure ()
    | some r =>
      if r.cmd.op == .ar || r.cmd.op == .rs || r.cmd.op == .ag then
        (if code ≠ 0 ∧ r.stage ≠ .queued then endFab k r code.toNat sub.toNat 0 else pure ())
      else if r.stage = .running ∧ r.pending.contains pos then answered k r code.toNat sub.toNat pos
      else pure ())

/-- HOLD_NOTICE: the arrival of command `id.1` of context `k` for the destination at position `id.2` is held at its receiver,
and its acknowledgement timeout stops (R377). -/
def execHoldNotice (k : Nat) (id : Nat × Nat) (s : State) : Host.Outcome State Fault Refusal :=
  let (id, pos) := id
  finish s (receive [] <| modFab k id fun q => if q.pending.contains pos then { q with heldPos := pos :: q.heldPos } else q)

/-- PUT_ACK_TIMEOUT: 100 µs without an answer or a hold notice; the destinations are unreachable, code 6 (R383). -/
def execPutAckTimeout (k id : Nat) (s : State) : Host.Outcome State Fault Refusal :=
  onEvent s k (do
    match (← get).fabOf k id with
    | none => pure ()
    | some r =>
      if r.stage = .running ∧ r.cmd.op ≠ .rsf then
        (r.pending.filter fun p => !r.heldPos.contains p).forM fun p => do
          match (← get).fabOf k id with
          | some q => answered k q 6 0 p
          | none => pure ()
      else pure ())

/-- The lowest position whose input, or whose acceptance of samples, a member waits for (R396). -/
def FabRun.missing (r : FabRun) : Option Nat :=
  if r.cmd.op = .rsf then r.pending.head?
  else ((r.coll.awaits r.self r.round).filter fun q => !(r.inputsOf r.round).any fun i => i.1 == q).head?

/-- COLL_ROUND_TIMEOUT: TMO has expired in Wait with an input missing from a position: every member is told, and this one is
in Abort (R396). -/
def execCollRoundTimeout (k id : Nat) (s : State) : Host.Outcome State Fault Refusal :=
  finish s (do
    match (← get).fabOf k id with
    | none => pure ()
    | some r =>
      match (if r.stage = .running ∧ !r.ready then r.missing else none) with
      | none => pure ()
      | some p => do
        (r.coll.others r.self).forM fun q => do
          sendMsg { r.msg (← get) k .lost (r.members.getD q 0) with pos := p }
        lostAt k r p)

/-- COLL_ABORT_TIMEOUT: TMO after entering Abort, the collective completes with code 8 and the lowest lost position; the
destination of AR, RS or AG is undefined (R396, R397, log entry 4). -/
def execCollAbortTimeout (k id : Nat) (s : State) : Host.Outcome State Fault Refusal :=
  finish s (do
    match (← get).fabOf k id with
    | none => pure ()
    | some r =>
      match r.stage with
      | .abort pos dev => do
        if r.cmd.op ≠ .rsf then
          let n ← freshFree
          let val (i : Nat) : Nat := ofBytes ((List.range 4).map fun j => Config.freeByte n (4 * i + j))
          let _ ← writeDest k r val (r.coll.dest r.self)
        endFab k r 8 0 (BitVec.ofNat 32 (pos % 256 * 256 + dev % 256))
      | _ => pure ())

/-! ### COLLW (R388) -/

/-- The fabric commands outstanding at the engine. -/
def Flight.liveFabs (f : Flight) : Nat := (f.fabs.filter fun q => !q.orphan).length

def Eff.isFab : Eff → Bool
  | .fab _ => true
  | _ => false

/-- The fabric commands that a wait form counts: those outstanding, and those committed that are yet to pass to the engine
(R226, R388). -/
def Flight.ownFabs (f : Flight) : Nat := f.liveFabs + (f.commits.filter fun g => g.eff.isFab).length

/-- The end of a COLLW: completed commands are seen complete (R81); the status word is in e[d] and clear. -/
def collwDone (k : Nat) (d : BitVec 5) : M Unit := do
  let open' := ((← get).ctx k).fl.fabs.map FabRun.id
  let see (w : EWrite) : EWrite := if w.ctx == k && w.cls == 4 && !open'.contains w.id then { w with seen := true } else w
  modMp fun mp => { mp with unperf := mp.unperf.map see }
  putE k d ((← get).ctx k).fl.fabStat
  modCtx k fun c => { c with fl := { c.fl with fabStat := 0 } }

/-- COLLW (R388). -/
def execCollw (d : BitVec 5) (n : BitVec 3) (s : State) : Host.Outcome State Fault Refusal :=
  finish s (do
    let s ← get
    if s.cur.fl.ownFabs ≤ n.toNat then collwDone s.focus d
    else do
      saveE (some d)
      waitFor (.collw d n.toNat))

/-- COLLW_RELEASE: the outstanding fabric commands of context `k` have fallen to the count it waits for (R388). -/
def execCollwRelease (k : Nat) (s : State) : Host.Outcome State Fault Refusal :=
  onEvent s k (do
    let c := (← get).ctx k
    match c.wait with
    | .collw d n =>
      if c.fl.ownFabs ≤ n then do
        modCtx k Ctx.nextWait
        collwDone k d
    | _ => pure ())

/-! ### Links (R398, R399) -/

def modPort (n : Nat) (f : Port → Port) : M Unit := modify fun s => { s with ports := s.ports.set n (f (s.port n)) }

/-- The distance from one sequence number to another, modulo 2^12. -/
def seqDist (a b : BitVec 12) : Nat := (b - a).toNat

/-- The flits before `acked` have been received at the other end (R398). -/
def Port.freed (p : Port) (acked : BitVec 12) : Port :=
  { p with replay := p.replay.filter fun f => decide (2048 ≤ seqDist f.1 acked) || f.1 == acked }

/-- FLIT_RECEIVE: a flit with good CRC acknowledges in its header (its own number, `acked`) the flits before `acked`, and makes room for senders that a
full replay buffer holds.  One with the next sequence number is delivered; an old one is a duplicate and discarded; a bad
one, or one past a gap, is discarded and replay asked for from the first that is missing (R398). -/
def execFlitReceive (port : Nat) (header : BitVec 12 × BitVec 12) (ok : Bool) (payload : List Byte) (s : State) :
    Host.Outcome State Fault Refusal :=
  let (seq, acked) := header
  finish s (do
    modPort port fun p =>
      if p.down then p
      else if !ok then { p with ask := some p.rxSeq }
      else if seq = p.rxSeq then { p.freed acked with rxSeq := p.rxSeq + 1, rx := p.rx ++ [payload], ask := none }
      else if seqDist p.rxSeq seq < 2048 then { p with ask := some p.rxSeq }
      else p.freed acked
    pumpPort port)

/-- REPLAY_REQUEST: the flits from the one asked for are sent again, in order (R398). -/
def execReplayRequest (port : Nat) (seq : BitVec 12) (s : State) : Host.Outcome State Fault Refusal :=
  finish s (modPort port fun p =>
    if p.down then p
    else { p with resent := p.resent ++ p.replay.filter fun f => decide (seqDist seq f.1 < 2048),
                  replays := if p.replays = BitVec.allOnes 32 then p.replays else p.replays + 1 })

/-- The lowest `n` lanes of a set. -/
def lowestLanes (m : BitVec 9) (n : Nat) : BitVec 9 :=
  ((bitsOf m).take n).foldl (fun x i => x ||| (1 <<< i)) 0

/-- A port with lane `lane` retired.  The spare, lane 8, takes an active lane's place unless it is in use or is itself retired;
an idle lane that fails training is retired and no more (R399, log entry 23). -/
def Port.retire (p : Port) (lane : Nat) : Port :=
  let bit : BitVec 9 := 1 <<< lane
  let left := p.active &&& ~~~bit
  if 9 ≤ lane ∨ p.down then p
  else if !p.active.getLsbD lane then { p with retired := p.retired ||| bit }
  else
    let p := { p with retired := p.retired ||| bit }
    if !p.spare && !p.retired.getLsbD 8 then { p with active := left ||| 0x100, spare := true }
    else if !p.narrowed then { p with active := lowestLanes left 4, narrowed := true }
    else { p with active := 0, down := true, queue := [] }

/-- LANE_RETIRE: a lane of a port is retired.  The spare takes its place; the second retirement narrows the port to four
lanes, the lowest that are left (log entry 23); the next takes it down, and what waits there follows another route (R399). -/
def execLaneRetire (port lane : Nat) (s : State) : Host.Outcome State Fault Refusal :=
  finish s (do
    modPort port fun p => p.retire lane
    if ((← get).port port).down then
      (s.port port).queue.forM fun f => match f.2 with
        | some m => sendMsg m
        | none => pure ())

end Sys2Proof.Machine
end

