-- ==== Sys2Proof/Machine/Save.lean ====
section
/-!
DEFINITION. Sys2Proof/Machine/Save.lean: save areas, the save of an instance and its resume (R113 to R117, R208,
R313).

What stands in a save area is what resumes; the tags of the queue entries, which the area has no place for, stay
with the instance (log entry 24).
-/

namespace Sys2Proof.Machine

/-! ### Fields of the save area (R117) -/

def areaBytes : Nat := 0x1D000
/-- The save area of context `k` of core `c` of instance `i` (R404). -/
def Launch.saveArea (l : Launch) (i c k : Nat) : Nat := l.ctxSave + areaBytes * (256 * i + 4 * c + k)
/-- The scratchpad image of core `c` of instance `i` (R404). -/
def Launch.scrArea (l : Launch) (i c : Nat) : Nat := l.scrSave + scrBytes * (64 * i + c)

/-- The bits `f i` for i below `n`, bit 0 first. -/
def packBits (n : Nat) (f : Nat → Bool) : Nat := packNat 1 ((List.range n).map fun i => if f i then 1 else 0)

/-- The header word. -/
def Ctx.header (c : Ctx) (l1n : Nat) (dorm : Bool) : Nat :=
  c.seg.id.toNat * 2 ^ 32 + l1n % 16 * 2 ^ 24 + c.sq.lifts.length % 4 * 2 ^ 16 + c.sq.loops.length % 8 * 2 ^ 8
    + (if c.priv then 8 else 0) + (if dorm then 2 else 0) + 1

/-- The loop-control word. -/
def Seqr.control (q : Seqr) : Nat :=
  q.loops.length % 8 + 8 * packBits 6 (fun j => (q.loops[j]?.map Level.rot).getD false)
    + 2 ^ 9 * packNat 3 (q.loops.map Level.depthE) + 2 ^ 27 * (q.rb % 16)

/-- One level of the loop stack as 16 bytes. -/
def Level.image (l : Level) : Nat := packNat 32 [l.start.toNat, l.stop.toNat, l.count.toNat, l.index.toNat]

/-- One entry of the axis stack as 16 bytes (R208). -/
def LiftEnt.image (e : LiftEnt) : Nat := e.ret.toNat + e.n % 128 * 2 ^ 32 + e.ldp % 8 * 2 ^ 39

/-- An iterator as 128 bytes; its handle stands in the low 16 bits of bytes 0 to 7 (log entry 83). -/
def Iter.image (k : Iter) : Nat :=
  k.handle.toNat + 2 ^ 64 * packNat 32 [k.b0.toNat, k.b1.toNat, k.b2.toNat, k.b3.toNat]
    + 2 ^ 192 * k.rev.toNat + 2 ^ 200 * k.span.toNat
    + 2 ^ 256 * packNat 32 ((List.range 24).map fun i => (k.str.get 0 i).toNat)

/-- The valid bits, one word for each file. -/
def Ctx.validWords (c : Ctx) : List Nat :=
  [packBits 16 fun i => (c.regC i).valid,
   packBits 40 fun i => if i < 32 then (c.regA i).valid else (c.iter (i - 32)).valid,
   packBits 31 fun i => (c.files.s.get Reg.invalid i).valid,
   packBits 31 fun i => (c.files.v.get TReg.invalid i).valid,
   packBits 31 fun i => (c.files.w.get TReg.invalid i).valid,
   packBits 32 fun i => if i < 8 then (c.mask i).valid else if i < 16 then false else (c.pred (i - 16)).valid,
   packBits 32 fun i => if i < 8 then (c.regX i).valid else if i < 16 then false else (c.regT (i - 16)).valid,
   packBits 16 fun i => (c.regE i).valid]

/-- The copies that a tag calls for (R203). -/
def copiesFor {w : Nat} (ls : List LiftEnt) (t : BitVec 3) (val : BitVec w) (cs : List (BitVec w)) : List Nat :=
  (List.range (exCount ls t - 1)).map fun i => (cs.getD i val).toNat

/-- The copies of a file in register order, as its tags place them (R203). -/
def fileCopies {w : Nat} (ls : List LiftEnt) (f : AMap (TReg w)) (regs : List Nat) : List Nat :=
  regs.flatMap fun i =>
    let r := f.get TReg.invalid i
    copiesFor ls r.tag r.val r.copies

def queueCopiesOf (ls : List LiftEnt) (q : List (QEnt 1024)) : List Nat :=
  q.flatMap fun e => copiesFor ls e.tag (e.data.getD 0) e.copies

/-- A list in groups of `n`. -/
def chunksOf {α : Type} (n : Nat) : Nat → List α → List (List α)
  | 0, _ => []
  | _, [] => []
  | f + 1, xs => xs.take n :: chunksOf n f (xs.drop n)

/-- The V backing: v0 to v30, the qv entries, then the masks eight to a slot (R203). -/
def Ctx.vBacking (c : Ctx) : List Nat :=
  let ms := fileCopies c.sq.lifts c.files.m ((List.range 6).map (· + 2))
  fileCopies c.sq.lifts c.files.v (List.range 31) ++ queueCopiesOf c.sq.lifts c.queues.qv
    ++ (chunksOf 8 ms.length ms).map (packNat 128)

def Ctx.wBacking (c : Ctx) : List Nat := fileCopies c.sq.lifts c.files.w (List.range 31) ++ queueCopiesOf c.sq.lifts c.queues.qw
def Ctx.tBacking (c : Ctx) : List Nat := fileCopies c.sq.lifts c.files.t (List.range 16)

/-- The fields of a context's save area but for the header and the backings: offset, bytes, value (R117). -/
def Ctx.areaFields (c : Ctx) : List (Nat × Nat × Nat) :=
  let each (n base sz : Nat) (f : Nat → Nat) : List (Nat × Nat × Nat) := (List.range n).map fun i => (base + sz * i, sz, f i)
  let q {w : Nat} (es : List (QEnt w)) (base sz : Nat) : List (Nat × Nat × Nat) :=
    es.zipIdx.map fun e => (base + sz * e.2, sz, (e.1.data.getD 0).toNat)
  [(0x08, 4, c.sq.pc.toNat), (0x10, 8, c.sq.control), (0x18, 4, c.sq.fmt.toNat), (0x1C, 4, c.sq.pend.toNat),
   (0x20, 1, c.sq.cd), (0xD0, 8, c.key.toNat), (0xD8, 8, c.ctr.toNat), (0xE0, 8, c.fl.copyStat.toNat),
   (0xE8, 8, c.fl.fabStat.toNat), (0xF0, 4, (if c.accsat then 1 else 0) + (if c.fsat then 2 else 0)),
   (0x1E0, 1, c.queues.qs.length), (0x1E1, 1, c.queues.qv.length), (0x1E2, 1, c.queues.qw.length),
   (0x1E3, 1, c.queues.qx.length), (0x240, 2, packBits 16 fun i => (c.pred i).val == 1)]
    ++ c.sq.loops.zipIdx.map (fun l => (0x40 + 16 * l.2, 16, l.1.image))
    ++ c.sq.lifts.zipIdx.map (fun l => (0xA0 + 16 * l.2, 16, l.1.image))
    ++ c.validWords.zipIdx.map (fun v => (0x100 + 8 * v.2, 8, v.1))
    ++ each 16 0x140 2 (fun g => (c.rounds.get 0 g).toNat)
    ++ each 31 0x180 1 (fun i => (c.files.v.get TReg.invalid i).tag.toNat)
    ++ each 31 0x1A0 1 (fun i => (c.files.w.get TReg.invalid i).tag.toNat)
    ++ each 8 0x1C0 1 (fun i => (c.mask i).tag.toNat)
    ++ each 16 0x1D0 1 (fun i => (c.regT i).tag.toNat)
    ++ each 16 0x200 4 (fun i => (c.regC i).val.toNat)
    ++ each 8 0x280 16 (fun i => (c.mask i).val.toNat)
    ++ each 8 0x300 8 (fun i => (c.regX i).val.toNat)
    ++ each 16 0x340 8 (fun i => (c.regE i).val.toNat)
    ++ each 32 0x400 8 (fun i => (c.regA i).val.toNat)
    ++ each 31 0x500 8 (fun i => (c.files.s.get Reg.invalid i).val.toNat)
    ++ each 8 0x600 128 (fun i => (c.iter i).image)
    ++ q c.queues.qs 0xA00 8 ++ q c.queues.qv 0x1000 128 ++ q c.queues.qw 0x1800 128 ++ q c.queues.qx 0x2000 128
    ++ each 31 0x3000 128 (fun i => (c.files.v.get TReg.invalid i).val.toNat)
    ++ each 31 0x4000 128 (fun i => (c.files.w.get TReg.invalid i).val.toNat)
    ++ each 16 0x5000 1024 (fun i => (c.regT i).val.toNat)

/-- The backings, written only under a lift. -/
def Ctx.areaBacking (c : Ctx) : List (Nat × Nat × Nat) :=
  let put (base sz : Nat) (xs : List Nat) : List (Nat × Nat × Nat) := xs.zipIdx.map fun x => (base + sz * x.2, sz, x.1)
  if c.sq.lifts.isEmpty then []
  else put 0x9000 128 c.vBacking ++ put 0xD000 128 c.wBacking ++ put 0x11000 1024 c.tBacking

/-! ### Saving (R115) -/

/-- Memory from `dst` holding the bytes from `src`. -/
def Mem.copyRange (m : List Host.Cell) (src dst n : Nat) : List Host.Cell :=
  (m.filter fun c => decide (src ≤ c.1) && decide (c.1 < src + n)).foldl
    (fun m' c => Mem.put m' (c.1 - src + dst) c.2) (Mem.clearRange m dst n)

def copyBytes (src dst n : Nat) : M Unit := fun s =>
  if !addrOk src n then .error (.stop (.noSuchAddress src))
  else if !addrOk dst n then .error (.stop (.noSuchAddress dst))
  else .ok ((), { s with mem := Mem.copyRange s.mem src dst n })

/-- The scratchpad of core `p` into memory from `dst`; that of a quarantined core, which is not read again, as free values
(R223, log entry 70). -/
def saveScratch (p dst : Nat) : M Unit := do
  let x := (← get).core p
  if x.quarantined && addrOk dst x.scrSize then do
    let f ← freshFree
    modify fun s =>
      { s with mem := (List.range x.scrSize).foldl (fun m i => Mem.put m (dst + i) (Config.freeByte f i)) s.mem }
  else copyBytes (scrAddr p 0) dst x.scrSize

def clearBytes (a n : Nat) : M Unit := fun s =>
  if addrOk a n then .ok ((), { s with mem := Mem.clearRange s.mem a n }) else .error (.stop (.noSuchAddress a))

/-- The caches see `n` bytes written at device memory by the device itself, for launch `l`. -/
def deviceWrote (l a n : Nat) : M Unit := do
  l2Range l a n true
  (List.range (n / 32 + 1)).forM fun i =>
    if 32 * i < n then sendInvals none (a + 32 * i) else pure ()

/-- The bytes of its save area that a context's save writes: a dormant one's header alone, the lift backing only under a lift
(R115, R117). -/
def Ctx.areaSize (c : Ctx) : Nat := if c.st = .dormant then 8 else if c.sq.lifts.isEmpty then 0x9000 else areaBytes

/-- The save area of a context at address `a`: a dormant one's is the header alone. -/
def saveCtx (a : Nat) (c : Ctx) (l1n : Nat) : M Unit := do
  touchByEngine a c.areaSize
  if c.st = .dormant then wrN a 8 (c.header l1n true)
  else do
    clearBytes a c.areaSize
    wrN a 8 (c.header l1n false)
    (c.areaFields ++ c.areaBacking).forM fun f => wrN (a + f.1) f.2.1 f.2.2
  deviceWrote c.launch a c.areaSize

/-- Contexts of an instance, by number. -/
def State.members (s : State) (i : Nat) : List Nat := (s.ctxs.filter fun e => e.2.inst == i && e.2.st != .free).map (·.1)

/-- Has context `k` nothing under way anywhere (R87, R115)? -/
def State.settled (s : State) (k : Nat) : Bool :=
  s.drained k && s.quiet k && !s.mp.outs.any (fun o => o.ctx == k) && !s.fops.any (fun f => f.ctx == k)

/-- May an instance be saved: every context of it has stopped, and nothing of it is under way (R115)? -/
def State.saveReady (s : State) (i : Nat) : Bool :=
  let t := s.inst i
  t.placed && t.stopping && !(s.members i).any (fun k => (s.ctx k).live) && (s.members i).all s.settled
    && (List.range t.cores).all fun n =>
      let x := s.core (t.phys n)
      x.callQ.isEmpty && x.run.isNone && x.phase.isNone && x.esclQ.isEmpty

/-- The pending engine writes of a context are performed. -/
def performWrites (k : Nat) : M Unit := modMp fun mp => { mp with unperf := settle (fun w => w.ctx == k) [] mp.unperf }

/-- The tags of a context's queue entries, qs to qx. -/
def Queues.tags (q : Queues) : List (BitVec 3) :=
  q.qs.map QEnt.tag ++ q.qv.map QEnt.tag ++ q.qw.map QEnt.tag ++ q.qx.map QEnt.tag

/-- CONTEXT_SAVE: every context of instance `i` has stopped and nothing is under way; its contexts, its cores'
scratchpads and their splits are saved, its dirty blocks written back, and its cores are free (R115, R117). -/
def execContextSave (i : Nat) (s : State) : Host.Outcome State Fault Refusal :=
  finish s (do
    if s.saveReady i then do
      let t := s.inst i
      let l := s.launch t.launch
      let slots := (List.range t.cores).flatMap fun n => (List.range 4).map fun k => (n, k, 4 * t.phys n + k)
      (List.range t.cores).forM fun n => do
        let p := t.phys n
        ((← get).core p).blocks.forM (leaveL1 p)
        modCore p fun x => { x with l1 := [] }
        touchByEngine (l.scrArea t.idx n) scrBytes
        saveScratch p (l.scrArea t.idx n)
        deviceWrote t.launch (l.scrArea t.idx n) (s.core p).scrSize
      slots.forM fun (n, k, j) => do
        let c := s.ctx j
        performWrites j
        if c.inst = i ∧ (c.st = .saved ∨ c.st = .dormant) then
          saveCtx (l.saveArea t.idx n k) c (s.core (t.phys n)).l1n
      let mine := slots.filter fun (_, _, j) => (s.ctx j).inst == i && (s.ctx j).st != .free
      let kept : AMap (CtxState × Bool) := mine.map fun (n, k, j) => (4 * n + k, ((s.ctx j).st, (s.ctx j).atLaunch))
      let tags : AMap (List (BitVec 3)) := mine.map fun (n, k, j) => (4 * n + k, (s.ctx j).queues.tags)
      let each {α : Type} (f : Core → α) : AMap α := (List.range t.cores).map fun n => (n, f (s.core (t.phys n)))
      mine.forM fun (_, _, j) => modCtx j fun _ => Ctx.free
      (List.range t.cores).forM fun n => modCore (t.phys n) fun x => { x with arrQ := [] }
      modify fun st => st.setInst i
        { st.inst i with
          placed := false, stopping := false, saved := true, images := each Core.image, kept := kept, qtags := tags,
          splits := each Core.l1n, waiting := each Core.arrQ }
      modDist fun d => { d with resumes := d.resumes ++ [i] })

/-! ### Resuming (R116, R313) -/

/-- Fields of a save area in memory. -/
structure Area where
  mem : List Host.Cell
  base : Nat

def Area.at' (a : Area) (off n : Nat) : Nat := Mem.getN a.mem (a.base + off) n
def Area.valid (a : Area) (word bit : Nat) : Bool := a.at' (0x100 + 8 * word) 8 / 2 ^ bit % 2 == 1

/-- A scalar file: every register, a clear valid bit or not. -/
def Area.file (a : Area) (w n word bit0 off : Nat) : AMap (Reg w) :=
  ((List.range n).map fun i =>
    (i, (⟨a.valid word (bit0 + i), BitVec.ofNat w (a.at' (off + w / 8 * i) (w / 8))⟩ : Reg w))).filter
      fun e => e.2 != Reg.invalid

/-- Registers of a tagged file in order, each without its copies yet, and the copies left of its backing. -/
def takeRegs {w : Nat} (ls : List LiftEnt) : List (Nat × TReg w) → List (BitVec w) → AMap (TReg w) × List (BitVec w)
  | [], cs => ([], cs)
  | (i, r) :: rs, cs =>
    let n := exCount ls r.tag - 1
    let (m, left) := takeRegs ls rs (cs.drop n)
    ((i, { r with copies := cs.take n }) :: m, left)

/-- The registers of a tagged file: number, valid bit, tag, example 0. -/
def Area.regs (a : Area) (w n word bit0 off tagOff : Nat) : List (Nat × TReg w) :=
  ((List.range n).map fun i =>
    (i, (⟨a.valid word (bit0 + i), BitVec.ofNat 3 (a.at' (tagOff + i) 1),
      BitVec.ofNat w (a.at' (off + w / 8 * i) (w / 8)), []⟩ : TReg w))).filter fun e => e.2 != TReg.invalid

/-- The slots of a backing. -/
def Area.backing (a : Area) (w base n : Nat) : List (BitVec w) :=
  (List.range n).map fun i => BitVec.ofNat w (a.at' (base + w / 8 * i) (w / 8))

/-- A queue's entries, older than the last mark, and the copies left of its backing. -/
def Area.queue {w : Nat} (a : Area) (ls : List LiftEnt) (off : Nat) (tags : Nat → BitVec 3) :
    Nat → Nat → List (BitVec w) → List (QEnt w) × List (BitVec w)
  | 0, _, cs => ([], cs)
  | todo + 1, i, cs =>
    let k := exCount ls (tags i) - 1
    let e : QEnt w :=
      { id := 0, bundle := 0, old := true, gated := false, kept := false, readyAt := 0,
        data := some (BitVec.ofNat w (a.at' (off + w / 8 * i) (w / 8))), tag := tags i, copies := cs.take k }
    let (q, left) := Area.queue a ls off tags todo (i + 1) (cs.drop k)
    (e :: q, left)

/-- The loop stack. -/
def Area.loops (a : Area) : List Level :=
  let w := a.at' 0x10 8
  (List.range (w % 8)).map fun j =>
    let f (i : Nat) : W32 := BitVec.ofNat 32 (a.at' (0x40 + 16 * j + 4 * i) 4)
    { start := f 0, stop := f 1, count := f 2, index := f 3, rot := w / 2 ^ (3 + j) % 2 == 1,
      depthE := w / 2 ^ (9 + 3 * j) % 8 }

/-- The axis stack. -/
def Area.lifts (a : Area) : List LiftEnt :=
  (List.range (a.at' 0 8 / 2 ^ 16 % 4)).map fun j =>
    let v := a.at' (0xA0 + 16 * j) 8
    { n := v / 2 ^ 32 % 128, ret := BitVec.ofNat 32 v, ldp := v / 2 ^ 39 % 8 }

/-- The iterator that an image of 128 bytes stands for. -/
def Iter.ofImage (v : Nat) : Iter :=
  let w (lo : Nat) : W32 := BitVec.ofNat 32 (v / 2 ^ lo)
  { valid := true, handle := BitVec.ofNat 16 v, b0 := w 64, b1 := w 96, b2 := w 128, b3 := w 160,
    str := ((List.range 24).map fun j => (j, w (256 + 32 * j))).filter fun e => e.2 != 0,
    rev := BitVec.ofNat 6 (v / 2 ^ 192), span := BitVec.ofNat 6 (v / 2 ^ 200) }

/-- An iterator, with its valid bit. -/
def Area.iter (a : Area) (i : Nat) : Iter := { Iter.ofImage (a.at' (0x600 + 128 * i) 128) with valid := a.valid 1 (32 + i) }

/-- The registers and queues of a save area (R116, R203). -/
def Area.files (a : Area) (tags : List (BitVec 3)) : Files × Queues :=
  let ls := a.lifts
  let n (j : Nat) : Nat := a.at' (0x1E0 + j) 1
  let tag (off i : Nat) : BitVec 3 := tags.getD (off + i) 0
  let (v, vb) := takeRegs ls (a.regs 1024 31 3 0 0x3000 0x180) (a.backing 1024 0x9000 128)
  let (qv, vb) := a.queue ls 0x1000 (tag (n 0)) (n 1) 0 vb
  let (w, wb) := takeRegs ls (a.regs 1024 31 4 0 0x4000 0x1A0) (a.backing 1024 0xD000 128)
  let (qw, _) := a.queue ls 0x1800 (tag (n 0 + n 1)) (n 2) 0 wb
  let mb : List (BitVec 128) := vb.flatMap fun x => (List.range 8).map fun i => BitVec.ofNat 128 (x.toNat / 2 ^ (128 * i))
  let (m, _) := takeRegs ls ((a.regs 128 8 5 0 0x280 0x1C0).filter fun r => decide (2 ≤ r.1)) mb
  let (t, _) := takeRegs ls (a.regs 8192 16 6 16 0x5000 0x1D0) (a.backing 8192 0x11000 48)
  let (qs, _) := a.queue (w := 64) ls 0xA00 (fun _ => 0) (n 0) 0 []
  let (qx, _) := a.queue (w := 1024) ls 0x2000 (fun _ => 0) (n 3) 0 []
  let p : AMap (Reg 1) := ((List.range 13).map fun i =>
    (i + 1, (⟨a.valid 5 (17 + i), BitVec.ofNat 1 (a.at' 0x240 2 / 2 ^ (i + 1))⟩ : Reg 1))).filter fun e => e.2 != Reg.invalid
  let k : AMap Iter := ((List.range 8).map fun i => (i, a.iter i)).filter fun e => e.2 != Iter.invalid
  ({ c := a.file 32 16 0 0 0x200, a := a.file 64 32 1 0 0x400, s := a.file 64 31 2 0 0x500, e := a.file 64 16 7 0 0x340,
     x := a.file 64 8 6 0 0x300, p := p, v := v, w := w, m := m, t := t, k := k },
   { qs := qs, qv := qv, qw := qw, qx := qx })

/-- A context as its save area holds it, with the segment of its MARK open again (R116, R219); `seg` is the entry
of the segment table. -/
def Area.restore (a : Area) (c : Ctx) (tags : List (BitVec 3)) (seg : W64) : Ctx :=
  let h := a.at' 0 8
  let pc : W32 := BitVec.ofNat 32 (a.at' 8 4)
  let (fs, qs) := a.files tags
  let c : Ctx :=
    { c.dormant with
      st := .active, priv := h / 8 % 2 == 1, files := fs, queues := qs,
      sq := { pc := pc, npc := pc, after := pc, loops := a.loops, rb := a.at' 0x10 8 / 2 ^ 27 % 16, lifts := a.lifts,
              region := none, fmt := BitVec.ofNat 32 (a.at' 0x18 4), pend := BitVec.ofNat 32 (a.at' 0x1C 4),
              cd := a.at' 0x20 1 },
      key := BitVec.ofNat 64 (a.at' 0xD0 8), ctr := BitVec.ofNat 64 (a.at' 0xD8 8),
      rounds := (List.range 16).map fun g => (g, BitVec.ofNat 16 (a.at' (0x140 + 2 * g) 2)),
      accsat := a.at' 0xF0 4 % 2 == 1, fsat := a.at' 0xF0 4 / 2 % 2 == 1 }
  { c with seg := Segment.opened (BitVec.ofNat 14 (h / 2 ^ 32)) seg c.snapshot,
           fl := { c.fl with markSeq := c.fl.seq, copyStat := BitVec.ofNat 64 (a.at' 0xE0 8),
                             fabStat := BitVec.ofNat 64 (a.at' 0xE8 8) } }

/-- The words of a microprogram image; address 0 is an all-zero image (R404). -/
def State.imageWord (s : State) (a i : Nat) : W64 := if a = 0 then 0 else BitVec.ofNat 64 (s.seenN (a + 8 * i) 8)

/-- The runs of words that an image at an address is made of. -/
def imageRuns (a : Nat) : List (Nat × Nat) := if a = 0 then [] else [(a, 4096)]

/-- A store loaded from the runs of words of an image. -/
def State.storeOf (s : State) (runs : List (Nat × Nat)) : AMap W64 :=
  let as := runs.flatMap fun r => (List.range r.2).map fun i => r.1 + 8 * i
  (as.zipIdx.map fun a => (a.2, BitVec.ofNat 64 (s.seenN a.1 8))).filter fun e => e.2 != 0

/-- Free values for the truss buffers and the scale memory after a resume (R313, log entry 4). -/
def freeBuf (n : Nat) : AMap VBits :=
  (List.range 64).map fun i => (i, BitVec.ofNat 1024 (ofBytes ((List.range 128).map fun j => Config.freeByte n (128 * i + j))))

def freeSmem (n : Nat) : AMap W32 :=
  (List.range 4096).map fun i =>
    (i, BitVec.ofNat 32 (ofBytes ((List.range 4).map fun j => Config.freeByte n (8192 + 4 * i + j))))

/-- Core `p` prepared for a resume: its store, scratchpad and split; latches 1.0; buffers and scale memory
undefined (R313). -/
def resumeCore (p : Nat) (t : Inst) (n : Nat) (l : Launch) : M Unit := do
  (((← get).core p).blocks).forM (leaveL1 p)
  let img := t.images.get [] n
  let l1n := t.splits.get 2 n
  let f ← freshFree
  clearBytes (scrAddr p 0) scrBytes
  touchByEngine (l.scrArea t.idx n) scrBytes
  copyBytes (l.scrArea t.idx n) (scrAddr p 0) (scrBytes - l1n * 0x8000)
  let st := (← get).storeOf img
  modCore p fun x =>
    { Core.clear with clk := x.clk, l1n := l1n, store := st, image := img, buf := freeBuf f, smem := if p % 16 = 0 then freeSmem f else [],
                      lastEnd := x.lastEnd, divFree := x.divFree, laneFree := x.laneFree, pred := x.pred,
                      arrQ := t.waiting.get [] n, quarantined := x.quarantined, halted := x.halted }

/-- Instance `i` resumes on cluster `c` from partition `p0` (R116, R313). -/
def resumeInst (i c p0 : Nat) : M Unit := do
  let s ← get
  let t0 := s.inst i
  let t := { t0 with cluster := c, p0 := p0 }
  let l := s.launch t.launch
  (List.range t.cores).forM fun n => resumeCore (t.phys n) t n l
  t.kept.forM fun (nk, st, atl) => do
    let n := nk / 4
    let j := 4 * t.phys n + nk % 4
    let base := l.saveArea t.idx n (nk % 4)
    let slot : Ctx := { Ctx.free with launch := t.launch, inst := i, icore := n, atLaunch := atl, priv := l.priv }
    let c ← match st with
      | .saved => do
        let h ← rdN base 8
        let _ ← rdN base areaBytes
        let e ← rdW64 (l.segTab + 8 * (h / 2 ^ 32 % 2 ^ 14))
        pure (Area.restore ⟨(← get).mem, base⟩ slot (t.qtags.get [] nk) e)
      | .dormant => pure slot.dormant
      | st => pure { slot with st := st }
    modCtx j fun _ => { c with nextIssue := 0 }
  let move (k : Nat) : Nat := k + 4 * t.phys 0 - 4 * t0.phys 0
  modify fun s => s.setInst i
    { t with placed := true, saved := false, started := s.tick, images := [], splits := [], kept := [], qtags := [],
             waiting := [], joints := t.joints.map fun j => (j.1, { j.2 with arrived := j.2.arrived.map move }) }

end Sys2Proof.Machine
end

