-- ==== Sys2Proof/Machine/Distrib.lean ====
section
/-!
DEFINITION. Sys2Proof/Machine/Distrib.lean: the distributor: launch packets, dispatch, placement, pre-emption,
completion, classes (R96, R97, R403 to R412), semaphores and QPUSH (R414 to R418).
-/

namespace Sys2Proof.Machine

/-! ### Packets (R403, R404, R438) -/

/-- The control word of a queue. -/
def State.queueWord (s : State) (q : Nat) : W64 := s.reg (queueReg q 0)
def State.queueTenant (s : State) (q : Nat) : Nat := fieldN (s.queueWord q) 38 10
def State.queuePrio (s : State) (q : Nat) : Nat := fieldN (s.queueWord q) 36 2
def State.queue (s : State) (q : Nat) : Queue := s.dist.queues.get Queue.empty q

/-- A packet error: a record of class 0 with its reason and value (R438). -/
def packetError (q reason val : Nat) : M Unit :=
  postRecord q [BitVec.ofNat 64 (2 ^ 63 + reason * 2 ^ 42), 0, 0, 0, 0, BitVec.ofNat 64 val, 0, 0]

/-- Word `i` of a packet. -/
def pkt (ws : List W64) (i : Nat) : W64 := ws.getD i 0

/-- Are V, TYPE and every reserved field of a packet as R404 asks? -/
def packetClean (ws : List W64) : Bool :=
  let z (i lo n : Nat) : Bool := fieldN (pkt ws i) lo n == 0
  (pkt ws 0).getLsbD 63 && z 0 60 3 && z 0 48 12 && z 0 24 8 && z 0 4 17
    && ([1, 3, 4, 6, 7, 8].all fun i => z i 48 16) && z 5 63 1 && z 9 33 15 && z 11 12 4 && z 11 29 35
    && ((List.range 8).all fun i => z (12 + i) 44 19) && ([28, 29, 30, 31].all fun i => pkt ws i == 0)

/-- Does the semaphore window lie in what the driver assigned to the queue's tenant? -/
def State.semWindowOk (s : State) (q : Nat) (ws : List W64) : Bool :=
  let w := s.reg (0x3000 + 8 * s.queueTenant q)
  let base := fieldN (pkt ws 11) 0 12
  let n := fieldN (pkt ws 11) 16 13
  n == 0 || (decide (fieldN w 0 12 ≤ base) && decide (base + n ≤ fieldN w 0 12 + fieldN w 16 13))

/-- FREE of a queue's control word. -/
def setFree (q : Nat) : M Unit := modify fun s =>
  s.setReg (queueReg q 0) (setField (s.queueWord q) 0 5 (16 - (s.queue q).fifo.length))

/-- Change a queue's FIFO. -/
def setFifo (q : Nat) (f : List (List W64)) : M Unit := do
  modDist fun d => { d with queues := d.queues.set q { d.queues.get Queue.empty q with fifo := f } }
  setFree q

/-- The reason to discard a packet, or none (R404). -/
def State.packetFault (s : State) (q : Nat) (ws : List W64) : Option Nat :=
  if !packetClean ws then some 2 else if !s.semWindowOk q ws then some 3 else none

/-- A packet that passes R404 joins a FIFO with the device's next sequence number (R409); PRIV stays only where the
queue permits it, and for QPUSH the pushing context is privileged. -/
def enqueue (q : Nat) (ws : List W64) (priv : Bool) : M Unit := do
  let s ← get
  match s.packetFault q ws with
  | some n => packetError q n 0
  | none => do
    let keep := priv && (s.queueWord q).getLsbD 61
    let h := if keep then pkt ws 0 else pkt ws 0 &&& ~~~((1 : W64) <<< 23)
    modDist fun d => { d with seqNo := d.seqNo + 1 }
    setFifo q ((s.queue q).fifo ++ [(h :: (ws.take 32).drop 1) ++ [BitVec.ofNat 64 s.dist.seqNo]])

/-- Does the host reach a device whose mailbox is ready: powered, its PCIe link up, past the last step of its power-up (R439,
R450, R452)? -/
def Mgmt.hostOpen (m : Mgmt) : Bool := m.powered && m.linkUp && m.booted

/-- A write by the host of a register with an effect: none reaches a device in boot or without its link (R439, R450). -/
def hostWrites (x : M Unit) : M Unit := do if (← get).mg.hostOpen then x

/-- Is a feature enabled: negotiation has succeeded with its bit (R437)? -/
def State.feature (s : State) (b : Nat) : Bool := (s.reg 0x10).getLsbD 1 && s.mg.features.getLsbD b

/-- Where word `i` of VF `fn`'s own boot mailbox stands: past the PF's BAR0 (R433, log entry 87). -/
def vfBox (fn i : Nat) : Nat := 0x10000 + 24 * fn + 8 * i

/-- Is OK set for a function: in the PF's mailbox, and for a VF in its own too (R437, log entry 87)? -/
def State.agreed (s : State) (fn : Nat) : Bool := (s.reg 0x10).getLsbD 1 && (fn == 0 || (s.reg (vfBox fn 2)).getLsbD 1)

/-- Is a queue assigned to a function (R433, R438)? -/
def State.ownsQueue (s : State) (fn q : Nat) : Bool :=
  fieldN (s.queueWord q) 48 8 == fn && (fn == 0 || s.feature 0)

/-- Has negotiation succeeded, and does a queue accept packets (R437, R438)? -/
def State.accepts (s : State) (q : Nat) : Bool := (s.reg 0x10).getLsbD 1 && (s.queueWord q).getLsbD 63

/-- Word `i` of the launch window of a queue lands (R403). -/
def setWindow (q i : Nat) (v : W64) : M Unit := modDist fun d => { d with windows := d.windows.set (32 * q + i) v }

/-- The words that a launch window holds. -/
def State.window (s : State) (q : Nat) : List W64 := (List.range 32).map fun i => s.dist.windows.get 0 (32 * q + i)

/-- The window of a queue takes the packet that it holds: one that finds the FIFO full is an error (R403, R404). -/
def takeWindow (q : Nat) : M Unit := do
  let s ← get
  if s.accepts q then
    if 16 ≤ (s.queue q).fifo.length then packetError q 1 0 else enqueue q (s.window q) true

/-- LAUNCH_PACKET: the words of a packet from a function land in window `q.1`, the last by address at the end, and the window
takes it; a window of another function discards them, and before OK every window does (R403, R404, R433, R437). -/
def execLaunchPacket (q : BitVec 8 × Nat) (ws : List W64) (s : State) : Host.Outcome State Fault Refusal :=
  let (q, fn) := q
  finish s (hostWrites (do
    let s ← get
    if s.agreed fn && s.ownsQueue fn q.toNat then do
      (List.range 32).forM fun i => setWindow q.toNat i (pkt ws i)
      takeWindow q.toNat))

/-! ### Placement (R405, R406, R409) -/

/-- Partitions that an instance of a kernel image needs (R405). -/
def State.imageNeed (s : State) (img : Nat) : Nat :=
  let placed := (List.range 64).filter fun n => s.seenN (img + 0x100 + 8 * n) 8 / 2 ^ 63 == 1
  match placed.getLast? with
  | none => 0
  | some n => (n + 16) / 16

/-- A kernel's class, where the table has it (R410). -/
def State.classOf (s : State) (img : Nat) : Option KClass := (findBy (fun e => e.1 == img) s.dist.classes).map (·.2)

/-- Does an instance stand on partition `p` of the device? -/
def Inst.on (t : Inst) (p : Nat) : Bool :=
  t.placed && decide (4 * t.cluster + t.p0 ≤ p) && decide (p < 4 * t.cluster + t.p0 + t.need)

/-- Is partition `p` free for a tenant, once the instances `gone` have left and with `taken` chosen? -/
def State.partFree (s : State) (tenant : Nat) (gone taken : List Nat) (p : Nat) : Bool :=
  let w := s.reg (0x5000 + 8 * p)
  w.getLsbD 63 && fieldN w 0 10 == tenant && !taken.contains p
    && !s.dist.insts.any (fun e => !gone.contains e.1 && e.2.on p)
    && (List.range 16).all fun n => !(s.core (16 * p + n)).quarantined

/-- What is to be placed. -/
structure Want where
  tenant : Nat
  need : Nat
  cls : Option KClass
  /-- Instances that leave first. -/
  gone : List Nat
  deriving DecidableEq, Repr

/-- The partitions of chosen spots (cluster, p0). -/
def Want.parts (w : Want) (spots : List (Nat × Nat)) : List Nat :=
  spots.flatMap fun x => (List.range w.need).map fun j => 4 * x.1 + x.2 + j

/-- Clusters and first partitions of the free runs, in order of cluster, then p0. -/
def State.runs (s : State) (w : Want) (spots : List (Nat × Nat)) : List (Nat × Nat) :=
  ((List.range 16).flatMap fun c => (List.range (5 - w.need)).map fun p0 => (c, p0)).filter fun x =>
    (List.range w.need).all fun j => s.partFree w.tenant w.gone (w.parts spots) (4 * x.1 + x.2 + j)

/-- A die's preference rank, the lower the better (R409). -/
def State.dieRank (s : State) (w : Want) (spots : List (Nat × Nat)) (d : Nat) : Nat :=
  let running (k : KClass) : Nat :=
    (s.dist.insts.filter fun e => e.2.placed && !w.gone.contains e.1 && e.2.cluster / 4 == d
      && s.classOf (s.launch e.2.launch).img == some k).length + (spots.filter fun x => x.1 / 4 == d).length
  match w.cls with
  | some .compute => running .compute
  | some .memory => running .memory
  | _ => 64 - ((List.range 16).filter fun p => s.partFree w.tenant w.gone (w.parts spots) (16 * d + p)).length

/-- The first of the best. -/
def bestBy {α : Type} (r : α → Nat) : List α → Option α
  | [] => none
  | x :: t => match bestBy r t with
    | none => some x
    | some y => if r x ≤ r y then some x else some y

/-- The spot for one instance; with a die given, on that die alone (R409). -/
def State.place (s : State) (w : Want) (spots : List (Nat × Nat)) (die : Option Nat) : Option (Nat × Nat) :=
  match die with
  | some d => ((s.runs w spots).filter fun x => x.1 / 4 == d).head?
  | none => bestBy (fun x => s.dieRank w spots (x.1 / 4)) (s.runs w spots)

/-- Is the mode replicated? -/
def State.replicated (s : State) : Bool := (s.reg 0x5200).getLsbD 0

/-- The spots of instances `i` upwards of a packet with sequence number `q`. -/
def State.placeAll (s : State) (w : Want) (q i : Nat) : Nat → List (Nat × Nat) → Option (List (Nat × Nat))
  | 0, spots => some spots
  | n + 1, spots =>
    match s.place w spots (if s.replicated then some ((q + i) % 4) else none) with
    | none => none
    | some x => s.placeAll w q (i + 1) n (spots ++ [x])

/-- What a packet wants placed, and its spots once `gone` have left. -/
def State.packetSpots (s : State) (q : Nat) (ws : List W64) (gone : List Nat) : Option (List (Nat × Nat)) :=
  let img := fieldN (pkt ws 1) 0 48
  s.placeAll ⟨s.queueTenant q, s.imageNeed img, s.classOf img, gone⟩ (pkt ws 32).toNat 0 (fieldN (pkt ws 0) 0 4 + 1) []

/-! ### Dispatch (R408, R411) -/

/-- The semaphores and amounts of four conditions or actions from word `i` of a packet. -/
def semFields (ws : List W64) (i : Nat) : List (Nat × Nat) :=
  ((List.range 4).filter fun j => (pkt ws (i + j)).getLsbD 63).map fun j =>
    (fieldN (pkt ws (i + j)) 32 12, fieldN (pkt ws (i + j)) 0 32)

/-- What conditions ask of each semaphore, summed. -/
def semSums (cs : List (Nat × Nat)) : AMap Nat := cs.foldl (fun m c => m.set c.1 (m.get 0 c.1 + c.2)) []

/-- May the head packet of a queue start, placement apart: SER and the wait conditions? -/
def State.packetOpen (s : State) (q : Nat) (ws : List W64) : Bool :=
  (!(pkt ws 0).getLsbD 21 || (match (s.queue q).prev with | some l => !(s.launch l).running | none => true))
    && (semSums (semFields ws 12)).all fun e => decide (e.2 ≤ (s.dist.sems.get 0 e.1).toNat)

/-- Instances by the time they started, the latest first. -/
def insertLate (s : State) (i : Nat) : List Nat → List Nat
  | [] => [i]
  | j :: t => if (s.inst j).started ≤ (s.inst i).started then i :: j :: t else j :: insertLate s i t

/-- The instances to be stopped for a packet of queue `q` that finds no placement, `st` being under way: no more
than free a placement, the latest started first (R411). -/
def State.reclaim (s : State) (q : Nat) (ws : List W64) (st : List Nat) : List Nat :=
  let all := s.dist.insts.map (·.1)
  let mine (i : Nat) : Bool := s.queueTenant (s.launch (s.inst i).launch).queue == s.queueTenant q && (s.inst i).placed
  let under := all.filter fun i => mine i && ((s.inst i).stopping || st.contains i)
  let able (i : Nat) : Bool :=
    mine i && !(s.inst i).stopping && !st.contains i && !(s.launch (s.inst i).launch).npre
      && decide (s.queuePrio (s.launch (s.inst i).launch).queue < s.queuePrio q)
      && (s.members i).any fun k => (s.ctx k).live || (s.ctx k).st == .dormant
  let cands := (all.filter able).foldl (fun l i => insertLate s i l) []
  match findBy (fun n => (s.packetSpots q ws (under ++ cands.take n)).isSome) (List.range (cands.length + 1)) with
  | some n => cands.take n
  | none => []

/-- What a pass serves. -/
inductive Serve where
  | resume (i c p0 : Nat)
  | start (q : Nat) (spots : List (Nat × Nat))
  deriving DecidableEq, Repr

/-- The saved instance of a queue that resumes next. -/
def State.resumeOf (s : State) (q : Nat) : Option Nat :=
  findBy (fun i => (s.launch (s.inst i).launch).queue == q) s.dist.resumes

/-- Where an instance resumes: in replicated mode on its die. -/
def State.resumeSpot (s : State) (q i : Nat) : Option (Nat × Nat) :=
  let t := s.inst i
  let w : Want := ⟨s.queueTenant q, t.need, s.classOf (s.launch t.launch).img, []⟩
  s.place w [] (if s.replicated then some (t.cluster / 4) else none)

/-- One pass over queues in order: the instances to be stopped on the way, and what is served. -/
def State.scan (s : State) : List Nat → List Nat → List Nat × Option (Nat × Serve)
  | [], st => (st, none)
  | q :: qs, st =>
    match s.resumeOf q, (s.queue q).fifo with
    | some i, _ =>
      match s.resumeSpot q i with
      | some x => (st, some (q, .resume i x.1 x.2))
      | none => s.scan qs st
    | none, [] => s.scan qs st
    | none, ws :: _ =>
      if s.packetOpen q ws then
        match s.packetSpots q ws [] with
        | some spots => (st, some (q, .start q spots))
        | none => s.scan qs (st ++ s.reclaim q ws st)
      else s.scan qs st

/-- The queues in the order of a pass: by priority, then ascending from after the last served (R408). -/
def State.passOrder (s : State) : List Nat :=
  let last := s.dist.lastServed.get 255 0
  let busy := (List.range 256).filter fun q => !(s.queue q).fifo.isEmpty || (s.resumeOf q).isSome
  [3, 2, 1, 0].flatMap fun p =>
    let qs := busy.filter fun q => s.queuePrio q == p
    qs.filter (fun q => decide (last < q)) ++ qs.filter (fun q => decide (q ≤ last))

/-- What the next pass does. -/
def State.passResult (s : State) : List Nat × Option (Nat × Serve) :=
  if s.mg.powered && s.mg.linkUp then s.scan s.passOrder [] else ([], none)

/-- Request the pre-emption of an instance: its Active contexts are Stopping (R114). -/
def requestStop (i : Nat) : M Unit := do
  modify fun s => s.setInst i { s.inst i with stopping := true }
  modify fun s => { s with ctxs := s.ctxs.map fun e =>
    if e.2.inst = i ∧ e.2.st = .active then (e.1, { e.2 with st := .stopping }) else e }

/-! ### Starting a launch (R97, R99, R283, R346, R405, R407) -/

/-- A launch from its packet and kernel image. -/
def Launch.parse (s : State) (q tenant need : Nat) (ws : List W64) : Launch :=
  let w := pkt ws
  let img := fieldN (w 1) 0 48
  let gr := fieldN (w 3) 0 48
  let hd := s.seenN img 8
  { Launch.none with
    queue := q, tenant := BitVec.ofNat 10 tenant, img := img, codeSize := hd % 2 ^ 32, handlers := hd / 2 ^ 32 % 64,
    tab := fieldN (w 2) 0 48, tabLen := fieldN (w 2) 48 16,
    grants := if gr = 0 then [] else (List.range 256).map fun i => BitVec.ofNat 128 (s.seenN (gr + 16 * i) 16),
    mprog := fieldN (w 4) 0 48, segTab := fieldN (w 5) 0 48, segLen := fieldN (w 5) 48 15, ctxSave := fieldN (w 6) 0 48,
    scrSave := fieldN (w 7) 0 48, compl := fieldN (w 8) 0 48,
    service := if (w 9).getLsbD 32 then some ((w 9).setWidth 32) else Option.none,
    window := if fieldN (w 9) 48 16 = 0 then 100 else fieldN (w 9) 48 16, seed := w 10, semBase := fieldN (w 11) 0 12,
    semCnt := fieldN (w 11) 16 13, signals := (semFields ws 16).map fun e => (e.1, BitVec.ofNat 32 e.2),
    words := (ws.drop 20).take 8, job := BitVec.ofNat 16 (fieldN (w 0) 32 16), priv := (w 0).getLsbD 23,
    npre := (w 0).getLsbD 22, n := fieldN (w 0) 0 4 + 1, need := need }

/-- A core prepared for a launch (R407). -/
def prepareCore (p : Nat) (img : List (Nat × Nat)) (store : AMap W64) : M Unit := do
  (((← get).core p).blocks).forM (leaveL1 p)
  clearBytes (scrAddr p 0) scrBytes
  modCore p fun x =>
    { Core.clear with clk := x.clk, store := store, image := img, lastEnd := x.lastEnd, divFree := x.divFree,
                      laneFree := x.laneFree, pred := x.pred, quarantined := x.quarantined, halted := x.halted }

/-- The contexts of core `n` of instance `i` on core `p`: those started are Active at the core's entry, the rest
Dormant; a core that the image does not place holds none (R50, R99, R405). -/
def placeCtxs (i : Nat) (t : Inst) (l : Launch) (n : Nat) : M Unit := do
  let s ← get
  let e := s.seenN (l.img + 0x100 + 8 * n) 8
  let p := t.phys n
  ([0, 1, 2, 3] : List Nat).forM fun k =>
    let slot : Ctx := { Ctx.free with launch := t.launch, inst := i, icore := n, priv := l.priv,
                                      nextIssue := (s.core p).clk }
    modCtx (4 * p + k) fun _ =>
      if e / 2 ^ 63 = 0 then Ctx.free
      else if k ≤ e / 2 ^ 32 % 4 then { slot with atLaunch := true }.start l t.idx k (BitVec.ofNat 32 e)
      else slot.dormant

/-- Install the bank of every filter tensor of a launch whose descriptor and bank are valid (R346). -/
def installBanks (l : Nat) : M Unit := do
  let la := (← get).launch l
  (List.range la.tabLen).forM fun h => do
    if h ≠ 0 then
      let (d, ok) ← descM 0 la (BitVec.ofNat 16 h)
      if ok ∧ d.cls = 1 then do
        holdBank 0 la (BitVec.ofNat 16 h)
        holdTensor 0 la (BitVec.ofNat 16 h)
      let s ← get
      if ok ∧ d.cls = 1 ∧ s.bankFault 0 la (BitVec.ofNat 16 h) false = none then
        let r := s.bankRef 0 l (BitVec.ofNat 16 h)
        let img := (List.range 8).map fun i => BitVec.ofNat 64 (s.seenN (r.b + 8 * i) 8)
        (s.planersOf r (List.range d.elems)).forM fun pl => installBank pl r img

/-- The completion word (R412). -/
def Launch.word (l : Launch) : Nat :=
  2 ^ 63 + (if l.aborted then 2 ^ 62 else 0) + (if l.fault then 2 ^ 61 else 0) + l.abortCode.toNat * 2 ^ 48

/-- The class that a launch's counts give (R410). -/
def Launch.class (l : Launch) : KClass :=
  if 64 * l.bytes ≤ l.ops then .compute else if l.ops < 8 * l.bytes then .memory else .balanced

/-- Is a launch of a kernel image its first: none is in the table, and none that runs is being measured (R410, log entry 65)? -/
def State.firstOf (s : State) (img : Nat) : Bool :=
  (s.classOf img).isNone && !s.dist.launches.any fun e => e.2.running && e.2.first && e.2.img == img

/-- Record the class of a kernel from its first launch, number `l`, once; the least recently used entry goes (R410). -/
def classify (l : Nat) : M Unit := do
  let la := (← get).launch l
  if la.first then do
    modDist fun d => { d with classes := ((la.img, la.class) :: d.classes).take 256 }
    modify fun s => s.setLaunch l { la with first := false }

/-- A launch is over: the completion word is written, then each signal is performed, and the tag has no running
launch (R87, R377, R412). -/
def completeLaunch (l : Nat) : M Unit := do
  let la := (← get).launch l
  devWriteFor l la.compl 8 la.word
  modDist fun d => { d with sems := la.signals.foldl (fun m e => semAdd m e.1 e.2) d.sems }
  modify fun s => s.setLaunch l { s.launch l with running := false }
  modDist fun d => { d with doneJobs := if d.doneJobs.contains la.job then d.doneJobs else d.doneJobs ++ [la.job] }

/-- The head packet of queue `q` starts on the spots given (R408). -/
def startLaunch (q : Nat) (spots : List (Nat × Nat)) : M Unit := do
  let s ← get
  match (s.queue q).fifo with
  | [] => pure ()
  | ws :: rest => do
    let img := fieldN (pkt ws 1) 0 48
    let _ ← rdN img 0x400
    let l := s.dist.nextLaunch
    let la := { Launch.parse s q (s.queueTenant q) (s.imageNeed img) ws with running := true, first := s.firstOf img }
    modDist fun d =>
      { d with
        sems := (semSums (semFields ws 12)).foldl
          (fun m e => m.set e.1 (BitVec.ofNat 32 ((m.get 0 e.1).toNat - e.2))) d.sems,
        launches := d.launches.set l la, nextLaunch := l + 1, everLaunched := true,
        queues := d.queues.set q ⟨rest, some l⟩,
        doneJobs := d.doneJobs.filter (· != la.job),
        classes := (d.classes.filter fun e => e.1 == img) ++ d.classes.filter fun e => e.1 != img }
    setFree q
    match checkImage (s.imageWord la.mprog) with
    | some bad => do
      packetError q 5 bad
      modify fun s => s.setLaunch l { s.launch l with aborted := true }
      completeLaunch l
    | none => do
      let store := s.storeOf (imageRuns la.mprog)
      installBanks l
      spots.zipIdx.forM fun (x, idx) => do
        let i ← freshId
        let t : Inst := { Inst.none with launch := l, idx := idx, cluster := x.1, p0 := x.2, need := la.need,
                                         placed := true, started := s.tick }
        modify fun s => s.setInst i t
        (List.range t.cores).forM fun n => do
          prepareCore (t.phys n) (imageRuns la.mprog) store
          placeCtxs i t la n
      retryHeld

/-- DISPATCH_PASS: one pass of R408: instances are asked to stop for packets that find no placement (R411), and one
saved instance or head packet is served. -/
def execDispatchPass (s : State) : Host.Outcome State Fault Refusal :=
  finish s (do
    let (st, sv) := s.passResult
    st.forM requestStop
    match sv with
    | none => pure ()
    | some (q, .start _ spots) => do
      startLaunch q spots
      modDist fun d => { d with lastServed := d.lastServed.set 0 q }
    | some (q, .resume i c p0) => do
      modDist fun d => { d with resumes := d.resumes.filter (· != i), lastServed := d.lastServed.set 0 q }
      resumeInst i c p0
      retryHeld)

/-! ### Pre-emption timeout, completion, classes -/

/-- PREEMPTION_TIMEOUT: the window of instance `i` has expired: its contexts that have reached no MARK end with class
14, and what its other contexts hold is discarded: they are Ended without a record (log entry 78); the window pauses while a
core is halted (R114, R232). -/
def execPreemptionTimeout (i : Nat) (s : State) : Host.Outcome State Fault Refusal :=
  finish s (do
    let ks := s.members i
    if (s.inst i).stopping ∧ ks.any (fun k => (s.ctx k).st == .stopping)
        ∧ ks.all (fun k => ((s.core (coreOf k)).halted).isNone) then do
      ks.forM fun k => do
        let c := (← get).ctx k
        if c.st = .stopping then takeTrap k { Trap.mk' clsTimeout 0 with precise := false }
        else if c.st = .saved ∨ c.st = .dormant then endQuiet k
      modify fun s => s.setInst i { s.inst i with stopping := false })

/-- May a launch complete: every context that it started is Halted or Ended, no handler is running, and all its
accesses and commands are complete (R87, R97)? -/
def State.launchOver (s : State) (l : Nat) : Bool :=
  let ins := s.dist.insts.filter fun e => e.2.launch == l
  (s.launch l).running && ins.all (fun e => e.2.placed)
    && ins.all fun e => (s.members e.1).all fun k =>
      let c := s.ctx k
      !c.live && c.st != .saved && (!c.atLaunch || c.st == .halted || c.st == .ended) && s.settled k

/-- LAUNCH_COMPLETION (R97, R412). -/
def execLaunchCompletion (l : Nat) (s : State) : Host.Outcome State Fault Refusal :=
  finish s (do
    if s.launchOver l then do
      let ins := (s.dist.insts.filter fun e => e.2.launch == l).map (·.1)
      (ins.flatMap s.members).forM performWrites
      classify l
      completeLaunch l
      modify fun s => { s with ctxs := s.ctxs.map fun e => if e.2.launch = l then (e.1, Ctx.free) else e }
      modDist fun d => { d with insts := d.insts.filter fun e => e.2.launch != l })

/-- CLASSIFIER_WINDOW_END: 50 µs of a kernel's first launch have passed (R410). -/
def execClassifierWindowEnd (l : Nat) (s : State) : Host.Outcome State Fault Refusal :=
  finish s (if (s.launch l).running then classify l else pure ())

/-! ### Semaphores (R414 to R417) -/

/-- Semaphore `v` of the launch's window; access fault 1 outside it. -/
def semIndex (v : Nat) : M Nat := do
  let l ← curLaunch
  if l.semCnt ≤ v then M.trap clsAccess 1
  return (l.semBase + v) % 4096

/-- SEMS (R416). -/
def execSems (a b : BitVec 5) (s : State) : Host.Outcome State Fault Refusal :=
  finish s (do
    let i ← liftC (rdE a)
    let v ← liftC (rdE b)
    gate (.sems (← semIndex (fieldN i 0 12)) (v.setWidth 32)))

/-- SEMS.I (R416). -/
def execSemsI (d : BitVec 5) (i : BitVec 13) (s : State) : Host.Outcome State Fault Refusal :=
  finish s (do
    let x ← liftC (rdE d)
    gate (.sems (← semIndex (fieldN x 0 12)) (i.setWidth 32)))

/-- An acquire at .dev of CORE accesses (R82, R86).  It stands as a fence between the accesses of the context before the SEMW and
those after it, which is more than R78 asks for (log entry 59). -/
def acquireDev : M Unit := do
  modify fun s => s.applyInvals (coreOf s.focus)
  fence .acq 3

/-- SEMW: nothing to wait for is an acquire at once; else the context joins the waiters (R417). -/
def semWait (i : Nat) (v : W32) : M Unit := do
  let k := (← get).focus
  if v = 0 then acquireDev
  else do
    modDist fun d => { d with waiters := d.waiters.set i (d.waiters.get [] i ++ [(k, v)]) }
    waitFor (.semw i v)

/-- SEMW (R417). -/
def execSemw (a b : BitVec 5) (s : State) : Host.Outcome State Fault Refusal :=
  finish s (do
    let i ← liftC (rdE a)
    let v ← liftC (rdE b)
    semWait (← semIndex (fieldN i 0 12)) (v.setWidth 32))

/-- SEMW.I (R417). -/
def execSemwI (d : BitVec 5) (i : BitVec 13) (s : State) : Host.Outcome State Fault Refusal :=
  finish s (do
    let x ← liftC (rdE d)
    semWait (← semIndex (fieldN x 0 12)) (i.setWidth 32))

/-- May the SEMW of context `k` acquire: it is at the head of its semaphore's waiters, and the count is there? -/
def State.semReady (s : State) (k : Nat) : Bool :=
  match (s.ctx k).wait with
  | .semw i v => (s.dist.waiters.get [] i).head? == some (k, v) && decide (v.toNat ≤ (s.dist.sems.get 0 i).toNat)
  | _ => false

/-- SEMW_ACQUIRE: the SEMW of context `k` consumes its count and acquires (R417). -/
def execSemwAcquire (k : Nat) (s : State) : Host.Outcome State Fault Refusal :=
  onEvent s k (do
    match (s.ctx k).wait with
    | .semw i v =>
      if s.semReady k then do
        modDist fun d => { d with sems := d.sems.set i (d.sems.get 0 i - v),
                                  waiters := d.waiters.set i ((d.waiters.get [] i).drop 1) }
        modCtx k fun c => { c.nextWait with seg := { c.seg with semTaken := c.seg.semTaken ++ [(i, v)] } }
        acquireDev
    | _ => pure ())

/-! ### QPUSH (R418) -/

/-- QPUSH: checked and gated. -/
def pushForm (v : W64) (q : BitVec 8) : M Unit := do
  let l ← curLaunch
  let s ← get
  let h := handleOf v
  let (_, off, _) ← gathTensor v 12 32 true
  let x := offCoord off
  let (d, ok) ← descM (← curDie) l h
  if !(s.queueWord q.toNat).getLsbD 62 || !s.accepts q.toNat || s.queueTenant q.toNat != l.tenant.toNat then
    M.trapAt clsAccess 5 h x
  if ok ∧ d.cls ≠ 0 then M.trapAt clsAccess 4 h x
  if off % 32 ≠ 0 then M.trapAt clsAccess 2 h x
  gate (.qpush h off q s.cur.priv)

/-- QPUSH (R418). -/
def execQpush (a b : BitVec 5) (s : State) : Host.Outcome State Fault Refusal :=
  finish s (do
    let v ← liftC (rdE a)
    let q ← liftC (rdE b)
    pushForm v (q.setWidth 8))

/-- QPUSH.I (R418). -/
def execQpushI (d : BitVec 5) (q : BitVec 8) (s : State) : Host.Outcome State Fault Refusal :=
  finish s (do pushForm (← liftC (rdE d)) q)

/-- The packet of a committed QPUSH, read at .dev. -/
def readPacket (k : Nat) (h : BitVec 16) (off : Nat) : M (List W64) := do
  let s ← get
  match ← readElems k 0 (s.launchOf k) h off 8 32 with
  | .ok ws => return ws.map (BitVec.ofNat 64)
  | .error _ => return []

end Sys2Proof.Machine
end

