-- ==== Sys2Proof/Machine/System.lean ====
section
/-!
DEFINITION. Sys2Proof/Machine/System.lean: migration of host-shared pages (R249 to R252), the debugger (R232, R233,
R435), the host link and its registers, attestation, errors, power, monitors and resets (R433 to R452).
-/

namespace Sys2Proof.Machine

/-! ### Features (R437) -/

/-- CTRL of a boot mailbox after GO: OK, or FAIL where DRVFEAT holds a bit that DEVFEAT lacks (R437). -/
def negotiated (dev drv ctrl : W64) : W64 := setField (setField ctrl 0 1 0) 1 2 (if drv &&& ~~~dev != 0 then 2 else 1)

/-- Word `i` of a VF's boot mailbox: DEVFEAT is the device's, DRVFEAT and CTRL are the VF's (R433, R437). -/
def State.boxWord (s : State) (fn i : Nat) : W64 := if i = 0 then s.reg 0x00 else s.reg (vfBox fn i)

/-- A VF writes a byte of its boot mailbox: DRVFEAT takes it; GO in CTRL is answered at once; the rest is read-only (R437). -/
def boxByte (fn off : Nat) (b : Byte) : M Unit := modify fun s =>
  if off / 8 = 1 then s.setReg (vfBox fn 1) (setField (s.boxWord fn 1) (8 * (off % 8)) 8 b.toNat)
  else if off = 16 ∧ b.getLsbD 0 then s.setReg (vfBox fn 2) (negotiated (s.boxWord fn 0) (s.boxWord fn 1) (s.boxWord fn 2))
  else s

/-- The device after GO in the PF's mailbox: OK enables exactly the bits of DRVFEAT, FAIL none (R437). -/
def State.negotiate (s : State) : State :=
  let on : W64 := if s.reg 0x08 &&& ~~~(s.reg 0x00) = 0 then s.reg 0x08 else 0
  ({ s with mg := { s.mg with features := on } } : State).setReg 0x10 (negotiated (s.reg 0x00) (s.reg 0x08) (s.reg 0x10))

/-- FEATURE_NEGOTIATION: GO is set; FAIL where DRVFEAT holds a bit that DEVFEAT lacks, OK otherwise (R437).  A device that
stays in boot negotiates nothing (R439). -/
def execFeatureNegotiation (s : State) : Host.Outcome State Fault Refusal :=
  finish s (hostWrites (modify State.negotiate))

/-! ### Migration (R250 to R252; ring registers: log entry 25) -/

/-- Registers of migration ring `r`: 0 to the device, 1 to the host. -/
def migRing (r : Nat) : Nat := 0x6000 + 16 * r
def migHead (r : Nat) : Nat := 0x6020 + 16 * r
def migTail (r : Nat) : Nat := 0x6028 + 16 * r

def State.migRoom (s : State) (r : Nat) : Bool :=
  decide ((s.reg (migTail r) - s.reg (migHead r)).toNat < 2 ^ (fieldN (s.reg (migRing r)) 48 4 + 4))

/-- A ring entry (R252). -/
def Mig.word (m : Mig) (seq : W32) : Nat :=
  seq.toNat * 2 ^ 96 + m.tile % 2 ^ 32 * 2 ^ 64 + 2 ^ 63 + (if m.toHost then 2 ^ 62 else 0) + m.tenant.toNat * 2 ^ 48
    + m.handle.toNat

/-- Post an entry for a migration; its sequence number.  Without feature 2 there are no rings, and no driver answers (R437, log
entry 61). -/
def postMig (m : Mig) (r : Nat) : M W32 := do
  let s ← get
  let seq := s.mp.migSeq.get 0 r
  let n := 2 ^ (fieldN (s.reg (migRing r)) 48 4 + 4)
  if s.feature 2 then do
    devWrite (fieldN (s.reg (migRing r)) 0 48 + 16 * ((s.reg (migTail r)).toNat % n)) 16 (m.word seq)
    modify fun s => s.setReg (migTail r) (s.reg (migTail r) + 1)
  modMp fun mp => { mp with migSeq := mp.migSeq.set r (seq + 1) }
  return seq

def modMig (id : Nat) (f : Mig → Mig) : M Unit :=
  modMp fun mp => { mp with migs := updBy (fun m => m.seq == id) f mp.migs }
def dropMig (id : Nat) : M Unit := modMp fun mp => { mp with migs := delBy (fun m => m.seq == id) mp.migs }

/-- May a waiting migration start: nothing earlier for its page is under way or within its 10 µs (R250)? -/
def State.migOpen (s : State) (m : Mig) : Bool :=
  m.stage == .waiting
    && (match findBy (fun x : Mig => x.entry == m.entry) s.mp.migs with | some x => x.seq == m.seq | none => false)
    && (m.toHost || s.migRoom 0)

/-- Every cached block of a page is written back and dropped. -/
def dropPage (f : Nat) : M Unit := do
  ((← get).cores.map (·.1)).forM fun c => do
    (((← get).core c).blocks.filter (inPage f)).forM (leaveL1 c)
    modCore c fun x => x.dropBlocks (inPage f)
  modMp fun mp => { mp with l2 := mp.l2.map fun e => (e.1, e.2.filter fun b => !inPage f b) }
  pageReset f

/-- Every write to a page that has left its agent is performed (R251). -/
def performPage (f : Nat) : M Unit :=
  modMp fun mp =>
    { mp with unperf := mp.unperf.map fun w => { w with cells := w.cells.filter fun c => c.1 / 65536 != f } }

/-- The invalidation by R248 of the entry of a migration begins. -/
def beginMigInval (m : Mig) : M Unit := do
  let id ← freshId
  let v : Inval := { id := id, who := .mig m.seq, words := [(m.entry, 16)], entries := [m.entry], pages := [], frames := [] }
  modMp fun mp => { mp with pend := mp.pend ++ [v] }

/-- The first step of a migration (R251); a page already where it is wanted has nothing to move. -/
def startMig (m : Mig) : M Unit := do
  let lo ← rdW64 m.entry
  if lo.getLsbD 62 = m.toHost then dropMig m.seq
  else do
    wrW64 m.entry (setField lo 61 1 1)
    if m.toHost then do
      beginMigInval m
      modMig m.seq fun x => { x with stage := .copying }
    else do
      let n ← postMig m 0
      modMig m.seq fun x => { x with stage := .revoked, ring := n }

/-- MIGRATION_REQUEST: a request to move a host-shared page is taken or merged, and the move starts when its turn has
come; the driver requests only with feature 2 (R250, R437). -/
def execMigrationRequest (die h tile : Nat) (dir : Bool) (l : Nat) (s : State) : Host.Outcome State Fault Refusal :=
  finish s (do
    let la := (← get).launch l
    let (d, ok) ← descM die la (BitVec.ofNat 16 h)
    if ok ∧ d.cls = 3 ∧ tile < d.count then do
      let e := d.entryAddr tile
      if (← get).feature 2 && !(← get).mp.migs.any (fun m => m.entry == e && m.toHost == dir) then
        requestMove l (BitVec.ofNat 16 h) tile e dir .driver
      let s ← get
      match findBy (fun m => m.entry == e && m.toHost == dir) s.mp.migs with
      | some m => if s.migOpen m then startMig m else pure ()
      | none => pure ())

/-- MIGRATION_ACK: the driver acknowledges the revocation with SEQ `seq`; the copy begins (R251). -/
def execMigrationAck (seq : Nat) (s : State) : Host.Outcome State Fault Refusal :=
  finish s (do
    if (← get).feature 2 then modMp fun mp =>
      { mp with migs := updBy (fun m => m.stage == .revoked && m.ring.toNat == seq) (fun m => { m with stage := .copying }) mp.migs })

/-- One who asked for a refused migration: a context ends with translation fault 6, an engine command fails with that
subcode (R247). -/
def refuseAsker (m : Mig) (a : Asker) : M Unit := do
  match a with
  | .driver => pure ()
  | .ctx k h x =>
    if ((← get).ctx k).live then
      rollbackEnd k { Trap.mk' clsTranslation 6 with handle := h, at' := x, precise := false }
  | .cmd k cls id =>
    if cls = 3 then modCopy k id fun q => { q with code := 1, sub := 6 }
    else if cls = 4 then
      match (← get).fabOf k id with
      | some r => endFab k r 10 6 0
      | none => pure ()
    else do
      let s ← get
      match (s.core (coreOf k)).run with
      | some r =>
        if r.call.id = id then do
          endCall (coreOf k) r
          if (s.ctx k).live then
            rollbackEnd k { Trap.mk' clsTranslation 6 with handle := m.handle, precise := false }
      | none => pure ()

/-- MIGRATION_ACK_TIMEOUT: no acknowledgement within 1 ms; the migration is refused and MIG is clear (R247, R251). -/
def execMigrationAckTimeout (seq : Nat) (s : State) : Host.Outcome State Fault Refusal :=
  finish s (do
    match findBy (fun m => m.stage == .revoked && m.ring.toNat == seq) (← get).mp.migs with
    | none => pure ()
    | some m => do
      let lo ← rdW64 m.entry
      wrW64 m.entry (setField lo 61 1 0)
      luDrop m.entry 16
      dropMig m.seq
      m.askers.forM (refuseAsker m))

/-- The copy of a page that the two words of its entry name, to the host or to the device; the entry then names the new
owner (R251). -/
def movePage (m : Mig) : M Unit := do
  let lo ← rdW64 m.entry
  let hi ← rdW64 (m.entry + 8)
  let dev := fieldN lo 0 24 * 65536
  let host := hostBase + fieldN hi 0 48 * 65536
  if m.toHost then do
    dropPage (fieldN lo 0 24)
    performPage (fieldN lo 0 24)
    copyBytes dev host 65536
  else copyBytes host dev 65536
  wrW64 m.entry (setField lo 61 2 (if m.toHost then 2 else 0))

/-- The invalidation of a migration, while it has not completed. -/
def State.migInval (s : State) (m : Mig) : Option Inval := findBy (fun v => v.who == .mig m.seq) s.mp.pend

/-- MIGRATION_COPY_DONE: the page copy of migration `id` ends; owner and entry are updated, and a move to the host is
reported to the driver.  To the host the entry's invalidation completes first, every access translated with it having
performed; to the device it is the last step, at this event again where it has to wait (R248, R251). -/
def execMigrationCopyDone (id : Nat) (s : State) : Host.Outcome State Fault Refusal :=
  finish s (do
    match findBy (fun m => m.seq == id && m.stage == .copying) (← get).mp.migs with
    | none => pure ()
    | some m => do
      if !m.toHost ∧ ((← get).migInval m).isNone then do
        movePage m
        beginMigInval m
      let s ← get
      match s.migInval m with
      | none => pure ()
      | some v =>
        if s.invalReady v ∧ (!m.toHost ∨ s.migRoom 1) then do
          completeInval v
          if m.toHost then do
            movePage m
            let _ ← postMig m 1
          modMig id fun x => { x with stage := .holding })

/-- MIGRATION_HOLD_EXPIRE: 10 µs with the new owner have passed for the page with tile entry `f` (R250). -/
def execMigrationHoldExpire (f : Nat) (s : State) : Host.Outcome State Fault Refusal :=
  finish s (modMp fun mp => { mp with migs := delBy (fun m => m.entry == f && m.stage == .holding) mp.migs })

/-! ### Breakpoints, watchpoints, halts (R232, R435) -/

/-- Address of breakpoint or watchpoint entry `u` (8 to 11 are the watchpoints). -/
def dbgEntry (u : Nat) : Nat := 0xB000 + 32 * u

/-- Does an armed entry watch the launch of context `k`? -/
def State.watches (s : State) (k u : Nat) : Bool :=
  let w := s.reg (dbgEntry u)
  let l := s.launchOf k
  s.feature 5 && w.getLsbD 63 && fieldN w 48 10 == l.tenant.toNat && fieldN w 0 48 == l.img

/-- The breakpoint that the next bundle of context `k` meets (R232). -/
def State.breakpointAt (s : State) (k : Nat) : Option Nat :=
  findBy (fun u => s.watches k u && fieldN (s.reg (dbgEntry u + 8)) 0 32 == (s.ctx k).sq.pc.toNat) (List.range 8)

/-- A core halts for debug at a bundle boundary: the context and the unit. -/
def haltCore (c k u : Nat) : M Unit :=
  modCore c fun x => if x.halted.isSome then x else { x with halted := some (k % 4, u), resumed := none }

/-- DEBUG_BREAK: breakpoint or watchpoint `u` halts the core of context `k` before a bundle issues (R232). -/
def execDebugBreak (k u : Nat) (s : State) : Host.Outcome State Fault Refusal :=
  finish s (do
    let s ← get
    if u < 12 ∧ s.watches k u ∧ (s.ctx k).live ∧ (u < 8 → s.breakpointAt k = some u) then do
      haltCore (coreOf k) k u
      modify fun s => s.setReg (dbgEntry u) (setField (s.reg (dbgEntry u)) 62 1 1))

/-- DEBUG_HALT_COMMAND (R435). -/
def execDebugHaltCommand (c : Nat) (s : State) : Host.Outcome State Fault Refusal :=
  finish s (do if (← get).feature 5 then haltCore c 0 12)

/-- DEBUG_RESUME_COMMAND: the core goes on; the bundle that met a breakpoint issues (R435). -/
def execDebugResumeCommand (c : Nat) (s : State) : Host.Outcome State Fault Refusal :=
  finish s (do
    if (← get).feature 5 then
      modCore c fun x => { x with halted := none, resumed := match x.halted with
        | some (k, u) => if u < 12 then some k else none
        | none => none })

/-- The register at 0xB200: a halt is reported once the loads of the core's contexts have filled (R232, R435). -/
def State.haltReport (s : State) : W64 :=
  let hs := s.cores.filter fun e => e.2.halted.isSome
    && ([0, 1, 2, 3].all fun i => (s.ctx (4 * e.1 + i)).fl.loads.isEmpty)
  match hs with
  | [] => 0
  | (c, x) :: t =>
    let (k, u) := x.halted.getD (0, 0)
    BitVec.ofNat 64 (2 ^ 63 + (if t.isEmpty then 0 else 2 ^ 62) + c / 64 * 2 ^ 40 + c % 64 * 2 ^ 34 + k * 2 ^ 32 + u * 2 ^ 24)

/-! ### Debug access (R233, R435) -/

/-- What an access reads, or writes: valid bit, tag, value. -/
structure Dbg where
  valid : Bool
  tag : BitVec 3
  val : Nat
  deriving DecidableEq, Repr

/-- Example `ex` of a tagged register. -/
def TReg.dbg {w : Nat} (r : TReg w) (ls : List LiftEnt) (ex : Nat) : Option Dbg :=
  if ex < exCount ls r.tag then
    some ⟨r.valid, r.tag, (match ex with | 0 => r.val | n + 1 => r.copies.getD n r.val).toNat⟩
  else none

/-- A tagged register with example `ex` written. -/
def TReg.dbgSet {w : Nat} (r : TReg w) (ls : List LiftEnt) (ex : Nat) (v : Dbg) : TReg w :=
  let n := exCount ls v.tag - 1
  let cs := (List.range n).map fun i => r.copies.getD i r.val
  let x := BitVec.ofNat w v.val
  match ex with
  | 0 => ⟨v.valid, v.tag, x, cs⟩
  | i + 1 => ⟨v.valid, v.tag, r.val, cs.set i x⟩

def Reg.dbg {w : Nat} (r : Reg w) : Dbg := ⟨r.valid, 0, r.val.toNat⟩
def Reg.ofDbg {w : Nat} (v : Dbg) : Reg w := ⟨v.valid, BitVec.ofNat w v.val⟩

/-- A queue entry as a tagged register. -/
def QEnt.asReg {w : Nat} (e : QEnt w) : TReg w := ⟨e.data.isSome, e.tag, e.data.getD 0, e.copies⟩

/-- Example `ex` of entry `i` of a queue from its head, and its replacement. -/
def queueDbg {w : Nat} (q : List (QEnt w)) (ls : List LiftEnt) (ex i : Nat) : Option Dbg :=
  ((q.filter fun e => !e.kept)[i]?).bind fun e => e.asReg.dbg ls ex

def queueDbgSet {w : Nat} (ls : List LiftEnt) (ex : Nat) (v : Dbg) : List (QEnt w) → Nat → List (QEnt w)
  | [], _ => []
  | e :: t, i =>
    if e.kept then e :: queueDbgSet ls ex v t i
    else match i with
      | 0 =>
        let r := e.asReg.dbgSet ls ex v
        { e with data := if r.valid then some r.val else none, tag := r.tag, copies := r.copies } :: t
      | n + 1 => e :: queueDbgSet ls ex v t n

/-- Registers of file `f`, where they are numbered 0 to n - 1. -/
def dbgCount (f : Nat) : Nat :=
  match f with
  | 0 => 16 | 1 => 32 | 2 => 31 | 3 => 31 | 4 => 31 | 5 => 8 | 6 => 16 | 7 => 8 | 8 => 16 | 9 => 16 | 10 => 8 | 11 => 1
  | _ => 0

/-- A read: file, queue, example, index; none where no register is named. -/
def Ctx.dbgRead (c : Ctx) (f q ex i : Nat) : Option Dbg :=
  let ls := c.sq.lifts
  if f = 12 then
    (match q with
      | 0 => queueDbg c.queues.qs ls ex i
      | 1 => queueDbg c.queues.qv ls ex i
      | 2 => queueDbg c.queues.qw ls ex i
      | _ => queueDbg c.queues.qx ls ex i)
  else if dbgCount f ≤ i then none
  else match f with
    | 0 => some (c.regC i).dbg
    | 1 => some (c.regA i).dbg
    | 2 => some (c.files.s.get Reg.invalid i).dbg
    | 3 => (c.files.v.get TReg.invalid i).dbg ls ex
    | 4 => (c.files.w.get TReg.invalid i).dbg ls ex
    | 5 => (c.mask i).dbg ls ex
    | 6 => some (c.pred i).dbg
    | 7 => some (c.regX i).dbg
    | 8 => some (c.regE i).dbg
    | 9 => (c.regT i).dbg ls ex
    | 10 => some ⟨(c.iter i).valid, 0, (c.iter i).image⟩
    | 11 => some ⟨true, 0, packNat 32 [c.sq.fmt.toNat, c.sq.pend.toNat, c.sq.cd]⟩
    | _ => none

/-- The log with the entry of a register replaced (R233). -/
def relog (log : List Saved) (v : Saved) : List Saved := updBy (fun o => o.tag == v.tag) (fun _ => v) log

/-- The old value of a tagged register with one example written, the others being as they were at the mark (R233, log entry
86). -/
def Saved.dbgSet (ls : List LiftEnt) (ex : Nat) (v : Dbg) : Saved → Saved
  | .v i r => .v i (r.dbgSet ls ex v)
  | .w i r => .w i (r.dbgSet ls ex v)
  | .m i r => .m i (r.dbgSet ls ex v)
  | .t i r => .t i (r.dbgSet ls ex v)
  | old => old

/-- The fields of fmt: its reserved bits hold no write (R59). -/
def fmtFields (w : W32) : W32 := w &&& 0x00FFB0FF

/-- A write; fixed registers take nothing (R99, R156), and neither does the fmt group where the value would put a reserved code
into fmt or its pending write (R60, log entry 86). -/
def Ctx.dbgWrite (c : Ctx) (f q ex i : Nat) (v : Dbg) : Ctx :=
  let ls := c.sq.lifts
  let log (x : Saved) : Ctx := { c with seg := { c.seg with log := relog c.seg.log x } }
  let logEx (x : Saved) : Ctx :=
    { c with seg := { c.seg with log := updBy (fun o => o.tag == x.tag) (Saved.dbgSet c.seg.snap.lifts ex v) c.seg.log } }
  match f with
  | 0 => { log (.c i (Reg.ofDbg v)) with files := { c.files with c := c.files.c.set i (Reg.ofDbg v) } }
  | 1 => { log (.a i (Reg.ofDbg v)) with files := { c.files with a := c.files.a.set i (Reg.ofDbg v) } }
  | 2 => { log (.s i (Reg.ofDbg v)) with files := { c.files with s := c.files.s.set i (Reg.ofDbg v) } }
  | 3 =>
    let r := (c.files.v.get TReg.invalid i).dbgSet ls ex v
    { logEx (.v i r) with files := { c.files with v := c.files.v.set i r } }
  | 4 =>
    let r := (c.files.w.get TReg.invalid i).dbgSet ls ex v
    { logEx (.w i r) with files := { c.files with w := c.files.w.set i r } }
  | 5 =>
    if i < 2 then c
    else
      let r := (c.mask i).dbgSet ls ex v
      { logEx (.m i r) with files := { c.files with m := c.files.m.set i r } }
  | 6 =>
    if i = 0 ∨ 14 ≤ i then c
    else
      let put (p : AMap (Reg 1)) : AMap (Reg 1) := p.set i (Reg.ofDbg v)
      let fix (o : Saved) : Saved := match o with | .p x => .p (put x) | o => o
      { c with files := { c.files with p := put c.files.p },
               seg := { c.seg with log := c.seg.log.map fix, snap := { c.seg.snap with preds := put c.seg.snap.preds } } }
  | 7 => { log (.x i (Reg.ofDbg v)) with files := { c.files with x := c.files.x.set i (Reg.ofDbg v) } }
  | 8 => { log (.e i (Reg.ofDbg v)) with files := { c.files with e := c.files.e.set i (Reg.ofDbg v) } }
  | 9 =>
    let r := (c.regT i).dbgSet ls ex v
    { logEx (.t i r) with files := { c.files with t := c.files.t.set i r } }
  | 10 =>
    let k := { Iter.ofImage v.val with valid := v.valid }
    { log (.k i k) with files := { c.files with k := c.files.k.set i k } }
  | 11 =>
    let w (j : Nat) : W32 := fmtFields (BitVec.ofNat 32 (v.val / 2 ^ (32 * j)))
    let cd := min 4 (v.val / 2 ^ 64 % 2 ^ 32)
    if !fmtLegal (w 0) || !fmtLegal (w 1) then c
    else
    { c with sq := { c.sq with fmt := w 0, pend := w 1, cd := cd },
             seg := { c.seg with snap := { c.seg.snap with fmt := w 0, pend := w 1, cd := cd } } }
  | _ =>
    match q with
    | 0 => { c with queues := { c.queues with qs := queueDbgSet ls ex v c.queues.qs i } }
    | 1 => { c with queues := { c.queues with qv := queueDbgSet ls ex v c.queues.qv i } }
    | 2 => { c with queues := { c.queues with qw := queueDbgSet ls ex v c.queues.qw i } }
    | _ => { c with queues := { c.queues with qx := queueDbgSet ls ex v c.queues.qx i } }

/-- DEBUG_ACCESS_COMMAND: a register of a halted core is read or written by DSEL (R233, R435). -/
def execDebugAccessCommand (s : State) : Host.Outcome State Fault Refusal :=
  finish s (do
    let s ← get
    if s.feature 5 then do
      let d := s.reg 0xB210
      let core := 64 * fieldN d 40 4 + fieldN d 34 6
      let k := 4 * core + fieldN d 32 2
      let c := s.ctx k
      let f := fieldN d 28 4
      let q := fieldN d 26 2
      let ex := fieldN d 16 6
      let i := fieldN d 0 16
      let io := s.reg 0xB218
      match (if (s.core core).halted.isSome then c.dbgRead f q ex i else none) with
      | none => modify fun s => s.setReg 0xB218 (setField io 63 1 1)
      | some r =>
        if d.getLsbD 63 then do
          modCtx k fun c => c.dbgWrite f q ex i ⟨io.getLsbD 0, BitVec.ofNat 3 (fieldN io 1 3), s.mg.dbgData.toNat⟩
          modify fun s => s.setReg 0xB218 (setField io 63 1 0)
        else do
          modMg fun m => { m with dbgData := BitVec.ofNat 8192 r.val }
          modify fun s => s.setReg 0xB218 (BitVec.ofNat 64 (r.tag.toNat * 2 + if r.valid then 1 else 0)))

/-! ### Attestation (R440 to R442) -/

/-- The signed message: nonce, digests, features, leaf index, key 1. -/
def State.attMessage (s : State) (leaf : Nat) : List Byte :=
  ((List.range 4).flatMap fun i => leBytes (s.reg (0x40 + 8 * i)).toNat 8)
    ++ leBytes (s.mg.images.take 4).length 4 ++ leBytes 0 4
    ++ (((s.mg.images.take 4).flatMap fun (i : FwImage) => leBytes (Config.shake256 i.data).toNat 32) ++ List.replicate 128 0).take 128
    ++ leBytes (s.reg 0x00).toNat 8 ++ leBytes (s.reg 0x08).toNat 8 ++ leBytes leaf 4 ++ leBytes 1 4

/-- The report: the message, then the signature as RFC 8391 encodes it, the leaf index first (R442). -/
def State.attReport (s : State) (leaf : Nat) : List Byte :=
  s.attMessage leaf ++ (leBytes leaf 4).reverse ++ leBytes (Config.signature leaf (s.attMessage leaf)).toNat 2816

/-- ATTESTATION: ATT is set; the next leaf is used, once; with none left code 0x11 is reported and nothing signed
(R440, R441). -/
def execAttestation (s : State) : Host.Outcome State Fault Refusal :=
  finish s (hostWrites (do
    let s ← get
    if s.feature 3 then do
      let leaf := s.mg.attLeaf
      if 2 ^ 20 ≤ leaf then modify fun s => s.setReg 0x10 (setField (setField (s.reg 0x10) 3 1 0) 8 8 0x11)
      else do
        modMg fun g => { g with attLeaf := leaf + 1, attReport := s.attReport leaf }
        modify fun s => s.setReg 0x10 (setField (s.reg 0x10) 3 1 0)))

/-! ### The apertures (R433, R436) -/

/-- VF_APERTURE_FLUSH (R436). -/
def execVfApertureFlush (v : Nat) (s : State) : Host.Outcome State Fault Refusal :=
  finish s (hostWrites (modMg fun m => { m with apCache := m.apCache.eraseRange (262144 * v) 262144 }))

/-- The aperture entry of VF `v` for a BAR4 offset, cached from its first use. -/
def vfEntry (v off : Nat) : M W64 := do
  let s ← get
  let key := 262144 * v + off / 65536
  match s.mg.apCache.find? key with
  | some e => return e
  | none => do
    let a := fieldN (s.reg (0xD000 + 16 * v)) 0 48 + 8 * (off / 65536)
    let e ← if addrOk a 8 then rdW64 a else pure 0
    modMg fun m => { m with apCache := m.apCache.set key e }
    return e

/-- Where a byte of a function's BAR4 lies, if the access is admitted and the device has such an address. -/
def barByte (fn : Nat) (write : Bool) (off : Nat) : M (Option Nat) := do
  let s ← get
  if fn = 0 then return if off < devTop then some off else none
  else if !s.feature 0 || !(s.reg (0xD000 + 16 * fn)).getLsbD 63 || decide (2 ^ 34 ≤ off) || decide (63 < fn) then return none
  else do
    let e ← vfEntry fn off
    let a := fieldN e 0 24 * 65536 + off % 65536
    return if e.getLsbD 63 && (!write || e.getLsbD 62) && decide (a < devTop) then some a else none

/-- A host access of `n` bytes through BAR4; what is not mapped reads zero and discards writes (R433, R436). -/
def barMemory (fn : Nat) (write : Bool) (off n : Nat) (bytes : List Byte) : M Unit := do
  let vs ← (List.range n).mapM fun i => do
    match ← barByte fn write (off + i) with
    | none => return (0 : Byte)
    | some a =>
      touchByEngine a 1
      if write then do
        noteStore (4 * numCores) [a]
        devWrite a 1 (bytes.getD i 0).toNat
        return 0
      else return BitVec.ofNat 8 (← rdA (4 * numCores) false a 1)
  if write then pure () else modMg fun m => { m with barData := vs }

/-- A host access of `n` bytes through BAR2, the launch windows: a window takes a packet when its last byte lands; one of a
queue of another function reads zero and discards writes, and before OK every write is refused (R403, R433, R437). -/
def barWindow (fn : Nat) (write : Bool) (off n : Nat) (bytes : List Byte) : M Unit := do
  if write then
    if (← get).agreed fn then
      (List.range n).forM fun i => do
        let a := off + i
        let s ← get
        if a < 65536 ∧ s.ownsQueue fn (a / 256) then do
          let w := s.dist.windows.get 0 (a / 8)
          setWindow (a / 256) (a / 8 % 32) (setField w (8 * (a % 8)) 8 (bytes.getD i 0).toNat)
          if a % 256 = 255 then takeWindow (a / 256)
  else do
    let s ← get
    modMg fun m => { m with barData := (List.range n).map fun i =>
      let a := off + i
      if a < 65536 ∧ s.ownsQueue fn (a / 256) then BitVec.ofNat 8 (fieldN (s.dist.windows.get 0 (a / 8)) (8 * (a % 8)) 8)
      else 0 }

/-! ### Registers (R434, R438) -/

/-- A register write: the bits of `rw` take the value's, those of `clr` clear where it has ones. -/
def writeReg (off : Nat) (val rw clr : W64) : M Unit := modify fun s =>
  let old := s.reg off
  s.setReg off ((old &&& ~~~rw &&& ~~~(val &&& clr)) ||| (val &&& rw))

/-- A mask of `n` bits from `lo`. -/
def bitsAt (lo n : Nat) : W64 := BitVec.ofNat 64 (2 ^ (lo + n) - 2 ^ lo)

/-- Does a launch of the queue run, or does its FIFO hold a packet? -/
def State.queueBusy (s : State) (q : Nat) : Bool :=
  !(s.queue q).fifo.isEmpty || s.dist.launches.any fun e => e.2.running && e.2.queue == q

/-- QUEUE_CONTROL_WRITE: function `fn` writes a word of queue `q`'s entry; refused before OK, and where it would change
the owner of a busy queue; a VF writes only the head of its own queues (R437, R438). -/
def execQueueControlWrite (q : BitVec 8) (word : Nat) (val : W64) (fn : Nat) (s : State) :
    Host.Outcome State Fault Refusal :=
  finish s (hostWrites (do
    let s ← get
    let q := q.toNat
    let old := s.queueWord q
    let own := fieldN old 48 8 == fn
    if !s.agreed fn then pure ()
    else if word = 3 then (if fn = 0 ∨ (own ∧ s.feature 0) then writeReg (queueReg q 3) val (bitsAt 0 64) 0 else pure ())
    else if fn ≠ 0 then pure ()
    else if word = 1 then writeReg (queueReg q 1) val (bitsAt 0 52) 0
    else if word = 0 then
      if s.queueBusy q ∧ (fieldN val 38 10 ≠ fieldN old 38 10 ∨ fieldN val 48 8 ≠ fieldN old 48 8) then pure ()
      else writeReg (queueReg q 0) val (bitsAt 61 3 ||| bitsAt 36 20) (bitsAt 60 1)
    else pure ()))

/-- CONFIGURATION_WORD_WRITE: taken only before the first launch; replicated mode is a feature (R434, R437). -/
def execConfigurationWordWrite (val : W64) (s : State) : Host.Outcome State Fault Refusal :=
  finish s (hostWrites (do
    let s ← get
    if s.dist.everLaunched then pure ()
    else modify fun s => s.setReg 0x5200 (if val.getLsbD 0 ∧ s.feature 1 then 1 else 0)))

/-- The writable bits of a register without behaviour of its own, and those that clear on a one (R434 to R448). -/
def regMasks (off : Nat) : W64 × W64 :=
  if off % 8 ≠ 0 then (0, 0)
  else if off = 0x08 ∨ (0x40 ≤ off ∧ off < 0x60) then (bitsAt 0 64, 0)
  else if 0x3000 ≤ off ∧ off < 0x5000 then (bitsAt 0 12 ||| bitsAt 16 13, 0)
  else if 0x5000 ≤ off ∧ off < 0x5200 then (bitsAt 63 1 ||| bitsAt 0 10, 0)
  else if 0x5208 ≤ off ∧ off < 0x5228 then (bitsAt 0 64, 0)
  else if off = 0x6000 ∨ off = 0x6010 then (bitsAt 0 52, 0)
  else if off = 0x6020 ∨ off = 0x6030 then (bitsAt 0 64, 0)
  else if off = 0x7010 then (bitsAt 0 16, 0)
  else if off = 0x7020 then (0, bitsAt 9 1)
  else if 0x8000 ≤ off ∧ off < 0x8800 ∧ off % 128 = 0 then (bitsAt 40 18 ||| bitsAt 0 37, 0)
  else if off = 0x9000 then (bitsAt 63 1 ||| bitsAt 0 52, 0)
  else if off = 0x9010 then (bitsAt 0 32, 0)
  else if off = 0x9018 then (0, bitsAt 0 1)
  else if 0xB000 ≤ off ∧ off < 0xB180 then
    (if off % 32 = 0 then (bitsAt 63 1 ||| bitsAt 0 58 ||| (if 0xB100 ≤ off then bitsAt 60 2 else 0), bitsAt 62 1)
     else if off % 32 = 8 then (if off < 0xB100 then bitsAt 0 32 else bitsAt 0 64, 0)
     else if off % 32 = 16 ∧ 0xB100 ≤ off then (bitsAt 0 48, 0)
     else (0, 0))
  else if off = 0xB210 then (bitsAt 63 1 ||| bitsAt 26 18 ||| bitsAt 0 22, 0)
  else if off = 0xB218 then (bitsAt 0 4, 0)
  else if 0xD010 ≤ off ∧ off < 0xD400 ∧ off % 16 = 0 then (bitsAt 63 1 ||| bitsAt 0 48, 0)
  else (0, 0)

/-- What WIN holds after a write: 0 is taken as 1, and a value above 1,000 as 1,000 (R446, log entry 64). -/
def winOf (val : W64) : Nat := min 1000 (max 1 (fieldN val 0 16))

/-- REGISTER_WRITE: a register of the PF's BAR0 without behaviour of its own; the debug block discards writes unless it
is enabled (R434, R435). -/
def execRegisterWrite (off : Nat) (val : W64) (s : State) : Host.Outcome State Fault Refusal :=
  finish s (hostWrites (do
    let dbg := decide (0xB000 ≤ off) && decide (off < 0xC000)
    if dbg && !(← get).feature 5 then pure ()
    else if off = 0x7008 then modify fun s => s.setReg 0x7008 (BitVec.ofNat 64 (winOf val))
    else if 0xB400 ≤ off ∧ off < 0xB800 ∧ off % 8 = 0 then
      modMg fun m => { m with dbgData := setField m.dbgData (8 * (off - 0xB400)) 64 val.toNat }
    else writeReg off val (regMasks off).1 (regMasks off).2))

/-- What a register of the PF's BAR0 reads: halts, ports and identity are computed from their state; DRAW and, with power
capping enabled, LVL and THR are measured (R434, R435, R442, R446). -/
def State.readReg (s : State) (off : Nat) : W64 :=
  if 0xB000 ≤ off ∧ off < 0xC000 ∧ !s.feature 5 then 0
  else if off = 0xB200 then s.haltReport
  else if 0xB400 ≤ off ∧ off < 0xB800 then BitVec.ofNat 64 (s.mg.dbgData.toNat / 2 ^ (8 * (off - 0xB400)))
  else if 0xA000 ≤ off ∧ off < 0xA060 then
    let p := s.port ((off - 0xA000) / 8)
    BitVec.ofNat 64 (p.active.toNat + p.retired.toNat * 2 ^ 9 + (if p.spare then 2 ^ 18 else 0)
      + (if p.narrowed then 2 ^ 19 else 0) + (if p.down then 2 ^ 20 else 0) + p.replays.toNat * 2 ^ 32)
  else if off = 0x7018 then (Config.draw s.tick).setWidth 64
  else if off = 0x7020 ∧ s.feature 4 then
    let lvl := (Config.level s.tick).toNat
    s.reg off ||| BitVec.ofNat 64 (lvl + if lvl ≠ 0 ∧ Config.withheld s.tick then 2 ^ 8 else 0)
  else if 0x100 ≤ off ∧ off < 0xCC8 then
    BitVec.ofNat 64 (ofBytes (((s.mg.attReport.take 0xBC4).drop (off - 0x100)).take 8))
  else if 0xE000 ≤ off then
    (if off + 8 ≤ 0xEB8C then Config.identity off
     else if off < 0xEB8C then Config.identity off &&& BitVec.ofNat 64 (2 ^ (8 * (0xEB8C - off)) - 1) else 0)
  else s.reg off

/-- What byte `off` of a function's BAR0 reads: a VF sees its boot mailbox and the entries of its own queues alone (R433, log entry 87); of a device
that stays in boot, CTRL alone (R439). -/
def State.barReg (s : State) (fn off : Nat) : Byte :=
  let v := s.readReg (off / 8 * 8)
  if 65536 ≤ off ∨ (!s.mg.booted ∧ off / 8 ≠ 2) then 0
  else if fn = 0 ∨ (0x1000 ≤ off ∧ off < 0x3000 ∧ s.ownsQueue fn ((off - 0x1000) / 32)) then
    BitVec.ofNat 8 (fieldN v (8 * (off % 8)) 8)
  else if off < 24 ∧ fn < 64 ∧ s.feature 0 then BitVec.ofNat 8 (fieldN (s.boxWord fn (off / 8)) (8 * (off % 8)) 8)
  else 0

/-- A host read of `n` bytes of BAR0; a port's replays count from a read of them (R434). -/
def barRegs (fn off n : Nat) : M Unit := do
  let s ← get
  modMg fun m => { m with barData := (List.range n).map fun i => s.barReg fn (off + i) }
  (List.range 12).forM fun p => do
    let a := 0xA004 + 8 * p
    if fn = 0 ∧ off ≤ a + 3 ∧ a < off + n then modPort p fun x => { x with replays := 0 }

/-- HOST_BAR_ACCESS: a host read or write of `n` bytes through a BAR of a function: `fn` is the pair of the
function and the BAR (R433).  Without power or link a read returns all ones (R450).  A write of the PF's BAR0, or
of a queue entry, is an event of its own; a VF's write of its boot mailbox is this one (log entry 87). -/
def execHostBarAccess (fn : Nat × Nat) (write : Bool) (off n : Nat) (bytes : List Byte) (s : State) :
    Host.Outcome State Fault Refusal :=
  let (fn, bar) := fn
  finish s (do
    if !(s.mg.powered && s.mg.linkUp) then
      (if write then pure () else modMg fun m => { m with barData := List.replicate n 0xFF })
    else
      match bar with
      | 0 =>
        if !write then barRegs fn off n
        else if fn ≠ 0 ∧ fn < 64 ∧ s.feature 0 then
          (List.range n).forM fun i => if off + i < 24 then boxByte fn (off + i) (bytes.getD i 0) else pure ()
      | 2 => if s.mg.booted then barWindow fn write off n bytes
      | 4 => if s.mg.booted then barMemory fn write off n bytes
      | _ => pure ())

/-! ### Power (R446) -/

/-- CAP_WRITE: the cap is clamped to 400 W and the reset value (R446). -/
def execCapWrite (val : W64) (s : State) : Host.Outcome State Fault Refusal :=
  finish s (hostWrites (do
    let v := fieldN val 0 16
    let c := min s.mg.part.cap (max 400 v)
    modify fun s => s.setReg 0x7000 (BitVec.ofNat 64 c)
    if c ≠ v then modify fun s => s.setReg 0x7020 (setField (s.reg 0x7020) 9 1 1)))

/-- POWER_CAP_RAMP: a millisecond of the applied cap's move towards CAP (R446). -/
def execPowerCapRamp (s : State) : Host.Outcome State Fault Refusal :=
  finish s (do
    let s ← get
    let cap := fieldN (s.reg 0x7000) 0 16
    let ramp := fieldN (s.reg 0x7010) 0 16
    if s.feature 4 then
      modMg fun m => { m with applied := if m.applied ≤ cap then min cap (m.applied + ramp) else max cap (m.applied - ramp) })

/-! ### Errors (R443, R444) -/

/-- The clocks that the core furthest ahead has run: the device has run as many. -/
def State.deviceClocks (s : State) : Nat := s.cores.foldl (fun n e => max n e.2.clk) 0

/-- A time stamp in clocks since power-up: never before the last one, nor before a core's clock (R444, log entry 5). -/
def timeStamp : M W64 := do
  let t ← freshFree
  let s ← get
  let now := max s.mg.stamp s.deviceClocks + (Config.freeWord t).toNat
  modMg fun m => { m with stamp := now }
  return BitVec.ofNat 64 now

/-- An entry of the error log ring: dropped with OVF set where the ring is full.  `src` is the source, and for the fabric its
port too. -/
def logError (src : BitVec 8 × Nat) (die : BitVec 8) (addr : BitVec 48) (count : Nat) (unc : Bool) : M Unit := do
  let s ← get
  let r := s.reg 0x9000
  let tail := fieldN (s.reg 0x9008) 0 32
  let head := fieldN (s.reg 0x9010) 0 32
  if r.getLsbD 63 then
    let n := 2 ^ (fieldN r 48 4 + 4)
    if (tail + 2 ^ 32 - head) % 2 ^ 32 < n then do
      let chan := if src.1 = 2 then addrChannel addr.toNat else if src.1 = 4 then src.2 % 12 else 0
      let t ← timeStamp
      let a := fieldN r 0 48 + 32 * (tail % n)
      devWrite a 8 (src.1.toNat * 2 ^ 56 + die.toNat * 2 ^ 48 + addr.toNat)
      devWrite (a + 8) 8 (count % 2 ^ 32)
      wrW64 (a + 16) t
      devWrite (a + 24) 8 (chan * 2 ^ 8 + if unc then 1 else 0)
      modify fun s => s.setReg 0x9008 (BitVec.ofNat 64 ((tail + 1) % 2 ^ 32))
    else modify fun s => s.setReg 0x9018 (s.reg 0x9018 ||| 1)

/-- The first visit of a copy that reads or writes an address, if any. -/
def visitAt (k : Nat) (c : CopyCmd) (sw dw a : Nat) : Nat → Nat → M (Option Nat)
  | 0, _ => return none
  | todo + 1, n => do
    match ← visitWhere k c sw dw n with
    | .error _ => return none
    | .ok (ls, d) =>
      let on (l : CopyLoc) (w : Nat) : Bool := decide (l.adr ≤ a) && decide (a < l.adr + w / 8)
      if ls.any (fun l => on l sw) || on d dw then return some n else visitAt k c sw dw a todo (n + 1)

/-- A copy command meets uncorrectable data at an address: code 5 and the visit; an export takes the words before the
one that failed (R354, R373). -/
def copyError (k : Nat) (r : CopyRun) (a : Nat) : M Unit := do
  let s ← get
  match r.cpy, r.exp with
  | some c, _ => do
    let side (x : W64) : M (Option (Desc × Bool)) := do
      if isScr x then return none else return some (← descM (coreDie (coreOf k)) (s.launchOf k) (handleOf x))
    let (sw, dw) := sideWidths (← side c.src) (← side c.dst)
    let n := (← visitAt k c sw dw a c.visits 0).getD 0
    runVisits k r.id c sw dw 0 n
    endCopy k r.id 5 0 (BitVec.ofNat 32 n) none
  | none, some e => do
    let ref := s.bankRef (coreDie (coreOf k)) (s.ctx k).launch (handleOf e.src)
    let hit (i : Nat) : Bool := match s.wordAddr ref (offsetOf e.src + i) with
      | some w => decide (w ≤ a) && decide (a < w + 16)
      | none => false
    let n := (List.range e.count).findIdx hit
    if r.resv.isSome then modCopy k r.id fun q => { q with code := 5, sub := 0, info := BitVec.ofNat 32 n } else pure ()
  | none, none => pure ()

/-- An error that no request of the device has met: the arrival that reaches the address next is answered with it (R380); of
SRAM the address is that of a byte of the scratchpads (log entry 88). -/
def noteBad (src : BitVec 8) (addr : Nat) : M Unit :=
  modMg fun m => { m with bad := m.bad ++ [if src = 0 then scrBase + addr else addr] }

/-- UNCORRECTABLE_ERROR of a source (and port): the data at an address is withheld from request `id` of context `req`, or from the arrival that
reaches it; it is logged and counted, and MSI-X vector 1 of the PF is raised (R191, R222, R373, R380, R387, R443, R444). -/
def execUncorrectableError (src : BitVec 8 × Nat) (die : BitVec 8) (addr : BitVec 48) (req id : Nat) (s : State) :
    Host.Outcome State Fault Refusal :=
  onEvent s req (do
    let s ← get
    match s.loadOf req id, s.copyOf req id, s.fabOf req id with
    | some _, _, _ => loadAborted req true
    | none, some r, _ => if r.stage = .running then copyError req r addr.toNat else pure ()
    | none, none, some r => if r.stage = .queued then pure () else endFab req r 5 0 0
    | none, none, none => noteBad src.1 addr.toNat
    logError src die addr 1 true
    modify fun s => s.setReg 0x9018 (setField (s.reg 0x9018) 32 32 (min (2 ^ 32 - 1) (fieldN (s.reg 0x9018) 32 32 + 1)))
    modMg fun m => { m with msix := m.msix ++ [(0, 1)] })

/-- CORRECTED_SUMMARY: the corrected events of a die in a second are counted; every 1,024 of them are logged at once, and the
rest at the second's end (R443). -/
def execCorrectedSummary (src : BitVec 8 × Nat) (die : BitVec 8) (addr : BitVec 48) (count : W32) (s : State) :
    Host.Outcome State Fault Refusal :=
  finish s (do
    modMg fun m => { m with corrected := m.corrected.set die.toNat (m.corrected.get 0 die.toNat + count.toNat) }
    (List.range (count.toNat / 1024)).forM fun _ => logError src die addr 1024 false
    if count.toNat % 1024 ≠ 0 then logError src die addr (count.toNat % 1024) false)

/-! ### Monitors (R447 to R449) -/

/-- Word `w` of monitor `m`. -/
def monReg (m w : Nat) : Nat := 0x8000 + 128 * m + 8 * w

/-- Clear MIN, MAX, COUNT and the buckets. -/
def State.monClear (s : State) (m : Nat) : State :=
  ([1, 2, 3, 8, 9, 10, 11, 12, 13, 14, 15].map (monReg m)).foldl (fun s off => s.setReg off 0) s

/-- The sweep lag of a planer in ticks: the most ticks of one bank that it has accepted and not swept (R447, log entry 91). -/
def Planer.lag (p : Planer) : Nat :=
  p.sweeps.foldl (fun n w => max n (p.sweeps.filter fun x => x.bank == w.bank).length) 0

/-- The sample that monitor `m` takes of its source: `v` is what was measured, but the lag is that of planer `v`, and DRAW is
what its register shows; a source above 5 gives none (R447, log entry 91). -/
def State.monSample (s : State) (m : Nat) (v : W32) : Option W32 :=
  match fieldN (s.reg (monReg m 0)) 40 8 with
  | 0 | 1 | 3 | 5 => some v
  | 2 => some (BitVec.ofNat 32 (s.planer v.toNat).lag)
  | 4 => some ((Config.draw s.tick).setWidth 32)
  | _ => none

/-- MONITOR_SAMPLE: a running monitor takes a sample of its source (R447). -/
def execMonitorSample (m : Nat) (v : W32) (s : State) : Host.Outcome State Fault Refusal :=
  finish s (modify fun s =>
    let c := s.reg (monReg m 0)
    match (if m < 16 ∧ c.getLsbD 63 then s.monSample m v else none) with
    | none => s
    | some v =>
      let n := (s.reg (monReg m 3)).toNat
      let lo := if n = 0 then v.toNat else min (s.reg (monReg m 1)).toNat v.toNat
      let hi := if n = 0 then v.toNat else max (s.reg (monReg m 2)).toNat v.toNat
      let base := fieldN c 0 32
      let b := min 15 ((max v.toNat base - base) / 2 ^ fieldN c 32 5)
      let off := monReg m (8 + b / 2)
      let old := fieldN (s.reg off) (32 * (b % 2)) 32
      let s := (s.setReg (monReg m 1) (BitVec.ofNat 64 lo)).setReg (monReg m 2) (BitVec.ofNat 64 hi)
      let s := s.setReg (monReg m 3) (BitVec.ofNat 64 (min (2 ^ 32 - 1) (n + 1)))
      s.setReg off (setField (s.reg off) (32 * (b % 2)) 32 (min (2 ^ 32 - 1) (old + 1))))

/-- The monitor that e[a] names; access fault 5 for another tenant's (R449). -/
def monitorOf (v : W64) : M Nat := do
  let l ← curLaunch
  let m := fieldN v 0 4
  if fieldN ((← get).reg (monReg m 0)) 48 10 ≠ l.tenant.toNat then M.trap clsAccess 5
  return m

/-- EMON.ST (R449). -/
def execEmonSt (a : BitVec 5) (s : State) : Host.Outcome State Fault Refusal :=
  finish s (do
    let m ← monitorOf (← liftC (rdE a))
    gate (.emonSt (BitVec.ofNat 4 m)))

/-- EMON.SP (R449). -/
def execEmonSp (a : BitVec 5) (s : State) : Host.Outcome State Fault Refusal :=
  finish s (do
    let m ← monitorOf (← liftC (rdE a))
    gate (.emonSp (BitVec.ofNat 4 m)))

/-- What a selector of EMON.RD reads. -/
def State.monWord (s : State) (m sel : Nat) : W64 :=
  match sel with
  | 0 => s.reg (monReg m 1)
  | 1 => s.reg (monReg m 2)
  | 2 => s.reg (monReg m 3)
  | 3 => s.reg (monReg m 0)
  | n => BitVec.ofNat 64 (fieldN (s.reg (monReg m (8 + (n - 4) / 2))) (32 * ((n - 4) % 2)) 32)

/-- EMON.RD (R449). -/
def execEmonRd (d a : BitVec 5) (s : State) : Host.Outcome State Fault Refusal :=
  finish s (do
    let v ← liftC (rdE a)
    let m ← monitorOf v
    let sel := fieldN v 4 6
    if 19 < sel then M.trap clsAccess 7
    let w := (← get).monWord m sel
    liftC (wrE d w))

/-! ### Resets, trays, power state (R450 to R452) -/

/-- Host memory alone: what no loss of the device's power touches. -/
def hostOnly (m : List Host.Cell) : List Host.Cell := m.filter fun c => decide (hostBase ≤ c.1)

/-- The device after steps 5 to 8 of the power-up: everything as after reset but host memory, what the device flash and the
fuses hold, and what is outside the device (R439, R440, R451, R452). -/
def State.restart (s : State) (powered : Bool) : State :=
  { State.reset with
    tick := s.tick, free := s.free, nextId := s.nextId, inputs := s.inputs, outbox := s.outbox, mem := hostOnly s.mem,
    mg := { Mgmt.reset with part := s.mg.part, dev := s.mg.dev, images := s.mg.images, fwKey := s.mg.fwKey,
                            keyDigest := s.mg.keyDigest, minVersion := s.mg.minVersion, laneMaps := s.mg.laneMaps,
                            idLeaf := s.mg.idLeaf, stamp := if s.mg.powered && powered then s.mg.stamp else 0,
                            applied := s.mg.part.cap, powered := powered, attLeaf := s.mg.attLeaf, msix := s.mg.msix,
                            barData := s.mg.barData } }

/-- Does the boot ROM run the firmware, 1 to 4 images: the public key has the fused digest, every image's signature verifies
against it, and no version is below the fused minimum (R439, R442)? -/
def Mgmt.verified (m : Mgmt) : Bool :=
  (1 ≤ m.images.length && m.images.length ≤ 4) && Config.shake256 m.fwKey == m.keyDigest
    && m.images.all fun i => Config.xmssOk m.fwKey i.data i.signature && decide (m.minVersion ≤ i.version)

/-- The first step of a power-up from step `first` that fails, with its code: step 3 where the firmware does not verify, or one
that fails for a reason of its own (R439, R452). -/
def State.stepFault (s : State) (first : Nat) : Option (Nat × Byte) :=
  let own := match Config.stepFails s.free with
    | some (n, code) => if first ≤ n ∧ n ≤ 8 then some (n, code) else none
    | none => none
  if 3 < first ∨ s.mg.verified then own
  else match own with
    | some (n, code) => if n < 3 then some (n, code) else some (3, 0x10)
    | none => some (3, 0x10)

/-- The device stays in boot, its ports not trained, and reports FAIL with a code in CTRL [15:8] (R439, R452, log entry 69). -/
def State.failBoot (s : State) (code : Byte) : State :=
  { s with ports := (List.range 12).map fun n => (n, { s.port n with active := 0, down := true }),
           mg := { s.mg with booted := false } }.setReg 0x10 (setField (setField 0 2 1 1) 8 8 code.toNat)

/-- The power-up of R452 from step `first`: a step that fails stops it and reports its code. -/
def State.boot (s : State) (first : Nat) : State :=
  let t : State := { s with free := s.free + 1 }.restart true
  match s.stepFault first with
  | some (_, code) => t.failBoot code
  | none => t

/-- MANAGEMENT_RESET: a device that has booted repeats steps 5 to 8 of the power-up (R439, R451). -/
def execManagementReset (s : State) : Host.Outcome State Fault Refusal :=
  finish s (modify fun s => if s.mg.powered && s.mg.booted then s.boot 5 else s)

/-- POWER_UP: the steps of R452; the firmware that the device flash holds is verified at step 3 (R439). -/
def execPowerUp (s : State) : Host.Outcome State Fault Refusal :=
  finish s (modify fun s => if s.mg.powered then s else s.boot 1)

/-- POWER_LOSS (R452). -/
def execPowerLoss (s : State) : Host.Outcome State Fault Refusal := finish s (modify fun s => s.restart false)

/-- QUIESCE of a DK4M-1500: the ports are trained down, link removal asked for, and SAFE set; the other ordering code supports
no hot swap, and the bit does nothing there (R1, R450, log entry 69). -/
def execQuiesce (s : State) : Host.Outcome State Fault Refusal :=
  finish s (hostWrites (do
    if (← get).mg.part = .dk4m then do
      (List.range 12).forM fun n => modPort n fun p => { p with active := 0, down := true }
      modMg fun m => { m with removal := true }
      modify fun s => s.setReg 0xC000 (setField (s.reg 0xC000) 2 1 1)))

/-- PCIE_LINK_LOSS: every launch is terminated without records, and arrivals are refused with code 4 (R377, R450). -/
def execPcieLinkLoss (s : State) : Host.Outcome State Fault Refusal :=
  finish s (do
    let s ← get
    modify fun s =>
      { s with
        ctxs := [], cores := s.cores.map fun e => (e.1, { e.2 with callQ := [], run := none, arrQ := [], phase := none }),
        mg := { s.mg with linkUp := false }, heldMsgs := [],
        dist := { s.dist with launches := s.dist.launches.map fun e => (e.1, { e.2 with running := false }), insts := [],
                              resumes := [], waiters := [] } }
    s.heldMsgs.forM fun m => if m.kind = .lost then pure () else ack m 4 0)

end Sys2Proof.Machine
end

