-- ==== Sys2Proof/Machine/Commit.lean ====
section
/-!
DEFINITION. Sys2Proof/Machine/Commit.lean: the commits of a context, one at a time in program order (R77): what each
gated effect becomes once its MARK has committed.
-/

namespace Sys2Proof.Machine

/-- The first committed effect is done with. -/
def popCommit (k : Nat) : M Unit := modCtx k fun c =>
  { c with fl := { c.fl with commits := c.fl.commits.drop 1 } }

/-- Has every committed CORE access of a context been performed, what its fences before place `n` acquire, and, with `filt`,
has every FILT access been accepted (R80, R83, R416, R418)? -/
def State.coreDone (s : State) (k n : Nat) (filt : Bool) : Bool :=
  s.acquired k n && !s.mp.outs.any (fun o => o.ctx == k && !o.eff.isFexp) && !s.mp.seals.any (fun r => r.ctx == k)
    && !s.mp.resvs.any (fun r => r.ctx == some k) && (!filt || !s.fops.any fun f => f.ctx == k && !f.kind.isFexp)

/-- An effect leaves for its home, under a number. -/
def sendOut (k : Nat) (g : GateEnt) (id : Nat) : M Unit := do
  let l := ((← get).ctx k).launch
  modMp fun mp => { mp with outs := mp.outs ++ [{ ctx := k, launch := l, id := id, seq := g.seq, eff := g.eff, pc := g.pc }] }

/-- A copy command as its commit leaves it. -/
def CopyRun.fresh (id seq : Nat) (c : Option CopyCmd) (e : Option ExpCmd) : CopyRun :=
  { id := id, seq := seq, stage := .queued, cpy := c, exp := e, resv := none, got := [], code := 0, sub := 0, info := 0,
    orphan := false }

/-- A fabric command commits with its group as it then stands; a collective takes the next number at its slot and
EPOCH (R383, R393, R421). -/
def commitFab (k seq : Nat) (c : FabCmd) : M Unit := do
  let s ← get
  let i := (s.ctx k).inst
  let slot : BitVec 4 := BitVec.ofNat 4 (fieldN c.g2 32 4)
  let coll := c.op == .ar || c.op == .rs || c.op == .ag || c.op == .rsf
  let g := if coll || c.op.isMulti then (s.inst i).groups.find? slot.toNat else none
  let ep := (g.map Group.epoch).getD 0
  let n := (s.inst i).colls.get 0 (collKey slot ep)
  let id ← freshId
  let r : FabRun :=
    { id := id, seq := seq, stage := .queued, cmd := c, epoch := ep, k := n, members := (g.map Group.members).getD [],
      self := (g.map Group.self).getD 0, round := 0, inputs := [], acc := [], pending := [], heldPos := [], denied := 0,
      code := 0, sub := 0, orphan := false }
  modCtx k fun c => { c with fl := { c.fl with fabs := c.fl.fabs ++ [r] } }
  if coll && g.isSome then
    modify fun s => s.setInst i { s.inst i with colls := (s.inst i).colls.set (collKey slot ep) (n + 1) }

/-- An FBANK commits: the image that its MARK checked, or one in service its commit, is written at the bank's address; each of
the 48 planers keeps the old parameters until it accepts it (R355). -/
def commitBank (k seq : Nat) (h : BitVec 16) (img : Nat) (ws : Option (List W64)) : M Unit := do
  let s ← get
  let r := s.bankRef (coreDie (coreOf k)) (s.ctx k).launch h
  let _ ← rdN img 64
  let new := ws.getD (s.imageAt img)
  let pls := List.range 48
  pls.forM fun pl =>
    modBank pl r.b fun q => if q.img.isSome then q else { q with img := some (s.imageAt r.b) }
  devWriteFor r.l r.b 64 (packNat 64 (new.map BitVec.toNat))
  enterFOp k seq r (.bank new) pls

/-- A QPUSH commits: the packet is read and enqueued; a queue that no longer accepts it posts its refusal (R418, R438). -/
def commitPush (k : Nat) (h : BitVec 16) (off q : Nat) (priv : Bool) : M Unit := do
  let ws ← readPacket k h off
  let s ← get
  if !(s.queueWord q).getLsbD 62 || !s.accepts q then packetError q 4 0 else enqueue q ws priv

/-- A change of a group slot of an instance commits (R392, R393). -/
def setGroup (i : Nat) (slot : BitVec 4) (e : Eff) : M Unit := modify fun s =>
  let t := s.inst i
  match groupAfter slot (t.groups.find? slot.toNat) e with
  | some x => s.setInst i { t with groups := t.groups.set slot.toNat x }
  | none => s

/-- May the first committed effect of context `k` commit, or, none being left, the MARK that committed them end: the core
is not halted, no FTICK.W before it waits, and no load before it is in flight (R77, R78, R219, R232, R327, R362, R383, R416,
R418)? -/
def State.commitOpen (s : State) (k : Nat) : Bool :=
  let c := s.ctx k
  let x := s.core (coreOf k)
  x.halted.isNone && !(s.ticks.any fun t => t.ctx == k && t.waits) && (match c.fl.commits with
    | [] => c.wait == .commit
    | g :: _ => c.fl.loads.all (fun ld => decide (g.seq ≤ ld.seq)) && (match g.eff with
      | .store (.scr core _) .. =>
        core != coreOf k || s.outReady { ctx := k, launch := c.launch, id := 0, seq := g.seq, eff := g.eff, pc := g.pc }
      | .fexp _ => decide (c.fl.liveCopies < 8)
      | .cpy _ => decide (c.fl.liveCopies < 8)
      | .fab _ => decide (c.fl.liveFabs < 8)
      | .escmSt .. => decide (x.callQ.length + (if x.run.isSome then 1 else 0) < 4)
      | .sems .. => s.coreDone k g.seq true
      | .qpush _ _ q _ => s.coreDone k g.seq false && decide ((s.queue q.toNat).fifo.length < 16)
      | _ => true))

/-- An effect of a context in service, which no MARK has translated, is translated as it commits: a fault ends the context,
and what it has still to commit is discarded (R226, log entry 89). -/
def serviceFault (k : Nat) (e : Eff) : M Bool := do
  holdEff k e
  let s ← get
  match (s.ctx k).frame, s.effFault k e with
  | some _, some (h, x, f) => do
    modCtx k fun c => { c with fl := { c.fl with commits := [] } }
    translationFault k h x f
    return true
  | _, _ => return false

/-- The planers of the words that a committed operation reaches accept it in their turn. -/
def sendFOp (k seq : Nat) (r : BankRef) (kd : FKind) (words : List Nat) : M Unit := do
  let pls := (← get).planersOf r words
  if pls.isEmpty then pure () else enterFOp k seq r kd pls

/-- What a committed effect of context `k` becomes (R77, R362, R383). -/
def commitEff (k : Nat) (g : GateEnt) : M Unit := do
  let s ← get
  let c := s.ctx k
  let die := coreDie (coreOf k)
  match g.eff with
    | .store (.scr core off) vec data strong rel scope =>
      if core = coreOf k then do
        let mine : OutOp := { ctx := k, launch := c.launch, id := 0, seq := g.seq, pc := g.pc,
                              eff := .store (.scr core off) vec data strong rel scope }
        modMp fun mp => { mp with outs := mp.outs.map (s.owe mine) }
        performOut mine
      else sendOut k g (← freshId)
    | .store (.tensor ..) .. => do sendOut k g (← freshId)
    | .amo .. => do sendOut k g (← freshId)
    | .cas .. => do sendOut k g (← freshId)
    | .append .. => do sendOut k g (← freshId)
    | .seal .. => do sendOut k g (← freshId)
    | .tdscW .. => do sendOut k g (← freshId)
    | .ckpt off gen => commitCkpt k off gen
    | .ckrs off => commitCkrs k off
    | .fst h x vs => do
      let (d, _) ← descM die (s.launchOf k) h
      let r := (← get).bankRef die c.launch h
      let ws := (((d.units x vs.length).zip vs).map fun p => match p with
        | (some y, some v) => [(d.offset y, v)]
        | _ => []).flatten
      sendFOp k g.seq r (.samples ws) (ws.map (·.1))
    | .ftick h wait => do
      let (d, _) ← descM die (s.launchOf k) h
      let s ← get
      let r := s.bankRef die c.launch h
      let pls := s.planersOf r (List.range d.elems)
      let id ← freshId
      modify fun s => { s with ticks := s.ticks ++ [{ ticket := id, bank := r.b, ctx := k, waits := wait, todo := pls }] }
      sendFOp k g.seq r (.tick id) (List.range d.elems)
    | .fdisc h lo n => do
      let _ ← descM die (s.launchOf k) h
      let r := (← get).bankRef die c.launch h
      sendFOp k g.seq r (.discard lo n) ((List.range n).map (lo + ·))
    | .fbank h img ws => do
      let _ ← descM die (s.launchOf k) h
      commitBank k g.seq h img ws
    | .fexp e => do
      let _ ← descM die (s.launchOf k) (handleOf e.src)
      let id ← freshId
      let r := (← get).bankRef die c.launch (handleOf e.src)
      modCtx k fun c => { c with fl := { c.fl with copies := c.fl.copies ++ [CopyRun.fresh id g.seq none (some e)] } }
      sendOut k g id
      sendFOp k g.seq r (.taps id) ((List.range e.count).map (offsetOf e.src + ·))
    | .cpy y => do
      let id ← freshId
      modCtx k fun c => { c with fl := { c.fl with copies := c.fl.copies ++ [CopyRun.fresh id g.seq (some y) none] } }
    | .fab f => commitFab k g.seq f
    | .escmSt h off idx n => do
      let id ← freshId
      modCore (coreOf k) fun x =>
        { x with callQ := x.callQ ++
          [{ id := id, ctx := k, seq := g.seq, kind := .scaleStore h off idx n, busy := 0, issued := x.clk }] }
      modCtx k fun c => { c with fl := { c.fl with calls := c.fl.calls ++ [id] } }
    | .grp slot ms self tmo => setGroup c.inst slot (.grp slot ms self tmo)
    | .grpEx slot pos => setGroup c.inst slot (.grpEx slot pos)
    | .sems i v => modDist fun d => { d with sems := semAdd d.sems i v }
    | .qpush h off q priv => commitPush k h off q.toNat priv
    | .emonSt m =>
      modify fun s => (s.monClear m.toNat).setReg (monReg m.toNat 0) (s.reg (monReg m.toNat 0) ||| (1 <<< 63))
    | .emonSp m =>
      modify fun s => s.setReg (monReg m.toNat 0) (setField (s.reg (monReg m.toNat 0)) 63 1 0)

/-- A commit of context `k`: its first committed effect, or the end of the MARK whose effects have all committed (R219). -/
def commitHead (k : Nat) : M Unit := do
  let s ← get
  if s.commitOpen k then
    match (s.ctx k).fl.commits with
    | [] => markDone k
    | g :: _ => do
      if ← serviceFault k g.eff then pure ()
      else do
        popCommit k
        commitEff k g

/-- Effects that a MARK or a bundle in service commits as it issues, for they only leave for their homes or reach the own
scratchpad, whose accesses of the bundle come before those of a merged one (R77, R102). -/
def Eff.atOnce : Eff → Bool
  | .store .. => true
  | .amo .. => true
  | .cas .. => true
  | .append .. => true
  | .seal .. => true
  | .tdscW .. => true
  | .ckpt .. => true
  | .ckrs .. => true
  | .fst .. => true
  | _ => false

/-- The commits of context `k` that take place as its bundle issues, at most `n`. -/
def commitAtOnce (k : Nat) : Nat → M Unit
  | 0 => pure ()
  | n + 1 => do
    let s ← get
    match (s.ctx k).fl.commits with
    | [] => if s.commitOpen k then markDone k else pure ()
    | g :: _ => if g.eff.atOnce && s.commitOpen k then do commitHead k; commitAtOnce k n else pure ()

end Sys2Proof.Machine
end

