-- ==== Sys2Proof/Machine/Scalar.lean ====
section
/-!
DEFINITION. Sys2Proof/Machine/Scalar.lean: the S lane, the predicate logic and the J lane (R134 to
R153).
-/

namespace Sys2Proof.Machine

/-! ### Values (R137 to R144) -/

/-- A 32-bit result sign-extended to 64 bits (R134). -/
def sext32 (x : W32) : W64 := x.signExtend 64
def lo32 (x : W64) : W32 := x.setWidth 32

def divS (x y : W64) : W64 :=
  if y = 0 then BitVec.allOnes 64 else BitVec.ofInt 64 (x.toInt.tdiv y.toInt)
def remS (x y : W64) : W64 := if y = 0 then x else BitVec.ofInt 64 (x.toInt.tmod y.toInt)
def divU (x y : W64) : W64 := if y = 0 then BitVec.allOnes 64 else BitVec.ofNat 64 (x.toNat / y.toNat)
def remU (x y : W64) : W64 := if y = 0 then x else BitVec.ofNat 64 (x.toNat % y.toNat)
def mulhS (x y : W64) : W64 := BitVec.ofInt 64 (x.toInt * y.toInt / 2 ^ 64)
def mulhU (x y : W64) : W64 := BitVec.ofNat 64 (x.toNat * y.toNat / 2 ^ 64)

/-- Shifts by a count that is not masked (R139). -/
def shlN {w : Nat} (x : BitVec w) (n : Nat) : BitVec w := if w ≤ n then 0 else x <<< n
def shrN {w : Nat} (x : BitVec w) (n : Nat) : BitVec w := if w ≤ n then 0 else x >>> n
def sarN {w : Nat} (x : BitVec w) (n : Nat) : BitVec w := x.sshiftRight (min n w)

/-- Leading zero bits (R140). -/
def clzN {w : Nat} (x : BitVec w) : Nat := if x = 0 then w else w - 1 - x.toNat.log2
/-- One bits (R140). -/
def popcN (n : Nat) : Nat → Nat
  | 0 => 0
  | k + 1 => n % 2 + popcN (n / 2) k

/-- Position and end of a bit field in a width (R141): empty where the end is not above the position. -/
def fieldOf (w : Nat) (y : W64) : Nat × Nat :=
  let pos := fieldN y 0 6
  let wid := fieldN y 8 7
  if wid = 0 ∨ w ≤ pos then (0, 0) else (pos, min (pos + wid) w)

def bfxU (x y : W64) : W64 :=
  let (pos, top) := fieldOf 64 y
  BitVec.ofNat 64 (fieldN x pos (top - pos))
def bfxS (x y : W64) : W64 :=
  let (pos, top) := fieldOf 64 y
  if top = 0 then 0 else BitVec.ofInt 64 (let v := fieldN x pos (top - pos)
    if 2 ^ (top - pos - 1) ≤ v then (v : Int) - 2 ^ (top - pos) else v)
/-- BFI on a register of width `w`: the field of `d` replaced by the low bits of `x`. -/
def bfiN (w : Nat) (d x y : W64) : Nat :=
  let (pos, top) := fieldOf w y
  let n := d.toNat % 2 ^ w
  if top = 0 then n
  else n / 2 ^ top * 2 ^ top + x.toNat % 2 ^ (top - pos) * 2 ^ pos + n % 2 ^ pos

/-! ### Shared shapes of the S lane -/

/-- A form of two registers: register 31 is popped once, then both sources are read, in this order (log entry 84), and the
result is written. -/
def sBin (f : W64 → W64 → W64) (d a b : BitVec 5) : CM Unit := do
  noRegion
  let q ← popIfS [a, b]
  let x ← rdS q a
  let y ← rdS q b
  wrS d (f x y)

/-- A form of one register. -/
def sUn (f : W64 → W64) (d a : BitVec 5) : CM Unit := do
  noRegion
  let q ← popIfS [a]
  let x ← rdS q a
  wrS d (f x)

/-- A form that also reads its destination (BFI). -/
def sTern (f : W64 → W64 → W64 → W64) (d a b : BitVec 5) : CM Unit := do
  noRegion
  let q ← popIfS [a, b]
  let z ← rdS q d
  let x ← rdS q a
  let y ← rdS q b
  wrS d (f z x y)

/-- A 32-bit form of two registers (R134). -/
def w32 (f : W32 → W32 → W32) (x y : W64) : W64 := sext32 (f (lo32 x) (lo32 y))

/-- An immediate of 8 bits sign-extended to 64 (R26). -/
def imm8 (i : BitVec 8) : W64 := i.signExtend 64

/-- A compare (R145). -/
def sCmp (k : SCond) (p e : BitVec 4) (a b : BitVec 5) : CM Unit := do
  noRegion
  let q ← popIfS [a, b]
  let x ← rdS q a
  let y ← rdS q b
  wrP p (k.holds x y)
  wrP e (!k.holds x y)

/-- Predicate logic of two predicates (R146). -/
def pBin (f : Bool → Bool → Bool) (p a b : BitVec 4) : CM Unit := do
  noRegion
  let x ← rdP a
  let y ← rdP b
  wrP p (f x y)

/-- ADD (R137). -/
def execAdd (d a b : BitVec 5) (s : State) : Host.Outcome State Fault Refusal :=
  onCtx s (sBin (· + ·) d a b)

/-- ADD.W (R134, R137). -/
def execAddW (d a b : BitVec 5) (s : State) : Host.Outcome State Fault Refusal :=
  onCtx s (sBin (w32 (· + ·)) d a b)

/-- SUB (R137). -/
def execSub (d a b : BitVec 5) (s : State) : Host.Outcome State Fault Refusal :=
  onCtx s (sBin (· - ·) d a b)

/-- SUB.W (R137). -/
def execSubW (d a b : BitVec 5) (s : State) : Host.Outcome State Fault Refusal :=
  onCtx s (sBin (w32 (· - ·)) d a b)

/-- MUL (R137). -/
def execMul (d a b : BitVec 5) (s : State) : Host.Outcome State Fault Refusal :=
  onCtx s (sBin (· * ·) d a b)

/-- MUL.W (R137). -/
def execMulW (d a b : BitVec 5) (s : State) : Host.Outcome State Fault Refusal :=
  onCtx s (sBin (w32 (· * ·)) d a b)

/-- MULH (R137). -/
def execMulh (d a b : BitVec 5) (s : State) : Host.Outcome State Fault Refusal :=
  onCtx s (sBin mulhS d a b)

/-- MULH.U (R137). -/
def execMulhU (d a b : BitVec 5) (s : State) : Host.Outcome State Fault Refusal :=
  onCtx s (sBin mulhU d a b)

/-- DIV: never traps (R137, R138). -/
def execDiv (d a b : BitVec 5) (s : State) : Host.Outcome State Fault Refusal :=
  onCtx s (sBin divS d a b)

/-- DIV.U (R137, R138). -/
def execDivU (d a b : BitVec 5) (s : State) : Host.Outcome State Fault Refusal :=
  onCtx s (sBin divU d a b)

/-- REM (R137, R138). -/
def execRem (d a b : BitVec 5) (s : State) : Host.Outcome State Fault Refusal :=
  onCtx s (sBin remS d a b)

/-- REM.U (R137, R138). -/
def execRemU (d a b : BitVec 5) (s : State) : Host.Outcome State Fault Refusal :=
  onCtx s (sBin remU d a b)

/-- AND (R137). -/
def execAnd (d a b : BitVec 5) (s : State) : Host.Outcome State Fault Refusal :=
  onCtx s (sBin (· &&& ·) d a b)

/-- OR (R137). -/
def execOr (d a b : BitVec 5) (s : State) : Host.Outcome State Fault Refusal :=
  onCtx s (sBin (· ||| ·) d a b)

/-- XOR (R137). -/
def execXor (d a b : BitVec 5) (s : State) : Host.Outcome State Fault Refusal :=
  onCtx s (sBin (· ^^^ ·) d a b)

/-- ANDN (R137). -/
def execAndn (d a b : BitVec 5) (s : State) : Host.Outcome State Fault Refusal :=
  onCtx s (sBin (fun x y => x &&& ~~~y) d a b)

/-- SHL (R139). -/
def execShl (d a b : BitVec 5) (s : State) : Host.Outcome State Fault Refusal :=
  onCtx s (sBin (fun x y => shlN x y.toNat) d a b)

/-- SHL.W (R139). -/
def execShlW (d a b : BitVec 5) (s : State) : Host.Outcome State Fault Refusal :=
  onCtx s (sBin (fun x y => sext32 (shlN (lo32 x) (lo32 y).toNat)) d a b)

/-- SHR (R139). -/
def execShr (d a b : BitVec 5) (s : State) : Host.Outcome State Fault Refusal :=
  onCtx s (sBin (fun x y => shrN x y.toNat) d a b)

/-- SHR.W (R139). -/
def execShrW (d a b : BitVec 5) (s : State) : Host.Outcome State Fault Refusal :=
  onCtx s (sBin (fun x y => sext32 (shrN (lo32 x) (lo32 y).toNat)) d a b)

/-- SAR (R139). -/
def execSar (d a b : BitVec 5) (s : State) : Host.Outcome State Fault Refusal :=
  onCtx s (sBin (fun x y => sarN x y.toNat) d a b)

/-- SAR.W (R139). -/
def execSarW (d a b : BitVec 5) (s : State) : Host.Outcome State Fault Refusal :=
  onCtx s (sBin (fun x y => sext32 (sarN (lo32 x) (lo32 y).toNat)) d a b)

/-- MIN (R137). -/
def execMin (d a b : BitVec 5) (s : State) : Host.Outcome State Fault Refusal :=
  onCtx s (sBin (fun x y => if x.slt y then x else y) d a b)

/-- MIN.U (R137). -/
def execMinU (d a b : BitVec 5) (s : State) : Host.Outcome State Fault Refusal :=
  onCtx s (sBin (fun x y => if x.ult y then x else y) d a b)

/-- MAX (R137). -/
def execMax (d a b : BitVec 5) (s : State) : Host.Outcome State Fault Refusal :=
  onCtx s (sBin (fun x y => if x.slt y then y else x) d a b)

/-- MAX.U (R137). -/
def execMaxU (d a b : BitVec 5) (s : State) : Host.Outcome State Fault Refusal :=
  onCtx s (sBin (fun x y => if x.ult y then y else x) d a b)

/-- BFX (R141). -/
def execBfx (d a b : BitVec 5) (s : State) : Host.Outcome State Fault Refusal :=
  onCtx s (sBin bfxS d a b)

/-- BFX.U (R141). -/
def execBfxU (d a b : BitVec 5) (s : State) : Host.Outcome State Fault Refusal :=
  onCtx s (sBin bfxU d a b)

/-- BFI: reads and writes s[d] (R141). -/
def execBfi (d a b : BitVec 5) (s : State) : Host.Outcome State Fault Refusal :=
  onCtx s (sTern (fun z x y => BitVec.ofNat 64 (bfiN 64 z x y)) d a b)

/-- BFI.W (R141). -/
def execBfiW (d a b : BitVec 5) (s : State) : Host.Outcome State Fault Refusal :=
  onCtx s (sTern (fun z x y => sext32 (BitVec.ofNat 32 (bfiN 32 z x y))) d a b)

/-- CLZ (R140). -/
def execClz (d a : BitVec 5) (s : State) : Host.Outcome State Fault Refusal :=
  onCtx s (sUn (fun x => BitVec.ofNat 64 (clzN x)) d a)

/-- CLZ.W (R140). -/
def execClzW (d a : BitVec 5) (s : State) : Host.Outcome State Fault Refusal :=
  onCtx s (sUn (fun x => BitVec.ofNat 64 (clzN (lo32 x))) d a)

/-- POPC (R140). -/
def execPopc (d a : BitVec 5) (s : State) : Host.Outcome State Fault Refusal :=
  onCtx s (sUn (fun x => BitVec.ofNat 64 (popcN x.toNat 64)) d a)

/-- POPC.W (R140). -/
def execPopcW (d a : BitVec 5) (s : State) : Host.Outcome State Fault Refusal :=
  onCtx s (sUn (fun x => BitVec.ofNat 64 (popcN (lo32 x).toNat 32)) d a)

/-- SEL reads its predicate as an operand, before any pop (R142, log entry 84). -/
def execSel (d a b : BitVec 5) (p : BitVec 3) (s : State) : Host.Outcome State Fault Refusal :=
  onCtx s (do
    noRegion
    let c ← rdP (p.setWidth 4)
    let q ← popIfS [a, b]
    let x ← rdS q a
    let y ← rdS q b
    wrS d (if c then x else y))

/-- MOVI (R26, R144). -/
def execMovi (d : BitVec 5) (i : BitVec 13) (s : State) : Host.Outcome State Fault Refusal :=
  onCtx s (do noRegion; wrS d (i.signExtend 64))

/-- MOVS reads its destination (R26, R144). -/
def execMovs (d : BitVec 5) (i : BitVec 13) (s : State) : Host.Outcome State Fault Refusal :=
  onCtx s (do
    noRegion
    let x ← rdS 0 d
    wrS d ((x <<< 13) ||| i.setWidth 64))

/-- ADDI (R143). -/
def execAddi (d a : BitVec 5) (i : BitVec 8) (s : State) : Host.Outcome State Fault Refusal :=
  onCtx s (sUn (fun x => x + imm8 i) d a)

/-- ANDI (R26, R143). -/
def execAndi (d a : BitVec 5) (i : BitVec 8) (s : State) : Host.Outcome State Fault Refusal :=
  onCtx s (sUn (fun x => x &&& imm8 i) d a)

/-- ORI (R143). -/
def execOri (d a : BitVec 5) (i : BitVec 8) (s : State) : Host.Outcome State Fault Refusal :=
  onCtx s (sUn (fun x => x ||| imm8 i) d a)

/-- XORI (R143). -/
def execXori (d a : BitVec 5) (i : BitVec 8) (s : State) : Host.Outcome State Fault Refusal :=
  onCtx s (sUn (fun x => x ^^^ imm8 i) d a)

/-- MULI (R143). -/
def execMuli (d a : BitVec 5) (i : BitVec 8) (s : State) : Host.Outcome State Fault Refusal :=
  onCtx s (sUn (fun x => x * imm8 i) d a)

/-- SHLI: a negative count is a count of 64 or more (R139, R143). -/
def execShli (d a : BitVec 5) (i : BitVec 8) (s : State) : Host.Outcome State Fault Refusal :=
  onCtx s (sUn (fun x => shlN x (imm8 i).toNat) d a)

/-- SHRI (R139, R143). -/
def execShri (d a : BitVec 5) (i : BitVec 8) (s : State) : Host.Outcome State Fault Refusal :=
  onCtx s (sUn (fun x => shrN x (imm8 i).toNat) d a)

/-- SARI (R139, R143). -/
def execSari (d a : BitVec 5) (i : BitVec 8) (s : State) : Host.Outcome State Fault Refusal :=
  onCtx s (sUn (fun x => sarN x (imm8 i).toNat) d a)

/-- CMP.EQ (R145). -/
def execCmpEq (p e : BitVec 4) (a b : BitVec 5) (s : State) : Host.Outcome State Fault Refusal :=
  onCtx s (sCmp .eq p e a b)

/-- CMP.NE (R145). -/
def execCmpNe (p e : BitVec 4) (a b : BitVec 5) (s : State) : Host.Outcome State Fault Refusal :=
  onCtx s (sCmp .ne p e a b)

/-- CMP.LT (R145). -/
def execCmpLt (p e : BitVec 4) (a b : BitVec 5) (s : State) : Host.Outcome State Fault Refusal :=
  onCtx s (sCmp .lt p e a b)

/-- CMP.LE (R145). -/
def execCmpLe (p e : BitVec 4) (a b : BitVec 5) (s : State) : Host.Outcome State Fault Refusal :=
  onCtx s (sCmp .le p e a b)

/-- CMP.GT (R145). -/
def execCmpGt (p e : BitVec 4) (a b : BitVec 5) (s : State) : Host.Outcome State Fault Refusal :=
  onCtx s (sCmp .gt p e a b)

/-- CMP.GE (R145). -/
def execCmpGe (p e : BitVec 4) (a b : BitVec 5) (s : State) : Host.Outcome State Fault Refusal :=
  onCtx s (sCmp .ge p e a b)

/-- CMP.LTU (R145). -/
def execCmpLtu (p e : BitVec 4) (a b : BitVec 5) (s : State) : Host.Outcome State Fault Refusal :=
  onCtx s (sCmp .ltu p e a b)

/-- CMP.GEU (R145). -/
def execCmpGeu (p e : BitVec 4) (a b : BitVec 5) (s : State) : Host.Outcome State Fault Refusal :=
  onCtx s (sCmp .geu p e a b)

/-- PAND (R146). -/
def execPand (p a b : BitVec 4) (s : State) : Host.Outcome State Fault Refusal :=
  onCtx s (pBin (· && ·) p a b)

/-- POR (R146). -/
def execPor (p a b : BitVec 4) (s : State) : Host.Outcome State Fault Refusal :=
  onCtx s (pBin (· || ·) p a b)

/-- PNOT (R146). -/
def execPnot (p a : BitVec 4) (s : State) : Host.Outcome State Fault Refusal :=
  onCtx s (do noRegion; let x ← rdP a; wrP p (!x))

/-! ### The J lane (R148 to R153) -/

/-- A source of a scalar file as 64 bits, a C register zero-extended; s31 pops (R149). -/
def jRead (y : BitVec 3) (a : BitVec 5) : CM W64 :=
  match y.toNat with
  | 0 => do return (← rdC a).setWidth 64
  | 1 => rdA' a
  | 2 => do let q ← popIfS [a]; rdS q a
  | 5 => rdE a
  | _ => rdX a

/-- A destination of a scalar file: a C register takes the low 32 bits (R149). -/
def jWrite (x : BitVec 3) (d : BitVec 5) (v : W64) : CM Unit :=
  match x.toNat with
  | 0 => wrC d.toNat (lo32 v)
  | 1 => wrA d v
  | 2 => wrS d v
  | 5 => wrE d v
  | _ => wrX d v

/-- The lane of a JX file code: 3 is V, 4 is W (R18). -/
def jLane (f : BitVec 3) : VW := if f = 3 then .v else .w

/-- JMOV (R149). -/
def execJmov (d a : BitVec 5) (x y : BitVec 3) (s : State) : Host.Outcome State Fault Refusal :=
  onCtx s (do noRegion; let v ← jRead y a; jWrite x d v)

/-- What JMOV.V does: it copies the bits, the tag and the copies (R149). -/
def jMovV (d a : BitVec 5) (x y : BitVec 3) : CM Unit := do
  let q ← popIfV (jLane y) [a]
  let r ← rdV (jLane y) q a
  wrV (jLane x) d r

/-- Would the copies that a JMOV.V makes overflow their backing (R204)? -/
def Ctx.movOver (c : Ctx) (d a : BitVec 5) (x y : BitVec 3) : Bool :=
  match jMovV d a x y c with
  | .error (.trap t) => t.cls == clsLift
  | _ => false

/-- JMOV.V (R149). -/
def execJmovV (d a : BitVec 5) (x y : BitVec 3) (s : State) : Host.Outcome State Fault Refusal :=
  onCtx s (do
    barRegion ((← get).movOver d a x y)
    jMovV d a x y)

/-- Every element of width `w` takes the low bits of a scalar; the result is untagged (R150). -/
def jSplat (w : Nat) (d a : BitVec 5) (x y : BitVec 3) : CM Unit := do
  noRegion
  let v ← jRead y a
  wrV (jLane x) d ⟨true, 0, ofElems w (List.replicate (1024 / w) v.toNat), []⟩

/-- JSPL.32 (R150). -/
def execJspl32 (d a : BitVec 5) (x y : BitVec 3) (s : State) : Host.Outcome State Fault Refusal :=
  onCtx s (jSplat 32 d a x y)

/-- JSPL.16 (R150). -/
def execJspl16 (d a : BitVec 5) (x y : BitVec 3) (s : State) : Host.Outcome State Fault Refusal :=
  onCtx s (jSplat 16 d a x y)

/-- JSPL.8 (R150). -/
def execJspl8 (d a : BitVec 5) (x y : BitVec 3) (s : State) : Host.Outcome State Fault Refusal :=
  onCtx s (jSplat 8 d a x y)

/-- JEXT: bits [63:0] of one example's copy (R151). -/
def execJext (d a : BitVec 5) (e : BitVec 6) (f : BitVec 1) (s : State) : Host.Outcome State Fault Refusal :=
  onCtx s (do
    let l : VW := if f = 0 then .v else .w
    barRegion ((← get).extOver l a e.toNat)
    let q ← popIfV l [a]
    let r ← rdV l q a
    let ls := (← get).sq.lifts
    if r.tag = 0 then wrS d (r.val.setWidth 64)
    else
      CM.need (r.tag == 1 || r.tag == 2 || r.tag == 4) clsLift 3
      CM.need (decide (e.toNat < exCount ls r.tag)) clsLift 1
      wrS d ((r.at' ls r.tag e.toNat).setWidth 64))

/-- The predicate file as a word: values below, valid bits above (R152). -/
def predWord (c : Ctx) : Nat :=
  ((List.range 16).map fun i =>
    let r := c.pred i
    (if r.valid then r.val.toNat * 2 ^ i + 2 ^ (16 + i) else 0)).sum

/-- JPM (R152). -/
def execJpm (d : BitVec 5) (x : BitVec 3) (s : State) : Host.Outcome State Fault Refusal :=
  onCtx s (do noRegion; jWrite x d (BitVec.ofNat 64 (predWord (← get))))

/-- JMK: half 0 writes the low half and clears the high one, half 1 writes the high half (R153); an invalid source is reported
before a tagged mask (log entry 84). -/
def execJmk (d a : BitVec 5) (x y : BitVec 3) (s : State) : Host.Outcome State Fault Refusal :=
  onCtx s (do
    noRegion
    let v ← jRead y a
    if x = 0 then wrM d.toNat ⟨true, 0, v.setWidth 128, []⟩
    else
      let m ← rdM (d.setWidth 3)
      CM.need (m.tag == 0) clsLift 3
      wrM d.toNat ⟨true, 0, v ++ m.val.setWidth 64, []⟩)

end Sys2Proof.Machine
end

