-- ==== Sys2Proof/WellFormed.lean ====
section
/-!
DEFINITION. Sys2Proof/WellFormed.lean: which instructions a bundle may hold: the register fields a
form accepts (R19), the field values it accepts (R20 and the forms' own entries), and what each form
reads, writes and pops, from which the dependence check of R23 and the scoreboard of R100 are taken.
-/

namespace Sys2Proof

/-- A register, mask, predicate, tile or iterator named by a slot. -/
inductive Res where
  | c (n : Nat) | a (n : Nat) | s (n : Nat) | v (n : Nat) | w (n : Nat) | m (n : Nat) | p (n : Nat)
  | x (n : Nat) | t (n : Nat) | e (n : Nat) | k (n : Nat)
  deriving DecidableEq, Repr

/-- The load-data queues (R110). -/
inductive QName where
  | qs | qv | qw | qx
  deriving DecidableEq, Repr

/-- What the encoding of a form names: registers read, registers written, queues popped. -/
structure Uses where
  reads : List Res
  writes : List Res
  pops : List QName
  deriving DecidableEq, Repr

def Uses.none : Uses := ⟨[], [], []⟩

/-- S sources: register 31 is a pop, not a read (R24, R99). -/
def rS (l : List (BitVec 5)) : List Res := (l.filter (· != 31)).map fun n => .s n.toNat
def pS (l : List (BitVec 5)) : List QName := if l.contains 31 then [.qs] else []
/-- The register of a V or W field. -/
def rvw (l : VW) (n : BitVec 5) : Res := match l with | .v => .v n.toNat | .w => .w n.toNat
def rV (l : VW) (ns : List (BitVec 5)) : List Res := (ns.filter (· != 31)).map (rvw l)
def pV (l : VW) (ns : List (BitVec 5)) : List QName :=
  if ns.contains 31 then [match l with | .v => .qv | .w => .qw] else []
/-- The mask, and the old destination where the slot keeps it (R156). -/
def rK (l : VW) (m : BitVec 3) (d : BitVec 5) : List Res :=
  if m = 0 then [.m 0] else [.m m.toNat, rvw l d]
/-- A register of the file of a JX code (R18). -/
def fileRegs (f : BitVec 3) (n : BitVec 5) : List Res :=
  match f.toNat with
  | 0 => [.c n.toNat] | 1 => [.a n.toNat] | 2 => [.s n.toNat] | 3 => [.v n.toNat] | 4 => [.w n.toNat]
  | 5 => [.e n.toNat] | 6 => [.x n.toNat] | _ => []
def fileReads (f : BitVec 3) (n : BitVec 5) : List Res :=
  if n = 31 ∧ (f = 2 ∨ f = 3 ∨ f = 4) then [] else fileRegs f n
def filePops (f : BitVec 3) (n : BitVec 5) : List QName :=
  if n = 31 then (match f.toNat with | 2 => [.qs] | 3 => [.qv] | 4 => [.qw] | _ => []) else []
/-- The data register of a store: file 0 S, 1 V, 2 W (R186). -/
def dataReads (f : BitVec 2) (n : BitVec 5) : List Res :=
  if n = 31 then [] else match f.toNat with | 0 => [.s n.toNat] | 1 => [.v n.toNat] | 2 => [.w n.toNat] | _ => []
def dataPops (f : BitVec 2) (n : BitVec 5) : List QName :=
  if n = 31 then (match f.toNat with | 0 => [.qs] | 1 => [.qv] | 2 => [.qw] | _ => []) else []
/-- A command group of `n` e registers (R363, R382). -/
def groupE (g : BitVec 5) (n : Nat) : List Res :=
  if g.toNat + n ≤ 16 then (List.range n).map fun i => .e (g.toNat + i) else [.e g.toNat]

/-- What each form reads, writes and pops, by its encoding alone (R23). -/
def Instr.uses : Instr → Uses
  | .br _ => .none
  | .brx a => ⟨[.c a.toNat], [], []⟩
  | .call _ => ⟨[], [.c 15], []⟩
  | .callR a => ⟨[.c a.toNat], [.c 15], []⟩
  | .ret => ⟨[.c 15], [], []⟩
  | .loop _ _ => .none
  | .loopR c _ => ⟨[.c c.toNat], [], []⟩
  | .loopRot _ _ => .none
  | .loopRotR c _ => ⟨[.c c.toNat], [], []⟩
  | .brk _ => .none
  | .brkR a => ⟨[.c a.toNat], [], []⟩
  | .lidx d _ _ => ⟨[], [.c d.toNat], []⟩
  | .fmtR d a w => ⟨[.c a.toNat], (if w = 1 then [.c d.toNat] else []), []⟩
  | .fmtV _ _ _ _ _ => .none
  | .fmtX _ _ _ => .none
  | .fmtShadowExpire _ => .none
  | .lift _ _ => .none
  | .liftR a b => ⟨[.c a.toNat, .c b.toNat], [], []⟩
  | .lret => .none
  | .bifP p _ => ⟨[.p p.toNat], [], []⟩
  | .bifM m _ => ⟨[.m m.toNat], [], []⟩
  | .belse _ => .none
  | .bjoin => .none
  | .trap _ => ⟨[], [.c 12, .c 13, .c 14], []⟩
  | .trapR a => ⟨[.c a.toNat], [.c 12, .c 13, .c 14], []⟩
  | .svc _ => ⟨[], [.c 12, .c 13, .c 14], []⟩
  | .eret => ⟨[], [.c 12, .c 13, .c 14, .c 15], []⟩
  | .park => .none
  | .parkComplete _ => .none
  | .abort _ => .none
  | .abortR a => ⟨[.c a.toNat], [], []⟩
  | .abchk => .none
  | .mark _ => .none
  | .join _ _ => .none
  | .joinR a => ⟨[.c a.toNat], [], []⟩
  | .joinRelease _ => .none
  | .ckpt _ => .none
  | .ckptR a => ⟨[.c a.toNat], [], []⟩
  | .ckrs _ => .none
  | .ckrsR a => ⟨[.c a.toNat], [], []⟩
  | .phase _ => .none
  | .phaseR a => ⟨[.c a.toNat], [], []⟩
  | .phaseEnd _ => .none
  | .halt => .none
  | .haltComplete _ => .none
  | .add d a b => ⟨rS [a, b], [.s d.toNat], pS [a, b]⟩
  | .addW d a b => ⟨rS [a, b], [.s d.toNat], pS [a, b]⟩
  | .sub d a b => ⟨rS [a, b], [.s d.toNat], pS [a, b]⟩
  | .subW d a b => ⟨rS [a, b], [.s d.toNat], pS [a, b]⟩
  | .mul d a b => ⟨rS [a, b], [.s d.toNat], pS [a, b]⟩
  | .mulW d a b => ⟨rS [a, b], [.s d.toNat], pS [a, b]⟩
  | .mulh d a b => ⟨rS [a, b], [.s d.toNat], pS [a, b]⟩
  | .mulhU d a b => ⟨rS [a, b], [.s d.toNat], pS [a, b]⟩
  | .div d a b => ⟨rS [a, b], [.s d.toNat], pS [a, b]⟩
  | .divU d a b => ⟨rS [a, b], [.s d.toNat], pS [a, b]⟩
  | .rem d a b => ⟨rS [a, b], [.s d.toNat], pS [a, b]⟩
  | .remU d a b => ⟨rS [a, b], [.s d.toNat], pS [a, b]⟩
  | .and d a b => ⟨rS [a, b], [.s d.toNat], pS [a, b]⟩
  | .or d a b => ⟨rS [a, b], [.s d.toNat], pS [a, b]⟩
  | .xor d a b => ⟨rS [a, b], [.s d.toNat], pS [a, b]⟩
  | .andn d a b => ⟨rS [a, b], [.s d.toNat], pS [a, b]⟩
  | .shl d a b => ⟨rS [a, b], [.s d.toNat], pS [a, b]⟩
  | .shlW d a b => ⟨rS [a, b], [.s d.toNat], pS [a, b]⟩
  | .shr d a b => ⟨rS [a, b], [.s d.toNat], pS [a, b]⟩
  | .shrW d a b => ⟨rS [a, b], [.s d.toNat], pS [a, b]⟩
  | .sar d a b => ⟨rS [a, b], [.s d.toNat], pS [a, b]⟩
  | .sarW d a b => ⟨rS [a, b], [.s d.toNat], pS [a, b]⟩
  | .min d a b => ⟨rS [a, b], [.s d.toNat], pS [a, b]⟩
  | .minU d a b => ⟨rS [a, b], [.s d.toNat], pS [a, b]⟩
  | .max d a b => ⟨rS [a, b], [.s d.toNat], pS [a, b]⟩
  | .maxU d a b => ⟨rS [a, b], [.s d.toNat], pS [a, b]⟩
  | .clz d a => ⟨rS [a], [.s d.toNat], pS [a]⟩
  | .clzW d a => ⟨rS [a], [.s d.toNat], pS [a]⟩
  | .popc d a => ⟨rS [a], [.s d.toNat], pS [a]⟩
  | .popcW d a => ⟨rS [a], [.s d.toNat], pS [a]⟩
  | .bfx d a b => ⟨rS [a, b], [.s d.toNat], pS [a, b]⟩
  | .bfxU d a b => ⟨rS [a, b], [.s d.toNat], pS [a, b]⟩
  | .bfi d a b => ⟨rS [d, a, b], [.s d.toNat], pS [a, b]⟩
  | .bfiW d a b => ⟨rS [d, a, b], [.s d.toNat], pS [a, b]⟩
  | .sel d a b p => ⟨.p p.toNat :: rS [a, b], [.s d.toNat], pS [a, b]⟩
  | .movi d _ => ⟨[], [.s d.toNat], []⟩
  | .movs d _ => ⟨rS [d], [.s d.toNat], []⟩
  | .addi d a _ => ⟨rS [a], [.s d.toNat], pS [a]⟩
  | .andi d a _ => ⟨rS [a], [.s d.toNat], pS [a]⟩
  | .ori d a _ => ⟨rS [a], [.s d.toNat], pS [a]⟩
  | .xori d a _ => ⟨rS [a], [.s d.toNat], pS [a]⟩
  | .muli d a _ => ⟨rS [a], [.s d.toNat], pS [a]⟩
  | .shli d a _ => ⟨rS [a], [.s d.toNat], pS [a]⟩
  | .shri d a _ => ⟨rS [a], [.s d.toNat], pS [a]⟩
  | .sari d a _ => ⟨rS [a], [.s d.toNat], pS [a]⟩
  | .cmpEq p e a b => ⟨rS [a, b], [.p p.toNat, .p e.toNat], pS [a, b]⟩
  | .cmpNe p e a b => ⟨rS [a, b], [.p p.toNat, .p e.toNat], pS [a, b]⟩
  | .cmpLt p e a b => ⟨rS [a, b], [.p p.toNat, .p e.toNat], pS [a, b]⟩
  | .cmpLe p e a b => ⟨rS [a, b], [.p p.toNat, .p e.toNat], pS [a, b]⟩
  | .cmpGt p e a b => ⟨rS [a, b], [.p p.toNat, .p e.toNat], pS [a, b]⟩
  | .cmpGe p e a b => ⟨rS [a, b], [.p p.toNat, .p e.toNat], pS [a, b]⟩
  | .cmpLtu p e a b => ⟨rS [a, b], [.p p.toNat, .p e.toNat], pS [a, b]⟩
  | .cmpGeu p e a b => ⟨rS [a, b], [.p p.toNat, .p e.toNat], pS [a, b]⟩
  | .pand p a b => ⟨[.p a.toNat, .p b.toNat], [.p p.toNat], []⟩
  | .por p a b => ⟨[.p a.toNat, .p b.toNat], [.p p.toNat], []⟩
  | .pnot p a => ⟨[.p a.toNat], [.p p.toNat], []⟩
  | .jmov d a x y => ⟨fileReads y a, fileRegs x d, filePops y a⟩
  | .jmovV d a x y => ⟨fileReads y a, fileRegs x d, filePops y a⟩
  | .jspl32 d a x y => ⟨fileReads y a, fileRegs x d, filePops y a⟩
  | .jspl16 d a x y => ⟨fileReads y a, fileRegs x d, filePops y a⟩
  | .jspl8 d a x y => ⟨fileReads y a, fileRegs x d, filePops y a⟩
  | .jext d a _ f => ⟨fileReads (if f = 0 then 3 else 4) a, [.s d.toNat], filePops (if f = 0 then 3 else 4) a⟩
  | .jpm d x => ⟨(List.range 16).map .p, fileRegs x d, []⟩
  | .jmk d a x y => ⟨(if x = 1 then [Res.m d.toNat] else []) ++ fileReads y a, [.m d.toNat], filePops y a⟩
  | .vadd l d a b m => ⟨rV l [a, b] ++ rK l m d, [rvw l d], pV l [a, b]⟩
  | .vsub l d a b m => ⟨rV l [a, b] ++ rK l m d, [rvw l d], pV l [a, b]⟩
  | .vmul l d a b m => ⟨rV l [a, b] ++ rK l m d, [rvw l d], pV l [a, b]⟩
  | .vfma l d a b m => ⟨rV l [a, b, d] ++ rK l m d, [rvw l d], pV l [a, b]⟩
  | .vfms l d a b m => ⟨rV l [a, b, d] ++ rK l m d, [rvw l d], pV l [a, b]⟩
  | .vmin l d a b m => ⟨rV l [a, b] ++ rK l m d, [rvw l d], pV l [a, b]⟩
  | .vmax l d a b m => ⟨rV l [a, b] ++ rK l m d, [rvw l d], pV l [a, b]⟩
  | .vaddI l d a _ => ⟨rV l [a], [rvw l d], pV l [a]⟩
  | .vmulI l d a _ => ⟨rV l [a], [rvw l d], pV l [a]⟩
  | .vminI l d a _ => ⟨rV l [a], [rvw l d], pV l [a]⟩
  | .vmaxI l d a _ => ⟨rV l [a], [rvw l d], pV l [a]⟩
  | .vcvt l d a m => ⟨rV l [a] ++ rK l m d, [rvw l d], pV l [a]⟩
  | .vcvtLo l d a _ m => ⟨rV l [a] ++ [rvw l d, .m m.toNat], [rvw l d], pV l [a]⟩
  | .vcvtHi l d a _ m => ⟨rV l [a] ++ [rvw l d, .m m.toNat], [rvw l d], pV l [a]⟩
  | .vcmpEq l p a b m => ⟨rV l [a, b] ++ [.m m.toNat], [.m (2 * p.toNat), .m (2 * p.toNat + 1)], pV l [a, b]⟩
  | .vcmpNe l p a b m => ⟨rV l [a, b] ++ [.m m.toNat], [.m (2 * p.toNat), .m (2 * p.toNat + 1)], pV l [a, b]⟩
  | .vcmpLt l p a b m => ⟨rV l [a, b] ++ [.m m.toNat], [.m (2 * p.toNat), .m (2 * p.toNat + 1)], pV l [a, b]⟩
  | .vcmpLe l p a b m => ⟨rV l [a, b] ++ [.m m.toNat], [.m (2 * p.toNat), .m (2 * p.toNat + 1)], pV l [a, b]⟩
  | .vcmpGt l p a b m => ⟨rV l [a, b] ++ [.m m.toNat], [.m (2 * p.toNat), .m (2 * p.toNat + 1)], pV l [a, b]⟩
  | .vcmpGe l p a b m => ⟨rV l [a, b] ++ [.m m.toNat], [.m (2 * p.toNat), .m (2 * p.toNat + 1)], pV l [a, b]⟩
  | .vcmpUn l p a b m => ⟨rV l [a, b] ++ [.m m.toNat], [.m (2 * p.toNat), .m (2 * p.toNat + 1)], pV l [a, b]⟩
  | .vcmpOrd l p a b m => ⟨rV l [a, b] ++ [.m m.toNat], [.m (2 * p.toNat), .m (2 * p.toNat + 1)], pV l [a, b]⟩
  | .vcmpIeq l p a b m => ⟨rV l [a, b] ++ [.m m.toNat], [.m (2 * p.toNat), .m (2 * p.toNat + 1)], pV l [a, b]⟩
  | .vcmpIne l p a b m => ⟨rV l [a, b] ++ [.m m.toNat], [.m (2 * p.toNat), .m (2 * p.toNat + 1)], pV l [a, b]⟩
  | .vcmpIlt l p a b m => ⟨rV l [a, b] ++ [.m m.toNat], [.m (2 * p.toNat), .m (2 * p.toNat + 1)], pV l [a, b]⟩
  | .vcmpIltu l p a b m => ⟨rV l [a, b] ++ [.m m.toNat], [.m (2 * p.toNat), .m (2 * p.toNat + 1)], pV l [a, b]⟩
  | .vsel l d a b m => ⟨rV l [a, b] ++ [.m m.toNat], [rvw l d], pV l [a, b]⟩
  | .viadd l d a b m => ⟨rV l [a, b] ++ rK l m d, [rvw l d], pV l [a, b]⟩
  | .viaddS l d a b m => ⟨rV l [a, b] ++ rK l m d, [rvw l d], pV l [a, b]⟩
  | .visub l d a b m => ⟨rV l [a, b] ++ rK l m d, [rvw l d], pV l [a, b]⟩
  | .visubS l d a b m => ⟨rV l [a, b] ++ rK l m d, [rvw l d], pV l [a, b]⟩
  | .vimul l d a b m => ⟨rV l [a, b] ++ rK l m d, [rvw l d], pV l [a, b]⟩
  | .vimulH l d a b m => ⟨rV l [a, b] ++ rK l m d, [rvw l d], pV l [a, b]⟩
  | .vand l d a b m => ⟨rV l [a, b] ++ rK l m d, [rvw l d], pV l [a, b]⟩
  | .vor l d a b m => ⟨rV l [a, b] ++ rK l m d, [rvw l d], pV l [a, b]⟩
  | .vxor l d a b m => ⟨rV l [a, b] ++ rK l m d, [rvw l d], pV l [a, b]⟩
  | .vshl l d a b m => ⟨rV l [a, b] ++ rK l m d, [rvw l d], pV l [a, b]⟩
  | .vshr l d a b m => ⟨rV l [a, b] ++ rK l m d, [rvw l d], pV l [a, b]⟩
  | .vsar l d a b m => ⟨rV l [a, b] ++ rK l m d, [rvw l d], pV l [a, b]⟩
  | .vandI l d a _ => ⟨rV l [a], [rvw l d], pV l [a]⟩
  | .vorI l d a _ => ⟨rV l [a], [rvw l d], pV l [a]⟩
  | .vxorI l d a _ => ⟨rV l [a], [rvw l d], pV l [a]⟩
  | .vshlI l d a _ => ⟨rV l [a], [rvw l d], pV l [a]⟩
  | .vshrI l d a _ => ⟨rV l [a], [rvw l d], pV l [a]⟩
  | .vsarI l d a _ => ⟨rV l [a], [rvw l d], pV l [a]⟩
  | .vperm l d a b m => ⟨rV l [a, b] ++ rK l m d, [rvw l d], pV l [a, b]⟩
  | .vpermI l d a _ => ⟨rV l [a], [rvw l d], pV l [a]⟩
  | .vredAx l d a _ m => ⟨rV l [a] ++ rK l m d, [rvw l d], pV l [a]⟩
  | .vpack l d a b m => ⟨rV l [a, b] ++ rK l m d, [rvw l d], pV l [a, b]⟩
  | .vunpkLo l d a m => ⟨rV l [a] ++ rK l m d, [rvw l d], pV l [a]⟩
  | .vunpkHi l d a m => ⟨rV l [a] ++ rK l m d, [rvw l d], pV l [a]⟩
  | .vmxqE l d a _ m => ⟨rV l [a] ++ [.m m.toNat], [rvw l d], pV l [a]⟩
  | .vmxqB l d a b m => ⟨rV l [a, b] ++ [.m m.toNat], [rvw l d], pV l [a, b]⟩
  | .vrng l d m => ⟨rK l m d, [rvw l d], []⟩
  | .vrngU l d m => ⟨rK l m d, [rvw l d], []⟩
  | .mlog _ d a b o => ⟨if o = 4 ∨ o = 5 then [.m a.toNat] else [.m a.toNat, .m b.toNat], [.m d.toNat], []⟩
  | .vabs l d a m => ⟨rV l [a] ++ rK l m d, [rvw l d], pV l [a]⟩
  | .vneg l d a m => ⟨rV l [a] ++ rK l m d, [rvw l d], pV l [a]⟩
  | .vrcp l d a m => ⟨rV l [a] ++ rK l m d, [rvw l d], pV l [a]⟩
  | .vrsq l d a m => ⟨rV l [a] ++ rK l m d, [rvw l d], pV l [a]⟩
  | .vexp2 l d a m => ⟨rV l [a] ++ rK l m d, [rvw l d], pV l [a]⟩
  | .vlog2 l d a m => ⟨rV l [a] ++ rK l m d, [rvw l d], pV l [a]⟩
  | .vtanh l d a m => ⟨rV l [a] ++ rK l m d, [rvw l d], pV l [a]⟩
  | .vmov l d a m => ⟨rV l [a] ++ rK l m d, [rvw l d], pV l [a]⟩
  | .vabsI l d a m => ⟨rV l [a] ++ rK l m d, [rvw l d], pV l [a]⟩
  | .vnegI l d a m => ⟨rV l [a] ++ rK l m d, [rvw l d], pV l [a]⟩
  | .vredAdd l d a m => ⟨rV l [a] ++ [.m m.toNat], [rvw l d], pV l [a]⟩
  | .vredMax l d a m => ⟨rV l [a] ++ [.m m.toNat], [rvw l d], pV l [a]⟩
  | .vredMin l d a m => ⟨rV l [a] ++ [.m m.toNat], [rvw l d], pV l [a]⟩
  | .vscanAdd l d a m => ⟨rV l [a] ++ rK l m d, [rvw l d], pV l [a]⟩
  | .vscanMax l d a m => ⟨rV l [a] ++ rK l m d, [rvw l d], pV l [a]⟩
  | .vidx l d m => ⟨rK l m d, [rvw l d], []⟩
  | .tld _ k => ⟨[.k k.toNat], [], []⟩
  | .tldR _ a => ⟨[.a a.toNat], [], []⟩
  | .tlds _ k _ _ => ⟨[.k k.toNat], [], []⟩
  | .tldsR _ a _ _ => ⟨[.a a.toNat], [], []⟩
  | .loadDataReturn _ _ => .none
  | .tst d k _ f => ⟨.k k.toNat :: dataReads f d, [], dataPops f d⟩
  | .tstR d a _ f => ⟨.a a.toNat :: dataReads f d, [], dataPops f d⟩
  | .tsts d k _ _ f => ⟨.k k.toNat :: dataReads f d, [], dataPops f d⟩
  | .tstsR d a _ _ f => ⟨.a a.toNat :: dataReads f d, [], dataPops f d⟩
  | .spld _ k => ⟨[.k k.toNat], [], []⟩
  | .spldR _ a => ⟨[.a a.toNat], [], []⟩
  | .spst d k f => ⟨.k k.toNat :: dataReads f d, [], dataPops f d⟩
  | .spstR d a f => ⟨.a a.toNat :: dataReads f d, [], dataPops f d⟩
  | .remoteScratchpadRefusal _ _ => .none
  | .amoAdd d k _ _ _ _ => ⟨.k k.toNat :: rS [d], [], pS [d]⟩
  | .amoAnd d k _ _ _ _ => ⟨.k k.toNat :: rS [d], [], pS [d]⟩
  | .amoOr d k _ _ _ _ => ⟨.k k.toNat :: rS [d], [], pS [d]⟩
  | .amoXor d k _ _ _ _ => ⟨.k k.toNat :: rS [d], [], pS [d]⟩
  | .amoMin d k _ _ _ _ => ⟨.k k.toNat :: rS [d], [], pS [d]⟩
  | .amoMax d k _ _ _ _ => ⟨.k k.toNat :: rS [d], [], pS [d]⟩
  | .amoSwp d k _ _ _ _ => ⟨.k k.toNat :: rS [d], [], pS [d]⟩
  | .cas d k _ _ => ⟨[.k k.toNat, .s d.toNat, .s (d.toNat + 1)], [], []⟩
  | .casD d k _ _ => ⟨[.k k.toNat, .s d.toNat, .s (d.toNat + 1)], [], []⟩
  | .fst d k f => ⟨.k k.toNat :: dataReads f d, [], dataPops f d⟩
  | .fstR d a f => ⟨.a a.toNat :: dataReads f d, [], dataPops f d⟩
  | .fldt _ k _ => ⟨[.k k.toNat], [], []⟩
  | .fldtR _ a _ => ⟨[.a a.toNat], [], []⟩
  | .append d k _ _ _ f => ⟨.k k.toNat :: dataReads f d, [], dataPops f d⟩
  | .appendR d a _ _ _ f => ⟨.a a.toNat :: dataReads f d, [], dataPops f d⟩
  | .seal k _ => ⟨[.k k.toNat], [], []⟩
  | .span k _ => ⟨[.k k.toNat], [.k k.toNat], []⟩
  | .spanClr k => ⟨[.k k.toNat], [.k k.toNat], []⟩
  | .flushr a b => ⟨[.a a.toNat, .a b.toNat], [], []⟩
  | .flushrD a b => ⟨[.a a.toNat, .a b.toNat], [], []⟩
  | .invr a b _ => ⟨[.a a.toNat, .a b.toNat], [], []⟩
  | .invrTt a => ⟨[.a a.toNat], [], []⟩
  | .invalidationComplete _ => .none
  | .pref k => ⟨[.k k.toNat], [], []⟩
  | .prefL2 k => ⟨[.k k.toNat], [], []⟩
  | .fence _ => .none
  | .fenceSt _ => .none
  | .xfence _ _ => .none
  | .drain _ => .none
  | .drainComplete _ => .none
  | .aiterH k a => ⟨[.a a.toNat], [.k k.toNat], []⟩
  | .aiterB k a _ => ⟨[.a a.toNat, .k k.toNat], [.k k.toNat], []⟩
  | .aiterS k a _ _ => ⟨[.a a.toNat, .k k.toNat], [.k k.toNat], []⟩
  | .aiterRd d k _ => ⟨[.k k.toNat], [.a d.toNat], []⟩
  | .airev k _ => ⟨[.k k.toNat], [.k k.toNat], []⟩
  | .tdsc d k => ⟨[.k k.toNat], [.a d.toNat], []⟩
  | .tdscQ _ a => ⟨[.a a.toNat], [], []⟩
  | .tdscW _ a b => ⟨[.a a.toNat, .a b.toNat], [], []⟩
  | .xcall _ => .none
  | .xcallR a => ⟨[.x a.toNat], [], []⟩
  | .xset d _ => ⟨[], [.x d.toNat], []⟩
  | .xsetR d a _ => ⟨[.x a.toNat], [.x d.toNat], []⟩
  | .xzero d => ⟨[], [.t d.toNat], []⟩
  | .xzeroAll => ⟨[], (List.range 16).map .t, []⟩
  | .xacc d a => ⟨[.t d.toNat, .t a.toNat], [.t d.toNat], []⟩
  | .xaccSub d a => ⟨[.t d.toNat, .t a.toNat], [.t d.toNat], []⟩
  | .xaccMov d a => ⟨[.t a.toNat], [.t d.toNat], []⟩
  | .xdcy d _ => ⟨[.t d.toNat], [.t d.toNat], []⟩
  | .xdcyR d a => ⟨[.t d.toNat, .x a.toNat], [.t d.toNat], []⟩
  | .xspl t x => ⟨[.t t.toNat, .x x.toNat], [], []⟩
  | .xfil d => ⟨[], [.t d.toNat], [.qx]⟩
  | .xwait d _ => ⟨[], [.x d.toNat], []⟩
  | .xwaitAll => .none
  | .xwaitRelease _ => .none
  | .xldm a => ⟨[.x a.toNat], [], []⟩
  | .callQueueStart _ => .none
  | .routineEnd _ => .none
  | .mgathA _ _ _ _ _ _ => .none
  | .mgathB _ _ _ _ _ _ => .none
  | .mgathAt _ _ _ _ _ _ => .none
  | .mgathBt _ _ _ _ _ _ => .none
  | .mldbA _ => .none
  | .mldbB _ => .none
  | .mmacI8 _ _ _ _ _ => .none
  | .mmacI6 _ _ _ _ _ => .none
  | .mmacI4 _ _ _ _ _ => .none
  | .mmacF4 _ _ _ _ _ => .none
  | .mmacI16 _ _ _ _ _ => .none
  | .mmacF _ _ _ _ _ => .none
  | .mmacFZ _ _ _ _ _ => .none
  | .mmacFD _ _ _ _ _ _ => .none
  | .msclA _ _ _ _ => .none
  | .msclB _ _ _ _ => .none
  | .msclAb _ _ _ _ => .none
  | .msclClr => .none
  | .mscmA _ _ _ => .none
  | .mscmB _ _ _ => .none
  | .mscmAb _ _ _ => .none
  | .mscmSt _ _ _ => .none
  | .maccAdd _ _ => .none
  | .maccSub _ _ => .none
  | .maccMov _ _ => .none
  | .maccDcy _ _ => .none
  | .maccMax _ _ => .none
  | .maccZero _ => .none
  | .mcvtBf16 _ _ _ _ => .none
  | .mcvtF16 _ _ _ _ => .none
  | .mcvtE4m3 _ _ _ _ => .none
  | .mcvtE5m2 _ _ _ _ => .none
  | .mloop _ _ => .none
  | .mloopP _ _ => .none
  | .mloopK _ _ => .none
  | .mend => .none
  | .msyncG => .none
  | .msyncS => .none
  | .msyncAll => .none
  | .mnop => .none
  | .escl _ _ a b => ⟨[.e a.toNat, .e b.toNat], [], []⟩
  | .esclI _ _ _ => .none
  | .escm a b => ⟨[.e a.toNat, .e b.toNat], [], []⟩
  | .escmSt a b => ⟨[.e a.toNat, .e b.toNat], [], []⟩
  | .ebfx a => ⟨[.e a.toNat], [], []⟩
  | .ebfxClr => .none
  | .cpy a => ⟨groupE a 8, [], []⟩
  | .cpyBf a => ⟨groupE a 8, [], []⟩
  | .cpyw d _ => ⟨[], [.e d.toNat], []⟩
  | .cpywAll => .none
  | .cpywRelease _ => .none
  | .copyCommandStart _ _ => .none
  | .copyComplete _ _ => .none
  | .put a => ⟨groupE a 4, [], []⟩
  | .putH a => ⟨groupE a 4, [], []⟩
  | .putSmp a => ⟨groupE a 4, [], []⟩
  | .putm a => ⟨groupE a 4, [], []⟩
  | .putmS a => ⟨groupE a 4, [], []⟩
  | .collAr a => ⟨groupE a 4, [], []⟩
  | .collRs a => ⟨groupE a 4, [], []⟩
  | .collAg a => ⟨groupE a 4, [], []⟩
  | .collRsf a => ⟨groupE a 4, [], []⟩
  | .collw d _ => ⟨[], [.e d.toNat], []⟩
  | .collwRelease _ => .none
  | .grp a b => ⟨[.e a.toNat, .e b.toNat], [], []⟩
  | .grpEx a => ⟨[.e a.toNat], [], []⟩
  | .grpQ d a => ⟨[.e a.toNat], [.e d.toNat], []⟩
  | .sems a b => ⟨[.e a.toNat, .e b.toNat], [], []⟩
  | .semsI d _ => ⟨[.e d.toNat], [], []⟩
  | .semw a b => ⟨[.e a.toNat, .e b.toNat], [], []⟩
  | .semwI d _ => ⟨[.e d.toNat], [], []⟩
  | .semwAcquire _ => .none
  | .qpush a b => ⟨[.e a.toNat, .e b.toNat], [], []⟩
  | .qpushI d _ => ⟨[.e d.toNat], [], []⟩
  | .ftick a => ⟨[.e a.toNat], [], []⟩
  | .ftickW a => ⟨[.e a.toNat], [], []⟩
  | .fdisc a => ⟨[.e a.toNat], [], []⟩
  | .fdiscR a b => ⟨[.e a.toNat, .e b.toNat], [], []⟩
  | .fexp d a b => ⟨[.e d.toNat, .e a.toNat, .e b.toNat], [], []⟩
  | .fexpF d a b => ⟨[.e d.toNat, .e a.toNat, .e b.toNat], [], []⟩
  | .fbank a b => ⟨[.e a.toNat, .e b.toNat], [], []⟩
  | .fbankRd d a _ => ⟨[.e a.toNat], [.e d.toNat], []⟩
  | .emonSt a => ⟨[.e a.toNat], [], []⟩
  | .emonSp a => ⟨[.e a.toNat], [], []⟩
  | .emonRd d a => ⟨[.e a.toNat], [.e d.toNat], []⟩
  | .rollback _ => .none
  | .translationFaultReport _ _ => .none
  | .abortCompletion _ _ => .none
  | .l1Fill _ _ => .none
  | .pageReclassify _ => .none
  | .invalidationArrival _ _ _ => .none
  | .appendReservation _ _ => .none
  | .commitAdvance _ _ => .none
  | .sealAtHome _ _ => .none
  | .sealComplete _ => .none
  | .replicaCopy _ _ => .none
  | .migrationRequest _ _ _ _ _ => .none
  | .migrationAck _ => .none
  | .migrationAckTimeout _ => .none
  | .migrationCopyDone _ => .none
  | .migrationHoldExpire _ => .none
  | .sampleAccept _ _ => .none
  | .tapReadAccept _ _ => .none
  | .ftickAccept _ _ => .none
  | .sweepVisit _ => .none
  | .tickComplete _ => .none
  | .fdiscAccept _ _ => .none
  | .cascadeDelivery _ => .none
  | .fbankAccept _ _ => .none
  | .fabricArrival _ => .none
  | .holdNotice _ _ => .none
  | .arrivalWaitExpire _ => .none
  | .fabricAck _ _ _ _ _ => .none
  | .putAckTimeout _ _ => .none
  | .handlerStart _ => .none
  | .collInputArrival _ => .none
  | .collRoundTimeout _ _ => .none
  | .lostMemberNotice _ => .none
  | .collAbortTimeout _ _ => .none
  | .flitReceive _ _ _ _ => .none
  | .replayRequest _ _ => .none
  | .laneRetire _ _ => .none
  | .launchPacket _ _ => .none
  | .dispatchPass => .none
  | .preemptionTimeout _ => .none
  | .contextSave _ => .none
  | .launchCompletion _ => .none
  | .classifierWindowEnd _ => .none
  | .debugBreak _ _ => .none
  | .debugHaltCommand _ => .none
  | .debugResumeCommand _ => .none
  | .debugAccessCommand => .none
  | .featureNegotiation => .none
  | .attestation => .none
  | .vfApertureFlush _ => .none
  | .hostBarAccess _ _ _ _ _ => .none
  | .queueControlWrite _ _ _ _ => .none
  | .configurationWordWrite _ => .none
  | .capWrite _ => .none
  | .powerCapRamp => .none
  | .uncorrectableError _ _ _ _ _ => .none
  | .correctedSummary _ _ _ _ => .none
  | .monitorSample _ _ => .none
  | .managementReset => .none
  | .quiesce => .none
  | .pcieLinkLoss => .none
  | .powerUp => .none
  | .powerLoss => .none
  | .registerWrite _ _ => .none
  | .voidBundle => .none
  | .unassignedOpcode => .none
  | .callQueueEntryEnd _ => .none
  | .storePerformAtHome _ _ => .none
/-- Does the file have the register (R19)? -/
def Res.exists' : Res → Bool
  | .c n => decide (n < 16) | .a n => decide (n < 32) | .s n => decide (n < 32)
  | .v n => decide (n < 32) | .w n => decide (n < 32) | .m n => decide (n < 8) | .p n => decide (n < 16)
  | .x n => decide (n < 8) | .t n => decide (n < 16) | .e n => decide (n < 16) | .k n => decide (n < 8)

/-- May a slot write it: not register 31 of S, V, W, not p0, p14, p15, m0, m1 (R19)? -/
def Res.writable : Res → Bool
  | .s n => n != 31 | .v n => n != 31 | .w n => n != 31
  | .p n => n != 0 && n != 14 && n != 15
  | .m n => n != 0 && n != 1
  | _ => true

/-- The register fields of a form (R19, R186): what it names exists, what it writes may be written, a
compare writes two predicates, a CAS takes an even register up to s28, BIF.M a mask from m2 and a
vector compare one of the three pairs. -/
def Instr.regsOk (i : Instr) : Bool :=
  let u := i.uses
  u.reads.all Res.exists' && u.writes.all (fun r => r.exists' && r.writable)
    && (match i with
      | .cmpEq p e _ _ => p != e | .cmpNe p e _ _ => p != e | .cmpLt p e _ _ => p != e
      | .cmpLe p e _ _ => p != e | .cmpGt p e _ _ => p != e | .cmpGe p e _ _ => p != e
      | .cmpLtu p e _ _ => p != e | .cmpGeu p e _ _ => p != e
      | .cas d _ _ _ => d.toNat % 2 == 0 && decide (d.toNat ≤ 28)
      | .casD d _ _ _ => d.toNat % 2 == 0 && decide (d.toNat ≤ 28)
      | .bifM m _ => decide (2 ≤ m.toNat)
      | _ => true)

/-- A scope code: 0 .core to 5 .sys (R186). -/
def scopeOk (c : BitVec 3) : Bool := decide (c.toNat ≤ 5)
/-- A file code of a store: S, V or W (R186). -/
def fileOk (f : BitVec 2) : Bool := f != 3
/-- The JX file codes of the scalar files: C, A, S, E, X (R148). -/
def scalarFile (f : BitVec 3) : Bool := f == 0 || f == 1 || f == 2 || f == 5 || f == 6
def vectorFile (f : BitVec 3) : Bool := f == 3 || f == 4
/-- A tap mask does not select exactly three taps (R347). -/
def tapsOk (t : BitVec 4) : Bool :=
  (t.getLsbD 0).toNat + (t.getLsbD 1).toNat + (t.getLsbD 2).toNat + (t.getLsbD 3).toNat != 3

/-- The field values that a form accepts; any other raises the illegal-instruction trap (R20, R60,
R121, R148, R165, R168, R171, R175, R185, R186, R198, R262, R269, R299, R347). -/
def Instr.fieldsOk : Instr → Bool
  | .loop n _ => n != 0
  | .loopRot n _ => n != 0
  | .brk i => decide (1 ≤ i.toNat) && decide (i.toNat ≤ 6)
  | .phase n => decide (n.toNat ≤ 8)
  | .fmtR d _ w => w == 1 || d == 0
  | .jmov _ _ x y => scalarFile x && scalarFile y
  | .jmovV _ _ x y => vectorFile x && vectorFile y
  | .jspl32 _ _ x y => vectorFile x && (y == 0 || y == 2)
  | .jspl16 _ _ x y => vectorFile x && (y == 0 || y == 2)
  | .jspl8 _ _ x y => vectorFile x && (y == 0 || y == 2)
  | .jpm _ x => x == 0 || x == 2
  | .jmk _ _ x y => (x == 0 || x == 1) && (y == 0 || y == 2)
  | .mlog _ _ _ b o => decide (o.toNat ≤ 5) && (decide (o.toNat ≤ 3) || b == 0)
  | .vredAx _ _ _ o _ => decide (o.toNat ≤ 2)
  | .vmxqE _ _ _ e _ => decide (e.toNat ≤ 4)
  | .vpermI _ _ _ i => decide (i.toNat < 128) || (decide (i.toNat < 192) && decide (i.toNat % 64 < 8))
  | .tlds _ _ c _ => scopeOk c
  | .tldsR _ _ c _ => scopeOk c
  | .tst _ _ _ f => fileOk f
  | .tstR _ _ _ f => fileOk f
  | .tsts _ _ c _ f => scopeOk c && fileOk f
  | .tstsR _ _ c _ f => scopeOk c && fileOk f
  | .spst _ _ f => fileOk f
  | .spstR _ _ f => fileOk f
  | .fst _ _ f => fileOk f
  | .fstR _ _ f => fileOk f
  | .amoAdd _ _ c _ _ _ => scopeOk c
  | .amoAnd _ _ c _ _ _ => scopeOk c
  | .amoOr _ _ c _ _ _ => scopeOk c
  | .amoXor _ _ c _ _ _ => scopeOk c
  | .amoMin _ _ c _ _ _ => scopeOk c
  | .amoMax _ _ c _ _ _ => scopeOk c
  | .amoSwp _ _ c _ _ _ => scopeOk c
  | .cas _ _ c _ => scopeOk c
  | .casD _ _ c _ => scopeOk c
  | .fldt _ _ t => tapsOk t
  | .fldtR _ _ t => tapsOk t
  | .append _ _ c r _ f => (if r = 0 then c == 0 else scopeOk c) && fileOk f
  | .appendR _ _ c r _ f => (if r = 0 then c == 0 else scopeOk c) && fileOk f
  | .span _ n => decide (1 ≤ n.toNat) && decide (n.toNat ≤ 32)
  | .fence c => scopeOk c
  | .fenceSt c => scopeOk c
  | .drain c => scopeOk c
  | .xfence x y => decide (x.toNat ≤ 4) && decide (y.toNat ≤ 4)
  | .aiterS _ _ j _ => decide (j.toNat ≤ 5)
  | .aiterRd _ _ c => decide (c.toNat ≤ 15)
  | .xwait _ n => decide (n.toNat ≤ 4)
  | _ => true

/-- The privileged forms (R37). -/
def Instr.privileged : Instr → Bool
  | .xldm _ => true
  | .invrTt _ => true
  | .tdscW _ _ _ => true
  | .fbank _ _ => true
  | .fbankRd _ _ _ => true
  | .eret => true
  | _ => false

/-- A well-formed instruction: one that the decode checks of a bundle let pass (R19, R20). -/
def Instr.wf (i : Instr) : Bool := i.fieldsOk && i.regsOk

/-- The reads of a slot: those of its form and its guard's predicate (R23). -/
def Slot.reads (s : Slot) : List Res := .p s.guard.toNat :: s.ins.uses.reads

/-- Registers that count in the dependence check: the fixed ones never change (R23). -/
def Res.dep : Res → Bool
  | .p 0 => false
  | .m 0 => false
  | .m 1 => false
  | _ => true

/-- The dependence check of R23 between a slot and a later one: does one read what the other writes,
do both write one register, do both pop one queue?  Only the sequencer writes p14 and p15. -/
def slotsClash (x y : Slot) : Bool :=
  let u := x.ins.uses
  let v := y.ins.uses
  x.reads.any (fun r => r.dep && v.writes.contains r)
    || y.reads.any (fun r => r.dep && u.writes.contains r)
    || u.writes.any (fun r => v.writes.contains r)
    || u.pops.any (fun q => v.pops.contains q)

end Sys2Proof
end

