-- ==== Sys2Proof/Machine/Issue.lean ====
section
/-!
DEFINITION. Sys2Proof/Machine/Issue.lean: the bundle: its framing and decode checks (R21 to R25), the interlocks that make its
context ready (R100, R120, R135, R157, R202), the order of its slots, and what happens when it has
issued; with the meanings of a bundle of void slots (R22) and of an unassigned opcode (R36).
-/

namespace Sys2Proof.Machine

/-! ### Decode checks (R25) -/

/-- A bundle that has passed its decode checks: its words, and its non-void slots with their positions from 1. -/
structure Bundle where
  words : List Nat
  slots : List (Nat × Slot)
  deriving DecidableEq, Repr

/-- What a bundle fails: a trap at a slot, or an unassigned opcode there. -/
inductive BadBundle where
  | trap (t : Trap)
  | unassigned (pos : Nat)
  deriving DecidableEq, Repr

def BadBundle.at' (cls pos : Nat) : BadBundle := .trap { Trap.mk' cls 0 with slot := pos }

/-- Check 2: the lowest position whose lane an earlier non-void slot names (R22, R25). -/
def laneClash (seen : List Nat) : List (Nat × Nat) → Option Nat
  | [] => none
  | (p, w) :: t => if seen.contains (wordLane w) then some p else laneClash (wordLane w :: seen) t

/-- Check 3: every slot's opcode is assigned and its fields are legal (R20, R36). -/
noncomputable def decodeSlots : List (Nat × Nat) → Except BadBundle (List (Nat × Slot))
  | [] => .ok []
  | (p, w) :: t =>
    match decodeSlot w with
    | .error .unassigned => .error (.unassigned p)
    | .error _ => .error (.at' clsIllegal p)
    | .ok none => decodeSlots t
    | .ok (some x) =>
      if !x.ins.fieldsOk then .error (.at' clsIllegal p)
      else (decodeSlots t).map fun xs => (p, x) :: xs

/-- Check 4: the lowest position whose register fields are illegal or which clashes with an earlier slot (R19, R23). -/
def regClash (seen : List Slot) : List (Nat × Slot) → Option Nat
  | [] => none
  | (p, x) :: t => if !x.ins.regsOk || seen.any (fun y => slotsClash y x) then some p else regClash (x :: seen) t

/-- Checks 2 to 5 on a framed bundle, in a context privileged or not (R25, R37). -/
noncomputable def decodeBundle (priv : Bool) (ws : List Nat) : Except BadBundle Bundle :=
  let real := ((List.range ws.length).zip ws).map (fun x => (x.1 + 1, x.2)) |>.filter fun x => !isVoidWord x.2
  match laneClash [] real with
  | some p => .error (.at' clsEncoding p)
  | none =>
    match decodeSlots real with
    | .error b => .error b
    | .ok xs =>
      match regClash [] xs with
      | some p => .error (.at' clsEncoding p)
      | none =>
        match findBy (fun x => x.2.ins.privileged && !priv) xs with
        | some x => .error (.at' clsPrivilege x.1)
        | none => .ok ⟨ws, xs⟩

/-- The next bundle of context `k`: fetched, framed and checked (R21, R25). -/
noncomputable def nextBundle (k : Nat) : M (Except BadBundle Bundle) := do
  let s ← get
  let c := s.ctx k
  match ← frameAt (s.launchOf k) c.sq.pc.toNat with
  | .error p => return .error (.at' clsEncoding p)
  | .ok ws => return decodeBundle c.priv ws

/-! ### Interlocks (R100, R120, R135, R157, R202) -/

/-- The lanes that a bundle occupies (R101). -/
def Bundle.lanes (b : Bundle) : List Nat := (b.words.filter fun w => !isVoidWord w).map wordLane

/-- A register's key in the scoreboard: S, V and W by physical register. -/
def Ctx.resKey (c : Ctx) : Res → Nat
  | .c n => n | .a n => 100 + n | .s n => 200 + physReg c.sq.rb n | .e n => 300 + n | .x n => 400 + n
  | .v n => 500 + physReg c.sq.rb n | .w n => 600 + physReg c.sq.rb n | .m n => 700 + n | .t n => 800 + n
  | .k n => 900 + n | .p n => 1000 + n

/-- Is a register free of a pending write at a clock? -/
def Ctx.free' (c : Ctx) (now : Nat) (r : Res) : Bool := decide (c.avail.get 0 (c.resKey r) ≤ now)

/-- Is a slot's guard true? -/
def Ctx.takes (c : Ctx) (x : Slot) : Bool :=
  let g := c.pred x.guard.toNat
  g.valid && g.val == 1

/-- The slots that take effect: those whose guards are true. -/
def Bundle.taken (b : Bundle) (c : Ctx) : List (Nat × Slot) := b.slots.filter fun x => c.takes x.2

/-- Is the form one of the divider's (R135)? -/
def divides : Instr → Bool
  | .div .. => true
  | .divU .. => true
  | .rem .. => true
  | .remU .. => true
  | _ => false

/-- What a slot reads: in a masked region a V, W or X slot reads its old destination too (R213). -/
def Seqr.readsOf (q : Seqr) (i : Instr) : List Res :=
  match q.region, i.lane with
  | some _, some l => if 3 ≤ l.code ∧ l.code ≤ 5 then i.uses.reads ++ i.uses.writes else i.uses.reads
  | _, _ => i.uses.reads

/-- The interlocks on a decoded bundle other than those that its slots find for themselves: pending results, the
divider, and the lanes of widened slots (R100, R135, R202).  A DIV or REM slot that takes no effect waits for the divider as
any other does, and does not hold it (log entry 18). -/
def Bundle.clear (b : Bundle) (c : Ctx) (x : Core) : Bool :=
  b.slots.all (fun y => c.free' x.clk (.p y.2.guard.toNat))
    && (b.taken c).all (fun y => (c.sq.readsOf y.2.ins).all (c.free' x.clk))
    && (!(b.slots.any fun y => divides y.2.ins) || decide (x.divFree ≤ x.clk))
    && b.lanes.all fun l => decide (x.laneFree.get 0 l ≤ x.clk)

/-- May context `k` issue a bundle at this clock, as far as can be said before it is decoded? -/
def State.awake (s : State) (k : Nat) : Bool :=
  let c := s.ctx k
  let x := s.core (coreOf k)
  c.live && c.wait == .none && c.more.isEmpty && decide (c.nextIssue ≤ x.clk) && x.halted.isNone

/-- The clocks from a bundle to the readability of its result (R135, R157, R303, R307). -/
def latencyOf : Instr → Nat
  | .mul .. => 3 | .mulW .. => 3 | .muli .. => 3 | .mulh .. => 4 | .mulhU .. => 4
  | .div .. => 20 | .divU .. => 20 | .rem .. => 20 | .remU .. => 20
  | .jmov .. => 2 | .jmovV .. => 2 | .jspl32 .. => 2 | .jspl16 .. => 2 | .jspl8 .. => 2 | .jext .. => 2
  | .jpm .. => 2 | .jmk .. => 2
  | .vand .. => 2 | .vor .. => 2 | .vxor .. => 2 | .vshl .. => 2 | .vshr .. => 2 | .vsar .. => 2
  | .vandI .. => 2 | .vorI .. => 2 | .vxorI .. => 2 | .vshlI .. => 2 | .vshrI .. => 2 | .vsarI .. => 2
  | .vsel .. => 2 | .vmov .. => 2 | .mlog .. => 2 | .vidx .. => 2 | .vabsI .. => 2 | .vnegI .. => 2
  | .vcmpEq .. => 2 | .vcmpNe .. => 2 | .vcmpLt .. => 2 | .vcmpLe .. => 2 | .vcmpGt .. => 2 | .vcmpGe .. => 2
  | .vcmpUn .. => 2 | .vcmpOrd .. => 2 | .vcmpIeq .. => 2 | .vcmpIne .. => 2 | .vcmpIlt .. => 2 | .vcmpIltu .. => 2
  | .viadd .. => 3 | .viaddS .. => 3 | .visub .. => 3 | .visubS .. => 3 | .vimul .. => 3 | .vimulH .. => 3
  | .vperm .. => 3 | .vpermI .. => 3 | .vpack .. => 3 | .vunpkLo .. => 3 | .vunpkHi .. => 3
  | .vadd .. => 4 | .vsub .. => 4 | .vmul .. => 4 | .vfma .. => 4 | .vfms .. => 4 | .vmin .. => 4 | .vmax .. => 4
  | .vaddI .. => 4 | .vmulI .. => 4 | .vminI .. => 4 | .vmaxI .. => 4 | .vabs .. => 4 | .vneg .. => 4
  | .vcvt .. => 4 | .vcvtLo .. => 4 | .vcvtHi .. => 4 | .vrng .. => 4 | .vrngU .. => 4
  | .vredAdd .. => 6 | .vredMax .. => 6 | .vredMin .. => 6 | .vredAx .. => 6 | .vmxqE .. => 6 | .vmxqB .. => 6
  | .vrcp .. => 8 | .vrsq .. => 8 | .vexp2 .. => 8 | .vlog2 .. => 8 | .vtanh .. => 8
  | .vscanAdd .. => 8 | .vscanMax .. => 8
  | .xzero .. => 2 | .xzeroAll => 17 | .xfil .. => 2
  | .xacc .. => 18 | .xaccSub .. => 18 | .xaccMov .. => 18 | .xdcy .. => 18 | .xdcyR .. => 18
  | _ => 1

/-- The clocks for which a form holds its lane beyond those of its width (R303). -/
def laneHold : Instr → Nat
  | .xacc .. => 16 | .xaccSub .. => 16 | .xaccMov .. => 16 | .xdcy .. => 16 | .xdcyR .. => 16
  | _ => 1

/-! ### The order of slots

Within a bundle no slot reads what another writes (R23).  Shared resources of the context are used in this
order: CKPT and CKRS, then A, S, V, W, X, E, J, and the other C forms last, which set the next address. -/

/-- Place of a form in the order. -/
def issueRank (i : Instr) : Nat :=
  match i.lane with
  | some l => if l.code = 0 then (if gatedForm i then 0 else 8) else l.code
  | none => 8

def issueOrder (xs : List (Nat × Slot)) : List (Nat × Slot) :=
  (List.range 9).flatMap fun r => xs.filter fun x => issueRank x.2.ins == r

/-- What the bundle hands to the slot at a position (R25, R77). -/
def Bundle.forSlot (b : Bundle) (c : Ctx) (x : Nat × Slot) : Issue :=
  { Issue.idle with pos := x.1, words := b.words, others := ((b.taken c).filter fun y => y.1 != x.1).map fun y => y.2.ins }

/-- In a masked region every guard is read as tagged: a C, S or J slot other than BELSE and BJOIN is lift
fault 2, whatever its guard (R214). -/
def regionBars (q : Seqr) (i : Instr) : Bool :=
  q.region.isSome && (match i with
    | .belse .. => false
    | .bjoin => false
    | i => match i.lane with
      | some l => l.code == 0 || l.code == 2 || l.code == 7
      | none => false)

/-- Does a form whose guard is true meet lift fault 1 as it issues, beside what a masked region makes of it (R204)? -/
def Ctx.overflows (c : Ctx) (i : Instr) : Bool :=
  match i with
  | .lift n _ => c.liftOver (n.toNat + 1)
  | .liftR a _ => c.liftRegOver a
  | .jmovV d a x y => c.movOver d a x y
  | .jext _ a e f => c.extOver (if f = 0 then .v else .w) a e.toNat
  | _ => false

/-- What a slot meets before its form acts: an invalid guard (R99), then a masked region (R214), where the lower of two lift
faults is reported (R204): log entry 85. -/
def Ctx.slotBar (c : Ctx) (x : Nat × Slot) : Option Trap :=
  if !(c.pred x.2.guard.toNat).valid then some { Trap.mk' clsInvalid 0 with slot := x.1 }
  else if regionBars c.sq x.2.ins then
    some { Trap.mk' clsLift (if c.takes x.2 && c.overflows x.2.ins then 1 else 2) with slot := x.1 }
  else none

/-- The context as its bundle begins to issue. -/
def Ctx.begin (c : Ctx) (now : Nat) (words : List Nat) : Ctx :=
  let e := c.sq.pc + BitVec.ofNat 32 (4 * words.length)
  { c with nextIssue := now + 1, starve := 0, sq := { c.sq with after := e, npc := e },
           fl := { c.fl with now := now, bundle := c.fl.bundle + 1 } }

/-! ### The end of a bundle -/

/-- The axis tag of a register as it stands. -/
def Ctx.tagNow (c : Ctx) : Res → BitVec 3
  | .v n => (c.regV n).tag
  | .w n => (c.regW n).tag
  | .m n => (c.mask n).tag
  | .t n => (c.regT n).tag
  | _ => 0

/-- The axis tag of a register as its bundle's slots left it, before an LRET of the bundle cleared it: `d` are the tags that
the LRET took (R207). -/
def Ctx.tagOf (c : Ctx) (d : AMap (BitVec 3)) (r : Res) : BitVec 3 := AMap.get (c.tagNow r) d (c.resKey r)

/-- Clocks that a V, W or X slot runs: the example count of its result (R202). -/
def Ctx.width (c : Ctx) (d : AMap (BitVec 3)) (ls : List LiftEnt) (i : Instr) : Nat :=
  match i.lane with
  | some l =>
    if 3 ≤ l.code ∧ l.code ≤ 5 then (i.uses.writes.map fun r => exCount ls (c.tagOf d r)).foldl max 1 else 1
  | none => 1

def isMarkForm : Instr → Bool
  | .mark .. => true
  | _ => false

/-- Does the form write fmt (R63)? -/
def writesFmt : Instr → Bool
  | .fmtR .. => true
  | .fmtV .. => true
  | .fmtX .. => true
  | .eret => true
  | _ => false

/-- Pending results noted in the scoreboard (R100, R135, R157). -/
def Ctx.noteResults (c : Ctx) (d : AMap (BitVec 3)) (ls : List LiftEnt) (i : Instr) : Ctx :=
  let now := c.fl.now
  let t := now + latencyOf i + c.width d ls i - 1
  let put (m : AMap Nat) (r : Res) : AMap Nat :=
    let key := c.resKey r
    if now + 1 < t then m.set key (max t (m.get 0 key)) else m
  { c with avail := i.uses.writes.foldl put c.avail }

/-- The context after its bundle: the generator state for a CKPT, the results pending, the earliest next bundle, the
segment's path, the loop test, the fmt shadow and the next address (R63, R105, R120, R202, R216, R225). -/
def Ctx.ended' (c : Ctx) (d : AMap (BitVec 3)) (ls : List LiftEnt) (path wroteFmt : Bool) (words : List Nat)
    (is : List Instr) : Ctx :=
  let w := (is.map fun i => c.width d ls i).foldl max 1
  let c := c.fillCkpt
  let c := is.foldl (fun c i => c.noteResults d ls i) { c with avail := c.avail.filter fun e => decide (c.fl.now < e.2) }
  let c := { c with nextIssue := max c.nextIssue (c.fl.now + w) }
  let c := if path then { c with seg := c.seg.step words } else c
  let c := c.endBundle wroteFmt
  { c with sq := { c.sq with pc := c.sq.npc } }

/-- The core after the bundle, from the slots it took (log entry 18): the divider, the lanes of its widened slots and the X lane of a tile form are taken (R135,
R202, R303). -/
def Core.occupied (x : Core) (c : Ctx) (d : AMap (BitVec 3)) (ls : List LiftEnt) (is : List Instr) : Core :=
  let lanes (m : AMap Nat) (i : Instr) : AMap Nat :=
    match i.lane with
    | some l =>
      let n := max (c.width d ls i) (laneHold i)
      if 1 < n then m.set (l.code) (c.fl.now + n) else m
    | none => m
  { x with divFree := if is.any divides then c.fl.now + 20 else x.divFree,
           laneFree := is.foldl lanes (x.laneFree.filter fun e => decide (c.fl.now < e.2)),
           resumed := none }

/-- Vector element operations of the bundle, for the classifier (R410). -/
def Ctx.elemOps (c : Ctx) (d : AMap (BitVec 3)) (ls : List LiftEnt) (is : List Instr) : Nat :=
  (is.map fun i => match i.lane with
    | some l => if 3 ≤ l.code ∧ l.code ≤ 4 then 1024 / (EFmt.ofCode (fmtVS c.sq.fmt)).width * c.width d ls i else 0
    | none => 0).sum

/-- The bundle of context `k` has issued, from the context `c0` before it. -/
def finishBundle (k : Nat) (c0 : Ctx) (b : Bundle) : M Unit := do
  let c := (← get).ctx k
  let d := (← get).issue.dropped
  let ls := c0.sq.lifts
  let is := (b.taken c0).map fun x => x.2.ins
  let path := c0.frame.isNone && !is.any isMarkForm
  modCore (coreOf k) fun x => x.occupied c d ls is
  countFor c.launch 0 (c.elemOps d ls is)
  modCtx k fun c => c.ended' d ls path (is.any writesFmt) b.words is

/-- Has the context, having run its slots, a bundle to finish: it has neither ended nor begun a rollback? -/
def Ctx.finishes (c : Ctx) : Bool := (c.live || c.st == .saved) && c.wait != .rewind

/-! ### Watchpoints (R232, R435) -/

/-- Do the elements of `n` units from a coordinate of a tensor meet a range of offsets? -/
def State.unitsMeet (s : State) (die : Nat) (l : Launch) (h : BitVec 16) (x : Coord) (n lo cnt : Nat) : Bool :=
  let d := s.desc die l h
  (d.units x n).any fun u => match u with
    | some y => decide (d.offset y < lo + cnt) && decide (lo < d.offset y + d.unitElems)
    | none => false

/-- Does a gated effect write, sample or append to a range of a tensor? -/
def State.effMeets (s : State) (die : Nat) (l : Launch) (w : BitVec 16) (lo cnt : Nat) : Eff → Bool
  | .store (.tensor h x) vec _ _ _ _ => h == w && s.unitsMeet die l h x (if vec then (s.desc die l h).perVec else 1) lo cnt
  | .amo _ h x _ _ _ _ _ => h == w && s.unitsMeet die l h x 1 lo cnt
  | .cas h x _ _ _ _ _ _ => h == w && s.unitsMeet die l h x 1 lo cnt
  | .fst h x xs => h == w && s.unitsMeet die l h x xs.length lo cnt
  | .append h x _ _ _ _ _ => h == w && s.unitsMeet die l h x 1 lo cnt
  | _ => false

/-- Does a gated effect read a range of a tensor: an atomic's element, a QPUSH's packet? -/
def State.effReads (s : State) (die : Nat) (l : Launch) (w : BitVec 16) (lo cnt : Nat) : Eff → Bool
  | .amo _ h x _ _ _ _ _ => h == w && s.unitsMeet die l h x 1 lo cnt
  | .cas h x _ _ _ _ _ _ => h == w && s.unitsMeet die l h x 1 lo cnt
  | .qpush h off _ _ => h == w && decide (off < lo + cnt) && decide (lo < off + 32)
  | _ => false

/-- Does a slot read a range of a tensor as it issues: the member list of a GRP? -/
def Ctx.listReads (c : Ctx) (w : BitVec 16) (lo cnt : Nat) : Instr → Bool
  | .grp a b =>
    let x := (c.regE a.toNat).val
    handleOf x == w && decide (offsetOf x < lo + cnt)
      && decide (lo < offsetOf x + (fieldN (c.regE b.toNat).val 8 8 + 1))
  | _ => false

/-- Does a load read a range of a tensor? -/
def State.loadMeets (s : State) (die : Nat) (l : Launch) (w : BitVec 16) (lo cnt : Nat) (ld : Load) : Bool :=
  match ld.kind with
  | .elems h cs =>
    h == w && cs.any fun x => s.unitsMeet die l h x (if ld.q = 0 then 1 else (s.desc die l h).perVec) lo cnt
  | .taps h cs m f _ _ => h == w && cs.any fun x => s.unitsMeet die l h x (tapWords m f ld.q) lo cnt
  | _ => false

/-- The watchpoint that a bundle of context `k` meets by its slots `is` and the accesses they made after place `n` of program
order; what an engine later reads and writes for a command of the bundle is no access of its (log entry 92). -/
def State.watchHit (s : State) (k n : Nat) (is : List Instr) : Option Nat :=
  let c := s.ctx k
  let die := coreDie (coreOf k)
  let l := s.launchOf k
  let gs := (c.fl.gate ++ c.fl.commits).filter fun g => decide (n < g.seq)
  findBy (fun u =>
    s.watches k u
      && (let e := s.reg (dbgEntry u)
          let a := s.reg (dbgEntry u + 8)
          let cnt := fieldN (s.reg (dbgEntry u + 16)) 0 48
          (e.getLsbD 61 && ((c.fl.loads.filter fun ld => decide (n < ld.seq)).any
                (fun ld => s.loadMeets die l (handleOf a) (offsetOf a) cnt ld)
              || gs.any (fun g => s.effReads die l (handleOf a) (offsetOf a) cnt g.eff)
              || is.any fun i => c.listReads (handleOf a) (offsetOf a) cnt i))
            || (e.getLsbD 60 && gs.any fun g => s.effMeets die l (handleOf a) (offsetOf a) cnt g.eff)))
    [8, 9, 10, 11]

/-! ### The two rows that no slot carries -/

/-- VOID_BUNDLE: a bundle of void slots alone issues: it counts towards the fmt shadow and enters the segment's path, and the
next address is that after it (R22, R63, R105, R216). -/
def execVoidBundle (s : State) : Host.Outcome State Fault Refusal :=
  finish s (do
    let s ← get
    let k := s.focus
    let now := (s.core (coreOf k)).clk
    let c := s.ctx k
    modCtx k fun c => c.begin now s.issue.words
    finishBundle k c ⟨s.issue.words, []⟩)

/-- UNASSIGNED_OPCODE: the precise illegal-instruction trap at the slot in issue (R36). -/
def execUnassignedOpcode (s : State) : Host.Outcome State Fault Refusal := finish s (M.trap clsIllegal 0)

end Sys2Proof.Machine
end

