-- ==== Sys2Proof/Machine/Dispatch.lean ====
section
/-!
DEFINITION. Sys2Proof/Machine/Dispatch.lean: the meaning of every instruction, one arm each.
-/

namespace Sys2Proof.Machine

def exec (i : Instr) (s : State) : Host.Outcome State Fault Refusal :=
  match i with
  | .mgathA b x o r e u => Sys2Proof.Machine.execMgathA b x o r e u s
  | .mgathB b x o r e u => Sys2Proof.Machine.execMgathB b x o r e u s
  | .mgathAt b x o r e u => Sys2Proof.Machine.execMgathAt b x o r e u s
  | .mgathBt b x o r e u => Sys2Proof.Machine.execMgathBt b x o r e u s
  | .mldbA b => Sys2Proof.Machine.execMldbA b s
  | .mldbB b => Sys2Proof.Machine.execMldbB b s
  | .mmacI8 a b t z n => Sys2Proof.Machine.execMmacI8 a b t z n s
  | .mmacI6 a b t z n => Sys2Proof.Machine.execMmacI6 a b t z n s
  | .mmacI4 a b t z n => Sys2Proof.Machine.execMmacI4 a b t z n s
  | .mmacF4 a b t z n => Sys2Proof.Machine.execMmacF4 a b t z n s
  | .mmacI16 a b t z n => Sys2Proof.Machine.execMmacI16 a b t z n s
  | .mmacF a b t z n => Sys2Proof.Machine.execMmacF a b t z n s
  | .mmacFZ a b t z n => Sys2Proof.Machine.execMmacFZ a b t z n s
  | .mmacFD a b t z n g => Sys2Proof.Machine.execMmacFD a b t z n g s
  | .msclA x o z n => Sys2Proof.Machine.execMsclA x o z n s
  | .msclB x o z n => Sys2Proof.Machine.execMsclB x o z n s
  | .msclAb x o z n => Sys2Proof.Machine.execMsclAb x o z n s
  | .msclClr => Sys2Proof.Machine.execMsclClr s
  | .mscmA i0 z n => Sys2Proof.Machine.execMscmA i0 z n s
  | .mscmB i0 z n => Sys2Proof.Machine.execMscmB i0 z n s
  | .mscmAb i0 z n => Sys2Proof.Machine.execMscmAb i0 z n s
  | .mscmSt i0 z n => Sys2Proof.Machine.execMscmSt i0 z n s
  | .maccAdd d r => Sys2Proof.Machine.execMaccAdd d r s
  | .maccSub d r => Sys2Proof.Machine.execMaccSub d r s
  | .maccMov d r => Sys2Proof.Machine.execMaccMov d r s
  | .maccDcy d g => Sys2Proof.Machine.execMaccDcy d g s
  | .maccMax d r => Sys2Proof.Machine.execMaccMax d r s
  | .maccZero d => Sys2Proof.Machine.execMaccZero d s
  | .mcvtBf16 t x o r => Sys2Proof.Machine.execMcvtBf16 t x o r s
  | .mcvtF16 t x o r => Sys2Proof.Machine.execMcvtF16 t x o r s
  | .mcvtE4m3 t x o r => Sys2Proof.Machine.execMcvtE4m3 t x o r s
  | .mcvtE5m2 t x o r => Sys2Proof.Machine.execMcvtE5m2 t x o r s
  | .mloop c n => Sys2Proof.Machine.execMloop c n s
  | .mloopP x n => Sys2Proof.Machine.execMloopP x n s
  | .mloopK x n => Sys2Proof.Machine.execMloopK x n s
  | .mend => Sys2Proof.Machine.execMend s
  | .msyncG => Sys2Proof.Machine.execMsyncG s
  | .msyncS => Sys2Proof.Machine.execMsyncS s
  | .msyncAll => Sys2Proof.Machine.execMsyncAll s
  | .mnop => Sys2Proof.Machine.execMnop s
  | .br i0 => Sys2Proof.Machine.execBr i0 s
  | .brx a => Sys2Proof.Machine.execBrx a s
  | .call i0 => Sys2Proof.Machine.execCall i0 s
  | .callR a => Sys2Proof.Machine.execCallR a s
  | .ret => Sys2Proof.Machine.execRet s
  | .loop n k => Sys2Proof.Machine.execLoop n k s
  | .loopR c k => Sys2Proof.Machine.execLoopR c k s
  | .loopRot n k => Sys2Proof.Machine.execLoopRot n k s
  | .loopRotR c k => Sys2Proof.Machine.execLoopRotR c k s
  | .brk i0 => Sys2Proof.Machine.execBrk i0 s
  | .brkR a => Sys2Proof.Machine.execBrkR a s
  | .lidx d c v => Sys2Proof.Machine.execLidx d c v s
  | .fmtR d a w => Sys2Proof.Machine.execFmtR d a w s
  | .fmtV z t r d v => Sys2Proof.Machine.execFmtV z t r d v s
  | .fmtX c b a => Sys2Proof.Machine.execFmtX c b a s
  | .fmtShadowExpire k => Sys2Proof.Machine.execFmtShadowExpire k s
  | .lift n i0 => Sys2Proof.Machine.execLift n i0 s
  | .liftR a b => Sys2Proof.Machine.execLiftR a b s
  | .lret => Sys2Proof.Machine.execLret s
  | .bifP p i0 => Sys2Proof.Machine.execBifP p i0 s
  | .bifM m i0 => Sys2Proof.Machine.execBifM m i0 s
  | .belse i0 => Sys2Proof.Machine.execBelse i0 s
  | .bjoin => Sys2Proof.Machine.execBjoin s
  | .trap i0 => Sys2Proof.Machine.execTrap i0 s
  | .trapR a => Sys2Proof.Machine.execTrapR a s
  | .svc i0 => Sys2Proof.Machine.execSvc i0 s
  | .eret => Sys2Proof.Machine.execEret s
  | .park => Sys2Proof.Machine.execPark s
  | .parkComplete k => Sys2Proof.Machine.execParkComplete k s
  | .abort i0 => Sys2Proof.Machine.execAbort i0 s
  | .abortR a => Sys2Proof.Machine.execAbortR a s
  | .abchk => Sys2Proof.Machine.execAbchk s
  | .mark i0 => Sys2Proof.Machine.execMark i0 s
  | .join n r => Sys2Proof.Machine.execJoin n r s
  | .joinR a => Sys2Proof.Machine.execJoinR a s
  | .joinRelease k => Sys2Proof.Machine.execJoinRelease k s
  | .ckpt i0 => Sys2Proof.Machine.execCkpt i0 s
  | .ckptR a => Sys2Proof.Machine.execCkptR a s
  | .ckrs i0 => Sys2Proof.Machine.execCkrs i0 s
  | .ckrsR a => Sys2Proof.Machine.execCkrsR a s
  | .phase n => Sys2Proof.Machine.execPhase n s
  | .phaseR a => Sys2Proof.Machine.execPhaseR a s
  | .phaseEnd c => Sys2Proof.Machine.execPhaseEnd c s
  | .halt => Sys2Proof.Machine.execHalt s
  | .haltComplete k => Sys2Proof.Machine.execHaltComplete k s
  | .add d a b => Sys2Proof.Machine.execAdd d a b s
  | .addW d a b => Sys2Proof.Machine.execAddW d a b s
  | .sub d a b => Sys2Proof.Machine.execSub d a b s
  | .subW d a b => Sys2Proof.Machine.execSubW d a b s
  | .mul d a b => Sys2Proof.Machine.execMul d a b s
  | .mulW d a b => Sys2Proof.Machine.execMulW d a b s
  | .mulh d a b => Sys2Proof.Machine.execMulh d a b s
  | .mulhU d a b => Sys2Proof.Machine.execMulhU d a b s
  | .div d a b => Sys2Proof.Machine.execDiv d a b s
  | .divU d a b => Sys2Proof.Machine.execDivU d a b s
  | .rem d a b => Sys2Proof.Machine.execRem d a b s
  | .remU d a b => Sys2Proof.Machine.execRemU d a b s
  | .and d a b => Sys2Proof.Machine.execAnd d a b s
  | .or d a b => Sys2Proof.Machine.execOr d a b s
  | .xor d a b => Sys2Proof.Machine.execXor d a b s
  | .andn d a b => Sys2Proof.Machine.execAndn d a b s
  | .shl d a b => Sys2Proof.Machine.execShl d a b s
  | .shlW d a b => Sys2Proof.Machine.execShlW d a b s
  | .shr d a b => Sys2Proof.Machine.execShr d a b s
  | .shrW d a b => Sys2Proof.Machine.execShrW d a b s
  | .sar d a b => Sys2Proof.Machine.execSar d a b s
  | .sarW d a b => Sys2Proof.Machine.execSarW d a b s
  | .min d a b => Sys2Proof.Machine.execMin d a b s
  | .minU d a b => Sys2Proof.Machine.execMinU d a b s
  | .max d a b => Sys2Proof.Machine.execMax d a b s
  | .maxU d a b => Sys2Proof.Machine.execMaxU d a b s
  | .clz d a => Sys2Proof.Machine.execClz d a s
  | .clzW d a => Sys2Proof.Machine.execClzW d a s
  | .popc d a => Sys2Proof.Machine.execPopc d a s
  | .popcW d a => Sys2Proof.Machine.execPopcW d a s
  | .bfx d a b => Sys2Proof.Machine.execBfx d a b s
  | .bfxU d a b => Sys2Proof.Machine.execBfxU d a b s
  | .bfi d a b => Sys2Proof.Machine.execBfi d a b s
  | .bfiW d a b => Sys2Proof.Machine.execBfiW d a b s
  | .sel d a b p => Sys2Proof.Machine.execSel d a b p s
  | .movi d i0 => Sys2Proof.Machine.execMovi d i0 s
  | .movs d i0 => Sys2Proof.Machine.execMovs d i0 s
  | .addi d a i0 => Sys2Proof.Machine.execAddi d a i0 s
  | .andi d a i0 => Sys2Proof.Machine.execAndi d a i0 s
  | .ori d a i0 => Sys2Proof.Machine.execOri d a i0 s
  | .xori d a i0 => Sys2Proof.Machine.execXori d a i0 s
  | .muli d a i0 => Sys2Proof.Machine.execMuli d a i0 s
  | .shli d a i0 => Sys2Proof.Machine.execShli d a i0 s
  | .shri d a i0 => Sys2Proof.Machine.execShri d a i0 s
  | .sari d a i0 => Sys2Proof.Machine.execSari d a i0 s
  | .cmpEq p e a b => Sys2Proof.Machine.execCmpEq p e a b s
  | .cmpNe p e a b => Sys2Proof.Machine.execCmpNe p e a b s
  | .cmpLt p e a b => Sys2Proof.Machine.execCmpLt p e a b s
  | .cmpLe p e a b => Sys2Proof.Machine.execCmpLe p e a b s
  | .cmpGt p e a b => Sys2Proof.Machine.execCmpGt p e a b s
  | .cmpGe p e a b => Sys2Proof.Machine.execCmpGe p e a b s
  | .cmpLtu p e a b => Sys2Proof.Machine.execCmpLtu p e a b s
  | .cmpGeu p e a b => Sys2Proof.Machine.execCmpGeu p e a b s
  | .pand p a b => Sys2Proof.Machine.execPand p a b s
  | .por p a b => Sys2Proof.Machine.execPor p a b s
  | .pnot p a => Sys2Proof.Machine.execPnot p a s
  | .jmov d a x y => Sys2Proof.Machine.execJmov d a x y s
  | .jmovV d a x y => Sys2Proof.Machine.execJmovV d a x y s
  | .jspl32 d a x y => Sys2Proof.Machine.execJspl32 d a x y s
  | .jspl16 d a x y => Sys2Proof.Machine.execJspl16 d a x y s
  | .jspl8 d a x y => Sys2Proof.Machine.execJspl8 d a x y s
  | .jext d a e f => Sys2Proof.Machine.execJext d a e f s
  | .jpm d x => Sys2Proof.Machine.execJpm d x s
  | .jmk d a x y => Sys2Proof.Machine.execJmk d a x y s
  | .vadd l d a b m => Sys2Proof.Machine.execVadd l d a b m s
  | .vsub l d a b m => Sys2Proof.Machine.execVsub l d a b m s
  | .vmul l d a b m => Sys2Proof.Machine.execVmul l d a b m s
  | .vfma l d a b m => Sys2Proof.Machine.execVfma l d a b m s
  | .vfms l d a b m => Sys2Proof.Machine.execVfms l d a b m s
  | .vmin l d a b m => Sys2Proof.Machine.execVmin l d a b m s
  | .vmax l d a b m => Sys2Proof.Machine.execVmax l d a b m s
  | .vaddI l d a i0 => Sys2Proof.Machine.execVaddI l d a i0 s
  | .vmulI l d a i0 => Sys2Proof.Machine.execVmulI l d a i0 s
  | .vminI l d a i0 => Sys2Proof.Machine.execVminI l d a i0 s
  | .vmaxI l d a i0 => Sys2Proof.Machine.execVmaxI l d a i0 s
  | .vcvt l d a m => Sys2Proof.Machine.execVcvt l d a m s
  | .vcvtLo l d a b m => Sys2Proof.Machine.execVcvtLo l d a b m s
  | .vcvtHi l d a b m => Sys2Proof.Machine.execVcvtHi l d a b m s
  | .vcmpEq l p a b m => Sys2Proof.Machine.execVcmpEq l p a b m s
  | .vcmpNe l p a b m => Sys2Proof.Machine.execVcmpNe l p a b m s
  | .vcmpLt l p a b m => Sys2Proof.Machine.execVcmpLt l p a b m s
  | .vcmpLe l p a b m => Sys2Proof.Machine.execVcmpLe l p a b m s
  | .vcmpGt l p a b m => Sys2Proof.Machine.execVcmpGt l p a b m s
  | .vcmpGe l p a b m => Sys2Proof.Machine.execVcmpGe l p a b m s
  | .vcmpUn l p a b m => Sys2Proof.Machine.execVcmpUn l p a b m s
  | .vcmpOrd l p a b m => Sys2Proof.Machine.execVcmpOrd l p a b m s
  | .vcmpIeq l p a b m => Sys2Proof.Machine.execVcmpIeq l p a b m s
  | .vcmpIne l p a b m => Sys2Proof.Machine.execVcmpIne l p a b m s
  | .vcmpIlt l p a b m => Sys2Proof.Machine.execVcmpIlt l p a b m s
  | .vcmpIltu l p a b m => Sys2Proof.Machine.execVcmpIltu l p a b m s
  | .vsel l d a b m => Sys2Proof.Machine.execVsel l d a b m s
  | .viadd l d a b m => Sys2Proof.Machine.execViadd l d a b m s
  | .viaddS l d a b m => Sys2Proof.Machine.execViaddS l d a b m s
  | .visub l d a b m => Sys2Proof.Machine.execVisub l d a b m s
  | .visubS l d a b m => Sys2Proof.Machine.execVisubS l d a b m s
  | .vimul l d a b m => Sys2Proof.Machine.execVimul l d a b m s
  | .vimulH l d a b m => Sys2Proof.Machine.execVimulH l d a b m s
  | .vand l d a b m => Sys2Proof.Machine.execVand l d a b m s
  | .vor l d a b m => Sys2Proof.Machine.execVor l d a b m s
  | .vxor l d a b m => Sys2Proof.Machine.execVxor l d a b m s
  | .vshl l d a b m => Sys2Proof.Machine.execVshl l d a b m s
  | .vshr l d a b m => Sys2Proof.Machine.execVshr l d a b m s
  | .vsar l d a b m => Sys2Proof.Machine.execVsar l d a b m s
  | .vandI l d a i0 => Sys2Proof.Machine.execVandI l d a i0 s
  | .vorI l d a i0 => Sys2Proof.Machine.execVorI l d a i0 s
  | .vxorI l d a i0 => Sys2Proof.Machine.execVxorI l d a i0 s
  | .vshlI l d a i0 => Sys2Proof.Machine.execVshlI l d a i0 s
  | .vshrI l d a i0 => Sys2Proof.Machine.execVshrI l d a i0 s
  | .vsarI l d a i0 => Sys2Proof.Machine.execVsarI l d a i0 s
  | .vperm l d a b m => Sys2Proof.Machine.execVperm l d a b m s
  | .vpermI l d a i0 => Sys2Proof.Machine.execVpermI l d a i0 s
  | .vredAx l d a o m => Sys2Proof.Machine.execVredAx l d a o m s
  | .vpack l d a b m => Sys2Proof.Machine.execVpack l d a b m s
  | .vunpkLo l d a m => Sys2Proof.Machine.execVunpkLo l d a m s
  | .vunpkHi l d a m => Sys2Proof.Machine.execVunpkHi l d a m s
  | .vmxqE l d a e m => Sys2Proof.Machine.execVmxqE l d a e m s
  | .vmxqB l d a b m => Sys2Proof.Machine.execVmxqB l d a b m s
  | .vrng l d m => Sys2Proof.Machine.execVrng l d m s
  | .vrngU l d m => Sys2Proof.Machine.execVrngU l d m s
  | .mlog l d a b o => Sys2Proof.Machine.execMlog l d a b o s
  | .vabs l d a m => Sys2Proof.Machine.execVabs l d a m s
  | .vneg l d a m => Sys2Proof.Machine.execVneg l d a m s
  | .vrcp l d a m => Sys2Proof.Machine.execVrcp l d a m s
  | .vrsq l d a m => Sys2Proof.Machine.execVrsq l d a m s
  | .vexp2 l d a m => Sys2Proof.Machine.execVexp2 l d a m s
  | .vlog2 l d a m => Sys2Proof.Machine.execVlog2 l d a m s
  | .vtanh l d a m => Sys2Proof.Machine.execVtanh l d a m s
  | .vmov l d a m => Sys2Proof.Machine.execVmov l d a m s
  | .vabsI l d a m => Sys2Proof.Machine.execVabsI l d a m s
  | .vnegI l d a m => Sys2Proof.Machine.execVnegI l d a m s
  | .vredAdd l d a m => Sys2Proof.Machine.execVredAdd l d a m s
  | .vredMax l d a m => Sys2Proof.Machine.execVredMax l d a m s
  | .vredMin l d a m => Sys2Proof.Machine.execVredMin l d a m s
  | .vscanAdd l d a m => Sys2Proof.Machine.execVscanAdd l d a m s
  | .vscanMax l d a m => Sys2Proof.Machine.execVscanMax l d a m s
  | .vidx l d m => Sys2Proof.Machine.execVidx l d m s
  | .tld q k => Sys2Proof.Machine.execTld q k s
  | .tldR q a => Sys2Proof.Machine.execTldR q a s
  | .tlds q k c r => Sys2Proof.Machine.execTlds q k c r s
  | .tldsR q a c r => Sys2Proof.Machine.execTldsR q a c r s
  | .loadDataReturn k id => Sys2Proof.Machine.execLoadDataReturn k id s
  | .tst d k e f => Sys2Proof.Machine.execTst d k e f s
  | .tstR d a e f => Sys2Proof.Machine.execTstR d a e f s
  | .tsts d k c r f => Sys2Proof.Machine.execTsts d k c r f s
  | .tstsR d a c r f => Sys2Proof.Machine.execTstsR d a c r f s
  | .spld q k => Sys2Proof.Machine.execSpld q k s
  | .spldR q a => Sys2Proof.Machine.execSpldR q a s
  | .spst d k f => Sys2Proof.Machine.execSpst d k f s
  | .spstR d a f => Sys2Proof.Machine.execSpstR d a f s
  | .remoteScratchpadRefusal k id => Sys2Proof.Machine.execRemoteScratchpadRefusal k id s
  | .amoAdd d k c o w t => Sys2Proof.Machine.execAmoAdd d k c o w t s
  | .amoAnd d k c o w t => Sys2Proof.Machine.execAmoAnd d k c o w t s
  | .amoOr d k c o w t => Sys2Proof.Machine.execAmoOr d k c o w t s
  | .amoXor d k c o w t => Sys2Proof.Machine.execAmoXor d k c o w t s
  | .amoMin d k c o w t => Sys2Proof.Machine.execAmoMin d k c o w t s
  | .amoMax d k c o w t => Sys2Proof.Machine.execAmoMax d k c o w t s
  | .amoSwp d k c o w t => Sys2Proof.Machine.execAmoSwp d k c o w t s
  | .cas d k c o => Sys2Proof.Machine.execCas d k c o s
  | .casD d k c o => Sys2Proof.Machine.execCasD d k c o s
  | .fst d k f => Sys2Proof.Machine.execFst d k f s
  | .fstR d a f => Sys2Proof.Machine.execFstR d a f s
  | .fldt q k t => Sys2Proof.Machine.execFldt q k t s
  | .fldtR q a t => Sys2Proof.Machine.execFldtR q a t s
  | .append d k c r t f => Sys2Proof.Machine.execAppend d k c r t f s
  | .appendR d a c r t f => Sys2Proof.Machine.execAppendR d a c r t f s
  | .seal k t => Sys2Proof.Machine.execSeal k t s
  | .span k n => Sys2Proof.Machine.execSpan k n s
  | .spanClr k => Sys2Proof.Machine.execSpanClr k s
  | .flushr a b => Sys2Proof.Machine.execFlushr a b s
  | .flushrD a b => Sys2Proof.Machine.execFlushrD a b s
  | .invr a b t => Sys2Proof.Machine.execInvr a b t s
  | .invrTt a => Sys2Proof.Machine.execInvrTt a s
  | .invalidationComplete k => Sys2Proof.Machine.execInvalidationComplete k s
  | .pref k => Sys2Proof.Machine.execPref k s
  | .prefL2 k => Sys2Proof.Machine.execPrefL2 k s
  | .fence c => Sys2Proof.Machine.execFence c s
  | .fenceSt c => Sys2Proof.Machine.execFenceSt c s
  | .xfence x y => Sys2Proof.Machine.execXfence x y s
  | .drain c => Sys2Proof.Machine.execDrain c s
  | .drainComplete k => Sys2Proof.Machine.execDrainComplete k s
  | .aiterH k a => Sys2Proof.Machine.execAiterH k a s
  | .aiterB k a h => Sys2Proof.Machine.execAiterB k a h s
  | .aiterS k a j h => Sys2Proof.Machine.execAiterS k a j h s
  | .aiterRd d k c => Sys2Proof.Machine.execAiterRd d k c s
  | .airev k m => Sys2Proof.Machine.execAirev k m s
  | .tdsc d k => Sys2Proof.Machine.execTdsc d k s
  | .tdscQ c a => Sys2Proof.Machine.execTdscQ c a s
  | .tdscW c a b => Sys2Proof.Machine.execTdscW c a b s
  | .xcall r => Sys2Proof.Machine.execXcall r s
  | .xcallR a => Sys2Proof.Machine.execXcallR a s
  | .xset d i0 => Sys2Proof.Machine.execXset d i0 s
  | .xsetR d a i0 => Sys2Proof.Machine.execXsetR d a i0 s
  | .xzero d => Sys2Proof.Machine.execXzero d s
  | .xzeroAll => Sys2Proof.Machine.execXzeroAll s
  | .xacc d a => Sys2Proof.Machine.execXacc d a s
  | .xaccSub d a => Sys2Proof.Machine.execXaccSub d a s
  | .xaccMov d a => Sys2Proof.Machine.execXaccMov d a s
  | .xdcy d i0 => Sys2Proof.Machine.execXdcy d i0 s
  | .xdcyR d a => Sys2Proof.Machine.execXdcyR d a s
  | .xspl t x => Sys2Proof.Machine.execXspl t x s
  | .xfil d => Sys2Proof.Machine.execXfil d s
  | .xwait d n => Sys2Proof.Machine.execXwait d n s
  | .xwaitAll => Sys2Proof.Machine.execXwaitAll s
  | .xwaitRelease k => Sys2Proof.Machine.execXwaitRelease k s
  | .xldm a => Sys2Proof.Machine.execXldm a s
  | .callQueueStart c => Sys2Proof.Machine.execCallQueueStart c s
  | .routineEnd c => Sys2Proof.Machine.execRoutineEnd c s
  | .escl w k a b => Sys2Proof.Machine.execEscl w k a b s
  | .esclI w k c => Sys2Proof.Machine.execEsclI w k c s
  | .escm a b => Sys2Proof.Machine.execEscm a b s
  | .escmSt a b => Sys2Proof.Machine.execEscmSt a b s
  | .ebfx a => Sys2Proof.Machine.execEbfx a s
  | .ebfxClr => Sys2Proof.Machine.execEbfxClr s
  | .cpy a => Sys2Proof.Machine.execCpy a s
  | .cpyBf a => Sys2Proof.Machine.execCpyBf a s
  | .cpyw d n => Sys2Proof.Machine.execCpyw d n s
  | .cpywAll => Sys2Proof.Machine.execCpywAll s
  | .cpywRelease k => Sys2Proof.Machine.execCpywRelease k s
  | .copyCommandStart k id => Sys2Proof.Machine.execCopyCommandStart k id s
  | .copyComplete k id => Sys2Proof.Machine.execCopyComplete k id s
  | .put a => Sys2Proof.Machine.execPut a s
  | .putH a => Sys2Proof.Machine.execPutH a s
  | .putSmp a => Sys2Proof.Machine.execPutSmp a s
  | .putm a => Sys2Proof.Machine.execPutm a s
  | .putmS a => Sys2Proof.Machine.execPutmS a s
  | .collAr a => Sys2Proof.Machine.execCollAr a s
  | .collRs a => Sys2Proof.Machine.execCollRs a s
  | .collAg a => Sys2Proof.Machine.execCollAg a s
  | .collRsf a => Sys2Proof.Machine.execCollRsf a s
  | .collw d n => Sys2Proof.Machine.execCollw d n s
  | .collwRelease k => Sys2Proof.Machine.execCollwRelease k s
  | .grp a b => Sys2Proof.Machine.execGrp a b s
  | .grpEx a => Sys2Proof.Machine.execGrpEx a s
  | .grpQ d a => Sys2Proof.Machine.execGrpQ d a s
  | .sems a b => Sys2Proof.Machine.execSems a b s
  | .semsI d i0 => Sys2Proof.Machine.execSemsI d i0 s
  | .semw a b => Sys2Proof.Machine.execSemw a b s
  | .semwI d i0 => Sys2Proof.Machine.execSemwI d i0 s
  | .semwAcquire k => Sys2Proof.Machine.execSemwAcquire k s
  | .qpush a b => Sys2Proof.Machine.execQpush a b s
  | .qpushI d q => Sys2Proof.Machine.execQpushI d q s
  | .ftick a => Sys2Proof.Machine.execFtick a s
  | .ftickW a => Sys2Proof.Machine.execFtickW a s
  | .fdisc a => Sys2Proof.Machine.execFdisc a s
  | .fdiscR a b => Sys2Proof.Machine.execFdiscR a b s
  | .fexp d a b => Sys2Proof.Machine.execFexp d a b s
  | .fexpF d a b => Sys2Proof.Machine.execFexpF d a b s
  | .fbank a b => Sys2Proof.Machine.execFbank a b s
  | .fbankRd d a c => Sys2Proof.Machine.execFbankRd d a c s
  | .emonSt a => Sys2Proof.Machine.execEmonSt a s
  | .emonSp a => Sys2Proof.Machine.execEmonSp a s
  | .emonRd d a => Sys2Proof.Machine.execEmonRd d a s
  | .rollback k => Sys2Proof.Machine.execRollback k s
  | .translationFaultReport k id => Sys2Proof.Machine.execTranslationFaultReport k id s
  | .abortCompletion k id => Sys2Proof.Machine.execAbortCompletion k id s
  | .l1Fill k id => Sys2Proof.Machine.execL1Fill k id s
  | .pageReclassify f => Sys2Proof.Machine.execPageReclassify f s
  | .invalidationArrival c f x => Sys2Proof.Machine.execInvalidationArrival c f x s
  | .appendReservation k id => Sys2Proof.Machine.execAppendReservation k id s
  | .commitAdvance p id => Sys2Proof.Machine.execCommitAdvance p id s
  | .sealAtHome k id => Sys2Proof.Machine.execSealAtHome k id s
  | .sealComplete p => Sys2Proof.Machine.execSealComplete p s
  | .replicaCopy die f => Sys2Proof.Machine.execReplicaCopy die f s
  | .migrationRequest die h tile dir l => Sys2Proof.Machine.execMigrationRequest die h tile dir l s
  | .migrationAck seq => Sys2Proof.Machine.execMigrationAck seq s
  | .migrationAckTimeout seq => Sys2Proof.Machine.execMigrationAckTimeout seq s
  | .migrationCopyDone seq => Sys2Proof.Machine.execMigrationCopyDone seq s
  | .migrationHoldExpire f => Sys2Proof.Machine.execMigrationHoldExpire f s
  | .sampleAccept k pl => Sys2Proof.Machine.execSampleAccept k pl s
  | .tapReadAccept k pl => Sys2Proof.Machine.execTapReadAccept k pl s
  | .ftickAccept k pl => Sys2Proof.Machine.execFtickAccept k pl s
  | .sweepVisit pl => Sys2Proof.Machine.execSweepVisit pl s
  | .tickComplete b => Sys2Proof.Machine.execTickComplete b s
  | .fdiscAccept k pl => Sys2Proof.Machine.execFdiscAccept k pl s
  | .cascadeDelivery pl => Sys2Proof.Machine.execCascadeDelivery pl s
  | .fbankAccept k pl => Sys2Proof.Machine.execFbankAccept k pl s
  | .fabricArrival m => Sys2Proof.Machine.execFabricArrival m s
  | .holdNotice k id => Sys2Proof.Machine.execHoldNotice k id s
  | .arrivalWaitExpire job => Sys2Proof.Machine.execArrivalWaitExpire job s
  | .fabricAck k id code sub pos => Sys2Proof.Machine.execFabricAck k id code sub pos s
  | .putAckTimeout k id => Sys2Proof.Machine.execPutAckTimeout k id s
  | .handlerStart c => Sys2Proof.Machine.execHandlerStart c s
  | .collInputArrival m => Sys2Proof.Machine.execCollInputArrival m s
  | .collRoundTimeout k id => Sys2Proof.Machine.execCollRoundTimeout k id s
  | .lostMemberNotice m => Sys2Proof.Machine.execLostMemberNotice m s
  | .collAbortTimeout k id => Sys2Proof.Machine.execCollAbortTimeout k id s
  | .flitReceive port header ok payload => Sys2Proof.Machine.execFlitReceive port header ok payload s
  | .replayRequest port seq => Sys2Proof.Machine.execReplayRequest port seq s
  | .laneRetire port lane => Sys2Proof.Machine.execLaneRetire port lane s
  | .launchPacket q ws => Sys2Proof.Machine.execLaunchPacket q ws s
  | .dispatchPass => Sys2Proof.Machine.execDispatchPass s
  | .preemptionTimeout i0 => Sys2Proof.Machine.execPreemptionTimeout i0 s
  | .contextSave i0 => Sys2Proof.Machine.execContextSave i0 s
  | .launchCompletion l => Sys2Proof.Machine.execLaunchCompletion l s
  | .classifierWindowEnd l => Sys2Proof.Machine.execClassifierWindowEnd l s
  | .debugBreak k unit => Sys2Proof.Machine.execDebugBreak k unit s
  | .debugHaltCommand c => Sys2Proof.Machine.execDebugHaltCommand c s
  | .debugResumeCommand c => Sys2Proof.Machine.execDebugResumeCommand c s
  | .debugAccessCommand => Sys2Proof.Machine.execDebugAccessCommand s
  | .featureNegotiation => Sys2Proof.Machine.execFeatureNegotiation s
  | .attestation => Sys2Proof.Machine.execAttestation s
  | .vfApertureFlush v => Sys2Proof.Machine.execVfApertureFlush v s
  | .hostBarAccess fn write off n bytes => Sys2Proof.Machine.execHostBarAccess fn write off n bytes s
  | .queueControlWrite q word val fn => Sys2Proof.Machine.execQueueControlWrite q word val fn s
  | .configurationWordWrite val => Sys2Proof.Machine.execConfigurationWordWrite val s
  | .capWrite val => Sys2Proof.Machine.execCapWrite val s
  | .powerCapRamp => Sys2Proof.Machine.execPowerCapRamp s
  | .uncorrectableError src die addr req id => Sys2Proof.Machine.execUncorrectableError src die addr req id s
  | .correctedSummary src die addr count => Sys2Proof.Machine.execCorrectedSummary src die addr count s
  | .monitorSample m v => Sys2Proof.Machine.execMonitorSample m v s
  | .managementReset => Sys2Proof.Machine.execManagementReset s
  | .quiesce => Sys2Proof.Machine.execQuiesce s
  | .pcieLinkLoss => Sys2Proof.Machine.execPcieLinkLoss s
  | .powerUp => Sys2Proof.Machine.execPowerUp s
  | .powerLoss => Sys2Proof.Machine.execPowerLoss s
  | .registerWrite off val => Sys2Proof.Machine.execRegisterWrite off val s
  | .voidBundle => Sys2Proof.Machine.execVoidBundle s
  | .unassignedOpcode => Sys2Proof.Machine.execUnassignedOpcode s
  | .callQueueEntryEnd c => Sys2Proof.Machine.execCallQueueEntryEnd c s
  | .storePerformAtHome k id => Sys2Proof.Machine.execStorePerformAtHome k id s

end Sys2Proof.Machine
end

