-- ==== Sys2Proof/Machine/Clock.lean ====
section
/-!
DEFINITION. Sys2Proof/Machine/Clock.lean: the moves of the machine: a core clock, in which the truss runs a
micro-word and up to two bundles issue (R101 to R103), and the moves that the engines and the memory
path make of their own, each when its rule allows it.
-/

namespace Sys2Proof.Machine

/-- Go on with the next state. -/
def andThen (r : Host.Outcome State Fault Refusal) (f : State → Host.Outcome State Fault Refusal) :
    Host.Outcome State Fault Refusal :=
  match r with
  | .next s => f s
  | .fault e => .fault e
  | .refused e => .refused e

/-- A meaning over the machine that neither traps nor holds, as a move. -/
def run (m : M Unit) (s : State) : Host.Outcome State Fault Refusal := finish s m

/-- The state with nothing in issue. -/
def State.idle (s : State) : State := { s with issue := Issue.idle }

/-! ### One bundle (R22, R25, R77, R99, R230) -/

/-- The slots of a bundle of context `k` in their order, until one holds, traps, ends the context or rewinds it. -/
def runSlots (k : Nat) (b : Bundle) (c0 : Ctx) : List (Nat × Slot) → State → Host.Outcome State Fault Refusal
  | [], s => .next s
  | x :: t, s =>
    andThen (exec x.2.ins { s with focus := k, issue := { b.forSlot c0 x with late := s.issue.late } }) fun s1 =>
      if s1.issue.held || s1.issue.trap.isSome || !(s1.ctx k).finishes then .next s1 else runSlots k b c0 t s1

/-- The precise trap of a slot that meets `s`, the state as the bundle begins; none at all where it holds. -/
def slotTrap (k : Nat) (b : Bundle) (c0 : Ctx) (s : State) (x : Nat × Slot) : Option (Option Trap) :=
  match c0.slotBar x with
  | some r => some (some r)
  | none =>
    if !c0.takes x.2 then some none
    else match exec x.2.ins { s with focus := k, issue := b.forSlot c0 x } with
      | .next s1 => if s1.issue.held then none else some (s1.issue.trap.filter fun r => r.precise)
      | _ => some none

/-- The slots of a bundle by lane: C, A, S, V, W, X, E, J (R77). -/
def byLane (xs : List (Nat × Slot)) : List (Nat × Slot) :=
  (List.range 8).flatMap fun l => xs.filter fun x => x.2.ins.lane.map Lane.code == some l

/-- The precise trap among slots that each meet `s`, none at all while one of them holds: the first in lane order, so that
the order of the slots is not seen (R48); of the slots that meet the same class and subcode it names the lowest position
(log entry 19). -/
def firstTrap (k : Nat) (b : Bundle) (c0 : Ctx) (s : State) (xs : List (Nat × Slot)) : Option (Option Trap) :=
  ((byLane xs).mapM (slotTrap k b c0 s)).map fun rs =>
    let ts := rs.filterMap id
    ts.head?.map fun t =>
      { t with slot := ((ts.filter fun r => r.cls == t.cls && r.sub == t.sub).map Trap.slot).foldl min t.slot }

/-- The end of a bundle of context `k` whose slots have run; a fault that one met in service ends the context with its next
address (R226, R231). -/
def endBundle (k : Nat) (c0 : Ctx) (b : Bundle) : M Unit := do
  finishBundle k c0 b
  match (← get).issue.late with
  | some t => takeTrap k t
  | none => pure ()

/-- The bundle of context `k` issues from state `s`: none where it is held.  A precise trap is taken from `s`, so that the
bundle has no effect; one that is not precise leaves what the bundle did. -/
def issueBundle (k : Nat) (b : Bundle) (s : State) : Option (Host.Outcome State Fault Refusal) :=
  let c0 := s.ctx k
  let s0 := { s.setCtx k (c0.begin (s.core (coreOf k)).clk b.words) with issue := Issue.idle }
  let trapped (t : Trap) : Option (Host.Outcome State Fault Refusal) :=
    match firstTrap k b c0 s0 b.slots with
    | none => none
    | some r => some (run (takeTrap k (r.getD t)) { s with focus := k })
  if b.slots.isEmpty then some (exec .voidBundle { s with focus := k, issue := { Issue.idle with words := b.words } })
  else if b.slots.any fun x => (c0.slotBar x).isSome then trapped (Trap.mk' clsInvalid 0)
  else match runSlots k b c0 (issueOrder (b.taken c0)) s0 with
    | .next s1 =>
      if s1.issue.held then none
      else match s1.issue.trap with
        | some t => if t.precise then trapped t else some (.next s1)
        | none => if (s1.ctx k).finishes then some (run (endBundle k c0 b) s1) else some (.next s1)
    | r => some r

/-- The effects that context `k` commits as its bundle issues (R77, R102, R219). -/
def commitNow (k : Nat) (s : State) : Host.Outcome State Fault Refusal :=
  run (commitAtOnce k ((s.ctx k).fl.commits.length + 1)) s

/-! ### Which bundles issue (R100 to R103) -/

/-- What a context offers in a clock: nothing; the trap of a bundle that fails its decode checks; a bundle that
is ready, with its lanes, and the outcome of issuing it. -/
inductive Offer where
  | wait
  | bad (r : Host.Outcome State Fault Refusal)
  | ready (lanes : List Nat) (r : Host.Outcome State Fault Refusal)

/-- The trap of a bundle that fails its decode checks (R25, R36). -/
def badBundle (k : Nat) (b : BadBundle) (s : State) : Host.Outcome State Fault Refusal :=
  match b with
  | .trap t => run (takeTrap k t) { s with focus := k }
  | .unassigned p => exec .unassignedOpcode { s with focus := k, issue := { Issue.idle with pos := p } }

/-- What context `k` offers.  A breakpoint at its next bundle, or a watchpoint that the bundle meets, halts the core
before it issues (R232).  A bundle that will trap as it issues, for an invalid register or a starved queue, is offered as a ready
one is: it competes for the clock, and the others' starve counts rise (log entry 95). -/
noncomputable def offer (k : Nat) (s : State) : Offer :=
  let x := s.core (coreOf k)
  if !s.awake k then .wait
  else match nextBundle k s with
    | .error (.stop f) => .bad (.fault f)
    | .error _ => .wait
    | .ok (.error e, _) => .bad (badBundle k e s)
    | .ok (.ok b, _) =>
      if !b.clear (s.ctx k) x then .wait
      else
        let met := if x.resumed = some (k % 4) then none else s.breakpointAt k
        match met with
        | some u => .ready [] (exec (.debugBreak k u) { s with focus := k })
        | none =>
          match issueBundle k b s with
          | none => .wait
          | some (.next s1) =>
            match (if x.resumed = some (k % 4) then none else s1.watchHit k (s.ctx k).fl.seq ((b.taken (s.ctx k)).map fun x => x.2.ins)) with
            | some u => .ready [] (exec (.debugBreak k u) { s with focus := k })
            | none => .ready b.lanes (andThen (commitNow k s1.idle) fun s2 => .next s2.idle)
          | some r => .ready b.lanes r

def Offer.lanes : Offer → Option (List Nat)
  | .ready l _ => some l
  | _ => none

def Offer.outcome (s : State) : Offer → Host.Outcome State Fault Refusal
  | .ready _ r => r
  | .bad r => r
  | .wait => .next s

def Offer.isBad : Offer → Bool
  | .bad _ => true
  | _ => false

/-- The four contexts of a core. -/
def ctxsOf (c : Nat) : List Nat := [4 * c, 4 * c + 1, 4 * c + 2, 4 * c + 3]

/-- One more clock in which each of the contexts was ready and did not issue (R101). -/
def starveMore (ks : List Nat) (s : State) : State :=
  ks.foldl (fun s k => s.setCtx k { s.ctx k with starve := (s.ctx k).starve + 1 }) s

/-- The primary context: the lowest whose count is 64 or more, else the lowest ready one (R101). -/
def primaryOf (s : State) (ready : List (Nat × List Nat)) : Option (Nat × List Nat) :=
  match findBy (fun e => decide (64 ≤ (s.ctx e.1).starve)) ready with
  | some e => some e
  | none => ready.head?

/-- The merged context: the lowest other ready one whose lanes are free of the primary's (R101). -/
def mergedOf (p : Nat × List Nat) (ready : List (Nat × List Nat)) : Option (Nat × List Nat) :=
  findBy (fun e => e.1 != p.1 && !e.2.any fun l => p.2.contains l) ready

/-- The bundles of core `c` that issue in this clock, after the traps of bundles that fail their checks (R101, R102).  A merged
bundle that the primary's own effects leave not ready does not issue, no other takes its place, and its starve count rises (log
entry 95). -/
noncomputable def issueCore (c : Nat) : Nat → State → Host.Outcome State Fault Refusal
  | 0, s => .next s
  | n + 1, s =>
    let os := (ctxsOf c).map fun k => (k, offer k s)
    match findBy (fun e => e.2.isBad) os with
    | some e => andThen (e.2.outcome s) fun s1 => issueCore c n s1.idle
    | none =>
      let ready := os.filterMap fun e => e.2.lanes.map fun l => (e.1, l)
      match primaryOf s ready with
      | none => .next s
      | some p =>
        andThen (((os.find? fun e => e.1 == p.1).map fun e => e.2.outcome s).getD (.next s)) fun s1 =>
          let rest := (ready.map (·.1)).filter (· != p.1)
          match mergedOf p ready with
          | none => .next (starveMore rest s1.idle)
          | some m =>
            match offer m.1 s1.idle with
            | .ready _ r => andThen r fun s2 => .next (starveMore (rest.filter (· != m.1)) s2.idle)
            | _ => .next (starveMore rest s1.idle)

/-! ### A core clock -/

/-- The truss of core `c` runs the next micro-word of its routine, when the array or the gather unit is free (R282,
R285). -/
def microStep (c : Nat) (s : State) : Host.Outcome State Fault Refusal :=
  let x := s.core c
  match x.run with
  | none => .next s
  | some r =>
    match r.call.kind with
    | .routine .. =>
      if r.done || decide (x.clk < r.freeAt) then .next s
      else match decodeMicro (x.store.get 0 r.pc).toNat with
        | .ok i => andThen (exec i { s with focus := r.call.ctx, issue := Issue.idle }) fun s1 => .next s1.idle
        | .error _ => .next (s.setCore c { x with run := some { r with done := true } })
    | _ => .next s

/-- The PHASEs that wait on core `c`, in this clock's bundles too, start where they may (R120, R132). -/
def startPhases (c : Nat) (s : State) : Host.Outcome State Fault Refusal :=
  (ctxsOf c).foldl (fun r k => andThen r fun s =>
    let x := s.ctx k
    match findBy (fun w => match w with | .phase _ => true | _ => false) (x.wait :: x.more) with
    | some (.phase n) => run (startPhase k n) s
    | _ => .next s) (.next s)

/-- The PHASE of core `c` ends at its clock, before anything else of that clock (R132). -/
def endPhase (c : Nat) (s : State) : Host.Outcome State Fault Refusal :=
  match (s.core c).phase with
  | some p => if p.endAt ≤ (s.core c).clk then andThen (exec (.phaseEnd c) s) fun s1 => .next s1.idle else .next s
  | none => .next s

/-- One clock of core `c`. -/
noncomputable def clockCore (c : Nat) (s : State) : Host.Outcome State Fault Refusal :=
  andThen (endPhase c (s.setCore c (s.core c).applyEscl)) fun s1 =>
  andThen (microStep c s1) fun s2 =>
  andThen (issueCore c 5 s2) fun s3 =>
  andThen (startPhases c s3) fun s4 =>
    .next (s4.setCore c { s4.core c with clk := (s4.core c).clk + 1 })

/-! ### The moves that are open -/

/-- A move of the machine: a clock of a core; an event; a commit of a context; a fabric command taken up or ended; the
engine write at a place of the list performed for every agent (R81). -/
inductive Move where
  | clock (c : Nat)
  | event (i : Instr)
  | commit (k : Nat)
  | startFab (k id : Nat)
  | endColl (k id : Nat)
  | perform (n : Nat)
  deriving DecidableEq, Repr

def iff' {α : Type} (b : Bool) (x : α) : List α := if b then [x] else []

/-- Does an engine command wait for a page on its way (R249)? -/
def State.awaitsPage (s : State) (k : Nat) (cls : BitVec 3) (id : Nat) : Bool :=
  s.mp.migs.any fun m => m.askers.contains (.cmd k cls id) && m.stage != .holding

/-- The end of what context `k` waits for, if it has come. -/
noncomputable def State.waitMoves (s : State) (k : Nat) : List Move :=
  let c := s.ctx k
  if !c.live then []
  else match c.wait with
    | .drain => iff' (s.drained k) (.event (.drainComplete k))
    | .xwait _ n => iff' (decide (c.fl.ownCalls ≤ n)) (.event (.xwaitRelease k))
    | .cpyw _ n => iff' (decide (c.fl.ownCopies ≤ n)) (.event (.cpywRelease k))
    | .collw _ n => iff' (decide (c.fl.ownFabs ≤ n)) (.event (.collwRelease k))
    | .semw _ _ => iff' (s.semReady k) (.event (.semwAcquire k))
    | .park => iff' (c.more.isEmpty && c.fl.loads.isEmpty && c.fl.commits.isEmpty) (.event (.parkComplete k))
    | .halt => iff' (c.more.isEmpty && s.quiet k) (.event (.haltComplete k))
    | .join g n => iff' (s.joinOpen k g n) (.event (.joinRelease k))
    | .rewind => iff' (s.rewindReady k) (.event (.rollback k))
    | _ => []

/-- Is a load of a peer scratchpad refused (R191)? -/
def State.peerRefused (s : State) (ld : Load) : Bool :=
  match ld.kind with
  | .peer core off =>
    (s.core core).moving off (if ld.q = 0 then 8 else 128) || decide ((s.core core).scrSize ≤ off)
  | _ => false

/-- The moves of a load in flight (R110, R247, R256). -/
noncomputable def State.loadMoves (s : State) (k : Nat) (ld : Load) : List Move :=
  match ld.got, ld.kind with
  | some _, _ => iff' (!s.fops.any fun f => f.kind == .read ld.id) (.event (.loadDataReturn k ld.id))
  | none, .taps h cs m f _ _ =>
    iff' (s.tapsFault k h cs (tapWords m f ld.q)).isSome (.event (.translationFaultReport k (2 * ld.id)))
  | none, .elems .. =>
    if s.loadReady k ld then
      .event (.loadDataReturn k ld.id) :: iff' (!ld.strong) (.event (.l1Fill k ld.id))
    else []
  | none, _ =>
    if s.loadReady k ld then
      [.event (if s.peerRefused ld then .remoteScratchpadRefusal k ld.id else .loadDataReturn k ld.id)]
    else []

/-- May a running copy or export command complete (R354, R368)? -/
def State.copyEnds (s : State) (k : Nat) (r : CopyRun) : Bool :=
  r.stage == .running && !s.awaitsPage k 3 r.id && (match r.cpy, r.exp, r.resv with
    | some _, _, _ => true
    | none, some _, none => r.code != 0
    | none, some _, some _ => !s.fops.any fun f => f.kind == .taps r.id
    | none, none, _ => false)

/-- The moves of what context `k` has under way. -/
noncomputable def State.ctxMoves (s : State) (k : Nat) : List Move :=
  let c := s.ctx k
  s.waitMoves k ++ c.fl.loads.flatMap (s.loadMoves k)
    ++ (c.fl.gate.filter fun g => (s.effFault k g.eff).isSome).map
        (fun g => .event (.translationFaultReport k (2 * g.seq + 1)))
    ++ iff' (s.commitOpen k) (.commit k)
    ++ c.fl.copies.flatMap (fun r =>
        iff' (s.copyReady k r) (.event (.copyCommandStart k r.id)) ++ iff' (s.copyEnds k r) (.event (.copyComplete k r.id)))
    ++ c.fl.fabs.flatMap (fun r =>
        iff' (s.fabReady k r && !s.awaitsPage k 4 r.id) (.startFab k r.id)
          ++ iff' (r.ready && !s.awaitsPage k 4 r.id) (.endColl k r.id))

/-- The moves of core `c` beside its clock. -/
noncomputable def State.coreMoves (s : State) (c : Nat) : List Move :=
  let x := s.core c
  let head := match x.run, x.callQ with
    | none, e :: _ => iff' (decide (e.issued + 2 ≤ x.clk) && decide (x.lastEnd < x.clk) && s.engineReady e.ctx e.seq 2)
        (Move.event (.callQueueStart c))
    | some r, _ =>
      if x.clk < r.freeAt then []
      else (match r.call.kind with
        | .routine .. => iff' r.done (.event (.routineEnd c))
        | _ => iff' (!s.awaitsPage r.call.ctx 2 r.call.id) (.event (.callQueueEntryEnd c)))
    | none, [] => []
  let arr := match x.arrQ with
    | (l, _, _) :: _ =>
      iff' (!(s.launch l).running || (ctxsOf c).any fun k => (s.ctx k).st == .dormant && (s.ctx k).launch == l)
        (Move.event (.handlerStart c))
    | [] => []
  head ++ arr

/-- The move of a committed access on its way (R85, R270, R274). -/
noncomputable def State.outMove (s : State) (o : OutOp) : List Move :=
  iff' (s.outReady o) (.event (match o.eff with
    | .append .. => .appendReservation o.ctx o.id
    | .fexp .. => .appendReservation o.ctx o.id
    | .seal .. => .sealAtHome o.ctx o.id
    | _ => .storePerformAtHome o.ctx o.id))

/-- The acceptance of a FILT operation at a planer, if it is the next there of its context (R330, R331). -/
noncomputable def State.fopMove (s : State) (f : FOp) (pl : Nat) : List Move :=
  if s.nextFOp f.ctx pl != some f || !s.fopReady f then []
  else match f.kind with
    | .samples _ => [.event (.sampleAccept f.ctx pl)]
    | .tick _ =>
      iff' (!(s.bankParams pl f.bank).tick || decide (((s.planer pl).sweeps.filter fun w => w.bank == f.bank).length < 8))
        (.event (.ftickAccept f.ctx pl))
    | .discard .. => [.event (.fdiscAccept f.ctx pl)]
    | .bank _ => [.event (.fbankAccept f.ctx pl)]
    | .read _ => [.event (.tapReadAccept f.ctx pl)]
    | .taps id =>
      match s.copyOf f.ctx id with
      | none => [.event (.tapReadAccept f.ctx pl)]
      | some c =>
        let go := match c.resv, c.exp with
          | some _, some e => s.exportTurn pl f.ref c e
          | _, _ => c.code != 0
        iff' go (.event (.tapReadAccept f.ctx pl))

/-- Is the page with state word `p` at the end of its seal (R274)? -/
def State.sealEnds (s : State) (p : Nat) : Bool :=
  let w : W64 := BitVec.ofNat 64 (s.seenN p 8)
  wordCommit w == wordTail w && (wordApst w == 1 || wordApst w == 2)
    && (match findBy (fun v => v.who == .seal p) s.mp.pend with | some v => s.invalReady v | none => true)

/-- May the copy of a migration, and the invalidation that goes with it, end (R251)? -/
def State.migEnds (s : State) (m : Mig) : Bool :=
  m.stage == .copying && (match s.migInval m with
    | some v => s.invalReady v && (!m.toHost || s.migRoom 1)
    | none => !m.toHost)

/-- The context that an invalidation is one of. -/
def Inval.ctx? (v : Inval) : Option Nat := match v.who with | .ctx k => some k | _ => none

/-- The moves of the memory path. -/
noncomputable def State.pathMoves (s : State) : List Move :=
  s.mp.outs.flatMap s.outMove
    ++ (s.mp.resvs.filter fun r => !r.written && r.data.length == r.len).map (fun r => .event (.commitAdvance r.page r.id))
    ++ ((dedup (s.mp.seals.map SealRun.page)).filter s.sealEnds).map (fun p => .event (.sealComplete p))
    ++ (s.mp.replicas.filter fun r => !r.ready).map (fun r => .event (.replicaCopy r.die r.home))
    ++ s.mp.invals.map (fun i => .event (.invalidationArrival i.1 i.2.1 i.2.2))
    ++ (s.mp.migs.filter s.migOpen).map (fun m => .event (.migrationRequest 0 m.handle.toNat m.tile m.toHost m.launch))
    ++ (s.mp.migs.filter s.migEnds).map (fun m => .event (.migrationCopyDone m.seq))
    ++ ((s.mp.pend.filter s.invalReady).filterMap Inval.ctx?).map (fun k => .event (.invalidationComplete k))
    ++ (List.range s.mp.unperf.length).map .perform

/-- The moves of the planers. -/
noncomputable def State.planerMoves (s : State) : List Move :=
  s.fops.flatMap (fun f => f.todo.flatMap (s.fopMove f))
    ++ s.planers.flatMap (fun e => iff' (!e.2.sweeps.isEmpty) (.event (.sweepVisit e.1))
        ++ iff' (!e.2.casc.isEmpty) (.event (.cascadeDelivery e.1)))
    ++ (dedup ((s.ticks.filter s.tickDone).map Tick.bank)).map (fun b => .event (.tickComplete b))

/-- The moves of the distributor. -/
noncomputable def State.distMoves (s : State) : List Move :=
  iff' (!s.passResult.1.isEmpty || s.passResult.2.isSome) (.event .dispatchPass)
    ++ (s.dist.insts.filter fun e => s.saveReady e.1).map (fun e => .event (.contextSave e.1))
    ++ (s.dist.launches.filter fun e => s.launchOver e.1).map (fun e => .event (.launchCompletion e.1))

/-- Cores with something to do in a clock. -/
def State.busyCores (s : State) : List Nat :=
  dedup ((s.ctxs.filter fun e => e.2.live).map (fun e => coreOf e.1)
    ++ (s.cores.filter fun e => !e.2.callQ.isEmpty || e.2.run.isSome || e.2.phase.isSome || !e.2.esclQ.isEmpty).map (·.1))

/-- Every move that is open. -/
noncomputable def State.moves (s : State) : List Move :=
  s.busyCores.map .clock ++ s.ctxKeys.flatMap s.ctxMoves ++ (s.cores.map (·.1)).flatMap s.coreMoves ++ s.pathMoves
    ++ s.planerMoves ++ s.distMoves

/-- The pending write at a place of the list is performed for every agent (R81). -/
def performAt (n : Nat) (ws : List EWrite) : List EWrite :=
  match ws[n]? with
  | some w => settle (fun v => v == w) [] ws
  | none => ws

/-- Make a move. -/
noncomputable def makeMove (m : Move) (s : State) : Host.Outcome State Fault Refusal :=
  match m with
  | .clock c => clockCore c s
  | .event i => andThen (exec i s) fun s1 => .next s1.idle
  | .commit k => run (commitHead k) s
  | .startFab k id => run (startFab k id) s
  | .endColl k id => run (endColl k id) s
  | .perform n => .next { s with mp := { s.mp with unperf := performAt n s.mp.unperf } }

/-- The move taken: the only one, or a free choice among several (log entry 1). -/
noncomputable def State.chosen (s : State) : Option Move :=
  match s.moves with
  | [] => none
  | [m] => some m
  | ms => ms[Config.pick s.tick % ms.length]?

/-! ### What the outside may send (R377 to R399, R404, R433 to R452) -/

/-- Events that come from outside the device, or from its clocks of real time. -/
def external : Instr → Bool
  | .fabricArrival _ => true
  | .holdNotice .. => true
  | .arrivalWaitExpire _ => true
  | .fabricAck .. => true
  | .putAckTimeout .. => true
  | .collInputArrival _ => true
  | .collRoundTimeout .. => true
  | .lostMemberNotice _ => true
  | .collAbortTimeout .. => true
  | .flitReceive .. => true
  | .replayRequest .. => true
  | .laneRetire .. => true
  | .launchPacket .. => true
  | .preemptionTimeout _ => true
  | .classifierWindowEnd _ => true
  | .debugHaltCommand _ => true
  | .debugResumeCommand _ => true
  | .debugAccessCommand => true
  | .featureNegotiation => true
  | .attestation => true
  | .vfApertureFlush _ => true
  | .hostBarAccess .. => true
  | .queueControlWrite .. => true
  | .configurationWordWrite _ => true
  | .capWrite _ => true
  | .powerCapRamp => true
  | .uncorrectableError .. => true
  | .correctedSummary .. => true
  | .monitorSample .. => true
  | .managementReset => true
  | .quiesce => true
  | .pcieLinkLoss => true
  | .powerUp => true
  | .powerLoss => true
  | .registerWrite .. => true
  | .migrationRequest .. => true
  | .migrationAck _ => true
  | .migrationAckTimeout _ => true
  | .migrationHoldExpire _ => true
  | .abortCompletion .. => true
  | _ => false

end Sys2Proof.Machine
end

