-- ==== Sys2Proof/Machine/Step.lean ====
section
/-!
DEFINITION. Sys2Proof/Machine/Step.lean: one step of the machine: the oldest event from outside, else the move chosen among
those that are open; and a state that is about to run a given instruction.
-/

namespace Sys2Proof.Machine

/-- One step.  Every step counts one tick. -/
noncomputable def step (s : State) : Host.Outcome State Fault Refusal :=
  match s.inputs with
  | i :: rest =>
    let s1 := { s with tick := s.tick + 1, inputs := rest }
    if external i then andThen (exec i s1) fun s2 => .next s2.idle else .next s1
  | [] =>
    match s.chosen with
    | none => .next { s with tick := s.tick + 1 }
    | some m => makeMove m { s with tick := s.tick + 1 }

/-! ### A state that runs one instruction next (log entry 8) -/

/-- Where the launch of `withFetchWord` has its kernel image. -/
def fetchImage : Nat := 0x10000

/-- The slots of a bundle that holds one slot word beside voids: last where the word carries the stop bit. -/
def fetchBundle (w : Nat) : List Nat :=
  if stopBit w then [0, 0, 0, w] else [w, 0, 0, 0x80000000]

/-- The launch, as its packet and image would give it. -/
def fetchLaunch : Launch := { Launch.none with img := fetchImage, codeSize := 16, priv := true, n := 1, need := 1, running := true }

def fetchInst : Inst := { Inst.none with launch := 1, need := 1, placed := true }

/-- The state after a launch has placed one core, with nothing else under way: context 0 of core 0 as given. -/
def State.launched (s : State) (c : Ctx) (x : Core) : State :=
  { s with inputs := [], focus := 0, issue := Issue.idle, ctxs := [(0, c)], cores := [(0, x)], mp := MemPath.empty, fops := [],
           planers := [], ticks := [],
           dist := { s.dist with queues := [], resumes := [], launches := [(1, fetchLaunch)], insts := [(1, fetchInst)] } }

/-- Context 0 of core 0 started at the launch's entry. -/
def fetchCtx : Ctx := { Ctx.free with launch := 1, inst := 1, atLaunch := true }.start fetchLaunch 0 0 0

/-- A call of a routine that stands at micro-word 64. -/
def fetchCall : Call := { id := 0, ctx := 0, seq := 0, kind := .routine 0 0 (List.replicate 8 0) 0 [0], busy := 0, issued := 0 }

/-- The truss about to run the micro-word at 64. -/
def fetchRun : Run :=
  { call := fetchCall, pc := 64, loops := [], ex := 0, rest := [], blk := 0, freeAt := 0, refused := false, starved := false,
    done := false }

/-- `s` with the instruction whose bits are `w` where the machine fetches next: a slot word in the bundle at the entry of a
launch, or a micro-word under a routine that runs. -/
def State.withFetchWord (s : State) (nbits w : Nat) : State :=
  if nbits = 64 then
    s.launched { Ctx.free with st := .halted, launch := 1, inst := 1, fl := { Flight.empty with calls := [0] } }
      { Core.clear with store := [(64, BitVec.ofNat 64 w)], run := some fetchRun }
  else
    let t := s.launched fetchCtx Core.clear
    { t with mem := Mem.putN s.mem (fetchImage + 0x400) (packNat 32 (fetchBundle (w % 2 ^ 32))) 16 }

end Sys2Proof.Machine
end

