-- ==== Sys2Proof/Safety.lean ====
section
/-!
DEFINITION. Sys2Proof/Safety.lean: what counts as a safe step and a safe run; and the words in which statements about one
instruction are made: what an operand holds, which entry a pop of register 31 takes, whether the shadow log has room,
and a context with one more register written.
-/

namespace Sys2Proof.Machine

/-- The invariant of the machine's data: memory is in its canonical form. -/
def State.Inv (s : State) : Prop := Mem.wf s.mem = true

/-- The machine goes on, and keeps its invariant. -/
def SafeStep (s : State) : Prop := ∃ t, step s = .next t ∧ t.Inv

/-- A run of `n` steps, each of them safe. -/
def SafeRun : Nat → State → Prop
  | 0, s => s.Inv
  | n + 1, s => ∃ t, step s = .next t ∧ t.Inv ∧ SafeRun n t

/-! ### What operands hold (R99, R108, R147) -/

/-- A register of the C, A, E or X file is valid and holds a value. -/
def Ctx.HoldsC (c : Ctx) (n : BitVec 5) (v : W32) : Prop := c.regC n.toNat = ⟨true, v⟩
def Ctx.HoldsA (c : Ctx) (n : BitVec 5) (v : W64) : Prop := c.regA n.toNat = ⟨true, v⟩
def Ctx.HoldsE (c : Ctx) (n : BitVec 5) (v : W64) : Prop := c.regE n.toNat = ⟨true, v⟩
def Ctx.HoldsX (c : Ctx) (n : BitVec 5) (v : W64) : Prop := c.regX n.toNat = ⟨true, v⟩
/-- An address iterator is valid and is `k`. -/
def Ctx.HoldsK (c : Ctx) (n : BitVec 3) (k : Iter) : Prop := c.iter n.toNat = k ∧ k.valid = true
/-- A predicate is valid and is true or false as `b` says. -/
def Ctx.HoldsP (c : Ctx) (n : BitVec 4) (b : Bool) : Prop := c.pred n.toNat = ⟨true, if b then 1 else 0⟩
/-- A mask register is valid and is `m`. -/
def Ctx.HoldsM (c : Ctx) (n : BitVec 3) (m : TReg 128) : Prop := c.mask n.toNat = m ∧ m.valid = true
/-- A tile register is valid and is `t`. -/
def Ctx.HoldsT (c : Ctx) (n : BitVec 5) (t : TReg 8192) : Prop := c.regT n.toNat = t ∧ t.valid = true

/-! ### Pops of register 31 (R24, R111, R112) -/

/-- A pop of a queue takes the filled entry `e` and leaves `q'`: entries popped before it are kept for a replay, and it is
kept too where it is older than the last mark. -/
def QueueGives {w : Nat} (now bundle : Nat) (q : List (QEnt w)) (e : QEnt w) (q' : List (QEnt w)) : Prop :=
  ∃ before rest, q = before ++ e :: rest ∧ (∀ k ∈ before, k.kept = true) ∧ e.kept = false ∧ e.gated = false
    ∧ e.bundle ≠ bundle ∧ e.data ≠ none ∧ e.readyAt ≤ now
    ∧ q' = before ++ (if e.old then { e with kept := true } :: rest else rest)

/-- The pop of the S queue that a slot with the source fields `fs` makes: `v` popped and `c'` left; nothing where no field
is 31. -/
def Ctx.PopsS (c : Ctx) (fs : List (BitVec 5)) (v : W64) (c' : Ctx) : Prop :=
  if 31 ∈ fs then
    ∃ e q, QueueGives c.fl.now c.fl.bundle c.queues.qs e q ∧ e.data = some v
      ∧ c' = { c with queues := { c.queues with qs := q } }
  else v = 0 ∧ c' = c

/-- The pop of a lane's queue that a slot with the source fields `fs` makes. -/
def Ctx.PopsV (c : Ctx) (l : VW) (fs : List (BitVec 5)) (v : TReg 1024) (c' : Ctx) : Prop :=
  if 31 ∈ fs then
    match l with
    | .v => ∃ e q, QueueGives c.fl.now c.fl.bundle c.queues.qv e q ∧ e.reg = v
        ∧ c' = { c with queues := { c.queues with qv := q } }
    | .w => ∃ e q, QueueGives c.fl.now c.fl.bundle c.queues.qw e q ∧ e.reg = v
        ∧ c' = { c with queues := { c.queues with qw := q } }
  else v = TReg.invalid ∧ c' = c

/-- An S source with `q` popped holds `v`. -/
def Ctx.HoldsS (c : Ctx) (q : W64) (n : BitVec 5) (v : W64) : Prop :=
  if n = 31 then v = q else c.regS n.toNat = ⟨true, v⟩

/-- A register of a V or W lane, by name. -/
def Ctx.regL (c : Ctx) (l : VW) (n : BitVec 5) : TReg 1024 :=
  match l with
  | .v => c.regV n.toNat
  | .w => c.regW n.toNat

/-- A V or W source with `q` popped is the register `r`. -/
def Ctx.HoldsV (c : Ctx) (l : VW) (q : TReg 1024) (n : BitVec 5) (r : TReg 1024) : Prop :=
  if n = 31 then r = q else c.regL l n = r ∧ r.valid = true

/-- The old destination of a V or W form: zeros, untagged, where it is invalid (R156). -/
def Ctx.oldL (c : Ctx) (l : VW) (n : BitVec 5) : TReg 1024 :=
  if (c.regL l n).valid then c.regL l n else TReg.invalid

/-! ### The shadow log (R221, R226) -/

/-- May a register be written: in service, saved since the last mark already, or fewer than 64 entries in the log? -/
def Ctx.Room (c : Ctx) (v : Saved) : Prop :=
  c.frame.isSome = true ∨ (∃ o ∈ c.seg.log, o.tag = v.tag) ∨ c.seg.log.length < 64

/-- The context once an old value is in the log. -/
def Ctx.logged (c : Ctx) (v : Saved) : Ctx :=
  if c.frame.isSome || c.seg.log.any (fun o => o.tag == v.tag) then c
  else { c with seg := { c.seg with log := c.seg.log ++ [v] } }

/-- What a write of a register puts in the log. -/
def Ctx.savedC (c : Ctx) (n : Nat) : Saved := .c n (c.regC n)
def Ctx.savedA (c : Ctx) (n : BitVec 5) : Saved := .a n.toNat (c.regA n.toNat)
def Ctx.savedE (c : Ctx) (n : BitVec 5) : Saved := .e n.toNat (c.regE n.toNat)
def Ctx.savedX (c : Ctx) (n : BitVec 5) : Saved := .x n.toNat (c.regX n.toNat)
def Ctx.savedS (c : Ctx) (n : BitVec 5) : Saved := .s (physReg c.sq.rb n.toNat) (c.regS n.toNat)
def Ctx.savedK (c : Ctx) (n : BitVec 3) : Saved := .k n.toNat (c.iter n.toNat)
def Ctx.savedP (c : Ctx) : Saved := .p c.files.p
def Ctx.savedL (c : Ctx) (l : VW) (n : BitVec 5) : Saved :=
  match l with
  | .v => .v (physReg c.sq.rb n.toNat) (c.regV n.toNat)
  | .w => .w (physReg c.sq.rb n.toNat) (c.regW n.toNat)
def Ctx.savedM (c : Ctx) (n : Nat) : Saved := .m n (c.files.m.get TReg.invalid n)
def Ctx.savedT (c : Ctx) (n : Nat) : Saved := .t n (c.regT n)

/-! ### One register written -/

def Ctx.putC (c : Ctx) (n : Nat) (v : W32) : Ctx :=
  let c1 := c.logged (c.savedC n)
  { c1 with files := { c1.files with c := c1.files.c.set n ⟨true, v⟩ } }
def Ctx.putA (c : Ctx) (n : BitVec 5) (v : W64) : Ctx :=
  let c1 := c.logged (c.savedA n)
  { c1 with files := { c1.files with a := c1.files.a.set n.toNat ⟨true, v⟩ } }
def Ctx.putE (c : Ctx) (n : BitVec 5) (v : W64) : Ctx :=
  let c1 := c.logged (c.savedE n)
  { c1 with files := { c1.files with e := c1.files.e.set n.toNat ⟨true, v⟩ } }
def Ctx.putX (c : Ctx) (n : BitVec 5) (v : W64) : Ctx :=
  let c1 := c.logged (c.savedX n)
  { c1 with files := { c1.files with x := c1.files.x.set n.toNat ⟨true, v⟩ } }
/-- An S register by name: the rotation base picks the physical one (R108). -/
def Ctx.putS (c : Ctx) (n : BitVec 5) (v : W64) : Ctx :=
  let c1 := c.logged (c.savedS n)
  { c1 with files := { c1.files with s := c1.files.s.set (physReg c.sq.rb n.toNat) ⟨true, v⟩ } }
def Ctx.putK (c : Ctx) (n : BitVec 3) (k : Iter) : Ctx :=
  let c1 := c.logged (c.savedK n)
  { c1 with files := { c1.files with k := c1.files.k.set n.toNat k } }
def Ctx.putP (c : Ctx) (n : BitVec 4) (b : Bool) : Ctx :=
  let c1 := c.logged c.savedP
  { c1 with files := { c1.files with p := c1.files.p.set n.toNat ⟨true, if b then 1 else 0⟩ } }
/-- A V or W register by name, with its tag and copies. -/
def Ctx.putL (c : Ctx) (l : VW) (n : BitVec 5) (r : TReg 1024) : Ctx :=
  let c1 := c.logged (c.savedL l n)
  match l with
  | .v => { c1 with files := { c1.files with v := c1.files.v.set (physReg c.sq.rb n.toNat) r } }
  | .w => { c1 with files := { c1.files with w := c1.files.w.set (physReg c.sq.rb n.toNat) r } }
def Ctx.putM (c : Ctx) (n : Nat) (r : TReg 128) : Ctx :=
  let c1 := c.logged (c.savedM n)
  { c1 with files := { c1.files with m := c1.files.m.set n r } }
def Ctx.putT (c : Ctx) (n : Nat) (r : TReg 8192) : Ctx :=
  let c1 := c.logged (c.savedT n)
  { c1 with files := { c1.files with t := c1.files.t.set n r } }

/-- Do the copies of a register just written fit their backing (R203)?  One without copies always does. -/
def Ctx.Fits {w : Nat} (c : Ctx) (r : TReg w) : Prop := r.copies = [] ∨ c.backingOk = true

/-! ### The scalar files of the J lane (R148, R149) -/

/-- A source of the file with code `y`: C, A, S, E or X, with `q` popped where it is s31. -/
def Ctx.HoldsJ (c : Ctx) (y : BitVec 3) (q : W64) (n : BitVec 5) (v : W64) : Prop :=
  if y = 0 then ∃ u : W32, c.HoldsC n u ∧ v = u.setWidth 64
  else if y = 1 then c.HoldsA n v
  else if y = 2 then c.HoldsS q n v
  else if y = 5 then c.HoldsE n v
  else c.HoldsX n v

/-- The pop of a J slot: only the S file pops the S queue. -/
def Ctx.PopsJ (c : Ctx) (y : BitVec 3) (n : BitVec 5) (v : W64) (c' : Ctx) : Prop :=
  if y = 2 then c.PopsS [n] v c' else v = 0 ∧ c' = c

def Ctx.savedJ (c : Ctx) (x : BitVec 3) (n : BitVec 5) : Saved :=
  if x = 0 then c.savedC n.toNat else if x = 1 then c.savedA n else if x = 2 then c.savedS n
  else if x = 5 then c.savedE n else c.savedX n

/-- A destination of the file with code `x`; a C register takes the low 32 bits. -/
def Ctx.putJ (c : Ctx) (x : BitVec 3) (n : BitVec 5) (v : W64) : Ctx :=
  if x = 0 then c.putC n.toNat (v.setWidth 32) else if x = 1 then c.putA n v else if x = 2 then c.putS n v
  else if x = 5 then c.putE n v else c.putX n v

/-! ### Draws of a slot that rounds (R179) -/

/-- The draws of example `e` where each example draws `n` under rounding mode `rm`: only SR draws, each example from the
blocks after those of the example before. -/
def Ctx.drawsOf (c : Ctx) (rm : RM) (n e : Nat) : Nat → Nat :=
  if rm = .sr then drawAt c.key (c.ctr + BitVec.ofNat 64 (e * ((n + 63) / 64))) else fun _ => 0

/-- The generator once `cnt` examples have each drawn `n`. -/
def Ctx.drew (c : Ctx) (rm : RM) (n cnt : Nat) : Ctx :=
  if rm = .sr then { c with ctr := c.ctr + BitVec.ofNat 64 (cnt * ((n + 63) / 64)) } else c

/-! ### The V and W lanes (R154, R156, R201, R213) -/

/-- The sources and the mask of a V or W form are readable: `rs` and `mk`, with `c'` left by the pop. -/
def Ctx.Sources (c : Ctx) (l : VW) (srcs : List (BitVec 5)) (m : BitVec 3) (rs : List (TReg 1024)) (mk : TReg 128)
    (c' : Ctx) : Prop :=
  ∃ q, c.PopsV l srcs q c' ∧ rs.length = srcs.length ∧ (∀ p ∈ srcs.zip rs, c'.HoldsV l q p.1 p.2) ∧ c'.HoldsM m mk

/-- The tag of a result: the union of the tags of what is read, a masked region's axis, and the old destination's where it
is kept. -/
def Ctx.resultTag (c : Ctx) (rs : List (TReg 1024)) (mk : TReg 128) (z : TReg 1024) (keeps : Bool) : BitVec 3 :=
  (rs.map TReg.tag).foldl (· ||| ·) 0 ||| mk.tag ||| c.sq.regionTag ||| (if keeps || c.sq.region.isSome then z.tag else 0)

/-- A register of tag `t`: the value `f e` for each active example, the old one's copy for each inactive one. -/
def Ctx.widened {w : Nat} (c : Ctx) (t : BitVec 3) (z : TReg w) (f : Nat → BitVec w) : TReg w :=
  TReg.ofExamples t ((List.range (exCount c.sq.lifts t)).map fun e =>
    if c.sq.active t e then f e else z.at' c.sq.lifts t e)

/-- INSTRUCTION `i` COMPLETES, for every state in which its sources and mask are readable (`ok` holds of each active
example's sources, the copies fit, the log has room): it writes v[d] or w[d] with `g draws x y mask old` for each example, draws `n`
times an example under rounding mode `rm`, and changes nothing else but the queue it pops and the log.  `readsD`: it reads
its destination, which must be valid; `keeps`: the old destination's tag joins the result's. -/
def VFormIs (i : Instr) (s : State) (l : VW) (d : BitVec 5) (srcs : List (BitVec 5)) (m : BitVec 3) (readsD keeps : Bool)
    (rm : RM) (n : Nat) (ok : VBits → VBits → Prop) (g : (Nat → Nat) → VBits → VBits → MBits → VBits → VBits) : Prop :=
  ∀ (rs : List (TReg 1024)) (mk : TReg 128) (c : Ctx), s.cur.Sources l srcs m rs mk c →
    (readsD = true → d ≠ 31 ∧ (c.regL l d).valid = true) →
    let z := c.oldL l d
    let t := c.resultTag rs mk z (readsD || keeps)
    let ls := c.sq.lifts
    let x e := (rs.headD TReg.invalid).at' ls t e
    let y e := ((rs.drop 1).headD TReg.invalid).at' ls t e
    let r := c.widened t z fun e => g (c.drawsOf rm n e) (x e) (y e) (mk.at' ls t e) (z.at' ls t e)
    exCount ls t ≤ 129 → (∀ e < exCount ls t, c.sq.active t e = true → ok (x e) (y e)) → c.Room (c.savedL l d) → (c.putL l d r).Fits r →
    exec i s = .next (s.setCur ((c.drew rm n (exCount ls t)).putL l d r))

/-! ### Exceptions, transfers, waits, gated effects -/

/-- INSTRUCTION `i` TAKES EXCEPTION `t` at the slot in issue: its outcome is that of the exception, and nothing of its own
effect happens (R118, R230). -/
def Takes (i : Instr) (s : State) (t : Trap) : Prop := exec i s = finish s (throw (.trap t))

/-- The context goes on at `t`, `n` clocks after its bundle (R120). -/
def Ctx.jumps (c : Ctx) (t : W32) (n : Nat) : Ctx :=
  { c with sq := { c.sq with npc := t }, nextIssue := max c.nextIssue (c.fl.now + n) }

/-- The gate buffer is empty, and no other slot of the bundle gates anything (R119, R228). -/
def State.GateClear (s : State) : Prop :=
  s.cur.fl.gate = [] ∧ (s.cur.frame.isSome = true ∨ ∀ i ∈ s.issue.others, s.cur.gates i = false)

/-- The context with one more effect at the end of its gate buffer; in service, of its commits (R77, R220, R226). -/
def Ctx.gated (c : Ctx) (e : Eff) : Ctx :=
  let g : GateEnt := ⟨e, c.fl.seq + 1, c.sq.pc⟩
  if c.frame.isSome then { c with fl := { c.fl with seq := c.fl.seq + 1, commits := c.fl.commits ++ [g] } }
  else { c with fl := { c.fl with seq := c.fl.seq + 1, gate := c.fl.gate ++ [g] } }

/-- Has the gate buffer room for `n` more entries (R220)? -/
def Ctx.GateRoom (c : Ctx) (n : Nat) : Prop := c.frame.isSome = true ∨ c.fl.gate.length + n ≤ 128

/-- The state with more words held by the layout units (R244): what they hold is what memory held. -/
def State.withLu (s : State) (lu : AMap W64) : State := { s with mp := { s.mp with lu := lu } }

/-- INSTRUCTION `i` COMPLETES by placing `e` in the gate buffer of the context in issue, which its operands have left as `c`;
but for words held by the layout units nothing else changes. -/
def Gates (i : Instr) (s : State) (c : Ctx) (e : Eff) : Prop :=
  ∃ lu, exec i s = .next ((s.setCur (c.gated e)).withLu lu)

/-- A context by writes of registers alone, each with room in the log: those of a segment between its mark and a rollback. -/
inductive Ctx.Wrote : Ctx → Ctx → Prop where
  | none (a : Ctx) : Wrote a a
  | c {a b : Ctx} (n : BitVec 5) (v : W32) : Wrote a b → b.Room (b.savedC n.toNat) → Wrote a (b.putC n.toNat v)
  | a {a b : Ctx} (n : BitVec 5) (v : W64) : Wrote a b → b.Room (b.savedA n) → Wrote a (b.putA n v)
  | s {a b : Ctx} (n : BitVec 5) (v : W64) : Wrote a b → b.Room (b.savedS n) → Wrote a (b.putS n v)
  | e {a b : Ctx} (n : BitVec 5) (v : W64) : Wrote a b → b.Room (b.savedE n) → Wrote a (b.putE n v)
  | x {a b : Ctx} (n : BitVec 5) (v : W64) : Wrote a b → b.Room (b.savedX n) → Wrote a (b.putX n v)
  | k {a b : Ctx} (n : BitVec 3) (i : Iter) : Wrote a b → b.Room (b.savedK n) → Wrote a (b.putK n i)
  | p {a b : Ctx} (n : BitVec 4) (v : Bool) : Wrote a b → b.Room b.savedP → Wrote a (b.putP n v)
  | l {a b : Ctx} (l : VW) (n : BitVec 5) (r : TReg 1024) : Wrote a b → b.Room (b.savedL l n) → Wrote a (b.putL l n r)
  | m {a b : Ctx} (n : BitVec 3) (r : TReg 128) : Wrote a b → b.Room (b.savedM n.toNat) → Wrote a (b.putM n.toNat r)
  | t {a b : Ctx} (n : BitVec 5) (r : TReg 8192) : Wrote a b → b.Room (b.savedT n.toNat) → Wrote a (b.putT n.toNat r)

/-! ### Accesses (R181 to R187) -/

/-- The target that an iterator names in this bundle, and that an A register names. -/
def Ctx.targetOfK (c : Ctx) (k : Iter) : Target := ⟨k.handle, some (iterCoord c.sq k), 0, k.span⟩
def targetOfA (v : W64) : Target := ⟨handleOf v, none, offsetOf v, 0⟩

/-- The descriptors that an access of launch `l` to handle `h` reads are in memory. -/
def State.DescReadableAt (s : State) (die : Nat) (l : Launch) (h : BitVec 16) : Prop :=
  addrOk (descAddr l h) 128 = true ∧ addrOk (descAddr l (BitVec.ofNat 16 (s.desc die l h).scale)) 128 = true
/-- The same, for the context in issue. -/
def State.DescReadable (s : State) (h : BitVec 16) : Prop :=
  s.DescReadableAt (coreDie (coreOf s.focus)) (s.launchOf s.focus) h

/-- The tensor that a handle names for the context in issue. -/
def State.tensor (s : State) (h : BitVec 16) : Desc := s.desc (coreDie (coreOf s.focus)) (s.launchOf s.focus) h

/-- A target names coordinate `x` of a tensor with a valid descriptor, of a class, width and format that form `k` takes
(R187). -/
def Ask.Serves (k : Ask) (s : State) (t : Target) (x : Coord) : Prop :=
  let d := s.tensor t.h
  handleOk (s.launchOf s.focus) t.h = true ∧ s.DescReadable t.h
    ∧ s.descOk (coreDie (coreOf s.focus)) (s.launchOf s.focus) d = true ∧ x = t.at'.getD (d.ofOffset t.off)
    ∧ k.cls d = true ∧ k.form = true ∧ k.width d = true ∧ k.fmt d = true

/-- A target passes every check that form `k` makes at issue, and names element `x` (R183, R187). -/
def Ask.Accepts (k : Ask) (s : State) (t : Target) (x : Coord) : Prop :=
  let d := s.tensor t.h
  k.Serves s t x ∧ (match t.at' with | some c => d.inside c = true | none => t.off < d.elems) ∧ k.align d x = true

/-- The words that the translation of the units of an access reads are in memory. -/
def State.UnitsReadable (s : State) (h : BitVec 16) (us : List (Option Coord)) : Prop :=
  s.DescReadable h ∧ ∀ u ∈ us, ∀ x, u = some x → addrOk ((s.tensor h).entryAddr ((s.tensor h).tileNo x)) 16 = true

/-- Has queue `q` a free entry (R110)? -/
def Ctx.SlotFree (c : Ctx) (q : BitVec 2) : Prop :=
  if q = 0 then c.queues.qs.length < 32 else if q = 1 then c.queues.qv.length < 16
  else if q = 2 then c.queues.qw.length < 16 else c.queues.qx.length < 16

/-- The context with an entry of queue `q` reserved for load `id`, which will fill it with a value of tag `tag` and `n`
copies. -/
def Ctx.reserved (c : Ctx) (q : BitVec 2) (id : Nat) (gated : Bool) (tag : BitVec 3) (n : Nat) : Ctx :=
  if q = 0 then { c with queues := { c.queues with qs := c.queues.qs ++ [QEnt.fresh id c.fl.bundle gated tag n] } }
  else if q = 1 then { c with queues := { c.queues with qv := c.queues.qv ++ [QEnt.fresh id c.fl.bundle gated tag n] } }
  else if q = 2 then { c with queues := { c.queues with qw := c.queues.qw ++ [QEnt.fresh id c.fl.bundle gated tag n] } }
  else { c with queues := { c.queues with qx := c.queues.qx ++ [QEnt.fresh id c.fl.bundle gated tag n] } }

/-- The context with load `id` in flight, next in program order. -/
def Ctx.loading (c : Ctx) (id : Nat) (q : BitVec 2) (kd : LoadKind) (strong acq : Bool) (scope : BitVec 3)
    (span : BitVec 6) : Ctx :=
  let ld : Load := { id := id, q := q, seq := c.fl.seq + 1, kind := kd, strong := strong, acq := acq, scope := scope,
                     pc := c.sq.pc, span := span, got := none }
  { c with fl := { c.fl with seq := c.fl.seq + 1, loads := c.fl.loads ++ [ld] } }

/-- The data of a store: its register, or the entry popped, by file code: 0 S, 1 V, 2 W (R189). -/
def Ctx.StoreData (c : Ctx) (f : BitVec 2) (d : BitVec 5) (r : TReg 1024) (c' : Ctx) : Prop :=
  if f = 0 then ∃ q v, c.PopsS [d] q c' ∧ c'.HoldsS q d v ∧ r = ⟨true, 0, v.setWidth 1024, []⟩
  else ∃ q, c.PopsV (if f = 1 then .v else .w) [d] q c' ∧ c'.HoldsV (if f = 1 then .v else .w) q d r

/-- A scratchpad access of `n` bytes at an offset of physical core `p` is sound for the context in issue: of its own
scratchpad, inside its size and not in a moving region; a peer's is checked there (R190, R191). -/
def State.ScratchOk (s : State) (p off n : Nat) : Prop :=
  p = coreOf s.focus → off < (s.core p).scrSize ∧ (s.core p).moving off n = false

/-- The place that a target names in the cluster scratchpad, as handle 0xFFFF with a coordinate or as an address (R190):
its physical core and offset. -/
def State.ScratchAt (s : State) (t : Target) (p off : Nat) : Prop :=
  let i := s.inst s.cur.inst
  match t.at' with
  | some x => t.h = 0xFFFF ∧ 0 ≤ x.c0 ∧ x.c0 ≤ 0x7FFFF ∧ x.c0 % 8 = 0 ∧ 0 ≤ x.c1 ∧ x.c1 < i.cores ∧ x.c2 = 0 ∧ x.c3 = 0
      ∧ p = i.phys x.c1.toNat ∧ off = x.c0.toNat
  | none => let v := t.h.toNat * 2 ^ 48 + t.off
      v % 8 = 0 ∧ v < 2 ^ 25 ∧ v / 2 ^ 19 < i.cores ∧ p = i.phys (v / 2 ^ 19) ∧ off = v % 2 ^ 19

/-- An event that concerns context `k`: the state with `k` in focus. -/
def State.on (s : State) (k : Nat) : State := { s with focus := k }

/-! ### The truss (R285 to R289) -/

/-- The core of the context in focus runs a routine, which is at micro-word `m.r.pc` of `m`. -/
def State.Runs (s : State) (m : Micro) : Prop :=
  m.c = coreOf s.focus ∧ (s.core m.c).run = some m.r ∧ m.r.done = false
    ∧ ∃ n exs, m.r.call.kind = .routine n m.fmt m.xs m.tag exs

/-- The core with its run moved on to the next micro-word, `n` clocks on. -/
def Core.went (x : Core) (r : Run) (n : Nat) : Core := { x with run := some (r.next r.pc (x.clk + n)) }

/-- The core with the 16 rows of a slab buffer filled. -/
def Core.filled (x : Core) (side buf : Nat) (rows : List VBits) : Core :=
  { x with buf := rows.zipIdx.foldl (fun m r => m.set (bufKey side buf r.2) r.1) x.buf }

/-- The core with some latches set. -/
def Core.latched (x : Core) (ws : List (Nat × BitVec 20)) : Core :=
  { x with latch := ws.foldl (fun l w => l.set w.1 w.2) x.latch }

/-- The calling context of a run still counts its call as outstanding, and holds tile `t`. -/
def Micro.Owns (m : Micro) (s : State) (t : Nat) : Prop :=
  (s.ctx m.r.call.ctx).fl.calls.contains m.r.call.id = true ∧ ((s.ctx m.r.call.ctx).regT t).valid = true

/-- The truss reads `n` scratchpad bytes `add` bytes past the address in `xv` as the number `v`: the place is accepted, its
bytes lie inside the scratchpad, and the caller's earlier stores are forwarded (R286, R288). -/
def State.TrussReads (s : State) (k : Call) (xv : W64) (add n v : Nat) : Prop :=
  ∃ p off, s.trussAddr k xv add n = some (p, off) ∧ off + n ≤ (s.core p).scrSize
    ∧ v = bytesN (fun i => s.trussByte k (s.forwarded k.ctx k.seq) (scrAddr p (off + i))) 0 n

/-- The state once a read that may race has drawn its free values (log entry 2). -/
def State.raced (s : State) : State := if s.mp.unperf.isEmpty then s else { s with free := s.free + 1 }

/-- An untagged tile of zeros. -/
def zeroT : TReg 8192 := ⟨true, 0, 0, []⟩

/-- Tiles written one after another. -/
def Ctx.putTs (c : Ctx) : List (Nat × TReg 8192) → Ctx
  | [] => c
  | w :: ws => (c.putT w.1 w.2).putTs ws

/-- Each of those writes has room in the log, and its copies fit (R203, R221). -/
def Ctx.TakesTs (c : Ctx) : List (Nat × TReg 8192) → Prop
  | [] => True
  | w :: ws => c.Room (c.savedT w.1) ∧ (c.putT w.1 w.2).Fits w.2 ∧ (c.putT w.1 w.2).TakesTs ws

/-- The 64 tile slots of the core in focus hold every tile and copy of its contexts (R280). -/
def State.SlotsOk (s : State) : Prop :=
  (([0, 1, 2, 3] : List Nat).map fun i => (s.ctx (4 * coreOf s.focus + i)).tileSlots).sum ≤ 64

/-- No call that the context in issue has outstanding keeps tile `t` busy (R281). -/
def State.Idle (s : State) (t : BitVec 5) : Prop := (s.busyTiles s.focus).getLsbD t.toNat = false

/-- Pops of qx, one after another. -/
def Ctx.PopsXs (c : Ctx) : List (TReg 1024) → Ctx → Prop
  | [], c' => c' = c
  | r :: rs, c' => ∃ e q, QueueGives c.fl.now c.fl.bundle c.queues.qx e q ∧ e.reg = r
      ∧ ({ c with queues := { c.queues with qx := q } } : Ctx).PopsXs rs c'

/-- The call queue of the core in focus has a free place; its four include the entry that runs (R284). -/
def State.CallRoom (s : State) : Prop :=
  let x := s.core (coreOf s.focus)
  x.callQ.length + (if x.run.isSome then 1 else 0) < 4

/-- The call that the context in issue enters next. -/
def State.newCall (s : State) (kd : CallKind) (busy : BitVec 16) : Call :=
  { id := s.nextId, ctx := s.focus, seq := s.cur.fl.seq + 1, kind := kd, busy := busy, issued := s.cur.fl.now }

/-- The context in issue with its next call outstanding. -/
def State.calling (s : State) : Ctx :=
  { s.cur with fl := { s.cur.fl with seq := s.cur.fl.seq + 1, calls := s.cur.fl.calls ++ [s.nextId] } }

/-- The state with a call entered. -/
def State.called (s : State) (kd : CallKind) (busy : BitVec 16) : State :=
  let x := s.core (coreOf s.focus)
  ({ s with nextId := s.nextId + 1 }).setCore (coreOf s.focus) { x with callQ := x.callQ ++ [s.newCall kd busy] }

/-- The context once call `id` has ended, leaving fault `t` if it is the first that left one (R286, R289). -/
def Ctx.callEnded (c : Ctx) (id : Nat) (t : Option Trap) : Ctx :=
  if c.fl.calls.contains id then
    ({ c with fl := { c.fl with calls := c.fl.calls.filter fun i => i != id,
                                trussFault := c.fl.trussFault.orElse fun _ => t } }).lessWait .xldm
  else c

/-! ### Engine commands (R306, R365, R381 to R383) -/

/-- The `n` elements that `v` names lie inside a valid tensor of element format `efmt`, of a class that serves (R306). -/
def State.RangeOk (s : State) (v : W64) (efmt n : Nat) (classes : Bool) : Prop :=
  let h := handleOf v
  let d := s.tensor h
  handleOk (s.launchOf s.focus) h = true ∧ s.DescReadable h
    ∧ s.descOk (coreDie (coreOf s.focus)) (s.launchOf s.focus) d = true
    ∧ (classes = true → d.cls ≠ 1 ∧ d.cls ≠ 2) ∧ d.efmt = efmt ∧ offsetOf v + n ≤ d.elems

/-- A side of a command: none for the cluster scratchpad, else its tensor. -/
def State.side (s : State) (x : W64) : Option (Desc × Bool) :=
  if isScr x then none else some (s.tensor (handleOf x), true)

/-- The side is the cluster scratchpad, or a tensor that the launch has, with a valid descriptor. -/
def State.SideOk (s : State) (x : W64) : Prop :=
  isScr x = true ∨ (handleOk (s.launchOf s.focus) (handleOf x) = true ∧ s.DescReadable (handleOf x)
    ∧ s.descOk (coreDie (coreOf s.focus)) (s.launchOf s.focus) (s.tensor (handleOf x)) = true)

/-- `n` elements of `w` bits of a fabric command's side are in order: its class serves, its width fits, and they lie inside
it, aligned (R382). -/
def State.SideFits (s : State) (x : W64) (bad : Desc → Bool) (w n : Nat) : Prop :=
  sideIs (s.side x) bad = false ∧ sideIs (s.side x) Desc.mx = false ∧ sideIs (s.side x) (fun t => t.bits != w) = false
    ∧ (isScr x = true → fieldN x 25 23 = 0)
    ∧ (n ≠ 0 → sideOutside (s.inst s.cur.inst).cores x (s.side x) w 0 ((n : Int) - 1) = false)
    ∧ sideCrooked x w = false

/-- The e registers of a command group hold `e`. -/
def Ctx.HoldsGroup (c : Ctx) (a : BitVec 5) (n : Nat) (e : Nat → W64) : Prop := ∀ i < n, c.HoldsE (a + BitVec.ofNat 5 i) (e i)

/-! ### Events (R85, R191, R222, R259) -/

/-- No page of the `n` bytes from `a` is private to a core, and no byte is of a quarantined scratchpad: what the device finds
there is in memory itself (R223, R259). -/
def State.NoneOwns (s : State) (a n : Nat) : Prop :=
  addrOk a n = true ∧ ∀ x, a ≤ x → x < a + n → s.dead x = false ∧ ∀ o, (s.page (frameOf x)).cls ≠ some (some o)

/-- A rollback of context `k` begun: it waits for it, its loads are gone, and no semaphore has it as a waiter (R222). -/
def State.rewinding (s : State) (k : Nat) : State :=
  { s.setCtx k { s.ctx k with wait := .rewind, more := [], fl := { (s.ctx k).fl with loads := [] } } with
    dist := { s.dist with waiters := s.dist.waiters.map fun (i, ws) => (i, ws.filter fun w => w.1 != k) } }

/-- The context with load `id` returned: its entry filled with `vs`, the load gone (R110). -/
def Ctx.returned (c : Ctx) (id now : Nat) (tag : BitVec 3) (vs : List VBits) : Ctx :=
  { c with queues := c.queues.fill id now tag vs, fl := { c.fl with loads := delBy (fun x => x.id == id) c.fl.loads } }

/-- The state with operation `f` accepted at planer `pl`. -/
def State.acceptedAt (s : State) (f : FOp) (pl : Nat) : State :=
  let left := f.todo.filter (· != pl)
  { s with fops := if left.isEmpty then delBy (fun g => g == f) s.fops
                   else updBy (fun g => g == f) (fun g => { g with todo := left }) s.fops }

/-! ### Records and exceptions (R230, R231, R438) -/

/-- The entries that the ring of queue `q` holds, and how many it has room for. -/
def State.ringUsed (s : State) (q : Nat) : Nat := (s.reg (queueReg q 2) - s.reg (queueReg q 3)).toNat
def State.ringSize (s : State) (q : Nat) : Nat := 2 ^ (fieldN (s.reg (queueReg q 1)) 48 4 + 4)

/-- The next record of queue `q` goes to the 64 bytes at `a`, for which its ring has room. -/
def State.RingAt (s : State) (q a : Nat) : Prop :=
  s.ringUsed q < s.ringSize q
    ∧ a = fieldN (s.reg (queueReg q 1)) 0 48 + 64 * ((s.reg (queueReg q 2)).toNat % s.ringSize q) ∧ s.NoneOwns a 64

/-- The ring of queue `q` has room at an address that is memory, or is full. -/
def State.RingOk (s : State) (q : Nat) : Prop := (∃ a, s.RingAt q a) ∨ s.ringSize q ≤ s.ringUsed q

/-- Memory with the words of a record at `a`. -/
def recordMem (m : List Host.Cell) (a : Nat) (ws : List W64) : List Host.Cell :=
  ws.zipIdx.foldl (fun m w => Mem.putN m (a + 8 * w.2) w.1.toNat 8) m

/-- In `t` the record `ws` has been posted to queue `q` of `s`: it stands at the tail, which has moved on; a full ring drops it
and DROP is set. -/
def State.PostedIn (s t : State) (q : Nat) (ws : List W64) : Prop :=
  (∀ a, s.RingAt q a → t.mem = recordMem s.mem a ws ∧ t.reg (queueReg q 2) = s.reg (queueReg q 2) + 1)
    ∧ (s.ringSize q ≤ s.ringUsed q → t.mem = s.mem ∧ t.reg (queueReg q 0) = s.reg (queueReg q 0) ||| (1 <<< 60))

/-- In `t` exception `tr` has been taken for context `k` of `s`: its record is posted, the context is Ended with its gate buffer and
loads gone, its launch has faulted, and no other context has changed. -/
def State.EndedIn (s t : State) (k : Nat) (tr : Trap) : Prop :=
  t.ctx k = (s.ctx k).stopped .ended ∧ (∀ j, j ≠ k → t.ctx j = s.ctx j) ∧ (t.launch (s.ctx k).launch).fault = true
    ∧ t.issue.trap = some tr ∧ s.PostedIn t (s.launchOf k).queue (faultRecord s k tr)

/-! ### Frames -/

/-- An instruction has gone through: nothing is held and no exception was taken, before it or by it. -/
def State.Passed (s t : State) : Prop :=
  s.issue.held = false ∧ s.issue.trap = none ∧ t.issue.held = false ∧ t.issue.trap = none

/-- `t` is `s` but for the register files of the context in issue, which are `f`, its load queues, its shadow log and its generator's
counter: its flags, its sequencer, its special registers, every other context, every core, all memory and all else are as before. -/
def State.OnlyFiles (s t : State) (f : Files) : Prop :=
  ∃ (q : Queues) (log : List Saved) (ctr : W64),
    t = s.setCur { s.cur with files := f, queues := q, seg := { s.cur.seg with log := log }, ctr := ctr }

/-- `t` has the memory, the cores, the management registers and the other contexts of `s`; the context in issue has its register
files, its sequencer, its mode and its rounds. -/
def State.SameRegisters (s t : State) : Prop :=
  t.mem = s.mem ∧ t.cores = s.cores ∧ t.mg = s.mg ∧ t.focus = s.focus ∧ (∀ j, j ≠ s.focus → t.ctx j = s.ctx j)
    ∧ t.cur.files = s.cur.files ∧ t.cur.sq = s.cur.sq ∧ t.cur.priv = s.cur.priv ∧ t.cur.rounds = s.cur.rounds

end Sys2Proof.Machine
end

