-- ==== Sys2Proof/Certificates/Slice0/Obligations.lean ====
section
/-!
DEFINITION. Sys2Proof/Certificates/Slice0/Obligations.lean: the statements for the provers, lane by lane, then the engines, the
events, and the machine as a whole.  `Takes`, `Gates`, `VFormIs` and the words for operands are those of Sys2Proof/Safety.lean.
-/

open Sys2Proof Sys2Proof.Machine

/-! ### The S lane -/

/-- The forms of two S registers (R134, R137 to R139, R141): outside a masked region, with both sources readable and room in the
log, each writes its value to s[d], pops register 31 at most once, and changes nothing else. -/
def Obligations.ScalarTwoSourceForms : Prop :=
  ∀ (s : State) (d a b : BitVec 5) (q x y : W64) (c : Ctx),
    s.cur.sq.region = none → s.cur.PopsS [a, b] q c → c.HoldsS q a x → c.HoldsS q b y → c.Room (c.savedS d) →
    ∀ e ∈ ([(.add d a b, x + y),
            (.addW d a b, (x.setWidth 32 + y.setWidth 32).signExtend 64),
            (.sub d a b, x - y),
            (.subW d a b, (x.setWidth 32 - y.setWidth 32).signExtend 64),
            (.mul d a b, x * y),
            (.mulW d a b, (x.setWidth 32 * y.setWidth 32).signExtend 64),
            (.mulh d a b, BitVec.ofInt 64 (x.toInt * y.toInt / 2 ^ 64)),
            (.mulhU d a b, BitVec.ofNat 64 (x.toNat * y.toNat / 2 ^ 64)),
            (.div d a b, if y = 0 then -1 else BitVec.ofInt 64 (x.toInt.tdiv y.toInt)),
            (.divU d a b, if y = 0 then -1 else BitVec.ofNat 64 (x.toNat / y.toNat)),
            (.rem d a b, if y = 0 then x else BitVec.ofInt 64 (x.toInt - x.toInt.tdiv y.toInt * y.toInt)),
            (.remU d a b, if y = 0 then x else BitVec.ofNat 64 (x.toNat - x.toNat / y.toNat * y.toNat)),
            (.and d a b, x &&& y), (.or d a b, x ||| y), (.xor d a b, x ^^^ y), (.andn d a b, x &&& ~~~y),
            (.shl d a b, x <<< y.toNat), (.shr d a b, x >>> y.toNat), (.sar d a b, x.sshiftRight y.toNat),
            (.shlW d a b, (x.setWidth 32 <<< (y.setWidth 32).toNat).signExtend 64),
            (.shrW d a b, (x.setWidth 32 >>> (y.setWidth 32).toNat).signExtend 64),
            (.sarW d a b, ((x.setWidth 32).sshiftRight (y.setWidth 32).toNat).signExtend 64),
            (.min d a b, if x.toInt < y.toInt then x else y), (.max d a b, if x.toInt < y.toInt then y else x),
            (.minU d a b, if x.toNat < y.toNat then x else y), (.maxU d a b, if x.toNat < y.toNat then y else x)] :
            List (Instr × W64)),
      exec e.1 s = .next (s.setCur (c.putS d e.2))

/-- Division never traps (R138); the results of a zero divisor, and of the one signed quotient that does not fit. -/
def Obligations.DivisionCorners : Prop :=
  ∀ (s : State) (d a b : BitVec 5) (q x y : W64) (c : Ctx),
    s.cur.sq.region = none → s.cur.PopsS [a, b] q c → c.HoldsS q a x → c.HoldsS q b y → c.Room (c.savedS d) →
    (∀ i ∈ ([.div d a b, .divU d a b, .rem d a b, .remU d a b] : List Instr), ∃ v, exec i s = .next (s.setCur (c.putS d v)))
    ∧ (y = 0 →
      exec (.div d a b) s = .next (s.setCur (c.putS d (-1))) ∧ exec (.divU d a b) s = .next (s.setCur (c.putS d (-1)))
      ∧ exec (.rem d a b) s = .next (s.setCur (c.putS d x)) ∧ exec (.remU d a b) s = .next (s.setCur (c.putS d x)))
    ∧ (x.toInt = -2 ^ 63 → y = -1 →
      exec (.div d a b) s = .next (s.setCur (c.putS d x)) ∧ exec (.rem d a b) s = .next (s.setCur (c.putS d 0))
      ∧ exec (.divU d a b) s = .next (s.setCur (c.putS d 0)) ∧ exec (.remU d a b) s = .next (s.setCur (c.putS d x)))

/-- The bit-field forms (R141), bit by bit: the field is bits pos to top - 1 of W bits, empty where wid is 0 or pos lies past the
width. -/
def Obligations.BitFieldForms : Prop :=
  ∀ (s : State) (d a b : BitVec 5) (q x y z : W64) (c : Ctx),
    s.cur.sq.region = none → d ≠ 31 → s.cur.PopsS [a, b] q c → c.HoldsS q a x → c.HoldsS q b y → c.Room (c.savedS d) →
    let pos := y.toNat % 64
    let wid := y.toNat / 256 % 128
    let top := min (pos + wid) 64
    let top32 := min (pos + wid) 32
    let empty := wid = 0
    let empty32 := wid = 0 ∨ 32 ≤ pos
    (∃ r : W64, exec (.bfxU d a b) s = .next (s.setCur (c.putS d r))
      ∧ ∀ i < 64, r.getLsbD i = (decide (¬empty ∧ i < top - pos) && x.getLsbD (pos + i)))
    ∧ (∃ r : W64, exec (.bfx d a b) s = .next (s.setCur (c.putS d r))
      ∧ ∀ i < 64, r.getLsbD i = (decide (¬empty) && x.getLsbD (pos + min i (top - pos - 1))))
    ∧ (c.regS d.toNat = ⟨true, z⟩ →
        (∃ r : W64, exec (.bfi d a b) s = .next (s.setCur (c.putS d r))
          ∧ ∀ i < 64, r.getLsbD i = if ¬empty ∧ pos ≤ i ∧ i < top then x.getLsbD (i - pos) else z.getLsbD i)
        ∧ (∃ r : W32, exec (.bfiW d a b) s = .next (s.setCur (c.putS d (r.signExtend 64)))
          ∧ ∀ i < 32, r.getLsbD i = if ¬empty32 ∧ pos ≤ i ∧ i < top32 then x.getLsbD (i - pos) else z.getLsbD i))

/-- The forms of one S register and of an immediate (R26, R139, R140, R143): an imm8 is sign-extended to 64 bits, and a negative
shift count is a count of 64 or more. SEL, MOVI and MOVS (R26, R142, R144). -/
def Obligations.ScalarOneSourceFormsAndMoves : Prop :=
  (∀ (s : State) (d a : BitVec 5) (i : BitVec 8) (q x : W64) (c : Ctx),
     s.cur.sq.region = none → s.cur.PopsS [a] q c → c.HoldsS q a x → c.Room (c.savedS d) →
     (∀ e ∈ ([(.addi d a i, x + i.signExtend 64), (.andi d a i, x &&& i.signExtend 64), (.ori d a i, x ||| i.signExtend 64),
              (.xori d a i, x ^^^ i.signExtend 64), (.muli d a i, x * i.signExtend 64),
              (.shli d a i, x <<< (i.signExtend 64).toNat), (.shri d a i, x >>> (i.signExtend 64).toNat),
              (.sari d a i, x.sshiftRight (i.signExtend 64).toNat)] : List (Instr × W64)),
         exec e.1 s = .next (s.setCur (c.putS d e.2)))
     ∧ (∃ n : Nat, n ≤ 64 ∧ exec (.clz d a) s = .next (s.setCur (c.putS d (BitVec.ofNat 64 n)))
         ∧ (∀ j < n, x.getLsbD (63 - j) = false) ∧ (n < 64 → x.getLsbD (63 - n) = true))
     ∧ (∃ n : Nat, n ≤ 32 ∧ exec (.clzW d a) s = .next (s.setCur (c.putS d (BitVec.ofNat 64 n)))
         ∧ (∀ j < n, x.getLsbD (31 - j) = false) ∧ (n < 32 → x.getLsbD (31 - n) = true))
     ∧ exec (.popc d a) s = .next (s.setCur (c.putS d (BitVec.ofNat 64 (((List.range 64).filter x.getLsbD).length))))
     ∧ exec (.popcW d a) s = .next (s.setCur (c.putS d (BitVec.ofNat 64 (((List.range 32).filter x.getLsbD).length)))))
  ∧ (∀ (s : State) (d a b : BitVec 5) (p : BitVec 3) (i : BitVec 13) (q x y z : W64) (t : Bool) (c : Ctx),
       s.cur.sq.region = none →
       (s.cur.HoldsP (p.setWidth 4) t → s.cur.PopsS [a, b] q c → c.HoldsS q a x → c.HoldsS q b y → c.Room (c.savedS d) →
         exec (.sel d a b p) s = .next (s.setCur (c.putS d (if t then x else y))))
       ∧ (s.cur.Room (s.cur.savedS d) → exec (.movi d i) s = .next (s.setCur (s.cur.putS d (i.signExtend 64))))
       ∧ (s.cur.Room (s.cur.savedS d) → d ≠ 31 → s.cur.regS d.toNat = ⟨true, z⟩ →
           exec (.movs d i) s = .next (s.setCur (s.cur.putS d ((z <<< 13) ||| i.setWidth 64)))))

/-- The compares and the predicate logic (R145, R146): the condition goes to pD, its complement to pE. -/
def Obligations.ComparesAndPredicateLogic : Prop :=
  ∀ (s : State) (p e u v : BitVec 4) (a b : BitVec 5) (q x y : W64) (g h : Bool) (c : Ctx),
    s.cur.sq.region = none →
    (s.cur.PopsS [a, b] q c → c.HoldsS q a x → c.HoldsS q b y → c.Room c.savedP →
      ∀ k ∈ ([(.cmpEq p e a b, decide (x = y)), (.cmpNe p e a b, decide (x ≠ y)), (.cmpLt p e a b, decide (x.toInt < y.toInt)),
              (.cmpLe p e a b, decide (x.toInt ≤ y.toInt)), (.cmpGt p e a b, decide (x.toInt > y.toInt)),
              (.cmpGe p e a b, decide (x.toInt ≥ y.toInt)), (.cmpLtu p e a b, decide (x.toNat < y.toNat)),
              (.cmpGeu p e a b, decide (x.toNat ≥ y.toNat))] : List (Instr × Bool)),
        exec k.1 s = .next (s.setCur ((c.putP p k.2).putP e (!k.2))))
    ∧ (s.cur.HoldsP u g → s.cur.HoldsP v h → s.cur.Room s.cur.savedP →
        exec (.pand p u v) s = .next (s.setCur (s.cur.putP p (g && h)))
        ∧ exec (.por p u v) s = .next (s.setCur (s.cur.putP p (g || h)))
        ∧ exec (.pnot p u) s = .next (s.setCur (s.cur.putP p (!g))))

/-- In an open masked region every C, S and J slot is lift fault 2, MARK, LOOP, FMT, LIFT and LRET among them; only BELSE and BJOIN
act there; a LIFT, LIFT.R, JMOV.V or JEXT that meets lift fault 1 as well reports the lower (R118, R134, R204, R214). That a control
form with a register operand that is invalid takes lift fault 2 all the same is the model's choice (log entry 85). A read of a
register whose valid bit is clear is the invalid-register-read trap, and the form has no effect (R99); register 31 is a pop and no
register: of an empty queue it is the queue trap. The order of the two is the model's choice (log entry 84): an S or J slot pops
before it reads its other operands, so an empty queue is the trap whatever they hold, but for SEL, which reads its predicate first;
JMK reads its source before the mask it may find tagged. -/
def Obligations.ScalarFormsStop : Prop :=
  (∀ (s : State) (i : Instr), s.cur.sq.region ≠ none → i.lane = some .C ∨ i.lane = some .S ∨ i.lane = some .J →
     (∀ d, i ≠ .belse d) → i ≠ .bjoin →
     Takes i s (Trap.mk' clsLift (if s.cur.overflows i then 1 else 2)))
  ∧ (∀ (s : State) (d a b : BitVec 5) (p e : BitVec 4) (g x y : BitVec 3) (i : BitVec 8) (j : BitVec 13) (n : BitVec 7)
       (k6 : BitVec 6) (f : BitVec 1),
       let c := s.cur
       let two : List Instr :=
         [.add d a b, .addW d a b, .sub d a b, .subW d a b, .mul d a b, .mulW d a b, .mulh d a b, .mulhU d a b, .div d a b, .divU d a b,
          .rem d a b, .remU d a b, .and d a b, .or d a b, .xor d a b, .andn d a b, .shl d a b, .shlW d a b, .shr d a b, .shrW d a b,
          .sar d a b, .sarW d a b, .min d a b, .minU d a b, .max d a b, .maxU d a b, .bfx d a b, .bfxU d a b, .cmpEq p e a b,
          .cmpNe p e a b, .cmpLt p e a b, .cmpLe p e a b, .cmpGt p e a b, .cmpGe p e a b, .cmpLtu p e a b, .cmpGeu p e a b]
       let one : List Instr :=
         [.addi d a i, .andi d a i, .ori d a i, .xori d a i, .muli d a i, .shli d a i, .shri d a i, .sari d a i, .clz d a, .clzW d a,
          .popc d a, .popcW d a]
       let joins : List Instr := [.jmov d a x y, .jspl32 d a x y, .jspl16 d a x y, .jspl8 d a x y, .jmk d a x y]
       let unread : Prop := if y = 0 then (c.regC a.toNat).valid = false else if y = 1 then (c.regA a.toNat).valid = false
         else if y = 2 then a ≠ 31 ∧ (c.regS a.toNat).valid = false else if y = 5 then (c.regE a.toNat).valid = false
         else (c.regX a.toNat).valid = false
       c.sq.region = none →
       (a ≠ 31 → b ≠ 31 → (c.regS a.toNat).valid = false ∨ (c.regS b.toNat).valid = false →
         ∀ k ∈ two, Takes k s (Trap.mk' clsInvalid 0))
       ∧ (a ≠ 31 → (c.regS a.toNat).valid = false → ∀ k ∈ one, Takes k s (Trap.mk' clsInvalid 0))
       ∧ (a ≠ 31 → b ≠ 31 → d ≠ 31 →
           (c.regS a.toNat).valid = false ∨ (c.regS b.toNat).valid = false ∨ (c.regS d.toNat).valid = false →
           Takes (.bfi d a b) s (Trap.mk' clsInvalid 0) ∧ Takes (.bfiW d a b) s (Trap.mk' clsInvalid 0))
       ∧ ((c.pred g.toNat).valid = false ∨ (a ≠ 31 ∧ b ≠ 31 ∧ ((c.regS a.toNat).valid = false ∨ (c.regS b.toNat).valid = false)) →
           Takes (.sel d a b g) s (Trap.mk' clsInvalid 0))
       ∧ (d ≠ 31 → (c.regS d.toNat).valid = false → Takes (.movs d j) s (Trap.mk' clsInvalid 0))
       ∧ (unread → ∀ k ∈ joins, Takes k s (Trap.mk' clsInvalid 0))
       ∧ (a ≠ 31 → ((c.regL (jLane y) a).valid = false → Takes (.jmovV d a x y) s (Trap.mk' clsInvalid 0))
           ∧ ((c.regL (if f = 0 then .v else .w) a).valid = false → Takes (.jext d a k6 f) s (Trap.mk' clsInvalid 0)))
       ∧ ((c.regC a.toNat).valid = false →
         ∀ k ∈ ([.brx a, .callR a, .loopR a n, .loopRotR a n, .brkR a, .fmtR d a 0, .abortR a] : List Instr),
           Takes k s (Trap.mk' clsInvalid 0))
       ∧ ((c.regC 15).valid = false → Takes .ret s (Trap.mk' clsInvalid 0))
       ∧ (c.queues.qs = [] → (31 ∈ [a, b] → (∀ k ∈ two, Takes k s (Trap.mk' clsQueue 0))
             ∧ Takes (.bfi d a b) s (Trap.mk' clsQueue 0) ∧ Takes (.bfiW d a b) s (Trap.mk' clsQueue 0)
             ∧ ((c.pred g.toNat).valid = true → Takes (.sel d a b g) s (Trap.mk' clsQueue 0)))
           ∧ (y = 2 → a = 31 → ∀ k ∈ joins, Takes k s (Trap.mk' clsQueue 0))
           ∧ (a = 31 → ∀ k ∈ one, Takes k s (Trap.mk' clsQueue 0))))

/-! ### The J lane -/

/-- The copies of the J lane (R149, R150): JMOV between the scalar files, JMOV.V with tag and copies, and the splats, whose result
is untagged and holds the source's low bits in every element. JEXT, JPM and JMK (R151 to R153). -/
def Obligations.JoinerForms : Prop :=
  (∀ (s : State) (d a : BitVec 5) (x y : BitVec 3), s.cur.sq.region = none →
     (∀ (q v : W64) (c : Ctx), s.cur.PopsJ y a q c → c.HoldsJ y q a v → c.Room (c.savedJ x d) →
       exec (.jmov d a x y) s = .next (s.setCur (c.putJ x d v)))
     ∧ (∀ (q r : TReg 1024) (c : Ctx), s.cur.PopsV (jLane y) [a] q c → c.HoldsV (jLane y) q a r →
         c.Room (c.savedL (jLane x) d) → (c.putL (jLane x) d r).Fits r →
         exec (.jmovV d a x y) s = .next (s.setCur (c.putL (jLane x) d r)))
     ∧ (∀ (q v : W64) (c : Ctx), s.cur.PopsJ y a q c → c.HoldsJ y q a v → c.Room (c.savedL (jLane x) d) →
         ∀ e ∈ ([(.jspl32 d a x y, 32), (.jspl16 d a x y, 16), (.jspl8 d a x y, 8)] : List (Instr × Nat)),
           ∃ r : VBits, exec e.1 s = .next (s.setCur (c.putL (jLane x) d ⟨true, 0, r, []⟩))
             ∧ ∀ i < 1024, r.getLsbD i = v.getLsbD (i % e.2)))
  ∧ (∀ (s : State) (d a : BitVec 5) (e : BitVec 6) (f : BitVec 1) (x y : BitVec 3), s.cur.sq.region = none →
       (∀ (q r : TReg 1024) (c : Ctx) (l : VW), l = (if f = 0 then .v else .w) → s.cur.PopsV l [a] q c → c.HoldsV l q a r →
           c.Room (c.savedS d) →
           (r.tag = 0 → exec (.jext d a e f) s = .next (s.setCur (c.putS d (r.val.setWidth 64))))
           ∧ (r.tag = 1 ∨ r.tag = 2 ∨ r.tag = 4 → e.toNat < exCount c.sq.lifts r.tag →
               exec (.jext d a e f) s = .next (s.setCur (c.putS d ((r.at' c.sq.lifts r.tag e.toNat).setWidth 64)))))
       ∧ (s.cur.Room (s.cur.savedJ x d) →
           ∃ w : W64, exec (.jpm d x) s = .next (s.setCur (s.cur.putJ x d w))
             ∧ (∀ i < 16, w.getLsbD (16 + i) = (s.cur.pred i).valid
                 ∧ w.getLsbD i = ((s.cur.pred i).valid && (s.cur.pred i).val == 1))
             ∧ ∀ i, 32 ≤ i → w.getLsbD i = false)
       ∧ (∀ (q v : W64) (c : Ctx), s.cur.PopsJ y a q c → c.HoldsJ y q a v → c.Room (c.savedM d.toNat) →
           exec (.jmk d a 0 y) s = .next (s.setCur (c.putM d.toNat ⟨true, 0, v.setWidth 128, []⟩))
           ∧ ∀ (m : TReg 128), c.HoldsM (d.setWidth 3) m → m.tag = 0 →
               exec (.jmk d a 1 y) s = .next (s.setCur (c.putM d.toNat ⟨true, 0, v ++ m.val.setWidth 64, []⟩))))

/-! ### The V and W lanes -/

/-- The floating forms (R66, R156, R159 to R161): where VS is floating and VD as wide, element i is the exact result of elements i
rounded once to VD, and an element whose mask bit is 0 keeps its old value. The model's choices: the transcendentals are computed to
many bits and rounded once (log entry 10), and each example of a widened slot starts a fresh generator block under stochastic
rounding (log entry 81). -/
def Obligations.FloatForms : Prop :=
  ∀ (s : State) (l : VW) (d a b : BitVec 5) (m : BitVec 3) (i : BitVec 8),
    let f := s.cur.sq.fmt
    let fs := EFmt.ofCode (fmtVS f)
    let fd := EFmt.ofCode (fmtVD f)
    let y0 := fs.dec false (fs.round .rne false false 0 (XR.ofInt i.toInt))
    let dn := fmtRM f == .rdn
    fs.isFlt = true → fs.width = fd.width →
    ∀ e ∈ ([(.vadd l d a b m, [a, b], m, false, fun x y _ => x.add dn y),
            (.vsub l d a b m, [a, b], m, false, fun x y _ => x.add dn y.neg),
            (.vmul l d a b m, [a, b], m, false, fun x y _ => x.mul y),
            (.vmin l d a b m, [a, b], m, false, fun x y _ => x.min y),
            (.vmax l d a b m, [a, b], m, false, fun x y _ => x.max y),
            (.vfma l d a b m, [a, b], m, true, fun x y z => (x.mul y).add dn z),
            (.vfms l d a b m, [a, b], m, true, fun x y z => z.add dn (x.mul y).neg),
            (.vaddI l d a i, [a], 0, false, fun x _ _ => x.add dn y0), (.vmulI l d a i, [a], 0, false, fun x _ _ => x.mul y0),
            (.vminI l d a i, [a], 0, false, fun x _ _ => x.min y0), (.vmaxI l d a i, [a], 0, false, fun x _ _ => x.max y0),
            (.vabs l d a m, [a], m, false, fun x _ _ => x.abs), (.vneg l d a m, [a], m, false, fun x _ _ => x.neg),
            (.vrcp l d a m, [a], m, false, fun x _ _ => x.rcp), (.vrsq l d a m, [a], m, false, fun x _ _ => x.rsq),
            (.vexp2 l d a m, [a], m, false, fun x _ _ => x.exp2), (.vlog2 l d a m, [a], m, false, fun x _ _ => x.log2),
            (.vtanh l d a m, [a], m, false, fun x _ _ => x.tanh)] :
            List (Instr × List (BitVec 5) × BitVec 3 × Bool × (XR → XR → XR → XR))),
      VFormIs e.1 s l d e.2.1 e.2.2.1 e.2.2.2.1 (e.2.2.1 != 0) (fmtRM f) (1024 / fd.width) (fun _ _ => True)
        fun rho x y mk z => mergeElems fd.width mk z fun j =>
          fd.round (fmtRM f) (fmtSAT f) (fmtFTZ f) (rho j)
            (e.2.2.2.2 (fs.dec (fmtFTZ f) (elem fs.width x j)) (fs.dec (fmtFTZ f) (elem fs.width y j))
              (fs.dec (fmtFTZ f) (elem fs.width z j)))

/-- The integer, logic and shift forms (R26, R154, R156, R166): wrapping, saturated or high results at the width and signedness of
VS; a shift count is not masked. -/
def Obligations.IntegerForms : Prop :=
  ∀ (s : State) (l : VW) (d a b : BitVec 5) (m : BitVec 3) (i : BitVec 8),
    let fs := EFmt.ofCode (fmtVS s.cur.sq.fmt)
    let w := fs.width
    let low (v : Int) : Nat := lowBits w v
    let val (v : Nat) : Int := intVal fs.signed w v
    let sat (v : Int) : Nat := low (max (if fs.signed then -2 ^ (w - 1) else 0) (min v (if fs.signed then 2 ^ (w - 1) - 1 else 2 ^ w - 1)))
    let shl (x c : Nat) : Nat := if w ≤ c then 0 else low (x * 2 ^ c : Nat)
    let shr (x c : Nat) : Nat := x / 2 ^ c
    let sar (x c : Nat) : Nat := low (val x / 2 ^ min c w)
    let y0 : Nat := low i.toInt
    ∀ e ∈ ([(.viadd l d a b m, [a, b], m, fun x y => low (x + y)), (.visub l d a b m, [a, b], m, fun x y => low (x - y)),
            (.viaddS l d a b m, [a, b], m, fun x y => sat (val x + val y)),
            (.visubS l d a b m, [a, b], m, fun x y => sat (val x - val y)),
            (.vimul l d a b m, [a, b], m, fun x y => low (x * y)),
            (.vimulH l d a b m, [a, b], m, fun x y => low (val x * val y / 2 ^ w)),
            (.vand l d a b m, [a, b], m, fun x y => x &&& y), (.vor l d a b m, [a, b], m, fun x y => x ||| y),
            (.vxor l d a b m, [a, b], m, fun x y => x ^^^ y), (.vshl l d a b m, [a, b], m, shl),
            (.vshr l d a b m, [a, b], m, shr), (.vsar l d a b m, [a, b], m, sar),
            (.vandI l d a i, [a], 0, fun x _ => x &&& y0), (.vorI l d a i, [a], 0, fun x _ => x ||| y0),
            (.vxorI l d a i, [a], 0, fun x _ => x ^^^ y0), (.vshlI l d a i, [a], 0, fun x _ => shl x y0),
            (.vshrI l d a i, [a], 0, fun x _ => shr x y0), (.vsarI l d a i, [a], 0, fun x _ => sar x y0),
            (.vabsI l d a m, [a], m, fun x _ => low (val x).natAbs),
            (.vnegI l d a m, [a], m, fun x _ => low (-val x))] :
            List (Instr × List (BitVec 5) × BitVec 3 × (Nat → Nat → Nat))),
      VFormIs e.1 s l d e.2.1 e.2.2.1 false (e.2.2.1 != 0) .rne 0 (fun _ _ => True)
        fun _ x y mk z => mergeElems w mk z fun j => e.2.2.2 (elem w x j) (elem w y j)

/-- The forms that move and narrow elements (R155, R164, R167 to R169): VSEL reads its mask as a selector; VPERM gives 0 for an
index past the end; VPACK saturates; VUNPK extends by the signedness of VS. -/
def Obligations.MovementForms : Prop :=
  ∀ (s : State) (l : VW) (d a b : BitVec 5) (m : BitVec 3) (i : BitVec 8),
    let fs := EFmt.ofCode (fmtVS s.cur.sq.fmt)
    let w := fs.width
    let n := 1024 / w
    let any : VBits → VBits → Prop := fun _ _ => True
    VFormIs (.vsel l d a b m) s l d [a, b] m false false .rne 0 any
        (fun _ x y mk _ => mergeElems w mk y fun j => elem w x j)
    ∧ VFormIs (.vmov l d a m) s l d [a] m false (m != 0) .rne 0 any
        (fun _ x _ mk z => mergeElems w mk z fun j => elem w x j)
    ∧ VFormIs (.vperm l d a b m) s l d [a, b] m false (m != 0) .rne 0 any
        (fun _ x y mk z => mergeElems w mk z fun j => if n ≤ elem w y j then 0 else elem w x (elem w y j))
    ∧ (i.toNat < 192 → VFormIs (.vpermI l d a i) s l d [a] 0 false false .rne 0 any
        (fun _ x _ _ _ => ofElems w ((List.range n).map fun j =>
          let k := i.toNat % 64
          elem w x (if i.toNat < 64 then (j + k) % n else if i.toNat < 128 then k % n
            else if n ≤ 2 ^ k then j else j ^^^ 2 ^ k))))
    ∧ (fs.isFlt = false → w ≠ 8 → VFormIs (.vpack l d a b m) s l d [a, b] m false (m != 0) .rne 0 any
        (fun _ x y mk z => mergeElems (w / 2) mk z fun j =>
          lowBits (w / 2) (satInt fs.signed (w / 2) (intVal fs.signed w (if j < n then elem w x j else elem w y (j - n))))))
    ∧ (fs.isFlt = false → w ≠ 32 →
        VFormIs (.vunpkLo l d a m) s l d [a] m false (m != 0) .rne 0 any
          (fun _ x _ mk z => mergeElems (2 * w) mk z fun j => lowBits (2 * w) (intVal fs.signed w (elem w x j)))
        ∧ VFormIs (.vunpkHi l d a m) s l d [a] m false (m != 0) .rne 0 any
          (fun _ x _ mk z => mergeElems (2 * w) mk z fun j => lowBits (2 * w) (intVal fs.signed w (elem w x (n / 2 + j)))))

/-- The conversions (R155, R162): VCVT at equal widths; the widening VCVT.LO and .HI read one part of the source, the narrowing ones
write one part of the destination and keep the rest. The MX forms (R67, R155, R174 to R176): VMXQ.E gives the scale word of the
unmasked elements; VMXQ.B the packed block under a legal scale word in each active example, all zeros under a NaN scale. The model's
choices: VMXQ.B flushes subnormal inputs under FTZ and no result of 0.5 (log entry 79), a VCVT between integers draws under
stochastic rounding too (log entry 80), and each example of a widened slot starts a fresh generator block (log entry 81). -/
def Obligations.ConversionAndMxForms : Prop :=
  (∀ (s : State) (l : VW) (d a b : BitVec 5) (m : BitVec 3),
     let f := s.cur.sq.fmt
     let fs := EFmt.ofCode (fmtVS f)
     let fd := EFmt.ofCode (fmtVD f)
     let cv := convert fs fd (fmtRM f) (fmtSAT f) (fmtFTZ f)
     let ns := 1024 / fs.width
     let nd := 1024 / fd.width
     let r := max fs.width fd.width / min fs.width fd.width
     let any : VBits → VBits → Prop := fun _ _ => True
     (fs.width = fd.width → VFormIs (.vcvt l d a m) s l d [a] m false (m != 0) (fmtRM f) nd any
       (fun rho x _ mk z => mergeElems fd.width mk z fun j => cv (rho j) (elem fs.width x j)))
     ∧ (∀ e ∈ ([(.vcvtLo l d a b m, b.toNat), (.vcvtHi l d a b m, r / 2 + b.toNat)] : List (Instr × Nat)),
         b.toNat < r / 2 →
         (fs.width < fd.width → VFormIs e.1 s l d [a] m false (m != 0) (fmtRM f) nd any
           (fun rho x _ mk z => mergeElems fd.width mk z fun j => cv (rho j) (elem fs.width x (e.2 * nd + j))))
         ∧ (fd.width < fs.width → VFormIs e.1 s l d [a] m false true (fmtRM f) ns any
           (fun rho x _ mk z => mergeElems fd.width mk z fun j =>
             if e.2 * ns ≤ j ∧ j < (e.2 + 1) * ns then cv (rho (j - e.2 * ns)) (elem fs.width x (j - e.2 * ns))
             else elem fd.width z j))))
  ∧ (∀ (s : State) (l : VW) (d a b e : BitVec 5) (m : BitVec 3),
       let f := s.cur.sq.fmt
       fmtVS f = 0 →
       VFormIs (.vmxqE l d a e m) s l d [a] m false false .rne 0 (fun _ _ => True)
         (fun _ x _ mk _ => BitVec.ofNat 1024 (e.toNat * 2 ^ 28 +
           mxScale e.toNat (fmtFTZ f) (((List.range 32).filter mk.getLsbD).map fun i => elem 32 x i)))
       ∧ VFormIs (.vmxqB l d a b m) s l d [a, b] m false false (fmtRM f) 32
         (fun _ y => elem 32 y 0 / 2 ^ 28 ≤ 4 ∧ elem 32 y 0 / 2 ^ 20 % 256 = 0
           ∧ (elem 32 y 0 / 2 ^ 28 = 4 ∨ elem 32 y 0 / 256 % 4096 = 0))
         (fun rho x y mk _ =>
           let ef := elem 32 y 0 / 2 ^ 28
           let w := if ef = 0 then 8 else if ef = 1 then 6 else if ef = 4 then 16 else 4
           match scaleVal (ef == 4) (elem 32 y 0 % 2 ^ 20) with
           | none => 0
           | some sc => BitVec.ofNat 1024 (packNat w ((List.range 32).map fun i =>
               if mk.getLsbD i then mxCode ef (fmtRM f) (rho i) ((fp32.dec (fmtFTZ f) (elem 32 x i)).divScale sc) else 0))))

/-- The vector compares (R163): the condition to the even mask of the pair and its complement to the odd one, 0 in both where the
mask excludes an element or lies past the elements; both halves carry the union of the tags, and the copies of both count at once.
MLOG acts on all 128 bits; NOT and MOV read one mask (R165). -/
def Obligations.VectorComparesAndMaskLogic : Prop :=
  (∀ (s : State) (l : VW) (p a b : BitVec 5) (m : BitVec 3) (q x y : TReg 1024) (mk : TReg 128) (c : Ctx),
     let f := s.cur.sq.fmt
     let fs := EFmt.ofCode (fmtVS f)
     let w := fs.width
     let dec := fs.dec (fmtFTZ f)
     s.cur.PopsV l [a, b] q c → c.HoldsV l q a x → c.HoldsV l q b y → c.HoldsM m mk →
     ∀ e ∈ ([(.vcmpEq l p a b m, true, fun u v => (dec u).eq (dec v)), (.vcmpNe l p a b m, true, fun u v => !(dec u).eq (dec v)),
             (.vcmpLt l p a b m, true, fun u v => (dec u).lt (dec v)),
             (.vcmpLe l p a b m, true, fun u v => (dec u).lt (dec v) || (dec u).eq (dec v)),
             (.vcmpGt l p a b m, true, fun u v => (dec v).lt (dec u)),
             (.vcmpGe l p a b m, true, fun u v => (dec v).lt (dec u) || (dec u).eq (dec v)),
             (.vcmpUn l p a b m, true, fun u v => (dec u).isNan || (dec v).isNan),
             (.vcmpOrd l p a b m, true, fun u v => !((dec u).isNan || (dec v).isNan)),
             (.vcmpIeq l p a b m, false, fun u v => u == v), (.vcmpIne l p a b m, false, fun u v => u != v),
             (.vcmpIlt l p a b m, false, fun u v => decide (intVal true w u < intVal true w v)),
             (.vcmpIltu l p a b m, false, fun u v => decide (u < v))] : List (Instr × Bool × (Nat → Nat → Bool))),
       (e.2.1 = true → fs.isFlt = true) →
       let even := 2 * p.toNat
       let o1 := if (c.mask even).valid then c.mask even else TReg.invalid
       let o2 := if (c.mask (even + 1)).valid then c.mask (even + 1) else TReg.invalid
       let t := x.tag ||| y.tag ||| mk.tag ||| c.sq.regionTag ||| (if c.sq.region.isSome then o1.tag ||| o2.tag else 0)
       let ls := c.sq.lifts
       let bits (want : Bool) (ex : Nat) : MBits := BitVec.ofNat 128 (packNat 1 ((List.range (1024 / w)).map fun i =>
         if (mk.at' ls t ex).getLsbD i && (e.2.2 (elem w (x.at' ls t ex) i) (elem w (y.at' ls t ex) i) == want) then 1 else 0))
       let r1 := c.widened t o1 (bits true)
       let r2 := c.widened t o2 (bits false)
       let pair := (c.putM even r1).putM (even + 1) r2
       exCount ls t ≤ 1025 → c.Room (c.savedM even) → (c.putM even r1).Room ((c.putM even r1).savedM (even + 1)) →
       (r1.copies = [] ∧ r2.copies = [] ∨ pair.backingOk = true) →
       exec e.1 s = .next (s.setCur pair))
  ∧ (∀ (s : State) (l : VW) (d a b : BitVec 5) (x y : TReg 128),
       let c := s.cur
       c.HoldsM (a.setWidth 3) x → c.HoldsM (b.setWidth 3) y →
       ∀ e ∈ ([(0, y, fun u v => u &&& v), (1, y, fun u v => u ||| v), (2, y, fun u v => u ^^^ v), (3, y, fun u v => u &&& ~~~v),
               (4, x, fun u _ => ~~~u), (5, x, fun u _ => u)] : List (BitVec 3 × TReg 128 × (MBits → MBits → MBits))),
         let o := if (c.mask d.toNat).valid then c.mask d.toNat else TReg.invalid
         let t := x.tag ||| e.2.1.tag ||| c.sq.regionTag ||| (if c.sq.region.isSome then o.tag else 0)
         let r := c.widened t o fun ex => e.2.2 (x.at' c.sq.lifts t ex) (e.2.1.at' c.sq.lifts t ex)
         exCount c.sq.lifts t ≤ 1025 → c.Room (c.savedM d.toNat) → (c.putM d.toNat r).Fits r →
         exec (.mlog l d a b e.1) s = .next (s.setCur (c.putM d.toNat r)))

/-- The reductions and scans of one register (R69, R155, R170, R172): masked-off elements enter as the identity; the result of a
reduction stands in element 0 beside zeros; a scan keeps what its mask excludes. VRED.AX removes the innermost axis (R171, R210):
each element position is reduced over the examples of that axis, inactive ones as the identity; a source that lacks the axis is
copied under the mask; the old destination joins the tag where the mask or a masked region keeps it. The model's choices: integer
reductions draw nothing (log entry 80), and each example of a widened slot starts a fresh generator block (log entry 81). -/
def Obligations.ReductionForms : Prop :=
  (∀ (s : State) (l : VW) (d a : BitVec 5) (m : BitVec 3),
     let f := s.cur.sq.fmt
     let rm := fmtRM f
     let fs := EFmt.ofCode (fmtVS f)
     let fd := EFmt.ofCode (fmtVD f)
     let w := fs.width
     let n := 1024 / w
     let out := convert (.flt fp32) fd rm (fmtSAT f) (fmtFTZ f)
     let any : VBits → VBits → Prop := fun _ _ => True
     let wide (o : RedOp) (x : VBits) (mk : MBits) : List Nat := (List.range n).map fun i =>
       if mk.getLsbD i then fp32.round .rne false false 0 (fs.dec (fmtFTZ f) (elem w x i)) else o.fltId
     let ints (o : RedOp) (x : VBits) (mk : MBits) : List Int := (List.range n).map fun i =>
       if mk.getLsbD i then intVal fs.signed w (elem w x i) else o.intId fs.signed w
     (∀ e ∈ ([(.vredAdd l d a m, .add), (.vredMax l d a m, .max), (.vredMin l d a m, .min)] : List (Instr × RedOp)),
       VFormIs e.1 s l d [a] m false false (if fs.isFlt then rm else .rne) n any
         fun rho x _ mk _ =>
           if fs.isFlt then
             BitVec.ofNat 1024 (out (rho (n - 1)) ((tree (fun k u v => e.2.flt rm (rho k) u v) 8 0 (wide e.2 x mk)).headD 0))
           else BitVec.ofNat 1024 (lowBits 32 ((tree (fun _ u v => e.2.int u v) 8 0 (ints e.2 x mk)).headD 0)))
     ∧ (fs.isFlt = true → w = fd.width →
         ∀ e ∈ ([(.vscanAdd l d a m, .add), (.vscanMax l d a m, .max)] : List (Instr × RedOp)),
         VFormIs e.1 s l d [a] m false (m != 0) rm (scanDraws n 8 1 + n) any
           fun rho x _ mk z =>
             let r := scanSteps (fun k u v => e.2.flt rm (rho k) u v) 8 1 0 (wide e.2 x mk)
             mergeElems w mk z fun i => out (rho (r.2 + i)) (r.1.getD i 0)))
  ∧ (∀ (s : State) (l : VW) (d a o : BitVec 5) (m : BitVec 3) (x : TReg 1024) (mk : TReg 128) (c : Ctx),
       s.cur.Sources l [a] m [x] mk c →
       let f := s.cur.sq.fmt
       let fs := EFmt.ofCode (fmtVS f)
       let z := c.oldL l d
       let ls := c.sq.lifts
       let it := innerTag ls
       let n := axisSize ls (ls.length - 1)
       (x.tag &&& it = 0 →
         let t := c.resultTag [x] mk z (m != 0)
         let r := c.widened t z fun e => mergeElems fs.width (mk.at' ls t e) (z.at' ls t e) fun j => elem fs.width (x.at' ls t e) j
         exCount ls t ≤ 129 → c.Room (c.savedL l d) → (c.putL l d r).Fits r →
         exec (.vredAx l d a o m) s = .next (s.setCur (c.putL l d r)))
       ∧ (x.tag &&& it ≠ 0 → mk.tag &&& it = 0 → (m ≠ 0 ∨ c.sq.region.isSome = true → z.tag &&& it = 0) →
         let t := (x.tag ||| mk.tag ||| (if m != 0 || c.sq.region.isSome then z.tag else 0)) &&& ~~~it
         let rm := if fs.isFlt then fmtRM f else .rne
         let draws := 1024 / fs.width * pow2ge n
         let live (i : Nat) : Bool := match c.sq.region with | none => true | some g => g.active.getLsbD i
         let red (e : Nat) : VBits := axisReduce (RedOp.ofField o.toNat) fs f (c.drawsOf rm draws e)
           ((List.range n).map fun i => if live i then some (x.at' ls (t ||| it) (e * n + i)) else none)
         let r := TReg.ofExamples t ((List.range (exCount ls t)).map fun e =>
           mergeElems fs.width (mk.at' ls t e) (z.at' ls t e) fun j => elem fs.width (red e) j)
         exCount ls t ≤ 129 → c.Room (c.savedL l d) → (c.putL l d r).Fits r →
         exec (.vredAx l d a o m) s = .next (s.setCur ((c.drew rm draws (exCount ls t)).putL l d r))))

/-- VIDX, VRNG and VRNG.U (R173, R177 to R180): element numbers; one output block for each example, in ascending order, or the
uniform values made of it. -/
def Obligations.IndexAndRandomForms : Prop :=
  ∀ (s : State) (l : VW) (d : BitVec 5) (m : BitVec 3) (mk : TReg 128),
    let c := s.cur
    let f := c.sq.fmt
    let w := (EFmt.ofCode (fmtVS f)).width
    let z := c.oldL l d
    let ls := c.sq.lifts
    let t := c.resultTag [] mk z (m != 0)
    let cnt := exCount ls t
    let at' (g : Nat → MBits → VBits → VBits) : TReg 1024 := c.widened t z fun e => g e (mk.at' ls t e) (z.at' ls t e)
    let block (e : Nat) : VBits := genBlock c.key (c.ctr + BitVec.ofNat 64 e)
    c.HoldsM m mk → cnt ≤ 129 → c.Room (c.savedL l d) →
    (let r := at' fun _ k v => mergeElems w k v id
     (c.putL l d r).Fits r → exec (.vidx l d m) s = .next (s.setCur (c.putL l d r)))
    ∧ (let r := at' fun e k v => mergeElems w k v fun j => elem w (block e) j
       (c.putL l d r).Fits r →
       exec (.vrng l d m) s = .next (s.setCur (({ c with ctr := c.ctr + BitVec.ofNat 64 cnt }).putL l d r)))
    ∧ (∀ g, EFmt.ofCode (fmtVD f) = .flt g →
       let r := at' fun e k v => mergeElems g.width k v fun j =>
         g.enc false (elem g.width (block e) j / 2 ^ (g.width - (g.fbits + 1))) (-((g.fbits + 1 : Nat) : Int))
       (c.putL l d r).Fits r →
       exec (.vrngU l d m) s = .next (s.setCur (({ c with ctr := c.ctr + BitVec.ofNat 64 cnt }).putL l d r)))

/-! ### The C lane -/

/-- Branches, calls and returns (R120, R122): to a target that is a multiple of 4 below the size of the code; a call leaves the
address of the bundle after this one in c15; any other target is control fault 3 and carries the target. -/
def Obligations.BranchesCallsReturns : Prop :=
  ∀ (s : State) (a : BitVec 5) (i : BitVec 18) (v : W32),
    let c := s.cur
    let code := (s.launchOf s.focus).codeSize
    let disp := c.sq.pc + BitVec.ofInt 32 (4 * i.toInt)
    c.sq.region = none →
    (∀ e ∈ ([(.br i, disp, 3), (.brx a, v, 4), (.ret, v, 4)] : List (Instr × W32 × Nat)),
      (e.1 = .brx a → c.HoldsC a v) → (e.1 = .ret → c.HoldsC 15 v) →
      if e.2.1.toNat % 4 = 0 ∧ e.2.1.toNat < code then exec e.1 s = .next (s.setCur (c.jumps e.2.1 e.2.2))
      else Takes e.1 s { Trap.mk' clsControl 3 with value := e.2.1.setWidth 64 })
    ∧ (∀ e ∈ ([(.call i, disp, 3), (.callR a, v, 4)] : List (Instr × W32 × Nat)),
      (e.1 = .callR a → c.HoldsC a v) → c.Room (c.savedC 15) →
      if e.2.1.toNat % 4 = 0 ∧ e.2.1.toNat < code then
        exec e.1 s = .next (s.setCur ((c.putC 15 c.sq.after).jumps e.2.1 e.2.2))
      else Takes e.1 s { Trap.mk' clsControl 3 with value := e.2.1.setWidth 64 })

/-- The LOOP forms (R104, R109, R124, R125): where the body frames, with no MARK but first and inside the innermost body, a count of
0 skips it; any other count pushes a level, a seventh one being control fault 1. BRK, BRK.R and LIDX (R126, R127): levels leave the
stack and the context goes on at the end of the last of them; more levels than are held are control fault 2, a register count above
6 control fault 5. -/
def Obligations.LoopLevels : Prop :=
  (∀ (s : State) (n : BitVec 11) (a : BitVec 5) (k : BitVec 7) (v : W32) (gs : List Nat) (e : Nat),
     let c := s.cur
     let l := s.launchOf s.focus
     c.sq.region = none →
     frameBody l (k.toNat + 1) true c.sq.after.toNat s = .ok ((gs, false, e), s) →
     (∀ o, c.sq.loops.getLast? = some o → o.start.toNat ≤ c.sq.pc.toNat → c.sq.pc.toNat < o.stop.toNat → e ≤ o.stop.toNat) →
     ∀ f ∈ ([(.loop n k, n.setWidth 32, false), (.loopR a k, v, false), (.loopRot n k, n.setWidth 32, true),
             (.loopRotR a k, v, true)] : List (Instr × W32 × Bool)),
       (f.1 = .loopR a k ∨ f.1 = .loopRotR a k → c.HoldsC a v) →
       let lv : Level := { start := c.sq.after, stop := BitVec.ofNat 32 e, count := f.2.1, index := 0, rot := f.2.2,
                           depthE := if f.2.2 then stageDepth gs else 0 }
       let c1 := { c with sq := { c.sq with loops := c.sq.loops ++ [lv] } }
       if f.2.1 = 0 then exec f.1 s = .next (s.setCur { c with sq := { c.sq with npc := BitVec.ofNat 32 e } })
       else if c.sq.loops.length < 6 then
         exec f.1 s = .next (s.setCur (if f.2.2 then { c1 with files := { c1.files with p := setStages lv c1.files.p } } else c1))
       else Takes f.1 s (Trap.mk' clsControl 1))
  ∧ (∀ (s : State) (i : BitVec 13) (a d : BitVec 5) (v : W32) (w : BitVec 1) (j : BitVec 3),
       let c := s.cur
       let out (n : Nat) (l : Level) : Ctx :=
         { c with sq := { c.sq with loops := c.sq.loops.take (c.sq.loops.length - n) } }.jumps l.stop 3
       c.sq.region = none →
       (∀ e ∈ ([(.brk i, i.toNat), (.brkR a, v.toNat)] : List (Instr × Nat)), 0 < e.2 →
         (e.1 = .brkR a → c.HoldsC a v ∧ e.2 ≤ 6) →
         (∀ l, e.2 ≤ c.sq.loops.length → c.sq.loops[c.sq.loops.length - e.2]? = some l → exec e.1 s = .next (s.setCur (out e.2 l)))
         ∧ (c.sq.loops.length < e.2 → Takes e.1 s (Trap.mk' clsControl 2)))
       ∧ (c.HoldsC a 0 → exec (.brkR a) s = .next (s.setCur c))
       ∧ (c.HoldsC a v → 6 < v.toNat → Takes (.brkR a) s { Trap.mk' clsControl 5 with value := v.setWidth 64 })
       ∧ (∀ l, c.sq.loops.reverse[j.toNat]? = some l → c.Room (c.savedC d.toNat) →
           exec (.lidx d w j) s = .next (s.setCur (c.putC d.toNat (if w = 1 then l.count else l.index))))
       ∧ (c.sq.loops.length ≤ j.toNat → Takes (.lidx d w j) s (Trap.mk' clsControl 2)))

/-- The FMT forms (R60, R63, R128): a legal value becomes pending with a countdown of 4, built on the value that would reach fmt
next; FMT.R with d returns fmt itself; a reserved code is the illegal-instruction trap. -/
def Obligations.FormatForms : Prop :=
  ∀ (s : State) (d a : BitVec 5) (v : W32) (z t x : BitVec 1) (r : BitVec 2) (vd vs : BitVec 4) (tb ta : BitVec 3),
    let c := s.cur
    let pending (w : W32) : Ctx := { c with sq := { c.sq with pend := w, cd := 4 } }
    let base := if c.sq.cd = 0 then c.sq.fmt else c.sq.pend
    c.sq.region = none →
    (c.HoldsC a v → fmtLegal v = true →
      exec (.fmtR d a 0) s = .next (s.setCur (pending v))
      ∧ (c.Room (c.savedC d.toNat) → exec (.fmtR d a 1) s = .next (s.setCur ((pending v).putC d.toNat c.sq.fmt))))
    ∧ (c.HoldsC a v → fmtLegal v = false → Takes (.fmtR d a 0) s (Trap.mk' clsIllegal 0))
    ∧ (∃ w : W32, fmtVS w = vs.toNat ∧ fmtVD w = vd.toNat ∧ fieldN w 12 2 = r.toNat ∧ fieldN w 15 1 = t.toNat
        ∧ fieldN w 16 1 = z.toNat ∧ fieldN w 8 4 = fieldN base 8 4 ∧ fieldN w 14 1 = fieldN base 14 1
        ∧ fieldN w 17 15 = fieldN base 17 15
        ∧ (fmtLegal w = true → exec (.fmtV z t r vd vs) s = .next (s.setCur (pending w)))
        ∧ (fmtLegal w = false → Takes (.fmtV z t r vd vs) s (Trap.mk' clsIllegal 0)))
    ∧ (∃ w : W32, fmtTA w = ta.toNat ∧ fmtTB w = tb.toNat ∧ fieldN w 23 1 = x.toNat ∧ fieldN w 0 17 = fieldN base 0 17
        ∧ fieldN w 24 8 = fieldN base 24 8
        ∧ (fmtLegal w = true → exec (.fmtX x tb ta) s = .next (s.setCur (pending w)))
        ∧ (fmtLegal w = false → Takes (.fmtX x tb ta) s (Trap.mk' clsIllegal 0)))

/-- PARK, HALT and PHASE begin (R119, R129, R132, R228): with the gate buffer clear the context waits; otherwise the fault of each
form; a PHASE.R above 8 is control fault 5. PARK_COMPLETE, HALT_COMPLETE and FMT_SHADOW_EXPIRE (R63, R129, R228): once its loads are
in and its effects committed a parking context that waits for nothing else is Dormant, with nothing of its registers kept; once its
engine commands are done too a halting one is Halted; a pending fmt value reaches fmt. PHASE_END (R132): the core has the new split;
where the L1 shrank the region reads as zero; with no dirty sector in the L1, no byte outside the region changes. ABORT and ABORT.R
(R113, R130): the line of the instance rises, the first code of the launch is recorded, and the issuing context ends without a
record, its queues as at its last mark; a line already raised keeps its code, but where an ABORT of the same clock and a lower core
or context sets it. ABCHK with the line clear has no effect, and ends its context when the line has been up for 64 clocks (R131).
The model's choices: the 64 clocks of an abort line are counted on the sampling core's clock (log entry 3), the first code of two
instances is kept and of one clock the lowest (log entries 33 and 72), and a context that parks is left dormant whatever the line
(log entry 71). -/
def Obligations.ParkingAbortingMoving : Prop :=
  (∀ (s : State) (n : BitVec 4) (a : BitVec 5) (v : W32),
     let c := s.cur
     c.sq.region = none →
     (s.GateClear →
       exec .park s = .next (s.setCur (c.waits .park)) ∧ exec .halt s = .next (s.setCur (c.waits .halt))
       ∧ (n.toNat ≤ 8 → exec (.phase n) s = .next (s.setCur (c.waits (.phase n.toNat))))
       ∧ (c.HoldsC a v → v.toNat ≤ 8 → exec (.phaseR a) s = .next (s.setCur (c.waits (.phase v.toNat))))
       ∧ (c.HoldsC a v → 8 < v.toNat → Takes (.phaseR a) s { Trap.mk' clsControl 5 with value := v.setWidth 64 }))
     ∧ (¬ s.GateClear →
       Takes .park s (Trap.mk' clsControl 4) ∧ Takes .halt s (Trap.mk' clsSegment 4)
       ∧ Takes (.phase n) s (Trap.mk' clsControl 4) ∧ (c.HoldsC a v → Takes (.phaseR a) s (Trap.mk' clsControl 4))))
  ∧ (∀ (s : State) (k : Nat),
       let c := s.ctx k
       (c.wait = .park → c.more = [] → c.fl.loads = [] → c.fl.commits = [] → c.live = true →
         exec (.parkComplete k) s = .next (s.setCtx k c.dormant)
         ∧ c.dormant.st = .dormant ∧ c.dormant.files = Files.empty ∧ c.dormant.queues = Queues.empty ∧ c.dormant.sq = Seqr.zero
         ∧ c.dormant.fsat = false ∧ c.dormant.accsat = false ∧ c.dormant.rounds = [])
       ∧ (c.wait = .halt → c.more = [] → s.quiet k = true → c.live = true → exec (.haltComplete k) s = .next (s.setCtx k (c.stopped .halted)))
       ∧ (c.sq.cd ≠ 0 → exec (.fmtShadowExpire k) s
           = .next (s.setCtx k { c with sq := { c.sq with fmt := c.sq.pend, cd := 0 } })))
  ∧ (∀ (s : State) (c : Nat) (p : Phase), (s.core c).phase = some p →
       ∃ t, exec (.phaseEnd c) s = .next t ∧ (t.core c).phase = none ∧ (t.core c).l1n = p.newL1 ∧ t.ctxs = s.ctxs
         ∧ ((∀ b ∈ (s.core c).blocks, b.dirty = 0) →
             (∀ a, a < scrAddr c p.region.1 ∨ scrAddr c p.region.1 + p.region.2 ≤ a → Mem.get t.mem a = Mem.get s.mem a)
             ∧ (p.newL1 ≤ (s.core c).l1n →
                 ∀ o, p.region.1 ≤ o → o < p.region.1 + p.region.2 → Mem.get t.mem (scrAddr c o) = 0)))
  ∧ (∀ (s : State) (i : BitVec 13) (a : BitVec 5) (v : W32),
       let c := s.cur
       c.sq.region = none → c.live = true →
       (∀ e ∈ ([(.abort i, i), (.abortR a, v.setWidth 13)] : List (Instr × BitVec 13)),
         (e.1 = .abortR a → c.HoldsC a v) →
         ∃ t, exec e.1 s = .next t ∧ (t.inst c.inst).abort ≠ none ∧ t.ctx s.focus = ({ c with queues := c.queues.replay } : Ctx).stopped .ended ∧ t.mem = s.mem
           ∧ ((s.inst c.inst).abort = none → (t.launch c.launch).aborted = true
               ∧ (t.launch c.launch).abortCode = if (s.launch c.launch).aborted then (s.launch c.launch).abortCode else e.2)
           ∧ (∀ cl, (s.inst c.inst).abort = some cl →
               let first := cl.get 0 (coreOf s.focus) = (s.core (coreOf s.focus)).clk ∧ s.focus < (s.inst c.inst).abortBy
               (¬ first → t.inst c.inst = s.inst c.inst ∧ t.launch c.launch = s.launch c.launch)
               ∧ (first → (s.launch c.launch).abortInst = c.inst → (t.launch c.launch).abortCode = e.2))
           ∧ t.mg = s.mg)
       ∧ ((s.inst c.inst).abort = none → exec .abchk s = .next (s.setCur c))
       ∧ (∀ up, (s.inst c.inst).abort = some up → up.get 0 (coreOf s.focus) + 64 ≤ (s.core (coreOf s.focus)).clk →
           ∃ t, exec .abchk s = .next t ∧ t.ctx s.focus = ({ c with queues := c.queues.replay } : Ctx).stopped .ended ∧ t.mem = s.mem ∧ t.mg = s.mg))

/-! ### Lifts, marks, service -/

/-- LIFT and LIFT.R push an axis and call (R206): an axis of 1 to 64 examples, at most three deep, else lift fault 1; a bad target
is control fault 3. LRET (R207): with the loop stack as the lift found it and no queue entry of the axis, the axis is popped, every
register tagged with it becomes invalid, every other keeps its value, and the context goes on after the lift; the bundle notes how
many results of slots beside it the axis takes away. That an entry popped and kept for a replay holds no axis back is the model's
choice (log entry 30). -/
def Obligations.LiftForms : Prop :=
  (∀ (s : State) (n : BitVec 6) (i : BitVec 12) (a b : BitVec 5) (u v : W32),
     let c := s.cur
     c.sq.region = none →
     ∀ e ∈ ([(.lift n i, n.toNat + 1, c.sq.pc + BitVec.ofInt 32 (4 * i.toInt), 3), (.liftR a b, u.toNat, v, 4)] :
         List (Instr × Nat × W32 × Nat)),
       (e.1 = .liftR a b → c.HoldsC a u ∧ c.HoldsC b v) →
       let axis : LiftEnt := { n := e.2.1, ret := c.sq.after, ldp := c.sq.loops.length }
       if c.sq.lifts.length < 3 ∧ e.2.1 ≠ 0 ∧ e.2.1 ≤ 64 then
         if e.2.2.1.toNat % 4 = 0 ∧ e.2.2.1.toNat < (s.launchOf s.focus).codeSize then
           exec e.1 s = .next (s.setCur ({ c with sq := { c.sq with lifts := c.sq.lifts ++ [axis] } }.jumps e.2.2.1 e.2.2.2))
         else Takes e.1 s { Trap.mk' clsControl 3 with value := e.2.2.1.setWidth 64 }
       else Takes e.1 s (Trap.mk' clsLift 1))
  ∧ (∀ (s : State) (top : LiftEnt),
       let c := s.cur
       let t := innerTag c.sq.lifts
       let tagged {w : Nat} (m : AMap (TReg w)) : Nat := (m.filter fun e => hasAxis e.2.tag t).length
       c.sq.region = none → c.sq.lifts.getLast? = some top → c.sq.loops.length = top.ldp → c.queues.holdAxis t = false →
       (c.frame.isSome = true ∨
         c.seg.log.length + tagged c.files.v + tagged c.files.w + tagged c.files.m + tagged c.files.t ≤ 64) →
       ∃ c', exec .lret s = .next { s.setCur c' with issue := { s.issue with dropped := c.dropping } } ∧ c'.sq = { c.sq with lifts := c.sq.lifts.dropLast, npc := top.ret }
         ∧ c'.nextIssue = max c.nextIssue (c.fl.now + 4) ∧ c'.queues = c.queues
         ∧ c'.files = { c.files with v := c.files.v.filter fun e => !hasAxis e.2.tag t,
                                     w := c.files.w.filter fun e => !hasAxis e.2.tag t,
                                     m := c.files.m.filter fun e => !hasAxis e.2.tag t,
                                     t := c.files.t.filter fun e => !hasAxis e.2.tag t })

/-- Batched branches (R212): BIF.P branches where its predicate is false; BIF.M opens a region of the examples whose mask has bit 0
set, or the else part at once where none has; BELSE turns to the other examples or skips to the join; BJOIN closes. -/
def Obligations.BatchedBranches : Prop :=
  ∀ (s : State) (p : BitVec 4) (m : BitVec 3) (i : BitVec 14) (b : Bool) (r : TReg 128),
    let c := s.cur
    let there : W32 := c.sq.pc + BitVec.ofInt 32 (4 * i.toInt)
    let opened (g : Option Region) : Ctx := { c with sq := { c.sq with region := g } }
    let ls := c.sq.lifts
    let every := allExamples ls
    (c.sq.region = none → c.HoldsP p b →
      exec (.bifP p i) s = .next (s.setCur (if b then c else c.jumps there 3)))
    ∧ (c.sq.region = none → c.HoldsM m r → ls ≠ [] → r.tag = innerTag ls →
        let act := activeSet ls r
        exec (.bifM m i) s = .next (s.setCur
          (if act = 0 then (opened (some ⟨true, every⟩)).jumps there 3 else opened (some ⟨false, act⟩))))
    ∧ (c.sq.region = none → c.HoldsM m r → ls = [] ∨ r.tag ≠ innerTag ls → Takes (.bifM m i) s (Trap.mk' clsLift 2))
    ∧ (c.sq.region = none → exec (.belse i) s = .next (s.setCur (c.jumps there 3)))
    ∧ (∀ g, c.sq.region = some ⟨false, g⟩ →
        let other := every &&& ~~~g
        exec (.belse i) s = .next (s.setCur (if other = 0 then c.jumps there 3 else opened (some ⟨true, other⟩))))
    ∧ (∀ g, c.sq.region = some ⟨true, g⟩ → Takes (.belse i) s (Trap.mk' clsLift 2))
    ∧ exec .bjoin s = .next (s.setCur (opened none))

/-- TRAP, TRAP.R and SVC enter service (R226): c12 to c14 take the code, the argument and the return address; the frame saves what
they held, fmt with its shadow, the loop depth and the privilege; the context goes on at the service address, privileged. In service
they are trap fault 2, and without a service address 0 or, for SVC, 1. ERET leaves service (R37, R227): the frame's registers,
format and privilege are back, the context goes on at the return address in a new unchecked segment, with nothing logged or gated;
outside privilege it is the privilege trap, and without a frame or with another loop depth segment fault 7. -/
def Obligations.ServiceEntryAndReturn : Prop :=
  (∀ (s : State) (i : BitVec 13) (a : BitVec 5) (v entry : W32),
     let c := s.cur
     let f := c.countFmt.sq
     c.sq.region = none → s.GateClear →
     ∀ e ∈ ([(.trap i, i.setWidth 32, 0, 0), (.trapR a, 0, v, 0), (.svc i, 0x80000000 ||| i.setWidth 32, 0, 1)] :
         List (Instr × W32 × W32 × Nat)),
       (e.1 = .trapR a → c.HoldsC a v) →
       (c.frame.isSome = true → Takes e.1 s (Trap.mk' clsTrap 2))
       ∧ (c.frame = none → (s.launchOf s.focus).service = none → Takes e.1 s (Trap.mk' clsTrap e.2.2.2))
       ∧ (c.frame = none → (s.launchOf s.focus).service = some entry → c.seg.log.length ≤ 61 →
           let c1 := ((c.putC 12 e.2.1).putC 13 e.2.2.1).putC 14 c.sq.after
           let fr : Frame := { ret := c.sq.after, c12 := c.regC 12, c13 := c.regC 13, c14 := c.regC 14, c15 := c.regC 15,
                               fmt := f.fmt, pend := f.pend, cd := f.cd, depth := c.sq.loops.length, priv := c.priv }
           exec e.1 s = .next (s.setCur
             ({ c1 with frame := some fr, priv := true,
                        sq := { c1.sq with fmt := f.fmt, pend := f.fmt, cd := 0 } }.jumps entry 4))))
  ∧ (∀ (s : State) (f : Frame),
       let c := s.cur
       c.sq.region = none →
       (c.priv = false → Takes .eret s (Trap.mk' clsPrivilege 0))
       ∧ (c.priv = true → c.frame = none → Takes .eret s (Trap.mk' clsSegment 7))
       ∧ (c.priv = true → c.frame = some f → c.sq.loops.length ≠ f.depth → Takes .eret s (Trap.mk' clsSegment 7))
       ∧ (c.priv = true → c.frame = some f → c.sq.loops.length = f.depth → c.fl.loads = [] →
           ∃ c', exec .eret s = .next (s.setCur c') ∧ c'.frame = none ∧ c'.priv = f.priv ∧ c'.regC 12 = f.c12
             ∧ c'.regC 13 = f.c13 ∧ c'.regC 14 = f.c14 ∧ c'.regC 15 = f.c15
             ∧ c'.sq = { c.sq with fmt := f.fmt, pend := f.pend, cd := f.cd, npc := f.ret }
             ∧ c'.seg.checked = false ∧ c'.seg.log = [] ∧ c'.fl.gate = [] ∧ c'.fl.commits = c.fl.commits ++ c.fl.gate
             ∧ c'.files.s = c.files.s ∧ c'.files.a = c.files.a ∧ c'.files.e = c.files.e ∧ c'.files.x = c.files.x
             ∧ c'.files.p = c.files.p ∧ c'.files.v = c.files.v ∧ c'.files.w = c.files.w ∧ c'.files.m = c.files.m
             ∧ c'.files.t = c.files.t ∧ c'.files.k = c.files.k))

/-- MARK commits (R112, R217 to R221): alone in its bundle, out of service, with no load or earlier commit under way, no mismatch
and every gated effect sound, it opens the segment of its table entry: the log and the gate buffer are empty, the gated effects
commit in order, a filter bank's with its image as read now, and popped queue entries are freed. The context waits until they have
committed; with none, or once the last has, the snapshot holds the state after the bundle with the generator of a committed CKRS, a
Stopping context is Saved and none is rewinding any more. When effects commit one after another is the model's choice (log entry
18). The faults of a MARK at issue, in order (R219): another slot in its bundle, in service, no table entry. -/
def Obligations.MarkForms : Prop :=
  (∀ (s : State) (id : BitVec 14),
     let c := s.cur
     let l := s.launchOf s.focus
     let e : W64 := BitVec.ofNat 64 (s.seenN (l.segTab + 8 * id.toNat) 8)
     c.sq.region = none → (s.issue.words.filter fun w => !isVoidWord w).length ≤ 1 → c.frame = none → id.toNat < l.segLen →
     c.fl.loads = [] → c.fl.commits = [] → c.fl.trussFault = none → c.seg.mismatch = false →
     c.wait = .none → c.more = [] → c.fl.ckrs = none → addrOk (l.segTab + 8 * id.toNat) 8 = true →
     ∀ lu, badGate s.focus c.fl.gate (s.setCur c) = .ok (none, (s.setCur c).withLu lu) →
     (c.fl.gate = [] → (s.inst c.inst).abort = none) →
     ∃ c', exec (.mark id) s = .next ((s.setCur c').withLu lu)
       ∧ (if c.fl.gate = [] then c'.wait = .none ∧ c'.st = (if c.st = .stopping then .saved else c.st) ∧ c'.seg.rewinding = false
          else c'.wait = .commit ∧ c'.st = c.st ∧ c'.seg.rewinding = c.seg.rewinding)
       ∧ c'.more = [] ∧ c'.files = c.files ∧ c'.sq = c.sq ∧ c'.fl.gate = [] ∧ c'.fl.commits = c.fl.gate.map ((s.setCur c).withLu lu).withImage
       ∧ c'.seg.id = id ∧ c'.seg.checked = e.getLsbD 63 ∧ c'.seg.expCount.toNat = e.toNat / 2 ^ 32 % 2 ^ 16
       ∧ c'.seg.expCrc = e.setWidth 32 ∧ c'.seg.count = 0 ∧ c'.seg.crc = 0xFFFFFFFF ∧ c'.seg.log = []
       ∧ c'.seg.rewound = false ∧ c'.seg.snap = (if c.fl.gate = [] then (c.endBundle false).snapshot else c.seg.snap)
       ∧ (∀ q ∈ c'.queues.qs, q.kept = false ∧ q.old = true)
       ∧ c'.queues.qs.map QEnt.id = (c.queues.qs.filter fun q => !q.kept).map QEnt.id
       ∧ c'.key = c.key ∧ c'.ctr = c.ctr
       ∧ ∀ (u : State) (k : Nat), (u.ctx k).fl.commits = [] → u.commitOpen k = true → (u.ctx k).wait = .commit →
           (u.inst (u.ctx k).inst).abort = none →
           let d := (u.ctx k).takeCkrs
           commitHead k u = .ok ((), u.setCtx k
             { d.nextWait with seg := { d.seg with snap := d.snapshot, rewinding := false },
                               st := if d.st = .stopping then .saved else d.st }))
  ∧ (∀ (s : State) (id : BitVec 14), s.cur.sq.region = none →
       let lone := (s.issue.words.filter fun w => !isVoidWord w).length ≤ 1
       (¬ lone → Takes (.mark id) s (Trap.mk' clsSegment 6))
       ∧ (lone → s.cur.frame.isSome = true → Takes (.mark id) s (Trap.mk' clsSegment 7))
       ∧ (lone → s.cur.frame = none → (s.launchOf s.focus).segLen ≤ id.toNat → Takes (.mark id) s (Trap.mk' clsSegment 5)))

/-- JOIN, JOIN.R and JOIN_RELEASE (R224, R430): a context whose earlier accesses are performed arrives at the round its own number
names, once in the list, and waits; another count of members in the round is segment fault 8; when the round may open its number
goes up by one, and the invalidations pending for its core are applied. CKPT, CKRS and their register forms (R225): an image that is
aligned, inside the scratchpad and not moving is gated; an offset that is no multiple of 128 is access fault 2, one too high access
fault 6. -/
def Obligations.JointsAndCheckpoints : Prop :=
  (∀ (s : State) (n : BitVec 8) (g : BitVec 4) (a : BitVec 5) (v : W32) (k m : Nat),
     let c := s.cur
     (c.sq.region = none →
       ∀ e ∈ ([(.join n g, n.toNat + 1, g), (.joinR a, v.toNat / 16 % 256 + 1, BitVec.ofNat 4 v.toNat)] :
           List (Instr × Nat × BitVec 4)),
         (e.1 = .joinR a → c.HoldsC a v) →
         let key := 65536 * e.2.2.toNat + (c.rounds.get 0 e.2.2.toNat).toNat
         let j := (s.inst c.inst).joints.get ⟨e.2.1, []⟩ key
         (j.members ≠ e.2.1 → Takes e.1 s (Trap.mk' clsSegment 8))
         ∧ (j.members = e.2.1 → s.drained s.focus = true → ∃ t, exec e.1 s = .next t ∧ t.cur = c.waits (.join e.2.2 e.2.1) ∧ t.mem = s.mem
             ∧ ∃ j', (t.inst c.inst).joints.find? key = some j' ∧ j'.members = e.2.1
               ∧ ∀ x, x ∈ j'.arrived ↔ x ∈ j.arrived ∨ x = s.focus))
     ∧ ((s.ctx k).wait = .join g m → s.joinOpen k g m = true →
         exec (.joinRelease k) s = .next (((s.on k).setCtx k
           { (s.ctx k).nextWait with
                          rounds := (s.ctx k).rounds.set g.toNat ((s.ctx k).rounds.get 0 g.toNat + 1) }).applyInvals (coreOf k))))
  ∧ (∀ (s : State) (i : BitVec 13) (a : BitVec 5) (v : W32),
       let c := s.cur
       let x := s.core (coreOf s.focus)
       c.sq.region = none →
       ∀ e ∈ ([(.ckpt i, 128 * i.toNat, .ckpt (128 * i.toNat) none), (.ckptR a, v.toNat, .ckpt v.toNat none),
               (.ckrs i, 128 * i.toNat, .ckrs (128 * i.toNat)), (.ckrsR a, v.toNat, .ckrs v.toNat)] : List (Instr × Nat × Eff)),
         (e.1 = .ckptR a ∨ e.1 = .ckrsR a → c.HoldsC a v) →
         let at' : Coord := ⟨(BitVec.ofNat 32 e.2.1).toInt, (c.icore : Nat), 0, 0⟩
         (e.2.1 % 128 = 0 → e.2.1 + 4096 ≤ x.scrSize → x.moving e.2.1 4096 = false → c.GateRoom 1 →
           exec e.1 s = .next (s.setCur (c.gated e.2.2)))
         ∧ (e.2.1 % 128 ≠ 0 → Takes e.1 s { Trap.mk' clsAccess 2 with handle := 0xFFFF, at' := at' })
         ∧ (e.2.1 % 128 = 0 → x.scrSize < e.2.1 + 4096 → Takes e.1 s { Trap.mk' clsAccess 6 with handle := 0xFFFF, at' := at' }))

/-- ROLLBACK (R112, R222): once no routine issued since the mark is left and no page that the context faulted on is on its way, the
context stands where its mark left it: the snapshot's address, loops, formats, lifts, generator and predicates, the logged
registers, the queues at their replay pointers, an empty gate buffer and no loads; the counts its SEMWs took are given back. That
the predicates come back from the mark's snapshot, whatever the log holds, is the model's choice (log entry 29). -/
def Obligations.Rollback : Prop :=
  ∀ (s : State) (k : Nat),
    let c := s.ctx k
    let n := c.seg.snap
    c.wait = .rewind → s.youngCalls k = false → s.awaitsMove k = false →
    ∃ t, exec (.rollback k) s = .next t ∧ t.mem = s.mem
      ∧ (t.ctx k).sq = { pc := n.pc, npc := n.pc, after := n.pc, loops := n.loops, rb := n.rb, lifts := n.lifts,
                         region := none, fmt := n.fmt, pend := n.pend, cd := n.cd }
      ∧ (t.ctx k).key = n.key ∧ (t.ctx k).ctr = n.ctr ∧ (t.ctx k).rounds = n.rounds ∧ (t.ctx k).files.p = n.preds
      ∧ (t.ctx k).fl.gate = [] ∧ (t.ctx k).fl.loads = [] ∧ (t.ctx k).seg.log = [] ∧ (t.ctx k).wait = .none
      ∧ (t.ctx k).fl.commits = c.fl.commits ∧ (t.ctx k).fsat = c.fsat ∧ (t.ctx k).accsat = c.accsat
      ∧ (t.ctx k).st = c.st ∧ (∀ q ∈ (t.ctx k).queues.qs, q.old = true ∧ q.kept = false)
      ∧ t.dist.sems = c.seg.semTaken.foldl (fun m e => semAdd m e.1 e.2) s.dist.sems
      ∧ ∀ j, j ≠ k → t.ctx j = s.ctx j

/-- A ROLLBACK UNDOES EVERY REGISTER WRITE of the open segment (R221, R222): from a mark, after any register writes that the log had
room for, the restored context reads in every file what it read at the mark. -/
def Obligations.RollbackRestoresRegisters : Prop :=
  ∀ (c c' : Ctx), c.frame = none → c.seg.log = [] → c.seg.snap = c.snapshot → Ctx.Wrote c c' →
    let f := c'.restore.files
    f.p = c.files.p ∧ ∀ n, f.c.get Reg.invalid n = c.files.c.get Reg.invalid n
      ∧ f.a.get Reg.invalid n = c.files.a.get Reg.invalid n ∧ f.s.get Reg.invalid n = c.files.s.get Reg.invalid n
      ∧ f.e.get Reg.invalid n = c.files.e.get Reg.invalid n ∧ f.x.get Reg.invalid n = c.files.x.get Reg.invalid n
      ∧ f.v.get TReg.invalid n = c.files.v.get TReg.invalid n ∧ f.w.get TReg.invalid n = c.files.w.get TReg.invalid n
      ∧ f.m.get TReg.invalid n = c.files.m.get TReg.invalid n ∧ f.t.get TReg.invalid n = c.files.t.get TReg.invalid n
      ∧ f.k.get Iter.invalid n = c.files.k.get Iter.invalid n

/-! ### Accesses -/

/-- TLD, TLD.R, TLDS and TLDS.R issue (R110, R187, R188, R209): a target that passes the checks of R187 puts one load in flight and
reserves one entry of its queue; under a lift, a weak vector load of a bound tensor reads one row for each example. Only the layout
units' words change besides. The checks of an access, in order (R187): handle 0xFFFF or 0 or past the table, class, width, position
outside the shape. -/
def Obligations.TensorLoadForms : Prop :=
  (∀ (s : State) (q : BitVec 2) (k w : BitVec 3) (a : BitVec 5) (r : BitVec 1) (it : Iter) (v : W64) (x : Coord),
     let c := s.cur
     ∀ e ∈ ([(.tld q k, c.targetOfK it, false, false, 0), (.tldR q a, targetOfA v, false, false, 0),
             (.tlds q k w r, c.targetOfK it, true, r == 1, w), (.tldsR q a w r, targetOfA v, true, r == 1, w)] :
             List (Instr × Target × Bool × Bool × BitVec 3)),
       let strong := e.2.2.1
       let ask : Ask := { cls := fun d => d.cls != 1, form := !strong || q == 0, width := fun d => !(d.mx && q == 0),
                          fmt := fun _ => true, align := mxAligned (q != 0) }
       let d := s.tensor e.2.1.h
       let ls := c.sq.lifts
       let rows := !ls.isEmpty && !strong && d.bnd && (q == 1 || q == 2)
       let xs := if rows then (List.range (axisSize ls (ls.length - 1))).map fun i => x.move d.bdim (i : Nat) else [x]
       let tag := if rows then innerTag ls else 0
       let c1 := c.reserved q s.nextId false tag (xs.length - 1)
       (e.1 = .tld q k ∨ e.1 = .tlds q k w r → c.HoldsK k it) → (e.1 = .tldR q a ∨ e.1 = .tldsR q a w r → c.HoldsA a v) →
       ask.Accepts s e.2.1 x → (∀ y ∈ xs, d.inside y = true ∧ ask.align d y = true) → c.SlotFree q → (xs.length ≤ 1 ∨ c1.backingOk = true) →
       ∃ lu, exec e.1 s = .next ((({ s with nextId := s.nextId + 1 }).setCur
         (c1.loading s.nextId q (.elems e.2.1.h xs) strong e.2.2.2.1 e.2.2.2.2 e.2.1.span)).withLu lu))
  ∧ (∀ (s : State) (q : BitVec 2) (a : BitVec 5) (v : W64),
       let t := targetOfA v
       let d := s.tensor t.h
       let raw : Coord := ⟨(BitVec.ofNat 32 t.off).toInt, 0, 0, 0⟩
       let fault (n : Nat) (x : Coord) : Trap := { Trap.mk' clsAccess n with handle := t.h, at' := x }
       s.cur.HoldsA a v →
       (t.h = 0xFFFF → Takes (.tldR q a) s (fault 4 raw))
       ∧ (t.h ≠ 0xFFFF → t.h = 0 ∨ (s.launchOf s.focus).tabLen ≤ t.h.toNat → Takes (.tldR q a) s (fault 5 raw))
       ∧ (handleOk (s.launchOf s.focus) t.h = true → s.DescReadable t.h →
           s.descOk (coreDie (coreOf s.focus)) (s.launchOf s.focus) d = true →
           (d.cls = 1 → Takes (.tldR q a) s (fault 4 (d.ofOffset t.off)))
           ∧ (d.cls ≠ 1 → d.mx = true → q = 0 → Takes (.tldR q a) s (fault 3 (d.ofOffset t.off)))
           ∧ (d.cls ≠ 1 → (d.mx = false ∨ q ≠ 0) → d.elems ≤ t.off → Takes (.tldR q a) s (fault 1 raw))))

/-- The stores of a tensor, of untagged data (R187, R189, R220): TST and TST.R, plain or reducing, and the strong TSTS forms gate
one store of the element that their target names. Stores of tagged data under a lift (R209, R210, R213): data tagged with exactly
the innermost axis and of the width of VS, to a bound tensor TST gates one store for each active example in ascending order, each at
its own row, and nothing at the base itself; to an unbound one the reducing form gates one store of the examples' sum; any other
tag, or the other form, is lift fault 3. That the access checks of the target come before lift fault 3 of a tag, and that the width
of VS is checked only of data that the binding takes, is the model's choice (log entry 37). -/
def Obligations.TensorStoreForms : Prop :=
  (∀ (s : State) (d a : BitVec 5) (k w : BitVec 3) (f : BitVec 2) (m r : BitVec 1) (it : Iter) (v : W64) (x : Coord)
     (y : TReg 1024) (c1 : Ctx),
     let c := s.cur
     ∀ e ∈ ([(.tst d k m f, c.targetOfK it, m == 1, false, false, 0), (.tstR d a m f, targetOfA v, m == 1, false, false, 0),
             (.tsts d k w r f, c.targetOfK it, false, true, r == 1, w),
             (.tstsR d a w r f, targetOfA v, false, true, r == 1, w)] :
             List (Instr × Target × Bool × Bool × Bool × BitVec 3)),
       let red := e.2.2.1
       let strong := e.2.2.2.1
       let vec := f != 0
       let ask : Ask := { cls := fun d => d.cls == 0 || d.cls == 3, form := (!strong || !vec) && (vec || !red),
                          width := fun d => vec || !d.mx, fmt := fun _ => true, align := mxAligned vec }
       let eff : Eff := .store (.tensor e.2.1.h x) vec y.val strong e.2.2.2.2.1 e.2.2.2.2.2
       (e.1 = .tst d k m f ∨ e.1 = .tsts d k w r f → c.HoldsK k it) →
       (e.1 = .tstR d a m f ∨ e.1 = .tstsR d a w r f → c.HoldsA a v) →
       c.StoreData f d y c1 → y.tag = 0 → ask.Accepts s e.2.1 x → c.GateRoom 1 → Gates e.1 s c1 eff)
  ∧ (∀ (s : State) (d a : BitVec 5) (k : BitVec 3) (m : BitVec 1) (f : BitVec 2) (it : Iter) (v : W64) (x : Coord) (y : TReg 1024)
       (c1 : Ctx),
       let c := s.cur
       let q := c.sq
       let ask : Ask := { cls := fun d => d.cls == 0 || d.cls == 3, form := true, width := fun _ => true, fmt := fun _ => true,
                          align := mxAligned true }
       let live := (List.range (axisSize q.lifts (q.lifts.length - 1))).filter fun e => q.active y.tag e
       ∀ e ∈ ([(.tst d k m f, c.targetOfK it), (.tstR d a m f, targetOfA v)] : List (Instr × Target)),
         let h := e.2.h
         let td := s.tensor h
         let eff (z : Coord) (w : VBits) : Eff := .store (.tensor h z) true w false false 0
         let row (i : Nat) : Coord := x.move td.bdim (i : Nat)
         (e.1 = .tst d k m f → c.HoldsK k it) → (e.1 = .tstR d a m f → c.HoldsA a v) → f ≠ 0 → c.StoreData f d y c1 → y.tag ≠ 0 →
         (ask.Serves s e.2 x → y.tag = innerTag q.lifts → (EFmt.ofCode (fmtVS q.fmt)).width = td.bits → m = 0 → td.bnd = true →
           (∀ i ∈ live, td.inside (row i) = true ∧ ask.align td (row i) = true) → c.GateRoom live.length →
           ∃ lu, exec e.1 s = .next ((s.setCur (live.foldl (fun c i => c.gated (eff (row i) (y.at' q.lifts y.tag i))) c1)).withLu lu))
         ∧ (ask.Accepts s e.2 x → y.tag = innerTag q.lifts → (EFmt.ofCode (fmtVS q.fmt)).width = td.bits → m = 1 → td.bnd = false →
           c.GateRoom 1 → ∀ w c2, reduceStore y q q.fmt c1 = .ok (w, c2) → Gates e.1 s c2 (eff x w))
         ∧ (ask.Accepts s e.2 x → y.tag ≠ innerTag q.lifts ∨ td.bnd = (m == 1) → Takes e.1 s (Trap.mk' clsLift 3)))

/-- The scratchpad accesses (R190, R193): SPLD of the own scratchpad fills its entry at once, readable 4 clocks later, with the
bytes of its scratchpad under the context's own earlier stores; of a peer's, or where an earlier access orders it behind, it is a
load in flight; SPST gates a store. The atomics (R187, R194 to R196): an AMO reads its source, CAS s[d] and s[d + 1]; each gates one
read-modify-write, and one that returns reserves an S queue entry that only its commit fills: out of service no pop takes it before.
The model's choices: an access that runs past the scratchpad's size issues, with free bytes past it (log entry 15), and the
scratchpad of a quarantined core reads as free bytes (log entry 70). -/
def Obligations.ScratchpadAndAtomicForms : Prop :=
  (∀ (s : State) (q f : BitVec 2) (k : BitVec 3) (a d : BitVec 5) (it : Iter) (v : W64) (p off : Nat) (y : TReg 1024) (c1 : Ctx),
     let c := s.cur
     let n := if q = 0 then 8 else 128
     (∀ e ∈ ([(.spld q k, c.targetOfK it), (.spldR q a, targetOfA v)] : List (Instr × Target)),
       (e.1 = .spld q k → c.HoldsK k it) → (e.1 = .spldR q a → c.HoldsA a v) →
       s.ScratchAt e.2 p off → s.ScratchOk p off n → c.SlotFree q →
       let own := p = coreOf s.focus
       let s1 := { s with nextId := s.nextId + 1 }
       let c2 := (c.reserved q s.nextId false 0 0).loading s.nextId q (.peer p off) false false 0 0
       let ld : Load := { id := s.nextId, q := q, seq := c.fl.seq + 1, kind := .peer p off, strong := false, acq := false, scope := 0,
                          pc := c.sq.pc, span := 0, got := none }
       let free := (s.core p).scrSize < off + n ∨ (s.core p).quarantined = true
       let data := bytesN (fun i => overlay (s.forwarded s.focus (c.fl.seq + 1)) (scrAddr p (off + i)) (s.scrByte s.focus p off n i)) 0 n
       (own → s.storesAhead s.focus = false → (s1.setCur c2).loadReady s.focus ld = true →
         exec e.1 s = .next (if free then { s1.setCur (c2.returned s.nextId (c.fl.now + 4) 0 [BitVec.ofNat 1024 data]) with
                                              free := s.free + 1 }
                             else (s1.setCur (c2.returned s.nextId (c.fl.now + 4) 0 [BitVec.ofNat 1024 data])).raced))
       ∧ (¬ own ∨ (s1.setCur c2).loadReady s.focus ld = false → exec e.1 s = .next (s1.setCur c2)))
     ∧ (∀ e ∈ ([(.spst d k f, c.targetOfK it), (.spstR d a f, targetOfA v)] : List (Instr × Target)),
       (e.1 = .spst d k f → c.HoldsK k it) → (e.1 = .spstR d a f → c.HoldsA a v) →
       s.ScratchAt e.2 p off → s.ScratchOk p off (if f = 0 then 8 else 128) → c.StoreData f d y c1 → y.tag = 0 → c.GateRoom 1 →
       exec e.1 s = .next (s.setCur (c1.gated (.store (.scr p off) (f != 0) y.val false false 0)))))
  ∧ (∀ (s : State) (d : BitVec 5) (k w : BitVec 3) (o : BitVec 2) (b t : BitVec 1) (it : Iter) (q y z : W64) (x : Coord) (c1 : Ctx),
       let c := s.cur
       let tgt := c.targetOfK it
       c.HoldsK k it →
       (∀ e ∈ ([(.amoAdd d k w o b t, .add, true), (.amoAnd d k w o b t, .and, false), (.amoOr d k w o b t, .or, false),
                (.amoXor d k w o b t, .xor, false), (.amoMin d k w o b t, .min, true), (.amoMax d k w o b t, .max, true),
                (.amoSwp d k w o b t, .swp, false)] : List (Instr × AmoOp × Bool)),
         c.PopsS [d] q c1 → c1.HoldsS q d y → (amoAsk (b == 1) e.2.2).Accepts s tgt x → c.GateRoom 1 →
         (t = 0 → let eff : Eff := .amo e.2.1 tgt.h x (b == 1) y none o w
           Gates e.1 s c1 eff)
         ∧ (t = 1 → c1.SlotFree 0 → let eff : Eff := .amo e.2.1 tgt.h x (b == 1) y (some s.nextId) o w
           ∃ lu, exec e.1 s = .next ((({ s with nextId := s.nextId + 1 }).setCur
             ((c1.reserved 0 s.nextId c.frame.isNone 0 0).gated eff)).withLu lu)))
       ∧ (∀ e ∈ ([(.cas d k w o, false), (.casD d k w o, true)] : List (Instr × Bool)),
         d ≠ 31 → d ≠ 30 → c.regS d.toNat = ⟨true, y⟩ → c.regS (d + 1).toNat = ⟨true, z⟩ → (amoAsk e.2 false).Accepts s tgt x →
         c.SlotFree 0 → c.GateRoom 1 →
         let eff : Eff := .cas tgt.h x e.2 y z s.nextId o w
         ∃ lu, exec e.1 s = .next ((({ s with nextId := s.nextId + 1 }).setCur
           ((c.reserved 0 s.nextId c.frame.isNone 0 0).gated eff)).withLu lu)))

/-- Iterators (R182, R184, R185, R263): AITER.H resets one to a handle and the coordinate of its offset, or, of a handle past the
table, to the offset's low bits; AITER.B, AITER.S, AIREV, SPAN and SPAN.CLR change the fields they name and no other; AITER.RD reads
them back. TDSC, TDSC.Q and TDSC.W (R199): handle and element offset of an iterator's coordinate; a descriptor word by a load; a
descriptor word written at the next commit, in privileged mode only. That AITER.H cuts its coordinates to 32 bits and treats a zero
shape as no descriptor is the model's choice (log entry 97). -/
def Obligations.IteratorAndDescriptorForms : Prop :=
  (∀ (s : State) (k j : BitVec 3) (a d cc : BitVec 5) (h : BitVec 1) (m n : BitVec 6) (it : Iter) (v : W64),
     let c := s.cur
     let lo : W32 := v.setWidth 32
     let hi : W32 := (v >>> 32).setWidth 32
     let word (u w : W32) : W64 := w ++ u
     c.Room (c.savedK k) →
     (c.HoldsA a v → handleOf v = 0xFFFF → exec (.aiterH k a) s = .next (s.setCur (c.putK k
       { valid := true, handle := handleOf v, b0 := BitVec.ofNat 32 (v.toNat % 2 ^ 19),
         b1 := BitVec.ofNat 32 (v.toNat / 2 ^ 19 % 2 ^ 6), b2 := BitVec.ofNat 32 (v.toNat / 2 ^ 25 % 2 ^ 23), b3 := 0, str := [],
         rev := 0, span := 0 })))
     ∧ (c.HoldsA a v → handleOf v ≠ 0xFFFF → handleOk (s.launchOf s.focus) (handleOf v) = false →
         exec (.aiterH k a) s = .next (s.setCur (c.putK k
           { valid := true, handle := handleOf v, b0 := lo, b1 := 0, b2 := 0, b3 := 0, str := [], rev := 0, span := 0 })))
     ∧ (c.HoldsA a v → handleOk (s.launchOf s.focus) (handleOf v) = true →
         addrOk (descAddr (s.launchOf s.focus) (handleOf v)) 128 = true →
         s.descOk (coreDie (coreOf s.focus)) (s.launchOf s.focus) (s.tensor (handleOf v)) = true →
         let x := (s.tensor (handleOf v)).ofOffset (offsetOf v)
         ∃ lu, exec (.aiterH k a) s = .next ((s.setCur (c.putK k
           { valid := true, handle := handleOf v, b0 := BitVec.ofInt 32 x.c0, b1 := BitVec.ofInt 32 x.c1,
             b2 := BitVec.ofInt 32 x.c2, b3 := BitVec.ofInt 32 x.c3, str := [], rev := 0, span := 0 })).withLu lu))
     ∧ (c.HoldsK k it →
         (c.HoldsA a v →
           exec (.aiterB k a 0) s = .next (s.setCur (c.putK k { it with b0 := lo, b1 := hi }))
           ∧ exec (.aiterB k a 1) s = .next (s.setCur (c.putK k { it with b2 := lo, b3 := hi }))
           ∧ exec (.aiterS k a j h) s = .next (s.setCur (c.putK k
               { it with str := (it.str.set (4 * j.toNat + 2 * h.toNat) lo).set (4 * j.toNat + 2 * h.toNat + 1) hi })))
         ∧ exec (.airev k m) s = .next (s.setCur (c.putK k { it with rev := m }))
         ∧ (n.toNat ≤ 32 → exec (.span k n) s = .next (s.setCur (c.putK k { it with span := n })))
         ∧ exec (.spanClr k) s = .next (s.setCur (c.putK k { it with span := 0 })))
     ∧ (c.HoldsK k it → c.Room (c.savedA d) → cc.toNat ≤ 15 →
         let out := if cc = 0 then it.handle.setWidth 64 <<< 48 else if cc = 1 then word it.b0 it.b1
           else if cc = 2 then word it.b2 it.b3 else if cc = 3 then it.rev.setWidth 64
           else word (it.str.get 0 (2 * (cc.toNat - 4))) (it.str.get 0 (2 * (cc.toNat - 4) + 1))
         exec (.aiterRd d k cc) s = .next (s.setCur (c.putA d out))))
  ∧ (∀ (s : State) (d a b : BitVec 5) (k : BitVec 3) (n : BitVec 4) (it : Iter) (u v : W64) (x : Coord),
       let c := s.cur
       let any : Ask := { cls := fun _ => true, form := true, width := fun _ => true, fmt := fun _ => true, align := fun _ _ => true }
       (c.HoldsK k it → any.Accepts s (c.targetOfK it) x → c.Room (c.savedA d) →
         ∃ lu, exec (.tdsc d k) s = .next ((s.setCur (c.putA d
           ((it.handle.setWidth 64 <<< 48) ||| BitVec.ofNat 64 ((s.tensor it.handle).offset x % 2 ^ 48)))).withLu lu))
       ∧ (c.HoldsA a v → handleOk (s.launchOf s.focus) (handleOf v) = true →
           (c.SlotFree 0 → exec (.tdscQ n a) s = .next (({ s with nextId := s.nextId + 1 }).setCur
             ((c.reserved 0 s.nextId false 0 0).loading s.nextId 0 (.desc (handleOf v) n.toNat) false false 0 0)))
           ∧ (c.priv = true → c.HoldsA b u → c.GateRoom 1 →
               exec (.tdscW n a b) s = .next (s.setCur (c.gated (.tdscW (handleOf v) n.toNat u)))))
       ∧ (c.priv = false → Takes (.tdscW n a b) s (Trap.mk' clsPrivilege 0)))

/-- The fences (R78, R79, R81, R198): FENCE, FENCE.ST, XFENCE and DRAIN complete in every state, and DRAIN_COMPLETE where what is
committed is performed: each takes its place in program order; XFENCE performs the writes of the engine class that a wait form has
seen complete, and later loads of class CORE see them; XFENCE CORE, GATH lets the context's later gathers miss no performed store;
DRAIN also holds the next bundle until what is committed is performed. PREF and PREF.L2 complete, never fault and change no register
(R132, R197): a target that a check refuses is dropped, and PREF in a PHASE of the core; a prefetch changes no byte of memory where
no L1 holds a dirty sector, and PREF.L2 none at all. -/
def Obligations.FencesAndPrefetches : Prop :=
  (∀ (s : State) (w x y : BitVec 3) (k : Nat),
     let c := s.cur
     let n := c.fl.seq + 1
     let fenced (d : Ctx) (f : FenceKind) (sc : BitVec 3) (met : Bool) : Ctx :=
       { d with fl := { d.fl with seq := n, fences := d.fl.fences ++ [⟨n, if d.frame.isSome then n else d.fl.markSeq, f, sc, met⟩] } }
     let seen : State :=
       { s with mp := { s.mp with unperf := settle (fun e => e.ctx == s.focus && e.cls == x && e.seen) [] s.mp.unperf } }
     let gathers : Ctx := if x = 0 ∧ y = 2 then { c with fl := { c.fl with gath := s.tick } } else c
     exec (.fence w) s = .next (s.setCur (fenced c .full w (w == 0))) ∧ exec (.fenceSt w) s = .next (s.setCur (fenced c .st w true))
     ∧ exec (.xfence x y) s
         = .next ((if y = 0 then seen.applyInvals (coreOf s.focus) else seen).setCur (fenced gathers (.x x y) 3 true))
     ∧ exec (.drain w) s = .next (s.setCur ((fenced c .full w (w == 0)).waits .drain))
     ∧ ((s.ctx k).wait = .drain → s.drained k = true →
         exec (.drainComplete k) s = .next (s.setCtx k (s.ctx k).nextWait)))
  ∧ (∀ (s : State) (k : BitVec 3) (it : Iter), s.cur.HoldsK k it →
       let l := s.launchOf s.focus
       let x := iterCoord s.cur.sq it
       let ok := prefetchOk s (coreDie (coreOf s.focus)) l it.handle x
       let d := s.tensor it.handle
       let same (t : State) : Prop :=
         ∀ j, (t.ctx j).files = (s.ctx j).files ∧ (t.ctx j).queues = (s.ctx j).queues ∧ (t.ctx j).sq = (s.ctx j).sq
       (ok = false → exec (.pref k) s = .next (s.setCur s.cur) ∧ exec (.prefL2 k) s = .next (s.setCur s.cur))
       ∧ ((s.core (coreOf s.focus)).phase ≠ none → exec (.pref k) s = .next (s.setCur s.cur))
       ∧ (ok = true → s.UnitsReadable it.handle (d.units x d.perVec) →
           (∃ t, exec (.prefL2 k) s = .next t ∧ t.mem = s.mem ∧ same t)
           ∧ ((s.core (coreOf s.focus)).phase = none → ∃ t, exec (.pref k) s = .next t ∧ same t
               ∧ ((∀ n, ∀ b ∈ (s.core n).blocks, b.dirty = 0) → t.mem = s.mem))))

/-- APPEND, APPEND.R and SEAL at issue (R269, R270, R273, R274): untagged data for a page that is Open is one gated effect, with a
reserved qs entry where it returns; a page that is Sealing or Sealed is a write after seal; tagged data is lift fault 3. -/
def Obligations.AppendAndSeal : Prop :=
  ∀ (s : State) (d a : BitVec 5) (k w : BitVec 3) (r t : BitVec 1) (f : BitVec 2) (it : Iter) (v : W64) (x : Coord) (y : TReg 1024) (c1 : Ctx),
    let c := s.cur
    let die := coreDie (coreOf s.focus)
    let gates (i : Instr) (c1 : Ctx) (e : Option Nat → Eff) : Prop :=
      (t = 0 → Gates i s c1 (e none))
      ∧ (t = 1 → c1.SlotFree 0 → ∃ lu, exec i s = .next ((({ s with nextId := s.nextId + 1 }).setCur
          ((c1.reserved 0 s.nextId c.frame.isNone 0 0).gated (e (some s.nextId)))).withLu lu))
    (∀ e ∈ ([(.append d k w r t f, c.targetOfK it), (.appendR d a w r t f, targetOfA v)] : List (Instr × Target)),
      let td := s.tensor e.2.h
      let en := s.entry die td (td.tileNo x)
      (e.1 = .append d k w r t f → c.HoldsK k it) → (e.1 = .appendR d a w r t f → c.HoldsA a v) →
      c.StoreData f d y c1 → appendAsk.Accepts s e.2 x → addrOk (td.entryAddr (td.tileNo x)) 16 = true → c.GateRoom 1 →
      (y.tag ≠ 0 → Takes e.1 s (Trap.mk' clsLift 3))
      ∧ (y.tag = 0 → en.p = true ∧ (en.apst = 1 ∨ en.apst = 2) →
          Takes e.1 s { Trap.mk' clsSealed 0 with handle := e.2.h, at' := x })
      ∧ (y.tag = 0 → ¬ (en.p = true ∧ (en.apst = 1 ∨ en.apst = 2)) →
          gates e.1 c1 fun id => .append e.2.h x (if f = 0 then td.bits / 8 else 128) y.val id (r == 1) w))
    ∧ (c.HoldsK k it → appendAsk.Accepts s (c.targetOfK it) x → c.GateRoom 1 →
        gates (.seal k t) c fun id => .seal it.handle x id)

/-- The range flushes and invalidations (R248, R259, R264, R265): FLUSHR writes back the dirty sectors of the range in the core's
L1, which stay, clean; FLUSHR.D also returns fully covered pages to untouched; INVR discards the core's blocks of the range,
unwritten; INVR with T = 1 and INVR.TT hold the next bundle until the layout units have given the tensor up. That INVR.TT takes the
words of a filter tensor too, and what an invalidation waits for, is the model's choice (log entry 35). -/
def Obligations.FlushAndInvalidate : Prop :=
  ∀ (s : State) (a b : BitVec 5) (u v : W64) (k : Nat),
    let c := s.cur
    let z := coreOf s.focus
    let die := coreDie z
    let h := handleOf u
    let off := offsetOf u
    let n := offsetOf v
    let d := s.tensor h
    let secs := s.rangeSectors die d off n
    let x := s.core z
    let bs := x.blocks.filter fun b => b.meetsAny secs
    let y : Core := { x with l1 := x.l1.map fun e => (e.1, e.2.map (Block.cleaned secs)) }
    let inval (tiles : List Nat) : Inval :=
      { id := s.nextId, who := .ctx s.focus,
        words := (descAddr (s.launchOf s.focus) h, 128) :: tiles.map fun t => (d.entryAddr t, 16),
        entries := tiles.map d.entryAddr, pages := [] }
    let mapped := handleOk (s.launchOf s.focus) h = true ∧ s.DescReadable h
      ∧ s.descOk die (s.launchOf s.focus) d = true
    (c.HoldsA a u → c.HoldsA b v →
      (n = 0 → exec (.flushr a b) s = .next (s.setCur c) ∧ exec (.flushrD a b) s = .next (s.setCur c)
        ∧ exec (.invr a b 0) s = .next (s.setCur c) ∧ exec (.invr a b 1) s = .next (s.setCur c))
      ∧ (n ≠ 0 → mapped → d.cls ≠ 1 → d.elems < off + n →
          Takes (.flushr a b) s { Trap.mk' clsAccess 1 with handle := h, at' := ⟨(BitVec.ofNat 32 off).toInt, 0, 0, 0⟩ })
      ∧ (n ≠ 0 → mapped → d.cls ≠ 1 → off + n ≤ d.elems →
          (∀ t ∈ rangeTiles d off n, addrOk (d.entryAddr t) 16 = true) →
          (∃ t, exec (.flushr a b) s = .next t ∧ t.mem = bs.foldl writeBack s.mem ∧ t.core z = y ∧ t.ctxs = (s.setCur c).ctxs
              ∧ ∀ f, t.page f = s.page f)
          ∧ (∃ t, exec (.flushrD a b) s = .next t ∧ t.mem = bs.foldl writeBack s.mem ∧ t.core z = y ∧ t.ctxs = (s.setCur c).ctxs
              ∧ ∀ f ∈ fullPages secs, t.page f = PageDir.untouched)
          ∧ (∃ t, exec (.invr a b 0) s = .next t ∧ t.mem = s.mem ∧ t.core z = x.dropBlocks (fun b => b.meetsAny secs)
              ∧ t.ctxs = (s.setCur c).ctxs ∧ ∀ f ∈ fullPages secs, t.page f = PageDir.untouched)
          ∧ (d.cls ≠ 2 → ∃ t, exec (.invr a b 1) s = .next t ∧ t.mem = s.mem ∧ t.core z = x.dropBlocks (fun b => b.meetsAny secs)
              ∧ t.cur = c.waits (.inval s.nextId) ∧ t.mp.pend = s.mp.pend ++ [inval (rangeTiles d off n)])))
    ∧ (c.priv = false → Takes (.invrTt a) s (Trap.mk' clsPrivilege 0))
    ∧ (c.priv = true → c.HoldsA a u → handleOk (s.launchOf s.focus) h = true → s.DescReadable h → d.cls ≠ 2 →
        ∃ lu, exec (.invrTt a) s = .next ((({ s with
          nextId := s.nextId + 1, mp := { s.mp with pend := s.mp.pend ++ [inval (List.range d.count)] } }).setCur (c.waits (.inval s.nextId))).withLu lu))
    ∧ (∀ v, findBy (fun v => v.ofCtx k && s.invalReady v) s.mp.pend = some v →
        ∃ t, exec (.invalidationComplete k) s = .next t ∧ t.mem = s.mem ∧ t.ctx k = (s.ctx k).lessWait (.inval v.id)
          ∧ t.mp.pend = delBy (fun p => p.id == v.id) s.mp.pend
          ∧ ∀ dd < 4, ∀ w ∈ v.words, ∀ i < w.2, t.mp.lu.find? (luKey dd (w.1 + i)) = none)

/-! ### The truss -/

/-- Gathers into a slab buffer (R288, R289): MGATH.A and .B take 16 rows of 128 bytes, MGATH.AT and .BT one region row for each
element of the slab row, of which row r of the buffer holds element r; MLDB takes 16 entries of the context's qx, and ends the
routine, starved, where fewer stand. The MCVT forms (R292): each row of the tile, converted, is in the scratchpad at its stride; no
other byte changes. -/
def Obligations.MicroGathersAndConverts : Prop :=
  (∀ (s : State) (m : Micro) (b : BitVec 1) (x : BitVec 3) (o : BitVec 16) (st es ls : BitVec 12) (v : Nat → Nat), s.Runs m →
     let c := s.core m.c
     let add (r : Nat) : Nat := 8 * o.toNat + 8 * st.toNat * r + 128 * es.toNat * m.r.ex + 128 * ls.toNat * m.n
     (s.mp.unperf = [] → (∀ r < 16, s.TrussReads m.r.call (m.x x) (add r) 128 (v r)) →
       let rows := (List.range 16).map fun r => BitVec.ofNat 1024 (v r)
       ∀ e ∈ ([(.mgathA b x o st es ls, 0), (.mgathB b x o st es ls, 1)] : List (Instr × Nat)),
         ∃ n, exec e.1 s = .next (s.setCore m.c ((c.filled e.2 b.toNat rows).went m.r n)))
     ∧ (∀ e ∈ ([(.mgathAt b x o st es ls, 0, fmtTA m.fmt), (.mgathBt b x o st es ls, 1, fmtTB m.fmt)] : List (Instr × Nat × Nat)),
         let w := trussWidth e.2.2
         let n := 32 * slabBlocks e.2.2
         s.mp.unperf = [] → (∀ k < n, s.TrussReads m.r.call (m.x x) (add k) (2 * w) (v k)) →
         ∃ rows k, exec e.1 s = .next (s.setCore m.c ((c.filled e.2.1 b.toNat rows).went m.r k)) ∧ rows.length = 16
           ∧ ∀ r < 16, ∀ j < n, ∀ q, rows[r]? = some q → elem w q j = v j / 2 ^ (w * r) % 2 ^ w)
     ∧ (let y := s.ctx m.r.call.ctx
        ∀ e ∈ ([(.mldbA b, 0), (.mldbB b, 1)] : List (Instr × Nat)), y.fl.calls.contains m.r.call.id = true →
         (16 ≤ y.queues.xAvail → (∀ q ∈ y.queues.qx, q.data ≠ none ∧ q.readyAt ≤ c.clk) →
           let t := takeEntries 16 y.queues.qx
           exec e.1 s = .next ((s.setCtx m.r.call.ctx { y with queues := { y.queues with qx := t.2 } }).setCore m.c
             ((c.filled e.2 b.toNat (t.1.map fun q => q.data.getD 0)).went m.r 16)))
         ∧ (y.queues.xAvail < 16 → exec e.1 s = .next (s.setCore m.c
             { c with run := some { m.r with starved := true, rest := [], done := true } }))))
  ∧ (∀ (s : State) (m : Micro) (t : BitVec 4) (x : BitVec 3) (o : BitVec 16) (st : BitVec 12) (p base : Nat), s.Runs m → s.Inv →
       ∀ e ∈ ([(.mcvtBf16 t x o st, bf16), (.mcvtF16 t x o st, fp16), (.mcvtE4m3 t x o st, e4m3), (.mcvtE5m2 t x o st, e5m2)] :
           List (Instr × FFmt)),
         let n := 2 * e.2.width
         let row (i : Nat) : Nat := scrAddr p (base + 8 * st.toNat * i)
         n ≤ 8 * st.toNat → p < numCores →
         (∀ i < 16, s.trussAddr m.r.call (m.x x) (8 * o.toNat + 8 * st.toNat * i) n = some (p, base + 8 * st.toNat * i)) →
         base + 120 * st.toNat + n ≤ (s.core p).scrSize →
         let rm := if fmtRM m.fmt = .sr then .rne else fmtRM m.fmt
         ∃ t', exec e.1 s = .next t' ∧ t'.core m.c = (s.core m.c).went m.r 16 ∧ t'.ctxs = s.ctxs
           ∧ (∀ i < 16, ∀ j < 16, Mem.getN t'.mem (row i) n / 2 ^ (e.2.width * j) % 2 ^ e.2.width
               = convert (.flt fp32) (.flt e.2) rm (fmtSAT m.fmt) (fmtFTZ m.fmt) 0 (tileElem (m.tile s t.toNat) i j) % 2 ^ e.2.width)
           ∧ ∀ a, (∀ i < 16, a < row i ∨ row i + n ≤ a) → Mem.get t'.mem a = Mem.get s.mem a)

/-- The MMAC forms (R68, R282, R290): the word multiplies the block of both buffers that its progress names into the tile, two
blocks of MXFP4, skipping blocks beyond the slab; before the first, .Z clears the tile and .D decays it; a saturated sum raises
ACCSAT; after the last, the run moves on. The MACC forms (R68, R291) write the caller's tile from TD and TS in the accumulation mode
of the call, raise ACCSAT for a saturated element, and change no other tile. -/
def Obligations.MicroMultiplyAccumulate : Prop :=
  (∀ (s : State) (m : Micro) (a b : BitVec 1) (t : BitVec 4) (z n : BitVec 3) (g : BitVec 13), s.Runs m → m.Owns s t.toNat →
     let c := s.core m.c
     let k := m.r.call.ctx
     let y := s.ctx k
     let acc := fmtACC m.fmt
     let fa := fmtTA m.fmt
     let fb := fmtTB m.fmt
     ∀ e ∈ ([(.mmacI8 a b t z n, 0, 0, .keep), (.mmacI6 a b t z n, 1, 1, .keep), (.mmacI4 a b t z n, 2, 2, .keep),
             (.mmacF4 a b t z n, 3, 3, .keep), (.mmacI16 a b t z n, 4, 4, .keep), (.mmacF a b t z n, fa, fb, .keep),
             (.mmacFZ a b t z n, fa, fb, .zero), (.mmacFD a b t z n g, fa, fb, .decay g.toNat)] :
             List (Instr × Nat × Nat × MmacPre)),
       let u := e.2.1
       let w := e.2.2.1
       let live := min (n.toNat + 1) (min (slabBlocks u) (slabBlocks w) - z.toNat)
       let todo := min (if u = 3 then 2 else 1) (live - m.r.blk)
       let old := m.tile s t.toNat
       let start : TBits × Bool := if m.r.blk = 0 then
           (match e.2.2.2 with
             | .keep => (old, false)
             | .zero => (0, false)
             | .decay g => MaccOp.tile (.dcy g) acc old old)
         else (old, false)
       let out := (List.range todo).foldl (fun (p : TBits × Bool) i =>
         let r := c.mmacBlock acc u w a.toNat b.toNat (z.toNat + m.r.blk + i) p.1
         (r.1, p.2 || r.2)) start
       ∃ t', exec e.1 s = .next t' ∧ t'.mem = s.mem ∧ (t'.ctx k).regT t.toNat = m.withCopy y out.1 (y.regT t.toNat)
         ∧ (∀ i, i ≠ t.toNat → (t'.ctx k).regT i = y.regT i) ∧ (t'.ctx k).accsat = (y.accsat || out.2)
         ∧ (live ≤ m.r.blk + todo → ∃ d, t'.core m.c = c.went m.r d)
         ∧ (m.r.blk + todo < live → ∃ d, t'.core m.c = { c with run := some { m.r with blk := m.r.blk + todo, freeAt := c.clk + d } }))
  ∧ (∀ (s : State) (m : Micro) (d r : BitVec 4) (g : BitVec 13), s.Runs m → m.Owns s d.toNat →
       let k := m.r.call.ctx
       let y := s.ctx k
       ∀ e ∈ ([(.maccAdd d r, .add, r), (.maccSub d r, .sub, r), (.maccMov d r, .mov, r), (.maccDcy d g, .dcy g.toNat, d),
               (.maccMax d r, .maximum, r), (.maccZero d, .zero, d)] : List (Instr × MaccOp × BitVec 4)),
         let out := e.2.1.tile (fmtACC m.fmt) (m.tile s d.toNat) (m.tile s e.2.2.toNat)
         ∃ t, exec e.1 s = .next t ∧ t.mem = s.mem ∧ (t.ctx k).regT d.toNat = m.withCopy y out.1 (y.regT d.toNat)
           ∧ (∀ i, i ≠ d.toNat → (t.ctx k).regT i = y.regT i) ∧ (t.ctx k).accsat = (y.accsat || out.2)
           ∧ t.core m.c = (s.core m.c).went m.r 16)

/-- The scale words (R296, R298): MSCL takes the words of N + 1 blocks from scratchpad, MSCM from the group's scale memory, B after
A in the .AB forms; MSCL.CLR leaves every latch at 1.0; MSCM.ST writes the latches' words to scale memory, A before B. The scale
forms (R296 to R298, R308): ESCL and ESCL.I set the 16 latches of a side and block from E8M0 codes six clocks later; a count of 0
does nothing; ESCM loads scale memory from an n32 tensor through the call queue; ESCM.ST gates the store of its range. That MSCM.ST
writes its words in the format of its side is the model's choice (log entry 43). -/
def Obligations.ScaleWordForms : Prop :=
  (∀ (s : State) (m : Micro) (x : BitVec 3) (o : BitVec 16) (i : BitVec 12) (z n : BitVec 3) (v u : Nat → Nat), s.Runs m →
     let c := s.core m.c
     let a := s.core (anchorOf m.c)
     let N := n.toNat + 1
     let latches (side : Nat) (w : Nat → Nat → Nat) : List (Nat × BitVec 20) :=
       ((List.range N).map fun k => (List.range 16).map fun j =>
         (latchKey side j (z.toNat + k), latchOf (m.side side) (w k j))).flatten
     let word (v : Nat → Nat) (k j : Nat) : Nat := v k / 2 ^ (32 * j) % 2 ^ 32
     let smem (off k j : Nat) : Nat := (a.smem.get 0 ((i.toNat + off + 16 * k + j) % 4096)).toNat
     (s.mp.unperf = [] →
       (∀ k < N, s.TrussReads m.r.call (m.x x) (8 * o.toNat + 64 * k) 64 (v k)) →
       (∃ d, exec (.msclA x o z n) s = .next (s.setCore m.c ((c.latched (latches 0 (word v))).went m.r d)))
       ∧ (∃ d, exec (.msclB x o z n) s = .next (s.setCore m.c ((c.latched (latches 1 (word v))).went m.r d)))
       ∧ ((∀ k < N, s.TrussReads m.r.call (m.x x) (8 * o.toNat + 64 * N + 64 * k) 64 (u k)) →
           ∃ d, exec (.msclAb x o z n) s = .next (s.setCore m.c
             (((c.latched (latches 0 (word v))).latched (latches 1 (word u))).went m.r d))))
     ∧ (a.smemOld = [] →
       (∃ d, exec (.mscmA i z n) s = .next (s.setCore m.c ((c.latched (latches 0 (smem 0))).went m.r d)))
       ∧ (∃ d, exec (.mscmB i z n) s = .next (s.setCore m.c ((c.latched (latches 1 (smem 0))).went m.r d)))
       ∧ (∃ d, exec (.mscmAb i z n) s = .next (s.setCore m.c
           (((c.latched (latches 0 (smem 0))).latched (latches 1 (smem (16 * N)))).went m.r d))))
     ∧ exec .msclClr s = .next (s.setCore m.c ({ c with latch := [] }.went m.r 1))
     ∧ (∃ t, exec (.mscmSt i z n) s = .next t ∧ t.mem = s.mem ∧ t.ctxs = s.ctxs
         ∧ ∀ k < N, ∀ j < 16,
           (t.core (anchorOf m.c)).smem.get 0 ((i.toNat + 16 * k + j) % 4096)
             = wordOf (m.side 0) (c.latchAt (latchKey 0 j (z.toNat + k)))
           ∧ (t.core (anchorOf m.c)).smem.get 0 ((i.toNat + 16 * N + 16 * k + j) % 4096)
             = wordOf (m.side 1) (c.latchAt (latchKey 1 j (z.toNat + k)))))
  ∧ (∀ (s : State) (w : BitVec 1) (k : BitVec 3) (a b : BitVec 5) (i : BitVec 8) (x y : W64),
       let c := s.cur
       let z := coreOf s.focus
       let later (f : Nat → Nat) : List (Nat × Nat × BitVec 20) :=
         (List.range 16).map fun j => (c.fl.now + 6, latchKey w.toNat j k.toNat, BitVec.ofNat 20 (f j % 256 * 4096))
       let code (j : Nat) : Nat := if j < 8 then x.toNat / 2 ^ (8 * j) % 256 else y.toNat / 2 ^ (8 * (j - 8)) % 256
       let idx := y.toNat % 4096
       let n := y.toNat / 65536 % 8192
       (c.HoldsE a x → c.HoldsE b y →
         exec (.escl w k a b) s = .next ((s.setCur c).setCore z { s.core z with esclQ := (s.core z).esclQ ++ later code }))
       ∧ exec (.esclI w k i) s = .next (s.setCore z { s.core z with esclQ := (s.core z).esclQ ++ later fun _ => i.toNat })
       ∧ (c.HoldsE a x → c.HoldsE b y → n = 0 → exec (.escm a b) s = .next (s.setCur c) ∧ exec (.escmSt a b) s = .next (s.setCur c))
       ∧ (c.HoldsE a x → c.HoldsE b y → s.RangeOk x 10 n false →
           (n ≠ 0 → s.CallRoom →
               ∃ lu, exec (.escm a b) s = .next (((s.called (.scaleLoad (handleOf x) (offsetOf x) idx n) 0).setCur s.calling).withLu lu))
           ∧ (n ≠ 0 → c.GateRoom 1 → Gates (.escmSt a b) s c (.escmSt (handleOf x) (offsetOf x) idx n))))

/-- Micro-loops and the end of a routine (R285, R293, R294): a count of 0 skips the body, any other opens a level; MLOOP.K counts
the slabs that cover x[XR] elements; MEND turns to the next example, or finishes; the others take one word. -/
def Obligations.MicroControl : Prop :=
  ∀ (s : State) (m : Micro) (x : BitVec 3) (k n : BitVec 12), s.Runs m →
    let c := s.core m.c
    let r := m.r
    let ran (r' : Run) : State := s.setCore m.c { c with run := some r' }
    let synced : State := { s with mp := { s.mp with unperf := s.mp.unperf.map fun w =>
      if w.cls == 2 && w.id == r.call.id then { w with synced := true } else w } }
    (∀ e ∈ ([(.mloop k n, k.toNat), (.mloopP x n, (m.x x).toNat % 2 ^ 32),
             (.mloopK x n, ((m.x x).toNat % 2 ^ 32 + 32 * slabBlocks (fmtTA m.fmt) - 1) / (32 * slabBlocks (fmtTA m.fmt)))] :
             List (Instr × Nat)),
      let last := r.pc + 1 + n.toNat
      if e.2 = 0 then exec e.1 s = .next (ran (r.next last (c.clk + 1)))
      else exec e.1 s = .next (ran { r with pc := r.pc + 1, blk := 0, freeAt := c.clk + 1,
                                            loops := ⟨r.pc + 1, last, e.2, 0⟩ :: r.loops }))
    ∧ (r.rest = [] → exec .mend s = .next (ran { r with done := true, loops := [], freeAt := c.clk + 1 }))
    ∧ (∀ q f xs g exs e es, r.call.kind = .routine q f xs g exs → r.rest = e :: es →
        exec .mend s = .next (ran { r with ex := e, rest := es, pc := (Routine.parse (c.store.get 0 q.toNat)).start,
                                           loops := [], blk := 0, freeAt := c.clk + 1 }))
    ∧ exec .mnop s = .next (s.setCore m.c (c.went r 1)) ∧ exec .msyncG s = .next (s.setCore m.c (c.went r 1))
    ∧ exec .msyncS s = .next (synced.setCore m.c (c.went r 1)) ∧ exec .msyncAll s = .next (synced.setCore m.c (c.went r 1))

/-- XCALL and XCALL.R (R62, R215, R284, R300): with an accepted format pair, a present routine, the registers it reads valid and a
free place in the queue, the call captures fmt, the x registers, the tag and its active examples, keeps its tiles busy, and makes
every tile it writes valid with the call's tag; more copies of such a tile than the backing holds are lift fault 1. A refused pair
and an absent routine are illegal instructions. That the trap of a refused pair has subcode 0 is the model's choice (log entry 42).
-/
def Obligations.RoutineCalls : Prop :=
  ∀ (s : State) (r : BitVec 6) (a : BitVec 5) (v : W64),
    let c := s.cur
    let f := c.sq.fmt
    ∀ i ∈ ([(.xcall r, r.toNat), (.xcallR a, v.toNat % 64)] : List (Instr × Nat)), (i.1 = .xcallR a → c.HoldsX a v) →
      let e := Routine.parse ((s.core (coreOf s.focus)).store.get 0 i.2)
      (pairOk (fmtTA f) (fmtTB f) = false → Takes i.1 s (Trap.mk' clsIllegal 0))
      ∧ (pairOk (fmtTA f) (fmtTB f) = true → e.v = false →
          Takes i.1 s { Trap.mk' clsIllegal 2 with value := BitVec.ofNat 64 i.2 })
      ∧ (pairOk (fmtTA f) (fmtTB f) = true → e.v = true →
          (∀ t < 16, e.rt.getLsbD t = true → (c.regT t).valid = true) →
          (∀ x < 8, e.xr.getLsbD x = true → (c.regX x).valid = true) → s.CallRoom →
          let tag := (bitsOf (e.rt ||| e.wt)).foldl (fun m t => m ||| (if (c.regT t).valid then (c.regT t).tag else 0))
            c.sq.regionTag
          let n := exCount c.sq.lifts tag
          let old (t : Nat) (j : Nat) : TBits := if (c.regT t).valid then (c.regT t).at' c.sq.lifts tag j else 0
          let ws := (bitsOf e.wt).map fun t => (t, TReg.ofExamples tag ((List.range n).map (old t)))
          let t := (s.called (.routine (BitVec.ofNat 6 i.2) f ((List.range 8).map fun x => (c.regX x).val) tag
            ((List.range n).filter fun j => c.sq.active tag j)) (e.rt ||| e.wt)).setCur (s.calling.putTs ws)
          (e.wt = 0 ∨ n ≤ 49 → s.calling.TakesTs ws → t.SlotsOk → exec i.1 s = .next t)
          ∧ (e.wt ≠ 0 → 49 < n → Takes i.1 s (Trap.mk' clsLift 1)))

/-- X registers and tiles by the X lane (R301 to R303): XSET and XSET.R; XZERO clears one tile and XZERO.ALL all, untagged; XACC,
XACC.SUB, XACC.MOV and XDCY work example by example in saturating mode, keep the old tile of an inactive example, and raise ACCSAT
for a saturated element. XSPL and XFIL (R281, R304): a spill of an untagged tile to an aligned address enters the call queue; a fill
takes eight qx entries, lowest first, as an untagged tile. That XZERO and XFIL write untagged tiles in a masked region too is the
model's choice (log entry 42). -/
def Obligations.TileRegisterForms : Prop :=
  (∀ (s : State) (d a : BitVec 5) (i : BitVec 13) (j : BitVec 8) (v g : W64) (x y : TReg 8192),
     let c := s.cur
     let q := c.sq
     (c.Room (c.savedX d) →
       exec (.xset d i) s = .next (s.setCur (c.putX d (i.signExtend 64)))
       ∧ (c.HoldsX a v → exec (.xsetR d a j) s = .next (s.setCur (c.putX d (v + j.signExtend 64)))))
     ∧ (s.Idle d → c.TakesTs [(d.toNat, zeroT)] → (s.setCur (c.putTs [(d.toNat, zeroT)])).SlotsOk →
         exec (.xzero d) s = .next (s.setCur (c.putTs [(d.toNat, zeroT)])))
     ∧ (let ws := (List.range 16).map fun t => (t, zeroT)
        (∀ t : BitVec 5, t.toNat < 16 → s.Idle t) → c.TakesTs ws → (s.setCur (c.putTs ws)).SlotsOk →
         exec .xzeroAll s = .next (s.setCur (c.putTs ws)))
     ∧ (∀ e ∈ ([(.xacc d a, .add, a, true), (.xaccSub d a, .sub, a, true), (.xaccMov d a, .mov, a, false),
                (.xdcy d i, .dcy i.toNat, d, true), (.xdcyR d a, .dcy (g.toNat % 8192), d, true)] :
                List (Instr × MaccOp × BitVec 5 × Bool)),
         let reads := e.2.2.2
         (e.1 = .xdcyR d a → c.HoldsX a g) → s.Idle d → s.Idle e.2.2.1 → c.HoldsT e.2.2.1 x →
         (reads = true → c.HoldsT d y) → (reads = false → y = if (c.regT d.toNat).valid then c.regT d.toNat else TReg.invalid) →
         let tag := x.tag ||| q.regionTag ||| (if reads || q.region.isSome then y.tag else 0)
         let n := exCount q.lifts tag
         let out (k : Nat) : TBits × Bool := e.2.1.tile false (y.at' q.lifts tag k) (x.at' q.lifts tag k)
         let r : TReg 8192 := TReg.ofExamples tag ((List.range n).map fun k =>
           if q.active tag k then (out k).1 else y.at' q.lifts tag k)
         let sat := (List.range n).any fun k => q.active tag k && (out k).2
         let t := s.setCur { c.putT d.toNat r with accsat := c.accsat || sat }
         n ≤ 49 → c.Room (c.savedT d.toNat) → (c.putT d.toNat r).Fits r → t.SlotsOk → exec e.1 s = .next t))
  ∧ (∀ (s : State) (t x : BitVec 5) (v : W64) (r : TReg 8192) (rs : List (TReg 1024)) (c1 : Ctx),
       let c := s.cur
       (s.Idle t → c.HoldsT t r → c.HoldsX x v → v.toNat % 8 = 0 → r.tag = 0 → s.CallRoom →
         exec (.xspl t x) s = .next ((s.called (.spill t v) (1 <<< t.toNat)).setCur s.calling))
       ∧ (s.Idle t → c.HoldsT t r → c.HoldsX x v → v.toNat % 8 = 0 → r.tag ≠ 0 → Takes (.xspl t x) s (Trap.mk' clsLift 3))
       ∧ (s.Idle t → s.routineOut s.focus = false → rs.length = 8 → 8 ≤ c.queues.xAvail → c.PopsXs rs c1 →
           let y : TReg 8192 := ⟨true, 0, BitVec.ofNat 8192 (packNat 1024 (rs.map fun r => r.val.toNat)), []⟩
           c1.Room (c1.savedT t.toNat) → (s.setCur (c1.putT t.toNat y)).SlotsOk →
           exec (.xfil t) s = .next (s.setCur (c1.putT t.toNat y)))
       ∧ (s.Idle t → s.routineOut s.focus = false → c.queues.xAvail < 8 → Takes (.xfil t) s (Trap.mk' clsQueue 0)))

/-- XWAIT and XWAIT.ALL (R289, R305): with no more than the named number of calls outstanding the context takes and clears ACCSAT at
once; with more it holds its next bundle until XWAIT_RELEASE finds that they have ended; the queue-starved trap that a call has left
is taken there. XLDM (R306): outside privilege the privilege trap; once the core's queue is empty it enters the load of 4,096 words
of an n64 tensor there, and the load holds the context's next bundle. The model's choices: an XWAIT that waits takes the
queue-starved trap at its release (log entry 17), and XLDM enters its load and then waits for it (log entry 40). -/
def Obligations.TrussWaitsAndLoads : Prop :=
  (∀ (s : State) (d : BitVec 5) (n : BitVec 13) (k m : Nat),
     let c := s.cur
     let taken (c : Ctx) : Ctx := { c.putX d (if c.accsat then 1 else 0) with accsat := false }
     (c.fl.trussFault = none → c.fl.ownCalls ≤ n.toNat → c.Room (c.savedX d) →
       ∃ t, exec (.xwait d n) s = .next t ∧ t.cur = taken c ∧ t.mem = s.mem)
     ∧ (c.fl.trussFault = none → n.toNat < c.fl.ownCalls → c.Room (c.savedX d) →
         exec (.xwait d n) s = .next (s.setCur ((c.logged (c.savedX d)).waits (.xwait (some d) n.toNat))))
     ∧ (c.fl.trussFault = none → c.fl.ownCalls = 0 → ∃ t, exec .xwaitAll s = .next t ∧ t.cur = c ∧ t.mem = s.mem)
     ∧ (c.fl.trussFault = none → c.fl.ownCalls ≠ 0 → exec .xwaitAll s = .next (s.setCur (c.waits (.xwait none 0))))
     ∧ (let y := s.ctx k
        y.fl.ownCalls ≤ m →
         (y.wait = .xwait (some d) m → y.fl.trussFault = none → y.Room (y.savedX d) →
           ∃ t, exec (.xwaitRelease k) s = .next t ∧ t.ctx k = taken y.nextWait ∧ t.mem = s.mem)
         ∧ (y.wait = .xwait none m → y.fl.trussFault = none →
           ∃ t, exec (.xwaitRelease k) s = .next t ∧ t.ctx k = y.nextWait ∧ t.mem = s.mem)
         ∧ (∀ w tr, y.wait = .xwait w m → y.fl.trussFault = some tr → tr.cls = clsQueue → s.RingOk (s.launchOf k).queue →
           ∃ t, exec (.xwaitRelease k) s = .next t ∧ s.EndedIn t k tr)))
  ∧ (∀ (s : State) (a : BitVec 5) (v : W64),
       let x := s.core (coreOf s.focus)
       (s.cur.priv = false → Takes (.xldm a) s (Trap.mk' clsPrivilege 0))
       ∧ (s.cur.priv = true → s.cur.HoldsX a v → s.RangeOk v 12 4096 true → x.callQ = [] → x.run = none →
           ∃ lu, exec (.xldm a) s = .next (((s.called (.load (handleOf v) (offsetOf v) s.cur.sq.pc s.issue.pos) 0).setCur
             (s.calling.waits .xldm)).withLu lu)))

/-- The call queue served (R284, R285): the head of the queue starts two clocks after its bundle at the earliest, a routine at its
START with the first active example; a finished routine leaves the array, and its call is outstanding no more. CALL_QUEUE_ENTRY_END
(R35, R295, R298, R304, R306, R308): a spill's 1,024 bytes are in the scratchpad; the words of a store load that pass the check are
the core's microprogram store, and a word that fails is an illegal instruction that names it and leaves the store; a scale load's
words are in scale memory, modulo 4,096, and a scale store's in the tensor's pages. The model's choices: a store load is read and
checked when its entry ends (log entry 40), and its record is precise, with the XLDM's address and slot (log entry 77). -/
def Obligations.CallQueue : Prop :=
  (∀ (s : State) (k : Nat) (e : Call) (q : List Call) (r : Run),
     let x := s.core k
     (x.run = none → x.callQ = e :: q → e.issued + 2 ≤ x.clk → x.lastEnd < x.clk → s.engineReady e.ctx e.seq 2 = true →
       (∀ n f xs g exs, e.kind = .routine n f xs g exs → exec (.callQueueStart k) s = .next (s.setCore k { x with
         callQ := q, run := some { call := e, pc := (Routine.parse (x.store.get 0 n.toNat)).start, loops := [], ex := exs.headD 0,
                                   rest := exs.drop 1, blk := 0, freeAt := x.clk, refused := false, starved := false,
                                   done := exs.isEmpty } }))
       ∧ ((∀ n f xs g exs, e.kind ≠ .routine n f xs g exs) → exec (.callQueueStart k) s = .next (s.setCore k { x with
         callQ := q, run := some { call := e, pc := 0, loops := [], ex := 0, rest := [], blk := 0,
                                   freeAt := x.clk + e.kind.clocks, refused := false, starved := false, done := false } })))
     ∧ (x.run = some r → r.done = true → r.freeAt ≤ x.clk →
         let fault : Option Trap := if r.refused then some { Trap.mk' clsAccess 6 with precise := false }
           else if r.starved then some { Trap.mk' clsQueue 0 with precise := false } else none
         exec (.routineEnd k) s = .next ((s.setCore k { x with run := none, lastEnd := x.clk }).setCtx r.call.ctx
           ((s.ctx r.call.ctx).callEnded r.call.id fault))))
  ∧ (∀ (s : State) (k : Nat) (r : Run),
       let x := s.core k
       let c := r.call.ctx
       let l := s.launchOf c
       let ended (t : State) : Prop := (t.core k).run = none ∧ t.ctx c = (s.ctx c).callEnded r.call.id none
       x.run = some r → r.freeAt ≤ x.clk → r.refused = false → r.starved = false →
       (∀ b v p off, r.call.kind = .spill b v → s.trussAddr r.call v 0 1024 = some (p, off) → p < numCores →
         off + 1024 ≤ (s.core p).scrSize →
         ∃ t, exec (.callQueueEntryEnd k) s = .next t ∧ ended t
           ∧ t.mem = Mem.putN s.mem (scrAddr p off) ((s.ctx c).regT b.toNat).val.toNat 1024)
       ∧ (∀ h off pc slot ws s1, r.call.kind = .load h off pc slot → readElems c 2 l h off 8 4096 s = .ok (.ok ws, s1) →
           (s1.core k).run = some r → s1.ctxs = s.ctxs →
           let f (i : Nat) : W64 := BitVec.ofNat 64 (ws.getD i 0)
           (checkImage f = none → s1.DescReadableAt (coreDie k) l h →
             ∃ t, exec (.callQueueEntryEnd k) s = .next t ∧ ended t ∧ ∀ i < 4096, (t.core k).store.get 0 i = f i)
           ∧ (∀ i, checkImage f = some i → (s.ctx c).wait = .xldm ∨ (s.ctx c).more.contains .xldm = true → s1.RingOk (s1.launchOf c).queue →
             ∃ t, exec (.callQueueEntryEnd k) s = .next t ∧ (t.ctx c).st = .ended ∧ (t.core k).store = (s1.core k).store
               ∧ t.issue.trap = some { Trap.mk' clsIllegal 2 with value := BitVec.ofNat 64 i, slot := slot }))
       ∧ (∀ h off idx n ws s1, r.call.kind = .scaleLoad h off idx n → n ≤ 4096 →
           readElems c 2 l h off 4 n s = .ok (.ok ws, s1) → (s1.core k).run = some r → s1.ctxs = s.ctxs →
           ∃ t, exec (.callQueueEntryEnd k) s = .next t ∧ ended t
             ∧ ∀ i < n, ∀ w, ws[i]? = some w → (t.core (anchorOf k)).smem.get 0 ((idx + i) % 4096) = BitVec.ofNat 32 w)
       ∧ (∀ h off idx n (adr : Nat → Nat), r.call.kind = .scaleStore h off idx n →
           let die := coreDie k
           let d := s.desc die l h
           s.DescReadableAt die l h → s.descOk die l d = true →
           (d.cls = 2 → ∀ i < n, s.apstOf d (d.tileNo (d.ofOffset (off + i))) = 0) →
           (∀ i < n, addrOk (d.entryAddr (d.tileNo (d.ofOffset (off + i)))) 16 = true
             ∧ s.xlate die l h (d.ofOffset (off + i)) true = .ok (adr i) ∧ addrOk (adr i) 4 = true
             ∧ ∀ p ∈ [adr i, adr i + 3], ∀ o, (s.page (frameOf p)).cls ≠ some (some o)) →
           ∃ t, exec (.callQueueEntryEnd k) s = .next t ∧ ended t
             ∧ t.mem = (List.range n).foldl (fun m i =>
                 Mem.putN m (adr i) ((s.core (anchorOf k)).smem.get 0 ((idx + i) % 4096)).toNat 4) s.mem))

/-! ### Engines -/

/-- CPY and CPY.BF (R363 to R370): a group at e0 or e8 whose fields, classes, widths, ranges and alignments pass gates one copy;
EBFX sets the extraction pattern, or is access fault 7 for a bad one, and EBFX.CLR clears it. Copies under way and waited for (R81,
R362, R368, R372, R374): a queued copy starts; one whose single element goes from scratchpad to scratchpad writes its 8 bytes and
completes with code 0; CPYW takes and clears the status word, at once or at CPYW_RELEASE. -/
def Obligations.CopyCommands : Prop :=
  (∀ (s : State) (a : BitVec 5) (w : W64) (e : Nat → W64),
     let c := s.cur
     let pattern (p : Option W64) : Ctx := { c with fl := { c.fl with pattern := p } }
     (c.HoldsE a w →
       (patternOk w = true → exec (.ebfx a) s = .next (s.setCur (pattern (some w))))
       ∧ (patternOk w = false → Takes (.ebfx a) s (Trap.mk' clsAccess 7)))
     ∧ exec .ebfxClr s = .next (s.setCur (pattern none))
     ∧ (∀ f ∈ ([(.cpy a, false), (.cpyBf a, true)] : List (Instr × Bool)),
         let bf := f.2
         let y := CopyCmd.parse e (if bf then c.fl.pattern else none)
         let sd := s.side y.src
         let dd := s.side y.dst
         let sw := (sideWidths sd dd).1
         let dw := (sideWidths sd dd).2
         let p := Pattern.parse (y.pat.getD 0)
         let sr := if bf then (0, (y.streamLen p sw : Int) - 1) else termRange y.counts y.sstr y.ssc
         let dr := termRange y.counts y.dstr y.dsc
         let cores := (s.inst c.inst).cores
         (a ≠ 0 → a ≠ 8 → Takes f.1 s (Trap.mk' clsAccess 7))
         ∧ (a = 0 ∨ a = 8 → c.HoldsGroup a 8 e → groupClean e = false → Takes f.1 s (Trap.mk' clsAccess 7))
         ∧ (a = 0 ∨ a = 8 → c.HoldsGroup a 8 e → groupClean e = true → s.SideOk y.src → s.SideOk y.dst →
             sideIs sd (fun t => t.cls == 1) = false → sideIs dd (fun t => t.cls == 1 || t.cls == 2) = false →
             sideIs sd Desc.mx = false → sideIs dd Desc.mx = false → (bf = false → sw = dw) →
             (bf = true → y.pat.isSome = true ∧ y.ssc = 0 ∧ (∀ t ∈ y.sstr, t = 0) ∧ p.f ≤ dw) →
             sideOutside cores y.src sd sw sr.1 sr.2 = false → sideOutside cores y.dst dd dw dr.1 dr.2 = false →
             sideCrooked y.src sw = false → sideCrooked y.dst dw = false → c.GateRoom 1 → Gates f.1 s c (.cpy y))))
  ∧ (∀ (s : State) (d : BitVec 5) (n : BitVec 3) (k id m : Nat) (r : CopyRun),
       let c := s.cur
       let y := s.ctx k
       let taken (c : Ctx) : Ctx := let p := c.putE d c.fl.copyStat; { p with fl := { p.fl with copyStat := 0 } }
       (c.fl.ownCopies ≤ n.toNat → c.Room (c.savedE d) →
         ∃ t, exec (.cpyw d n) s = .next t ∧ t.cur = taken c ∧ t.mem = s.mem)
       ∧ (n.toNat < c.fl.ownCopies → c.Room (c.savedE d) →
           exec (.cpyw d n) s = .next (s.setCur ((c.logged (c.savedE d)).waits (.cpyw (some d) n.toNat))))
       ∧ (c.fl.ownCopies = 0 → ∃ t, exec .cpywAll s = .next t ∧ t.cur = c ∧ t.mem = s.mem)
       ∧ (c.fl.ownCopies ≠ 0 → exec .cpywAll s = .next (s.setCur (c.waits (.cpyw none 0))))
       ∧ (y.wait = .cpyw (some d) m → y.fl.ownCopies ≤ m → y.Room (y.savedE d) →
           ∃ t, exec (.cpywRelease k) s = .next t ∧ t.ctx k = taken y.nextWait ∧ t.mem = s.mem)
       ∧ (y.wait = .cpyw none m → y.fl.ownCopies ≤ m →
           ∃ t, exec (.cpywRelease k) s = .next t ∧ t.ctx k = y.nextWait ∧ t.mem = s.mem)
       ∧ (s.copyOf k id = some r → s.copyReady k r = true →
           ∃ t, exec (.copyCommandStart k id) s = .next t ∧ t.copyOf k id = some { r with stage := .running } ∧ t.mem = s.mem)
       ∧ (∀ g a b, s.copyOf k id = some r → r.stage = .running → r.cpy = some g → g.pat = none → (∀ x ∈ g.counts, x = 1) →
           isScr g.src = true → isScr g.dst = true → s.mp.unperf = [] →
           s.scrWhere k (fieldN g.src 0 25 : Int) 8 = .ok ⟨a, true, none⟩ → addrOk a 8 = true →
           s.scrWhere k (fieldN g.dst 0 25 : Int) 8 = .ok ⟨b, true, none⟩ → addrOk b 8 = true →
           ∃ t, exec (.copyComplete k id) s = .next t ∧ t.mem = Mem.putN s.mem b (s.seenN a 8) 8
             ∧ (t.ctx k).fl.copies = delBy (fun q => q.id == r.id) y.fl.copies
             ∧ (r.orphan = false → r.id = id → (t.ctx k).fl.copyStat = mergeStatus y.fl.copyStat 0 0 0 none)))

/-- The fabric commands at issue (R61, R381 to R386, R394, R395): the puts and the collectives gate their group as it is, with VS,
where its base is 0, 4, 8 or 12, its fields are in range and its sides are in order; another base is access fault 7. COLLW and the
groups (R388, R392, R393): COLLW takes and clears the fabric status word, at once or at COLLW_RELEASE; GRP reads and checks a member
list and gates the slot's descriptor; GRP.EX gates a removal; GRP.Q reads the header or a member of the slot as the context's own
group forms leave it. The model's choices: a PUT from the scratchpad reads 64-bit elements, and GRP reads its list at issue (log
entry 54). -/
def Obligations.FabricCommands : Prop :=
  (∀ (s : State) (a : BitVec 5) (e : Nat → W64),
     let c := s.cur
     let vs := fmtVS c.sq.fmt
     let cmd (o : FabOp) : FabCmd := { op := o, g0 := e 0, g1 := e 1, g2 := e 2, g3 := e 3, vs := BitVec.ofNat 4 vs }
     (∀ f ∈ ([(.put a, .put), (.putH a, .putH), (.putSmp a, .putSmp), (.putm a, .putm), (.putmS a, .putmS)] : List (Instr × FabOp)),
       let w := if isScr (e 0) then 64 else (s.tensor (handleOf (e 0))).bits
       (a.toNat % 4 ≠ 0 → Takes f.1 s (Trap.mk' clsAccess 7))
       ∧ (a.toNat % 4 = 0 → c.HoldsGroup a 4 e → putFieldsOk f.2 (e 1) (e 2) (e 3) = false → Takes f.1 s (Trap.mk' clsAccess 7))
       ∧ (a.toNat % 4 = 0 → c.HoldsGroup a 4 e → putFieldsOk f.2 (e 1) (e 2) (e 3) = true → s.SideOk (e 0) →
           s.SideFits (e 0) (fun t => t.cls == 1) w (fieldN (e 2) 0 24 * 8 / w) → c.GateRoom 1 → Gates f.1 s c (.fab (cmd f.2))))
     ∧ (let n := fieldN (e 2) 0 32
        let own (o : FabOp) : Nat := match s.groupView s.focus (BitVec.ofNat 4 (fieldN (e 2) 32 4)) with
          | some g => ((Coll.of (cmd o) g.members.length).chunk g.self).length
          | none => 0
        a.toNat % 4 = 0 → c.HoldsGroup a 4 e → s.SideOk (e 0) → s.SideOk (e 1) → c.GateRoom 1 →
        (∀ f ∈ ([(.collAr a, .ar, n, n), (.collRs a, .rs, n, own .rs), (.collAg a, .ag, own .ag, n)] : List (Instr × FabOp × Nat × Nat)),
           collFieldsOk f.2.1 (e 2) (e 3) = true → s.SideFits (e 0) (fun t => t.cls == 1) 32 f.2.2.1 →
           s.SideFits (e 1) (fun t => t.cls == 1 || t.cls == 2) 32 f.2.2.2 → Gates f.1 s c (.fab (cmd f.2.1)))
        ∧ (collFieldsOk .rsf (e 2) (e 3) = true → s.SideFits (e 0) (fun t => t.cls == 1) (EFmt.ofCode vs).width n →
           isScr (e 1) = false → (s.tensor (handleOf (e 1))).cls = 1 →
           offsetOf (e 1) + own .rsf ≤ (s.tensor (handleOf (e 1))).elems → Gates (.collRsf a) s c (.fab (cmd .rsf)))))
  ∧ (∀ (s s1 s2 : State) (d a b : BitVec 5) (n : BitVec 3) (k m : Nat) (x y : W64) (h : BitVec 16) (off : Nat) (ok : Bool) (ms : List Nat),
       let c := s.cur
       let z := s.ctx k
       let taken (c : Ctx) : Ctx := let p := c.putE d c.fl.fabStat; { p with fl := { p.fl with fabStat := 0 } }
       let slot : BitVec 4 := BitVec.ofNat 4 (fieldN x 0 4)
       let sel := fieldN x 8 8
       (c.fl.ownFabs ≤ n.toNat → c.Room (c.savedE d) →
         ∃ t, exec (.collw d n) s = .next t ∧ t.cur = taken c ∧ t.mem = s.mem)
       ∧ (n.toNat < c.fl.ownFabs → c.Room (c.savedE d) →
           exec (.collw d n) s = .next (s.setCur ((c.logged (c.savedE d)).waits (.collw d n.toNat))))
       ∧ (z.wait = .collw d m → z.fl.ownFabs ≤ m → z.Room (z.savedE d) →
           ∃ t, exec (.collwRelease k) s = .next t ∧ t.ctx k = taken z.nextWait ∧ t.mem = s.mem)
       ∧ (let cnt := fieldN y 8 8 + 1
          let tmo := fieldN y 16 16
          c.HoldsE a x → c.HoldsE b y → gathTensor x 8 cnt false (s.setCur c) = .ok ((h, off, ok), s1) →
           readElems s1.focus 4 (s1.launchOf s1.focus) h off 1 cnt s1 = .ok (.ok ms, s2) →
           ms.Nodup → (∀ v ∈ ms, v ≤ 143) → s1.mg.dev ∈ ms → s2.cur.GateRoom 1 →
           let ds := ms.map (BitVec.ofNat 8)
           exec (.grp a b) s = .next (s2.setCur (s2.cur.gated
             (.grp (BitVec.ofNat 4 (fieldN y 0 4)) ds (selfPos s1.mg.dev ds) (if tmo = 0 then 20 else tmo)))))
       ∧ (c.HoldsE a x → s.groupView s.focus slot = none →
           Takes (.grpEx a) s (Trap.mk' clsAccess 7) ∧ Takes (.grpQ d a) s (Trap.mk' clsAccess 7))
       ∧ (∀ g, c.HoldsE a x → s.groupView s.focus slot = some g →
           (sel < g.members.length → sel ≠ g.self → c.GateRoom 1 →
             exec (.grpEx a) s = .next (s.setCur (c.gated (.grpEx slot sel))))
           ∧ (sel = g.self ∨ g.members.length ≤ sel → Takes (.grpEx a) s (Trap.mk' clsAccess 7))
           ∧ (c.Room (c.savedE d) → sel = 0 → exec (.grpQ d a) s = .next (s.setCur (c.putE d g.header)))
           ∧ (g.members.length < sel → Takes (.grpQ d a) s (Trap.mk' clsAccess 7))
           ∧ (∀ v, c.Room (c.savedE d) → 0 < sel → g.members[sel - 1]? = some v →
               exec (.grpQ d a) s = .next (s.setCur (c.putE d (v.setWidth 64))))))

/-- The semaphores and QPUSH (R414 to R418): SEMS and SEMW, with a register and with a value, SEMW_ACQUIRE and both QPUSH forms
complete where their operands are in order: a number outside the launch's window is access fault 1; SEMS gates an increment; SEMW of
a value joins the waiters and consumes its count, in order, at SEMW_ACQUIRE; QPUSH gates a packet of 32 aligned elements of a
class-0 tensor to a queue of the launch's tenant that admits it. The monitors (R447, R449): EMON.ST, EMON.SP, EMON.RD and a sample
complete on a monitor of the launch's tenant: EMON.ST and EMON.SP gate a start and a stop of a monitor of the launch's tenant,
another tenant's being access fault 5; EMON.RD reads the word or bucket it selects, a selector past 19 being access fault 7; a
running monitor's sample counts and widens the range, with the sweep lag of the planer it names for source 2 and the draw of power
for source 4; a reserved source takes none. The model's choices: QPUSH needs a tensor of class 0, and a waiting SEMW keeps the count
it took for a rollback (log entry 59); what a monitor's sources measure (log entry 91). -/
def Obligations.SemaphoreAndMonitorForms : Prop :=
  (∀ (s : State) (a b : BitVec 5) (i : BitVec 13) (x y : W64) (k j : Nat) (v : W32) (q : BitVec 8),
     let c := s.cur
     let l := s.launchOf s.focus
     let sem := fieldN x 0 12
     let num := (l.semBase + sem) % 4096
     (c.HoldsE a x → l.semCnt ≤ sem → Takes (.semsI a i) s (Trap.mk' clsAccess 1) ∧ Takes (.semwI a i) s (Trap.mk' clsAccess 1)
         ∧ (c.HoldsE b y → Takes (.sems a b) s (Trap.mk' clsAccess 1) ∧ Takes (.semw a b) s (Trap.mk' clsAccess 1)))
     ∧ (c.HoldsE a x → sem < l.semCnt →
         (c.GateRoom 1 →
           exec (.semsI a i) s = .next (s.setCur (c.gated (.sems num (i.setWidth 32))))
           ∧ (c.HoldsE b y → exec (.sems a b) s = .next (s.setCur (c.gated (.sems num (y.setWidth 32))))))
         ∧ (∀ e ∈ ([(.semwI a i, i.setWidth 32), (.semw a b, y.setWidth 32)] : List (Instr × W32)), (e.1 = .semw a b → c.HoldsE b y) →
           (e.2 ≠ 0 → exec e.1 s = .next (({ s with dist := { s.dist with
             waiters := s.dist.waiters.set num (s.dist.waiters.get [] num ++ [(s.focus, e.2)]) } }).setCur (c.waits (.semw num e.2))))
           ∧ (e.2 = 0 → ∃ t, exec e.1 s = .next t ∧ t.cur.wait = c.wait ∧ t.dist = s.dist
               ∧ t.cur.fl.fences = c.fl.fences ++ [⟨c.fl.seq + 1, if c.frame.isSome then c.fl.seq + 1 else c.fl.markSeq, .acq, 3, true⟩])))
     ∧ ((s.ctx k).wait = .semw j v → (s.dist.waiters.get [] j).head? = some (k, v) → v.toNat ≤ (s.dist.sems.get 0 j).toNat →
         ∃ t, exec (.semwAcquire k) s = .next t ∧ (t.ctx k).wait = (s.ctx k).nextWait.wait ∧ t.dist.sems.get 0 j = s.dist.sems.get 0 j - v
           ∧ t.dist.waiters.get [] j = (s.dist.waiters.get [] j).drop 1
           ∧ (t.ctx k).seg.semTaken = (s.ctx k).seg.semTaken ++ [(j, v)]
           ∧ ∀ n, n ≠ j → t.dist.sems.get 0 n = s.dist.sems.get 0 n)
     ∧ (∀ e ∈ ([(.qpushI a q, q), (.qpush a b, y.setWidth 8)] : List (Instr × BitVec 8)), (e.1 = .qpush a b → c.HoldsE b y) →
         c.HoldsE a x → s.RangeOk x 12 32 true →
         (s.queueWord e.2.toNat).getLsbD 62 = true → s.accepts e.2.toNat = true → s.queueTenant e.2.toNat = l.tenant.toNat →
         (s.tensor (handleOf x)).cls = 0 → offsetOf x % 32 = 0 → c.GateRoom 1 →
         Gates e.1 s c (.qpush (handleOf x) (offsetOf x) e.2 c.priv)))
  ∧ (∀ (s : State) (d a : BitVec 5) (x : W64) (n : Nat) (v : W32),
       let c := s.cur
       let m := fieldN x 0 4
       let sel := fieldN x 4 6
       let mine := fieldN (s.reg (monReg m 0)) 48 10 = (s.launchOf s.focus).tenant.toNat
       (c.HoldsE a x → ¬ mine →
         Takes (.emonSt a) s (Trap.mk' clsAccess 5) ∧ Takes (.emonSp a) s (Trap.mk' clsAccess 5)
         ∧ Takes (.emonRd d a) s (Trap.mk' clsAccess 5))
       ∧ (c.HoldsE a x → mine →
           (c.GateRoom 1 →
             exec (.emonSt a) s = .next (s.setCur (c.gated (.emonSt (BitVec.ofNat 4 m))))
             ∧ exec (.emonSp a) s = .next (s.setCur (c.gated (.emonSp (BitVec.ofNat 4 m)))))
           ∧ (sel ≤ 19 → c.Room (c.savedE d) → exec (.emonRd d a) s = .next (s.setCur (c.putE d (s.monWord m sel))))
           ∧ (19 < sel → Takes (.emonRd d a) s (Trap.mk' clsAccess 7)))
       ∧ (n < 16 → (s.reg (monReg n 0)).getLsbD 63 = true →
           let src := fieldN (s.reg (monReg n 0)) 40 8
           let w : W32 := if src = 2 then BitVec.ofNat 32 (s.planer v.toNat).lag
             else if src = 4 then (Config.draw s.tick).setWidth 32 else v
           (src ≤ 5 → ∃ t, exec (.monitorSample n v) s = .next t ∧ t.mem = s.mem ∧ t.ctxs = s.ctxs
             ∧ (t.reg (monReg n 3)).toNat = min (2 ^ 32 - 1) ((s.reg (monReg n 3)).toNat + 1)
             ∧ ((s.reg (monReg n 3)).toNat ≠ 0 → (s.reg (monReg n 1)).toNat < 2 ^ 32 →
                 (t.reg (monReg n 1)).toNat = min (s.reg (monReg n 1)).toNat w.toNat))
           ∧ (5 < src → exec (.monitorSample n v) s = .next s)))

/-- FST and FST.R, of untagged data (R321, R348): the samples, converted by the bank in force, are one gated effect; a saturated or
infinite one raises FSAT. FLDT with tap mask 0 gives FSAT to qs and clears it (R350); any other mask puts one load in flight,
entered into the planers' order of acceptance unless its translation faults (R343, R349). The model's choices: the FSAT word of FLDT
with no taps is pushed at issue (log entry 50), and a tap counts as a real value, rounded by RM and clamped (log entry 94). -/
def Obligations.FilterAccesses : Prop :=
  ∀ (s : State) (d a : BitVec 5) (k : BitVec 3) (f q : BitVec 2) (m : BitVec 4) (it : Iter) (v : W64) (x : Coord) (y : TReg 1024) (c1 : Ctx),
    let c := s.cur
    let fmt := c.sq.fmt
    (let vs := EFmt.ofCode (fmtVS fmt)
     let n := if f = 0 then 1 else 1024 / vs.width
     ∀ e ∈ ([(.fst d k f, c.targetOfK it), (.fstR d a f, targetOfA v)] : List (Instr × Target)),
      (e.1 = .fst d k f → c.HoldsK k it) → (e.1 = .fstR d a f → c.HoldsA a v) →
      c.StoreData f d y c1 → y.tag = 0 → (filterAsk true n).Accepts s e.2 x → c.GateRoom 1 →
      let b := s.bankAt (s.tensor e.2.h).w6
      let xs := if b.okHere then sampleRow vs b n y.val else (List.range n).map fun _ => (0, false)
      let eff : Eff := .fst e.2.h x (xs.map fun p => some p.1)
      Gates e.1 s { c1 with fsat := c1.fsat || xs.any (·.2) } eff)
    ∧ (∀ e ∈ ([(.fldt q k m, c.targetOfK it), (.fldtR q a m, targetOfA v)] : List (Instr × Target)),
      (e.1 = .fldt q k m → c.HoldsK k it) → (e.1 = .fldtR q a m → c.HoldsA a v) →
      (m = 0 → q ≠ 0 → Takes e.1 s (Trap.mk' clsAccess 3))
      ∧ (m = 0 → q = 0 → c.SlotFree 0 →
          let r := c.reserved 0 s.nextId false 0 0
          exec e.1 s = .next (({ s with nextId := s.nextId + 1 }).setCur
            { r with fsat := false, queues := r.queues.fill s.nextId c.fl.now 0 [if c.fsat then 1 else 0] }))
      ∧ (let n := (bitsOf m).length
         let w := tapWords m fmt q
         let td := s.tensor e.2.h
         let die := coreDie (coreOf s.focus)
         let bound := boundCoords q td c.sq.lifts x
         let cs := bound.getD [x]
         let tag := if bound.isSome then innerTag c.sq.lifts else 0
         let c2 := (c.drew (fmtRM fmt) (n * w * cs.length) 1).reserved q s.nextId false tag (cs.length - 1)
         let t := ({ s with nextId := s.nextId + 1 }).setCur
           (c2.loading s.nextId q (.taps e.2.h cs m fmt c.key c.ctr) false false 0 e.2.span)
         let r := s.bankRef die c.launch e.2.h
         let o : FOp := { ctx := s.focus, launch := r.l, seq := c.fl.seq + 1, bank := r.b, handle := r.h, kind := .read s.nextId,
                          todo := s.planersOf r ((cs.map (tapOffsets td w)).flatten) }
         m ≠ 0 → (filterAsk (q != 0 || decide (n * (EFmt.ofCode (fmtVD fmt)).width ≤ 64)) w).Accepts s e.2 x →
         (∀ z ∈ cs, td.inside z = true ∧ z.c0 % (w : Int) = 0) → c.SlotFree q → (cs.length ≤ 1 ∨ c2.backingOk = true) →
         (handleOk (s.launchOf s.focus) (s.bankAt td.w6).casc = true → s.DescReadable (s.bankAt td.w6).casc) →
         s.UnitsReadable e.2.h ((cs.map fun z => td.units z w).flatten) →
         (∀ z, s.tapsFault s.focus e.2.h cs w = some z → ∃ lu, exec e.1 s = .next (t.withLu lu))
         ∧ (s.tapsFault s.focus e.2.h cs w = none → ∃ lu, exec e.1 s = .next (({ t with fops := insertFOp o s.fops } : State).withLu lu))))

/-- The bank commands (R351 to R356): FTICK, FTICK.W, FDISC, FDISC.R, FEXP, FEXP.F and FBANK gate their effect where their bank,
ranges, format and alignment pass; a count of 0 makes FDISC.R nothing; FBANK.RD gives the BSAT of any planer and clears it with c
set; outside privilege FBANK and FBANK.RD are the privilege trap. -/
def Obligations.BankCommands : Prop :=
  ∀ (s : State) (d a b : BitVec 5) (x y z : W64) (cl : BitVec 1),
    let c := s.cur
    let h := handleOf x
    let t := s.tensor h
    let n := offsetOf y
    let bank (v : W64) : Prop := handleOk (s.launchOf s.focus) (handleOf v) = true ∧ s.DescReadable (handleOf v)
      ∧ s.descOk (coreDie (coreOf s.focus)) (s.launchOf s.focus) (s.tensor (handleOf v)) = true
    c.HoldsE a x →
    (c.priv = false → Takes (.fbank a b) s (Trap.mk' clsPrivilege 0) ∧ Takes (.fbankRd d a cl) s (Trap.mk' clsPrivilege 0))
    ∧ (handleOk (s.launchOf s.focus) h = false →
        Takes (.ftick a) s { Trap.mk' clsAccess 5 with handle := h } ∧ Takes (.fdisc a) s { Trap.mk' clsAccess 5 with handle := h })
    ∧ (bank x → t.cls ≠ 1 → Takes (.ftick a) s { Trap.mk' clsAccess 4 with handle := h })
    ∧ (bank x → t.cls = 1 → c.GateRoom 1 →
        Gates (.ftick a) s c (.ftick h false) ∧ Gates (.ftickW a) s c (.ftick h true) ∧ Gates (.fdisc a) s c (.fdisc h 0 t.elems)
        ∧ (c.HoldsE b y → n = 0 → ∃ lu, exec (.fdiscR a b) s = .next ((s.setCur c).withLu lu))
        ∧ (c.HoldsE b y → n ≠ 0 → offsetOf x + n ≤ t.elems →
            Gates (.fdiscR a b) s c (.fdisc h (offsetOf x) n))
        ∧ (c.priv = true → c.HoldsE b y → n % 64 = 0 → n + 64 ≤ devTop → Gates (.fbank a b) s c (.fbank h n none))
        ∧ (c.priv = true → c.HoldsE b y → n % 64 ≠ 0 ∨ devTop < n + 64 →
            Takes (.fbank a b) s { Trap.mk' clsAccess 2 with handle := h })
        ∧ (∀ e ∈ ([(.fexp d a b, (s.bankAt t.w6).expf), (.fexpF d a b, fieldN y 36 4)] : List (Instr × Nat)),
            let cnt := fieldN y 0 32
            let eff : Eff := .fexp { dst := z, src := x, count := cnt, tap := BitVec.ofNat 2 (fieldN y 32 2), fmt := BitVec.ofNat 4 e.2 }
            c.HoldsE d z → c.HoldsE b y → bank z → (s.tensor (handleOf z)).cls = 2 → e.2 ≤ 10 → offsetOf x + cnt ≤ t.elems →
            cnt ≠ 0 → cnt * ((EFmt.ofCode e.2).width / 8) ≤ 65536 → offsetOf z < (s.tensor (handleOf z)).elems →
            Gates e.1 s c eff))
    ∧ (bank x → t.cls = 1 → c.priv = true →
        s.bankValid (coreDie (coreOf s.focus)) (s.launchOf s.focus) h t (s.bankAt t.w6) = true → c.Room (c.savedE d) →
        ∃ u, exec (.fbankRd d a cl) s = .next u ∧ u.mem = s.mem
          ∧ u.cur = c.putE d (if (List.range 48).any fun pl => (s.bankState pl t.w6).bsat then 1 else 0)
          ∧ (cl = 1 → ∀ pl < 48, (u.bankState pl t.w6).bsat = false)
          ∧ (cl = 0 → u.planers = s.planers))

/-! ### Events -/

/-- Order on the path (R78, R80): an access makes no move while an earlier acquire of its context is on its way, nor does a release
at .dev or wider while any earlier CORE access of it is; a load waits for the earlier acquires of its context. The loads in flight
(R110, R188, R191, R222, R247): data that has been fetched, a word of a descriptor, a peer's scratchpad bytes and the elements of a
tensor enter their queue entry and the load is gone, and an acquire at .clu or wider applies every invalidation pending for its core
(R82); L1_FILL captures a weak load's data; a refusal from a moving region and the first abort completion of a segment begin a
rollback; so does a report of a page that the host owns, which asks for its migration. Accesses at their homes (R85, R191, R259,
R261, R270 to R278), after which what they overtook at a narrow scope is owed to it (R78): a store to a peer's scratchpad writes its
bytes; an append's bytes are reserved at TAIL, which moves, or answered 2^62 + TAIL where the page is full; written, they move
COMMIT; a seal makes an Open page Sealing, and where COMMIT has reached TAIL the page is Sealed, its entry is invalidated, and once
that has completed every seal of it returns TAIL; a replica is a copy of its page; a private page that is reclassified is shared,
and its owner's L1 holds nothing of it. The model's choices: what an access at a narrow scope owes to those that it overtook (log
entry 45), and the free bytes of a peer's scratchpad past its size or of a quarantined core (log entries 15 and 70). -/
def Obligations.AccessEvents : Prop :=
  (∀ (s : State) (k : Nat) (o p : OutOp) (ld x : Load),
     (p ∈ s.mp.outs → p.precedes o = true →
       (p.eff.acq = true → s.outMove o = [])
       ∧ (p.eff.isFexp = false → o.eff.rel = true → 3 ≤ o.eff.scope → s.outMove o = []))
     ∧ (x ∈ (s.ctx k).fl.loads → x.seq < ld.seq → x.acq = true → s.loadReady k ld = false))
  ∧ (∀ (s s1 : State) (k id : Nat) (ld : Load) (vs : List VBits),
       let c := s.ctx k
       let now := (s.core (coreOf k)).clk
       let acquired (t : State) : State := if ld.acq = true ∧ ld.scope ≠ 0 then t.applyInvals (coreOf k) else t
       s.loadOf k id = some ld →
       (∀ i ∈ (s.applyInvals (coreOf k)).mp.invals, i.1 ≠ coreOf k)
       ∧ (ld.got = some vs → s.fops.any (fun f => f.kind == .read id) = false →
         exec (.loadDataReturn k id) s = .next (acquired ((s.on k).setCtx k (c.returned ld.id now (c.entryTag id) vs))))
       ∧ (∀ p off, ld.got = none → ld.kind = .peer p off → ld.acq = false →
           let n := if ld.q = 0 then 8 else 128
           ((s.core p).moving off n = false → off < (s.core p).scrSize →
             let v := bytesN (fun i => overlay (s.forwarded k ld.seq) (scrAddr p (off + i)) (s.scrByte k p off n i)) 0 n
             let u := (s.on k).setCtx k (c.returned ld.id now 0 [BitVec.ofNat 1024 v])
             exec (.loadDataReturn k id) s = .next
               (if (s.core p).scrSize < off + n ∨ (s.core p).quarantined = true then { u with free := s.free + 1 } else u.raced))
           ∧ ((s.core p).moving off n = true → c.frame = none →
               exec (.remoteScratchpadRefusal k id) s = .next ((s.on k).rewinding k)))
       ∧ (∀ h sel, ld.got = none → ld.kind = .desc h sel → ld.acq = false →
           let a := descAddr (s.launchOf k) h + 8 * sel
           addrOk a 8 = true →
           ∃ lu, exec (.loadDataReturn k id) s = .next (((s.on k).setCtx k
             (c.returned ld.id now 0 [(s.luGet (coreDie (coreOf k)) a).setWidth 1024])).withLu lu))
       ∧ (∀ h cs, ld.got = none → ld.kind = .elems h cs → readLoad k ld h cs ((s.on k).afterFences k ld.seq) = .ok (.ok vs, s1) →
           exec (.loadDataReturn k id) s
             = .next (acquired (s1.setCtx k ((s1.ctx k).returned ld.id (s1.core (coreOf k)).clk ((s.ctx k).entryTag id) vs)))
           ∧ (ld.strong = false → exec (.l1Fill k id) s = .next (s1.setCtx k ((s1.ctx k).setGot id vs))))
       ∧ (∀ h cs x u, ld.got = none → ld.kind = .elems h cs → readLoad k ld h cs (s.on k) = .ok (.error (x, (2, u)), s1) →
           (s1.ctx k).frame = none →
           let d := s1.desc (coreDie (coreOf k)) (s1.launchOf k) h
           ∃ t, exec (.translationFaultReport k (2 * id)) s = .next t ∧ (t.ctx k).wait = .rewind ∧ (t.ctx k).fl.loads = []
             ∧ ∃ m ∈ t.mp.migs, m.entry = d.entryAddr (d.tileNo u) ∧ m.toHost = false ∧ Asker.ctx k h x ∈ m.askers)
       ∧ (∀ h cs, ld.kind = .elems h cs → c.frame = none → c.seg.abortedOnce = false →
           exec (.abortCompletion k id) s
             = .next (((s.on k).setCtx k { c with seg := { c.seg with abortedOnce := true } }).rewinding k)))
  ∧ (∀ (s : State) (k id : Nat) (o : OutOp),
       let outs := (delBy (fun p => p.ctx == k && p.id == id) s.mp.outs).map (s.owe o)
       let z := s.left o
       (findBy (fun o => o.ctx == k && o.id == id) s.mp.outs = some o →
         let die := coreDie (coreOf k)
         let l := s.launch o.launch
         (∀ p off vec data st rl sc, o.eff = .store (.scr p off) vec data st rl sc → p < numCores →
           (p ≠ coreOf o.ctx → (s.core p).moving off (if vec then 128 else 8) = false) → off < (s.core p).scrSize →
           (s.core p).scrSize ≤ scrBytes →
           ∃ t, exec (.storePerformAtHome k id) s = .next t ∧ t.mp.outs = outs
             ∧ t.mem = Mem.putCells s.mem ((scrCells p off vec data).filter fun e => decide (e.1 < scrAddr p (s.core p).scrSize)))
         ∧ (∀ h x vec data st rl sc cs, o.eff = .store (.tensor h x) vec data st rl sc → z.DescReadableAt die l h →
             let t := z.desc die l h
             (∀ y, some y ∈ t.units x (if vec then t.perVec else 1) → addrOk (t.entryAddr (t.tileNo y)) 16 = true) →
             z.tensorCells die l h x vec data = .ok cs → (∀ e ∈ cs, addrOk e.1 1 = true ∧ (z.page (frameOf e.1)).cls = some none) →
             ∃ u, exec (.storePerformAtHome k id) s = .next u ∧ u.mp.outs = outs ∧ u.mem = Mem.putCells s.mem cs)
         ∧ (∀ op h x wide y ret ord sc a, o.eff = .amo op h x wide y ret ord sc → z.DescReadableAt die l h →
             let t := z.desc die l h
             let old := z.seenN a (t.bits / 8)
             addrOk (t.entryAddr (t.tileNo x)) 16 = true → z.xlate die l h x true = .ok a →
             s.mp.unperf = [] → addrOk a (t.bits / 8) = true →
             (∀ j, j < (t.bits + 7) / 8 → addrOk (a + j) 1 = true ∧ (z.page (frameOf (a + j))).cls = some none) →
             ∃ u, exec (.storePerformAtHome k id) s = .next u ∧ u.mp.outs = outs
               ∧ u.mem = Mem.putCells s.mem (cellsOf a (op.apply t.efmt t.bits old (y.toNat % 2 ^ t.bits)) t.bits)
               ∧ (∀ q, ret = some q → (u.ctx k).queues
                   = (s.ctx k).queues.fill q (s.core (coreOf k)).clk 0 [extendElem t.efmt old]))
         ∧ (∀ h x size data ret rl sc, o.eff = .append h x size data ret rl sc → z.DescReadableAt die l h →
             let t := z.desc die l h
             let e := z.entry die t (t.tileNo x)
             let p := t.w6 + 8 * t.tileNo x
             let w : W64 := BitVec.ofNat 64 (z.seenN p 8)
             addrOk (t.entryAddr (t.tileNo x)) 16 = true → z.NoneOwns p 8 → wordApst w = 0 →
             (wordTail w + size ≤ 65536 → ∃ u, exec (.appendReservation k id) s = .next u ∧ u.mp.outs = outs
               ∧ u.mem = Mem.putN s.mem p (pageWord 0 (wordCommit w) (wordTail w + size)).toNat 8
               ∧ u.mp.resvs = s.mp.resvs
                   ++ [{ page := p, frame := e.frame, off := wordTail w, len := size, data := leBytes data.toNat size,
                         ctx := some k, id := id, written := false, seq := o.seq, owed := o.owed }]
               ∧ (∀ q, ret = some q → (u.ctx k).queues = (s.ctx k).queues.fill q (s.core (coreOf k)).clk 0 [BitVec.ofNat 1024 (wordTail w)]))
             ∧ (65536 < wordTail w + size → ∃ u, exec (.appendReservation k id) s = .next u ∧ u.mem = s.mem ∧ u.mp.resvs = s.mp.resvs
               ∧ (∀ q, ret = some q → (u.ctx k).queues
                   = (s.ctx k).queues.fill q (s.core (coreOf k)).clk 0 [BitVec.ofNat 1024 (2 ^ 62 + wordTail w)])))
         ∧ (∀ h x ret, o.eff = .seal h x ret → z.DescReadableAt die l h →
             let t := z.desc die l h
             let p := t.w6 + 8 * t.tileNo x
             let w : W64 := BitVec.ofNat 64 (z.seenN p 8)
             let a := t.entryAddr (t.tileNo x)
             s.Inv → z.NoneOwns p 8 → z.NoneOwns a 8 → (p + 8 ≤ a ∨ a + 8 ≤ p) → wordApst w ≠ 3 →
             ∃ u, exec (.sealAtHome k id) s = .next u ∧ u.mp.outs = outs
               ∧ u.mp.seals = s.mp.seals ++ [⟨p, a, k, id, ret, o.seq, o.owed⟩]
               ∧ u.mem = (if wordApst w = 0 then Mem.putN (Mem.putN s.mem p (pageWord 1 (wordCommit w) (wordTail w)).toNat 8) a
                     (setField (BitVec.ofNat 64 (z.seenN a 8)) 59 2 1).toNat 8 else s.mem)))
       ∧ (∀ r p, s.mp.resvs = [r] → r.page = p → r.id = id → r.written = false → r.data.length = r.len →
           let a := r.frame * 65536 + r.off
           let w : W64 := BitVec.ofNat 64 (s.seenN p 8)
           s.NoneOwns p 8 → s.NoneOwns a r.len → (p + 8 ≤ a ∨ a + r.len ≤ p) → s.Inv → wordCommit w = r.off →
           ∃ t, exec (.commitAdvance p id) s = .next t ∧ t.mp.resvs = []
             ∧ t.mem = Mem.putN (Mem.putN s.mem a (ofBytes r.data) r.len) p
                 (pageWord (wordApst w) (r.off + r.len) (wordTail w)).toNat 8)
       ∧ (∀ p q, let w : W64 := BitVec.ofNat 64 (s.seenN p 8)
           (s.mp.seals.filter fun r => r.page == p) = [q] →
           (findBy (fun v => v.who == .seal p) s.mp.pend = none → wordCommit w = wordTail w → wordApst w = 1 →
             s.Inv → s.NoneOwns p 8 → s.NoneOwns q.entry 8 → (p + 8 ≤ q.entry ∨ q.entry + 8 ≤ p) →
             let v : Inval := { id := s.nextId, who := .seal p, words := [(q.entry, 16)], entries := [q.entry], pages := [p] }
             ∃ t, exec (.sealComplete p) s = .next t ∧ t.mp.pend = s.mp.pend ++ [v] ∧ t.mp.seals = s.mp.seals
               ∧ t.mem = Mem.putN (Mem.putN s.mem p (pageWord 2 (wordCommit w) (wordTail w)).toNat 8) q.entry
                   (setField (BitVec.ofNat 64 (s.seenN q.entry 8)) 59 2 2).toNat 8)
           ∧ (∀ v, findBy (fun v => v.who == .seal p) s.mp.pend = some v → s.invalReady v = true → addrOk p 8 = true →
             ∃ t, exec (.sealComplete p) s = .next t ∧ t.mem = s.mem ∧ t.mp.pend = delBy (fun x => x.id == v.id) s.mp.pend
               ∧ t.mp.seals = s.mp.seals.filter (fun r => r.page != p)
               ∧ ∀ n, q.ret = some n → (t.ctx q.ctx).queues
                   = (s.ctx q.ctx).queues.fill n (s.core (coreOf q.ctx)).clk 0 [BitVec.ofNat 1024 (wordTail w)]))
       ∧ (∀ die f r, findBy (fun r => r.die == die && r.home == f && !r.ready) s.mp.replicas = some r →
           addrOk (f * 65536) 65536 = true → addrOk (r.loc * 65536) 65536 = true →
           ∃ t, exec (.replicaCopy die f) s = .next t
             ∧ t.mem = Mem.putN s.mem (r.loc * 65536) (s.seenN (f * 65536) 65536) 65536
             ∧ { r with ready := true } ∈ t.mp.replicas)
       ∧ (∀ f c, (s.page f).cls = some (some c) → ∃ t, exec (.pageReclassify f) s = .next t ∧ t.page f = ⟨some none, []⟩
           ∧ (∀ b ∈ (t.core c).blocks, inPage f b = false) ∧ ∀ g, g ≠ f → t.page g = s.page g)
       ∧ (∀ c f x, (c, f, x) ∈ s.mp.invals → ∃ t, exec (.invalidationArrival c f x) s = .next t ∧ t.mem = s.mem
           ∧ t.mp.invals = delBy (fun i => i == (c, f, x)) s.mp.invals))

/-- Migration of a host-shared page (R249 to R252): its request, acknowledgement, timeout, end of copy and end of hold complete: a
request is taken, or joins the one under way in its direction; the driver's acknowledgement begins the copy; without the feature a
driver neither asks nor answers; without an acknowledgement the migration is refused and MIG is clear; a copy that ends gives the
page to its new owner, held for 10 µs. The model's choices: the ring registers' places (log entry 25), the order of copy and
invalidation and what a refusal leaves (log entry 60), and that without feature 2 the driver neither asks nor answers (log entry
61). -/
def Obligations.MigrationEvents : Prop :=
  ∀ (s : State) (seq id f : Nat) (m : Mig),
    (∀ die h tile dir l, let la := s.launch l
      let d := s.desc die la (BitVec.ofNat 16 h)
      s.DescReadableAt die la (BitVec.ofNat 16 h) → s.descOk die la d = true → d.cls = 3 → tile < d.count →
      m ∈ s.mp.migs → m.entry = d.entryAddr tile → m.toHost = dir → (∀ y ∈ s.mp.migs, y.stage ≠ .waiting) →
      ∃ lu, exec (.migrationRequest die h tile dir l) s = .next (s.withLu lu))
    ∧ (s.feature 2 = false → exec (.migrationAck seq) s = .next s)
    ∧ (∀ die h tile dir l, let la := s.launch l
      let d := s.desc die la (BitVec.ofNat 16 h)
      let e := d.entryAddr tile
      let n : Mig := { seq := s.nextId, ring := 0, askers := [.driver], entry := e, launch := l, tenant := la.tenant,
                       handle := BitVec.ofNat 16 h, tile := tile, toHost := dir, stage := .waiting }
      s.DescReadableAt die la (BitVec.ofNat 16 h) → s.descOk die la d = true → d.cls = 3 → tile < d.count → s.feature 2 = true →
      (s.mp.migs = [m] → m.entry = e → m.toHost ≠ dir → m.seq ≠ s.nextId →
        ∃ lu, exec (.migrationRequest die h tile dir l) s = .next
          (({ s with nextId := s.nextId + 1, mp := { s.mp with migs := [m, n] } } : State).withLu lu))
      ∧ (s.mp.migs = [] → dir = true → s.NoneOwns e 8 → (BitVec.ofNat 64 (s.seenN e 8)).getLsbD 62 = false →
        ∃ t, exec (.migrationRequest die h tile dir l) s = .next t ∧ t.mp.migs = [{ n with stage := .copying }]
          ∧ t.mem = Mem.putN s.mem e (setField (BitVec.ofNat 64 (s.seenN e 8)) 61 1 1).toNat 8
          ∧ ∃ v ∈ t.mp.pend, v.who = .mig n.seq ∧ v.words = [(e, 16)]))
    ∧ (s.feature 2 = true → s.mp.migs = [m] → m.stage = .revoked → m.ring.toNat = seq →
        exec (.migrationAck seq) s = .next { s with mp := { s.mp with migs := [{ m with stage := .copying }] } })
    ∧ (s.mp.migs = [m] → m.stage = .revoked → m.ring.toNat = seq → m.askers = [.driver] → s.NoneOwns m.entry 8 →
        let lo : W64 := BitVec.ofNat 64 (s.seenN m.entry 8)
        ∃ t, exec (.migrationAckTimeout seq) s = .next t ∧ t.mp.migs = []
          ∧ t.mem = Mem.putN s.mem m.entry (setField lo 61 1 0).toNat 8)
    ∧ (let lo : W64 := BitVec.ofNat 64 (s.seenN m.entry 8)
       let hi : W64 := BitVec.ofNat 64 (s.seenN (m.entry + 8) 8)
       let dev := fieldN lo 0 24 * 65536
       let host := hostBase + fieldN hi 0 48 * 65536
       s.mp.migs = [m] → m.seq = id → m.stage = .copying →
        (m.toHost = false → s.migInval m = none → s.NoneOwns m.entry 16 → addrOk dev 65536 = true → addrOk host 65536 = true →
          ∃ t, exec (.migrationCopyDone id) s = .next t
            ∧ t.mem = Mem.putN (Mem.copyRange s.mem host dev 65536) m.entry (setField lo 61 2 0).toNat 8
            ∧ (t.mp.migs = [{ m with stage := .holding }]
                ∨ (t.mp.migs = [m] ∧ ∃ v, t.migInval m = some v ∧ v.words = [(m.entry, 16)] ∧ t.invalReady v = false)))
        ∧ (∀ v, s.migInval m = some v → s.invalReady v = true →
          (m.toHost = false → ∃ t, exec (.migrationCopyDone id) s = .next t ∧ t.mem = s.mem
            ∧ t.mp.migs = [{ m with stage := .holding }] ∧ t.mp.pend = delBy (fun p => p.id == v.id) s.mp.pend)
          ∧ (m.toHost = true → s.feature 2 = true → s.migRoom 1 = true → s.NoneOwns m.entry 16 → addrOk dev 65536 = true → addrOk host 65536 = true →
            addrOk (fieldN (s.reg (migRing 1)) 0 48
              + 16 * ((s.reg (migTail 1)).toNat % 2 ^ (fieldN (s.reg (migRing 1)) 48 4 + 4))) 16 = true →
            ∃ t, exec (.migrationCopyDone id) s = .next t ∧ t.mp.migs = [{ m with stage := .holding }]
              ∧ t.reg (migTail 1) = s.reg (migTail 1) + 1)))
    ∧ exec (.migrationHoldExpire f) s = .next { s with mp := { s.mp with
        migs := delBy (fun m => m.entry == f && m.stage == .holding) s.mp.migs } }

/-- Events at a planer (R319 to R331, R336, R349, R352 to R355): it accepts the next operation of a context that reaches it; a
sample steps a word of a STEP bank as it was converted, or joins the accumulator of a TICK word that is caught up; a tick counts and
queues a sweep, a ninth waits; a sweep steps a word that is one tick behind by its accumulator; a discard clears accumulators; a tap
read rounds the tap; an FBANK installs its image over words with ACC and STAMP clear; a cascade sample is accepted by the cascade
bank's word. The model's choices: a STEP accept clamps with BSAT, and a cascade sample is rescaled as its step produces it (log
entry 50), by the die of log entry 22; a tap counts as a real value (log entry 94). -/
def Obligations.PlanerEvents : Prop :=
  ∀ (s : State) (k pl : Nat) (f : FOp),
    let word (i : Nat) : FWord := FWord.parse (s.seenN i 16)
    let put (a : Nat) (w : FWord) : List Host.Cell := Mem.putN s.mem a w.bits 16
    let behind (q : BankState) (w : FWord) : Nat := (q.t.toNat + 65536 - w.stamp) % 65536
    let swept (ticket : Nat) : List Tick :=
      updBy (fun t => t.ticket == ticket) (fun t => { t with todo := t.todo.filter (· != pl) }) s.ticks
    let readable (die l : Nat) (h : BitVec 16) : Prop := h = 0 ∨ s.DescReadableAt die (s.launch l) h
    let entries (die l : Nat) (h : BitVec 16) (is : List Nat) : Prop :=
      let d := s.desc die (s.launch l) h
      s.DescReadableAt die (s.launch l) h ∧ ∀ i ∈ is, addrOk (d.entryAddr (d.tileNo (d.ofOffset i))) 16 = true
    (s.nextFOp k pl = some f →
      let b := s.bankParams pl f.bank
      let q := s.bankState pl f.bank
      (∀ xs, f.kind = .samples xs → (∀ x ∈ xs, s.homeOf pl f.ref x.1 = none) → exec (.sampleAccept k pl) s = .next (s.acceptedAt f pl))
      ∧ (∀ i a x, f.kind = .samples [(i, x)] → s.homeOf pl f.ref i = some a → addrOk a 16 = true →
          (b.tick = false → readable (pl / 12) f.launch b.casc → ∃ t, exec (.sampleAccept k pl) s = .next t
            ∧ t.mem = put a (b.step f.bank i (word a) x).1
            ∧ (t.bankState pl f.bank).bsat = (q.bsat || (b.step f.bank i (word a) x).2))
          ∧ (b.tick = true → behind q (word a) = 0 → ∃ t, exec (.sampleAccept k pl) s = .next t
            ∧ t.mem = put a { word a with acc := satInt true 48 ((word a).acc + x) }
            ∧ (t.bankState pl f.bank).bsat = (q.bsat || decide (satInt true 48 ((word a).acc + x) ≠ (word a).acc + x))))
      ∧ (∀ n, f.kind = .tick n →
          (b.tick = false → exec (.ftickAccept k pl) s = .next { s.acceptedAt f pl with ticks := swept n })
          ∧ (b.tick = true → 8 ≤ ((s.planer pl).sweeps.filter fun w => w.bank == f.bank).length →
              exec (.ftickAccept k pl) s = .next s)
          ∧ (b.tick = true → ((s.planer pl).sweeps.filter fun w => w.bank == f.bank).length < 8 →
              s.DescReadableAt (pl / 12) (s.launch f.launch) f.handle →
              (let d := s.desc (pl / 12) (s.launch f.launch) f.handle
               ∀ n < d.count, addrOk (d.entryAddr n) 16 = true) →
              ∃ t, exec (.ftickAccept k pl) s = .next t ∧ t.fops = (s.acceptedAt f pl).fops ∧ t.mem = s.mem
                ∧ (t.bankState pl f.bank).t = q.t + 1
                ∧ (t.planer pl).sweeps = (s.planer pl).sweeps ++ [⟨f.bank, q.t + 1, n, 0⟩]))
      ∧ (∀ lo n, f.kind = .discard lo n →
          (b.tick = false → exec (.fdiscAccept k pl) s = .next (s.acceptedAt f pl))
          ∧ (∀ i a, b.tick = true → s.homeWords pl f.ref lo n = [(i, a)] → addrOk a 16 = true → behind q (word a) = 0 →
              ∃ t, exec (.fdiscAccept k pl) s = .next t ∧ t.fops = (s.acceptedAt f pl).fops ∧ t.planers = s.planers
                ∧ t.mem = put a { word a with acc := 0 }))
      ∧ (∀ id, f.kind = .read id →
          (s.loadOf k id = none → exec (.tapReadAccept k pl) s = .next (s.acceptedAt f pl))
          ∧ (∀ ld h x c a fmt key ctr, s.loadOf k id = some ld → ld.kind = .taps h [x] 1 fmt key ctr → ld.q = 0 → ld.got = none →
              let d := s.desc f.ref.die (s.launch f.launch) h
              let vd := EFmt.ofCode (fmtVD fmt)
              d.units x 1 = [some c] → s.homeOf pl f.ref (d.offset c) = some a → s.Inv → s.NoneOwns a 16 → b.tick = false →
              let v := vd.round (fmtRM fmt) (fmtSAT fmt) (fmtFTZ fmt) (drawAt key ctr 0) (b.tapVal (word a).q1) % 2 ^ 64
              ∃ t, exec (.tapReadAccept k pl) s = .next t ∧ t.ctx k = (s.ctx k).setGot ld.id [BitVec.ofNat 1024 v]
                ∧ t.fops = (s.acceptedAt f pl).fops))
      ∧ (∀ id, f.kind = .taps id → (s.copyOf k id = none → exec (.tapReadAccept k pl) s = .next (s.acceptedAt f pl))
          ∧ (∀ r r' e, s.copyOf k id = some r → r.resv = some r' → r.exp = some e →
              readable f.ref.die f.launch (s.bankAt (s.desc f.ref.die (s.launch f.launch) f.handle).w6).casc →
              entries f.ref.die f.launch f.handle ((List.range e.count).map (offsetOf e.src + ·)) →
              (r.limit e.count ≤ r.got.length → ∃ lu, exec (.tapReadAccept k pl) s = .next ((s.acceptedAt f pl).withLu lu))
              ∧ (∀ a, r.code = 0 → e.count = r.got.length + 1 → r.got.find? r.got.length = none → s.exportWord f.ref r e = .at' a →
                addrChannel a = pl → s.Inv → s.NoneOwns a 16 → b.tick = false → e.tap = 0 → r.id = id →
                let v : W32 := BitVec.ofNat 32 ((EFmt.ofCode e.fmt.toNat).round .rne true false 0 (b.tapVal (word a).q1))
                ∃ t, exec (.tapReadAccept k pl) s = .next t ∧ t.fops = (s.acceptedAt f pl).fops ∧ t.mem = s.mem
                  ∧ t.copyOf k id = some { r with got := r.got.set r.got.length v })))
      ∧ (∀ img i a, f.kind = .bank img → s.allWords pl f.ref = [(i, a)] → addrOk a 16 = true →
          (b.okHere = true → b.tick = true → behind q (word a) = 0) →
          ∃ t, exec (.fbankAccept k pl) s = .next t ∧ t.mem = put a { word a with acc := 0, stamp := 0 }
            ∧ t.bankState pl f.bank = ⟨0, false, some img, f.handle, f.launch⟩
            ∧ (t.planer pl).sweeps = (s.planer pl).sweeps.filter fun w => w.bank != f.bank))
    ∧ (∀ w ws i a, (s.planer pl).sweeps = w :: ws →
        let q := s.bankState pl w.bank
        let r : BankRef := ⟨q.launch, q.tensor, w.bank, pl / 12⟩
        let b := s.bankParams pl w.bank
        (s.allWords pl r).drop w.next = [(i, a)] → addrOk a 16 = true → b.tick = true →
        behind q (word a) = 1 → readable (pl / 12) q.launch b.casc →
        ∃ t, exec (.sweepVisit pl) s = .next t ∧ t.mem = put a (b.step w.bank i (word a) (word a).acc).1
          ∧ (t.planer pl).sweeps = ws ∧ t.ticks = swept w.ticket)
    ∧ (∀ b, exec (.tickComplete b) s = .next { s with ticks := delBy (fun t => t.bank == b && s.tickDone t) s.ticks })
    ∧ (∀ n h l i v tk cs a, (s.planer pl).casc = (n, h, l, i, v, tk) :: cs → s.wordAddr ⟨l, h, n, pl / 12⟩ i = some a →
        let b := s.bankParams (addrChannel a) n
        addrOk a 16 = true → entries (pl / 12) l h [i] → b.tick = false → b.casc = 0 →
        ∃ t, exec (.cascadeDelivery pl) s = .next t ∧ t.mem = put a (b.step n i (word a) (satInt true 32 v)).1
          ∧ (t.planer pl).casc = cs)

/-- Arrivals at the fabric engine (R98, R377, R380, R383, R384, R390, R394, R396): a put that one grant entry admits writes its
bytes and is answered 0, or 5 where an uncorrectable error stands there; of a message whose flits no port has delivered nothing is
done; one that none admits is answered 1 and writes nothing; an arrival for a job without a running launch is held with a hold
notice; a collective's input joins its round, a complete last round is combined, a notice of a lost member moves the collective to
Abort; a handler's arrival starts a dormant context at its entry; arrivals that waited too long are answered 4. Answers, timeouts
and links (R377, R383, R386, R387, R395 to R399): the last answer to a put completes it with its code, a denial of a strict form is
a grant fault, and of an answer or a hold notice that no port has delivered nothing is done; an unanswered put completes with code
6, one held at its receiver waits on; a round without an input tells every member and aborts, and completes with code 8; flits in
sequence are delivered, others ask for replay; a port retires lanes to its spare, to half width, then goes down, and an idle lane
that is retired is only noted. The model's choices: the four lowest lanes left are kept (log entry 23), the codes and rounds of
collectives (log entry 51), held arrivals without bound (log entry 52), and how a message is cut into payloads (log entry 74). -/
def Obligations.FabricEvents : Prop :=
  (∀ (s : State) (m : FabMsg) (l i : Nat),
     let la := s.launch l
     let free (x : FabMsg) : Prop := ∃ n, s.routeTo x.src.toNat = some n ∧ (s.port n).queue = [] ∧ (s.port n).replay.length < 256
     let answer (x : FabMsg) (kd : FabKind) (code : Nat) : List FabMsg := s.outbox ++ [answerTo s.mg.dev x kd code 0]
     let a := fieldN m.addr 0 29
     let n := m.data.length
     let p := (s.inst i).phys (fieldN m.addr 19 6)
     let at' := scrAddr p (fieldN m.addr 0 19)
     let epochOk := match (s.inst i).groups.find? m.slot.toNat with | some g => g.epoch = m.epoch | none => True
     (s.deliverer m.data = none → exec (.fabricArrival m) s = .next s ∧ exec (.collInputArrival m) s = .next s
         ∧ exec (.lostMemberNotice m) s = .next s)
     ∧ (∀ pn, s.deliverer m.data = some pn → s.launchFor m.job = some l →
       let s0 := s.received m.data pn
       (m.kind = .put → m.flag = none → la.admits m.src 0 a (a + n) .wr = false →
         ∃ t, exec (.fabricArrival m) s = .next t ∧ t.mem = s.mem ∧ t.ctxs = s.ctxs ∧ (free m → t.outbox = answer m .ack 1))
       ∧ (m.kind = .put → m.flag = none → la.admits m.src 0 a (a + n) .wr = true →
           s.instFor l (fieldN m.addr 25 4) = some i → (s.inst i).placed = true → fieldN m.addr 19 6 < (s.inst i).cores →
           s0.putRefused p m (fieldN m.addr 0 19) = false →
           ((∃ x ∈ s.mg.bad, within at' n x = true) →
             ∃ t, exec (.fabricArrival m) s = .next t ∧ t.mem = s.mem ∧ t.ctxs = s.ctxs ∧ (free m → t.outbox = answer m .ack 5))
           ∧ ((∀ x ∈ s.mg.bad, within at' n x = false) → addrOk at' n = true →
             ∃ t, exec (.fabricArrival m) s = .next t ∧ t.mem = Mem.putN s.mem at' (ofBytes m.data) n ∧ t.ctxs = s.ctxs
               ∧ (free m → t.outbox = answer m .ack 0)))
       ∧ (m.kind = .coll → s.instFor l m.inst.toNat = some i → epochOk →
           (s.collFor i m = none → (s.inst i).colls.get 0 (collKey m.slot m.epoch) ≤ m.k →
             exec (.collInputArrival m) s = .next { s0 with heldMsgs := s.heldMsgs ++ [m] })
           ∧ (∀ k r s1, s.collFor i m = some (k, r) → s.fabOf k r.id = some r → r.stage = .running → m.form = r.cmd.formNo →
               let c := r.coll
               let is := c.lands r.self (c.sent m.pos m.round)
               m.count = c.n → s0.landAdmitted k r m.src is = true → landFault k r is s0 = .ok (none, s1) →
               let r1 := { r with inputs := r.inputs ++ [(m.round, m.pos, m.data)] }
               let full := (c.awaits r.self r.round).all fun q => (r1.inputsOf r.round).any fun x => x.1 == q
               (full = false → ∃ t, exec (.collInputArrival m) s = .next t ∧ t.fabOf k r.id = some r1 ∧ t.mem = s1.mem)
               ∧ (full = true → r.round = c.rounds → ∃ t, exec (.collInputArrival m) s = .next t ∧ t.mem = s1.mem
                   ∧ t.fabOf k r.id = some { r1 with acc := c.combine r.self r.round r.acc (r1.inputsOf r.round),
                                                     round := r.round + 1 })))
       ∧ (∀ k r, m.kind = .lost → s.instFor l m.inst.toNat = some i → epochOk → s.collFor i m = some (k, r) → s.fabOf k r.id = some r →
           r.stage = .running →
           ∃ t, exec (.lostMemberNotice m) s = .next t ∧ t.mem = s.mem
             ∧ t.fabOf k r.id = some { r with stage := .abort m.pos (r.members.getD m.pos 0).toNat }))
     ∧ (∀ pn, s.deliverer m.data = some pn → s.launchFor m.job = none → m.kind ≠ .lost →
         (s.mg.linkUp = true → s.dist.doneJobs.contains m.job = false →
           ∃ t, exec (.fabricArrival m) s = .next t ∧ t.heldMsgs = s.heldMsgs ++ [m] ∧ t.mem = s.mem
             ∧ (free m → t.outbox = answer m .hold 0))
         ∧ (s.mg.linkUp = false ∨ s.dist.doneJobs.contains m.job = true →
             ∃ t, exec (.fabricArrival m) s = .next t ∧ t.heldMsgs = s.heldMsgs ∧ t.mem = s.mem
               ∧ (free m → t.outbox = answer m .ack 4)))
     ∧ (∀ job, s.launchFor job = none →
         ∃ t, exec (.arrivalWaitExpire job) s = .next t ∧ t.heldMsgs = s.heldMsgs.filter (fun m => m.job != job) ∧ t.mem = s.mem
           ∧ ∀ x, s.heldMsgs.filter (fun m => m.job == job) = [x] → x.kind ≠ .lost → free x → t.outbox = answer x .ack 4)
     ∧ (∀ c h entry q, (s.core c).arrQ = (l, h, entry) :: q → s.heldMsgs = [] → la.running = false →
         exec (.handlerStart c) s = .next (s.setCore c { s.core c with arrQ := q }))
     ∧ (∀ c h entry q k, (s.core c).arrQ = (l, h, entry) :: q → s.heldMsgs = [] → la.running = true →
         findBy (fun k => (s.ctx k).st == .dormant && (s.ctx k).launch == l) ([0, 1, 2, 3].map fun j => 4 * c + j) = some k →
         let x := s.ctx k
         let y := x.start la (s.inst x.inst).idx k entry
         exec (.handlerStart c) s = .next ((s.setCore c { s.core c with arrQ := q }).setCtx k
           (if (s.inst x.inst).stopping then { y with st := .stopping } else y))))
  ∧ (∀ (s : State) (k id : Nat) (r : FabRun),
       let c := s.ctx k
       let fabs (t : State) (f : FabRun → FabRun) : State := t.setCtx k { c with fl := { c.fl with fabs := updBy (fun q => q.id == id) f c.fl.fabs } }
       let ended (code sub : Nat) (info : W32) : Ctx :=
         { c with fl := { c.fl with fabs := delBy (fun q => q.id == id) c.fl.fabs,
                                    fabStat := mergeStatus c.fl.fabStat (BitVec.ofNat 8 code) (BitVec.ofNat 8 sub) info none } }
       (∀ code sub pos, s.deliverer [] = none →
         exec (.fabricAck k id code sub pos) s = .next (s.on k) ∧ exec (.holdNotice k (id, pos)) s = .next s)
       ∧ (s.fabOf k id = some r → r.orphan = false →
         (∀ code sub pos, r.stage = .running → r.cmd.op ∈ ([.put, .putH, .putSmp] : List FabOp) → r.pending = [pos] → r.code = 0 →
           r.sub = 0 → r.denied = 0 →
           (∀ pn, s.deliverer [] = some pn → code ≠ 1 → code ≠ 0 ∨ sub = 0 →
             exec (.fabricAck k id code sub pos) s = .next (((s.received [] pn).on k).setCtx k (ended code.toNat sub.toNat 0)))
           ∧ (∀ pn, s.deliverer [] = some pn → c.live = true → exec (.fabricAck k id 1 sub pos) s
               = finish (((s.received [] pn).on k).setCtx k (ended 1 sub.toNat 0))
                   (takeTrap k { Trap.mk' clsGrant 0 with precise := false }))
           ∧ (r.heldPos = [] → exec (.putAckTimeout k id) s = .next ((s.on k).setCtx k (ended 6 0 0)))
           ∧ (r.heldPos = [pos] → exec (.putAckTimeout k id) s = .next (s.on k)))
         ∧ (∀ code sub pos pn, r.cmd.op ∈ ([.ar, .rs, .ag] : List FabOp) → r.stage = .running → code ≠ 0 → s.deliverer [] = some pn →
             exec (.fabricAck k id code sub pos) s = .next (((s.received [] pn).on k).setCtx k (ended code.toNat sub.toNat 0)))
         ∧ (∀ p, r.stage = .running → r.ready = false → r.missing = some p → (∀ j, (s.port j).down = false) →
             ∃ t, exec (.collRoundTimeout k id) s = .next t ∧ t.mem = s.mem
               ∧ t.fabOf k id = some { r with stage := .abort p (r.members.getD p 0).toNat }
               ∧ ((∀ j, (s.port j).queue = [] ∧ (s.port j).replay.length + r.members.length ≤ 256) → t.outbox = s.outbox ++ (r.coll.others r.self).map fun q => { r.msg s k .lost (r.members.getD q 0) with pos := p }))
         ∧ (∀ pos dev, r.cmd.op = .rsf → r.stage = .abort pos dev →
             exec (.collAbortTimeout k id) s
               = .next (s.setCtx k (ended 8 0 (BitVec.ofNat 32 (pos % 256 * 256 + dev % 256))))))
       ∧ (∀ pos pn, s.deliverer [] = some pn → exec (.holdNotice k (id, pos)) s
           = .next (fabs (s.received [] pn) fun q => if q.pending.contains pos then { q with heldPos := pos :: q.heldPos } else q))
       ∧ (∀ port seq ok acked bytes lane, let p := s.port port
           let withPort (x : Port) : Host.Outcome State Fault Refusal := .next { s with ports := s.ports.set port x }
           let pumped (x : Port) : Host.Outcome State Fault Refusal :=
             .next { s with ports := s.ports.set port (x.pump x.queue.length).1, outbox := s.outbox ++ (x.pump x.queue.length).2 }
           let bit : BitVec 9 := 1 <<< lane
           let gone : Port := { p with retired := p.retired ||| bit }
           p.down = false →
             (ok = true → seq = p.rxSeq → exec (.flitReceive port (seq, acked) ok bytes) s
               = pumped { p.freed acked with rxSeq := p.rxSeq + 1, rx := p.rx ++ [bytes], ask := none })
             ∧ (ok = false ∨ (seq ≠ p.rxSeq ∧ (seq - p.rxSeq).toNat < 2048) →
                 exec (.flitReceive port (seq, acked) ok bytes) s = pumped { p with ask := some p.rxSeq })
             ∧ (ok = true → 2048 ≤ (seq - p.rxSeq).toNat → exec (.flitReceive port (seq, acked) ok bytes) s = pumped (p.freed acked))
             ∧ (p.queue = [] → (pumped p) = withPort p)
             ∧ exec (.replayRequest port seq) s
               = withPort { p with resent := p.resent ++ p.replay.filter (fun f => decide ((f.1 - seq).toNat < 2048)),
                                   replays := if p.replays = 0xFFFFFFFF then p.replays else p.replays + 1 }
             ∧ (lane < 9 → p.active.getLsbD lane = false → exec (.laneRetire port lane) s = withPort gone)
             ∧ (lane < 9 → p.active.getLsbD lane = true →
                 let spent := p.spare = true ∨ gone.retired.getLsbD 8 = true
                 (¬ spent → exec (.laneRetire port lane) s
                   = withPort { gone with active := (p.active &&& ~~~bit) ||| 0x100, spare := true })
                 ∧ (spent → p.narrowed = false → ∃ q, exec (.laneRetire port lane) s = withPort q ∧ q.narrowed = true
                     ∧ q.active = lowestLanes (p.active &&& ~~~bit) 4 ∧ q.retired = gone.retired)
                 ∧ (spent → p.narrowed = true → p.queue = [] → exec (.laneRetire port lane) s
                   = withPort { gone with active := 0, down := true }))))

/-- Events of the distributor (R97, R114, R115, R403 to R412): a packet's words land in the queue's window where its function owns
the queue and has agreed on features, else nowhere, and it joins its FIFO with the next sequence number, or is discarded with a
record; a pass starts the head packet it chooses on its spots, each context of it Active at its core's entry or Dormant; an instance
whose window has expired loses the contexts that have not stopped; one that has stopped is saved and resumes later; a launch that is
over writes its completion word, performs its signals and frees its slots. The model's choices: HEAD and TAIL count without wrapping
(log entry 12), a completion performs the launch's pending writes (log entry 55), semaphore conditions are summed (log entry 56),
and which launch of an image is its first (log entry 65). -/
def Obligations.DistributorEvents : Prop :=
  ∀ (s : State) (qn : BitVec 8) (ws : List W64) (l i fn : Nat),
    let q := qn.toNat
    let la := s.launch l
    let setQ (q : Nat) (f : List (List W64)) (t : State) : Prop :=
      (t.queue q).fifo = f ∧ fieldN (t.queueWord q) 0 5 = (16 - f.length) % 32
    let win := (List.range 32).map (pkt ws)
    let landed : Dist := { s.dist with windows := (List.range 32).foldl (fun m i => m.set (32 * q + i) (pkt ws i)) s.dist.windows }
    let open' : Prop := s.mg.hostOpen = true ∧ s.agreed fn = true ∧ s.ownsQueue fn q = true
    (¬ open' → exec (.launchPacket (qn, fn) ws) s = .next s)
    ∧ (open' → s.accepts q = false → exec (.launchPacket (qn, fn) ws) s = .next { s with dist := landed })
    ∧ (open' → s.accepts q = true → (s.queue q).fifo.length < 16 → s.packetFault q ws = none →
        let w0 := if (s.queueWord q).getLsbD 61 then pkt ws 0 else pkt ws 0 &&& ~~~((1 : W64) <<< 23)
        ∃ t, exec (.launchPacket (qn, fn) ws) s = .next t ∧ t.mem = s.mem ∧ t.dist.seqNo = s.dist.seqNo + 1
          ∧ t.dist.windows = landed.windows ∧ setQ q ((s.queue q).fifo ++ [(w0 :: win.drop 1) ++ [BitVec.ofNat 64 s.dist.seqNo]]) t)
    ∧ (∀ n, open' → s.accepts q = true → s.RingOk q →
        (if 16 ≤ (s.queue q).fifo.length then n = 1 else s.packetFault q ws = some n) →
        ∃ t, exec (.launchPacket (qn, fn) ws) s = .next t ∧ t.dist = landed
          ∧ s.PostedIn t q [BitVec.ofNat 64 (2 ^ 63 + n * 2 ^ 42), 0, 0, 0, 0, 0, 0, 0])
    ∧ (s.passResult = ([], none) → exec .dispatchPass s = .next s)
    ∧ (∀ c p0 rest, s.passResult = ([], some (q, .start q [(c, p0)])) → (s.queue q).fifo = ws :: rest →
        let img := fieldN (pkt ws 1) 0 48
        let n := s.dist.nextLaunch
        let x := { Launch.parse s q (s.queueTenant q) (s.imageNeed img) ws with running := true, first := s.firstOf img }
        let phys (j : Nat) : Nat := 64 * c + 16 * p0 + j
        s.NoneOwns img 0x400 → s.heldMsgs = [] → x.tabLen = 0 → checkImage (s.imageWord x.mprog) = none →
        phys (16 * x.need) ≤ numCores → (∀ j, j < 16 * x.need → (s.core (phys j)).blocks = []) →
        ∃ t, exec .dispatchPass s = .next t ∧ t.launch n = x ∧ setQ q rest t ∧ t.dist.lastServed = s.dist.lastServed.set 0 q
          ∧ t.dist.sems = (semSums (semFields ws 12)).foldl
              (fun m e => m.set e.1 (BitVec.ofNat 32 ((m.get 0 e.1).toNat - e.2))) s.dist.sems
          ∧ t.inst s.nextId = { Inst.none with launch := n, cluster := c, p0 := p0, need := x.need, placed := true, started := s.tick }
          ∧ ∀ j k, j < 16 * x.need → k < 4 →
              let e := s.seenN (img + 0x100 + 8 * j) 8
              let slot : Ctx := { Ctx.free with launch := n, inst := s.nextId, icore := j, priv := x.priv,
                                                nextIssue := (s.core (phys j)).clk }
              t.ctx (4 * phys j + k) = if e / 2 ^ 63 = 0 then Ctx.free
                else if k ≤ e / 2 ^ 32 % 4 then { slot with atLaunch := true }.start x 0 k (BitVec.ofNat 32 e) else slot.dormant)
    ∧ (∀ k, s.members i = [k] → (s.inst i).stopping = true → (s.ctx k).st = .stopping → (s.core (coreOf k)).halted = none →
        s.RingOk (s.launchOf k).queue →
        ∃ t, exec (.preemptionTimeout i) s = .next t ∧ (t.inst i).stopping = false
          ∧ s.EndedIn t k { Trap.mk' clsTimeout 0 with precise := false })
    ∧ (∀ j k, let v := s.inst i
        let y := s.launch v.launch
        let a := y.saveArea v.idx j k
        let x := s.ctx (4 * v.phys j + k)
        s.saveReady i = true → s.members i = [4 * v.phys j + k] → j < v.cores → k < 4 → x.st = .saved → x.inst = i → v.phys v.cores ≤ numCores →
        addrOk a areaBytes = true → (∀ m, m < v.cores → addrOk (y.scrArea v.idx m) scrBytes = true) →
        (∀ f ∈ x.areaFields ++ x.areaBacking, f.1 + f.2.1 ≤ areaBytes) →
        ∃ t, exec (.contextSave i) s = .next t ∧ (t.inst i).placed = false ∧ (t.inst i).saved = true
          ∧ t.ctx (4 * v.phys j + k) = Ctx.free ∧ t.dist.resumes = s.dist.resumes ++ [i]
          ∧ (s.Inv → Mem.getN t.mem a 8 = x.header (s.core (v.phys j)).l1n false % 2 ^ 64
              ∧ Mem.getN t.mem (a + 8) 4 = x.sq.pc.toNat))
    ∧ (s.launchOver l = false → exec (.launchCompletion l) s = .next s)
    ∧ (s.launchOver l = true → s.NoneOwns la.compl 8 →
        ∃ t, exec (.launchCompletion l) s = .next t ∧ t.mem = Mem.putN s.mem la.compl la.word 8 ∧ (t.launch l).running = false
          ∧ t.dist.sems = la.signals.foldl (fun m e => semAdd m e.1 e.2) s.dist.sems ∧ la.job ∈ t.dist.doneJobs
          ∧ t.ctxs = s.ctxs.map (fun e => if e.2.launch = l then (e.1, Ctx.free) else e)
          ∧ t.dist.insts = s.dist.insts.filter fun e => e.2.launch != l)
    ∧ exec (.classifierWindowEnd l) s = .next (if la.running = true ∧ la.first = true then
        ({ s with dist := { s.dist with classes := ((la.img, la.class) :: s.dist.classes).take 256 } }).setLaunch l
          { la with first := false } else s)

/-- The debugger and the host (R232, R233, R433 to R442): an armed breakpoint or watchpoint halts its core and shows HIT, as a
command does; a resume lets it go; an access reads or writes a register of a halted core; negotiation ends in OK, which enables the
features asked for, or in FAIL, which enables none; attestation signs the next leaf once, the leaf index first in the signature; a
device in boot, without power or without its link takes no host write, and without power or link a read returns ones; BAR0 shows
registers, and a VF's own boot mailbox, whose GO is answered likewise, BAR2 the launch windows of the function's queues, the PF's
BAR4 reads and writes device memory, a VF's through its table; queue control words, the configuration word and plain registers take
the bits that may be written. The model's choices: what a feature gates (log entry 61), which writes do nothing (log entry 63), what
the debugger writes of a tagged register or of fmt (log entry 86), and a VF's mailbox (log entry 87). -/
def Obligations.DebugAndHostEvents : Prop :=
  ∀ (s : State) (k u c : Nat),
    let x := s.core (coreOf k)
    let d := s.reg 0xB210
    let at' := 64 * fieldN d 40 4 + fieldN d 34 6
    let kk := 4 * at' + fieldN d 32 2
    let io := s.reg 0xB218
    let named := if (s.core at').halted.isSome then (s.ctx kk).dbgRead (fieldN d 28 4) (fieldN d 26 2) (fieldN d 16 6) (fieldN d 0 16) else none
    let ok (f : Nat) : Prop := s.mg.hostOpen = true ∧ s.agreed f = true
    let status := setField (s.reg 0x10) 3 1 0
    let leaf := s.mg.attLeaf
    (u < 12 → s.watches k u = true → (s.ctx k).live = true → (u < 8 → s.breakpointAt k = some u) → x.halted = none →
      exec (.debugBreak k u) s = .next ((s.setCore (coreOf k) { x with halted := some (k % 4, u), resumed := none }).setReg
        (dbgEntry u) (setField (s.reg (dbgEntry u)) 62 1 1)))
    ∧ (s.feature 5 = false → ∀ i ∈ ([.debugHaltCommand c, .debugResumeCommand c, .debugAccessCommand, .debugBreak k u] : List Instr),
        exec i s = .next s)
    ∧ (s.feature 5 = true →
        ((s.core c).halted = none →
          exec (.debugHaltCommand c) s = .next (s.setCore c { s.core c with halted := some (0, 12), resumed := none }))
        ∧ (∀ n v, (s.core c).halted = some (n, v) →
            exec (.debugResumeCommand c) s
              = .next (s.setCore c { s.core c with halted := none, resumed := if v < 12 then some n else none }))
        ∧ (named = none → exec .debugAccessCommand s = .next (s.setReg 0xB218 (setField io 63 1 1)))
        ∧ (∀ r, named = some r →
            (d.getLsbD 63 = false → exec .debugAccessCommand s
              = .next (({ s with mg := { s.mg with dbgData := BitVec.ofNat 8192 r.val } } : State).setReg 0xB218
                  (BitVec.ofNat 64 (r.tag.toNat * 2 + if r.valid then 1 else 0))))
            ∧ (d.getLsbD 63 = true → exec .debugAccessCommand s
              = .next ((s.setCtx kk ((s.ctx kk).dbgWrite (fieldN d 28 4) (fieldN d 26 2) (fieldN d 16 6) (fieldN d 0 16)
                  ⟨io.getLsbD 0, BitVec.ofNat 3 (fieldN io 1 3), s.mg.dbgData.toNat⟩)).setReg 0xB218 (setField io 63 1 0)))))
    ∧ (s.mg.hostOpen = true →
        (let sound := s.reg 0x08 &&& ~~~(s.reg 0x00) = 0
         exec .featureNegotiation s = .next
           (({ s with mg := { s.mg with features := if sound then s.reg 0x08 else 0 } } : State).setReg 0x10
             (setField (setField (s.reg 0x10) 0 1 0) 1 2 (if sound then 1 else 2))))
        ∧ (s.feature 3 = true →
          (leaf < 2 ^ 20 → exec .attestation s = .next (({ s with mg := { s.mg with
              attLeaf := leaf + 1, attReport := s.attMessage leaf ++ (leBytes leaf 4).reverse
                ++ leBytes (Config.signature leaf (s.attMessage leaf)).toNat 2816 } } : State).setReg 0x10 status))
          ∧ (2 ^ 20 ≤ leaf → exec .attestation s = .next (s.setReg 0x10 (setField status 8 8 0x11))))
        ∧ (s.feature 3 = false → exec .attestation s = .next s)
        ∧ exec (.vfApertureFlush k) s
            = .next { s with mg := { s.mg with apCache := s.mg.apCache.eraseRange (262144 * k) 262144 } })
    ∧ (s.mg.hostOpen = false → ∀ qn w v f off,
        ∀ i ∈ ([.featureNegotiation, .attestation, .vfApertureFlush k, .queueControlWrite qn w v f, .configurationWordWrite v,
                .registerWrite off v] : List Instr), exec i s = .next s)
    ∧ (∀ f b write off n bytes, (s.mg.powered && s.mg.linkUp) = false →
        exec (.hostBarAccess (f, b) write off n bytes) s = .next (if write = true then s
          else { s with mg := { s.mg with barData := List.replicate n 0xFF } }))
    ∧ (∀ f off n bytes, s.mg.powered = true → s.mg.linkUp = true →
        (f = 0 ∨ 24 ≤ off → exec (.hostBarAccess (f, 0) true off n bytes) s = .next s)
        ∧ (0 < f → f < 64 → s.feature 0 = true → ∀ b : Byte, b.getLsbD 0 = true →
            exec (.hostBarAccess (f, 0) true 16 1 [b]) s = .next (s.setReg (vfBox f 2) (setField (setField (s.reg (vfBox f 2)) 0 1 0) 1 2
              (if s.reg (vfBox f 1) &&& ~~~(s.reg 0x00) = 0 then 1 else 2))))
        ∧ ∃ t, exec (.hostBarAccess (f, 0) false off n bytes) s = .next t ∧ t.mem = s.mem
          ∧ t.mg.barData = (List.range n).map fun i => s.barReg f (off + i))
    ∧ (∀ f off (b : Byte), s.mg.powered = true → s.mg.linkUp = true → s.mg.booted = true → off < 65536 →
        let word := s.dist.windows.get 0 (off / 8)
        let bit := 8 * (off % 8)
        let shown : Byte := if s.ownsQueue f (off / 256) then BitVec.ofNat 8 (fieldN word bit 8) else 0
        exec (.hostBarAccess (f, 2) false off 1 []) s = .next { s with mg := { s.mg with barData := [shown] } }
        ∧ (¬ ok f ∨ s.ownsQueue f (off / 256) = false → exec (.hostBarAccess (f, 2) true off 1 [b]) s = .next s)
        ∧ (ok f → s.ownsQueue f (off / 256) = true → off % 256 ≠ 255 →
            exec (.hostBarAccess (f, 2) true off 1 [b]) s = .next { s with dist := { s.dist with
              windows := s.dist.windows.set (off / 8) (setField word bit 8 b.toNat) } }))
    ∧ (∀ off n bytes, s.mg.powered = true → s.mg.linkUp = true → s.mg.booted = true → off + n ≤ devTop → s.NoneOwns off n →
        (s.mp.unperf = [] → exec (.hostBarAccess (0, 4) false off n bytes) s
          = .next { s with mg := { s.mg with barData := (List.range n).map fun i => Mem.get s.mem (off + i) } })
        ∧ (∃ t, exec (.hostBarAccess (0, 4) true off n bytes) s = .next t
          ∧ t.mem = (List.range n).foldl (fun m i => Mem.putN m (off + i) (bytes.getD i (0 : Byte)).toNat 1) s.mem))
    ∧ (∀ f off n bytes, s.mg.powered = true → s.mg.linkUp = true → s.mg.booted = true → f ≠ 0 →
        s.feature 0 = false ∨ (s.reg (0xD000 + 16 * f)).getLsbD 63 = false →
        exec (.hostBarAccess (f, 4) true off n bytes) s = .next s
        ∧ exec (.hostBarAccess (f, 4) false off n bytes) s = .next { s with mg := { s.mg with barData := (List.range n).map fun _ => 0 } })
    ∧ (∀ f off e, s.mg.powered = true → s.mg.linkUp = true → s.mg.booted = true → s.feature 0 = true → 0 < f → f ≤ 63 → off < 2 ^ 34 →
        (s.reg (0xD000 + 16 * f)).getLsbD 63 = true → s.mg.apCache.find? (262144 * f + off / 65536) = some e →
        let a := fieldN e 0 24 * 65536 + off % 65536
        s.NoneOwns a 1 → s.mp.unperf = [] → e.getLsbD 63 = true →
        exec (.hostBarAccess (f, 4) false off 1 []) s = .next { s with mg := { s.mg with barData := [Mem.get s.mem a] } }
        ∧ (e.getLsbD 62 = false → ∀ b, exec (.hostBarAccess (f, 4) true off 1 [b]) s = .next s))
    ∧ (∀ (qn : BitVec 8) (w : Nat) (v : W64) (f : Nat), let q := qn.toNat
        let old := s.queueWord q
        (¬ ok f → exec (.queueControlWrite qn w v f) s = .next s)
        ∧ (ok f →
            (f = 0 ∨ (fieldN old 48 8 = f ∧ s.feature 0 = true) → exec (.queueControlWrite qn 3 v f) s = .next (s.setReg (queueReg q 3) v))
            ∧ (f ≠ 0 → w ≠ 3 → exec (.queueControlWrite qn w v f) s = .next s)
            ∧ (s.queueBusy q = true → fieldN v 38 10 ≠ fieldN old 38 10 ∨ fieldN v 48 8 ≠ fieldN old 48 8 →
                exec (.queueControlWrite qn 0 v 0) s = .next s)
            ∧ (s.queueBusy q = false → exec (.queueControlWrite qn 0 v 0) s = .next (s.setReg (queueReg q 0)
                ((old &&& ~~~(0xE0FFFFF000000000 : W64) &&& ~~~(v &&& 0x1000000000000000)) ||| (v &&& 0xE0FFFFF000000000))))))
    ∧ (∀ v, s.mg.hostOpen = true →
        exec (.configurationWordWrite v) s = .next (if s.dist.everLaunched then s
          else s.setReg 0x5200 (if v.getLsbD 0 = true ∧ s.feature 1 = true then 1 else 0))
        ∧ exec (.registerWrite 0x08 v) s = .next (s.setReg 0x08 v)
        ∧ exec (.registerWrite 0x7008 v) s = .next (s.setReg 0x7008 (BitVec.ofNat 64 (min 1000 (max 1 (fieldN v 0 16)))))
        ∧ exec (.registerWrite 0x7010 v) s = .next (s.setReg 0x7010 ((s.reg 0x7010 &&& ~~~0xFFFF) ||| (v &&& 0xFFFF)))
        ∧ (s.feature 5 = false → exec (.registerWrite 0xB210 v) s = .next s))

/-- Power, errors, resets and the two rows that no slot carries (R22, R36, R222, R443 to R452): a cap is clamped and ramped to; an
uncorrectable error is counted, interrupts, and withholds its data; a reset leaves the machine as after reset but for host memory,
the leaf index and what the flash and the fuses hold; a power-up or reset of which a step fails stays in boot with FAIL and that
step's code, the third's being 0x10 where the firmware does not verify; a quiesced DK4M-1500 has its ports down; a lost link ends
every launch; a bundle of voids moves to the next address; an unassigned opcode is the illegal-instruction trap. The model's
choices: time stamps and failing steps (log entry 5), feature 4 gates the ramp (log entry 61), a reset restores BAR0 and the link
and keeps host memory (log entry 62), the ordering code and its QUIESCE (log entry 69), and the addresses of SRAM errors (log entry
88). -/
def Obligations.PowerErrorAndResetEvents : Prop :=
  ∀ (s : State) (v : W64) (src : BitVec 8 × Nat) (die : BitVec 8) (addr : BitVec 48) (req id : Nat) (n : W32),
    let w := fieldN v 0 16
    let cap := min s.mg.part.cap (max 400 w)
    let set := s.setReg 0x7000 (BitVec.ofNat 64 cap)
    let goal := fieldN (s.reg 0x7000) 0 16
    let ramp := fieldN (s.reg 0x7010) 0 16
    let flags := s.reg 0x9018
    let counted (t : State) : State := ({ t with mg := { t.mg with msix := t.mg.msix ++ [(0, 1)] } } : State).setReg 0x9018
      (setField flags 32 32 (min (2 ^ 32 - 1) (fieldN flags 32 32 + 1)))
    let c := s.ctx req
    let k := s.focus
    exec (.capWrite v) s = .next (if s.mg.hostOpen = false then s else if cap = w then set
      else set.setReg 0x7020 (setField (s.reg 0x7020) 9 1 1))
    ∧ exec .powerCapRamp s = .next (if s.feature 4 then
        { s with mg := { s.mg with applied := if s.mg.applied ≤ goal then min goal (s.mg.applied + ramp)
                                              else max goal (s.mg.applied - ramp) } } else s)
    ∧ ((s.reg 0x9000).getLsbD 63 = false →
        (s.loadOf req id = none → s.copyOf req id = none → s.fabOf req id = none →
          let bad := s.mg.bad ++ [if src.1 = 0 then scrBase + addr.toNat else addr.toNat]
          exec (.uncorrectableError src die addr req id) s
            = .next (counted (({ s with mg := { s.mg with bad := bad } } : State).on req)))
        ∧ (∀ ld, s.loadOf req id = some ld → c.frame = none → c.seg.abortedOnce = false →
            exec (.uncorrectableError src die addr req id) s
              = .next (counted (((s.on req).setCtx req { c with seg := { c.seg with abortedOnce := true } }).rewinding req)))
        ∧ exec (.correctedSummary src die addr n) s = .next { s with mg := { s.mg with
            corrected := s.mg.corrected.set die.toNat (s.mg.corrected.get 0 die.toNat + n.toNat) } })
    ∧ (let tail := fieldN (s.reg 0x9008) 0 32
        let size := 2 ^ (fieldN (s.reg 0x9000) 48 4 + 4)
        let a := fieldN (s.reg 0x9000) 0 48 + 32 * (tail % size)
        (s.reg 0x9000).getLsbD 63 = true → (tail + 2 ^ 32 - fieldN (s.reg 0x9010) 0 32) % 2 ^ 32 < size → s.NoneOwns a 32 → src.1 = 2 →
        0 < n.toNat → n.toNat < 1024 →
        ∃ t, exec (.correctedSummary src die addr n) s = .next t ∧ t.reg 0x9008 = BitVec.ofNat 64 ((tail + 1) % 2 ^ 32)
          ∧ t.mem = recordMem s.mem a [BitVec.ofNat 64 (2 * 2 ^ 56 + die.toNat * 2 ^ 48 + addr.toNat), n.setWidth 64,
              BitVec.ofNat 64 (max s.mg.stamp s.deviceClocks + (Config.freeWord s.free).toNat), BitVec.ofNat 64 (addrChannel addr.toNat * 2 ^ 8)])
    ∧ exec .managementReset s = .next (if s.mg.powered && s.mg.booted then s.boot 5 else s)
    ∧ exec .powerUp s = .next (if s.mg.powered then s else s.boot 1)
    ∧ (∀ first, let t : State := ({ s with free := s.free + 1 } : State).restart true
        s.boot first = (match s.stepFault first with | some (_, code) => t.failBoot code | none => t)
        ∧ (∀ m code, s.stepFault first = some (m, code) → (s.boot first).mg.booted = false ∧ ((s.boot first).reg 0x10).toNat = 4 + 256 * code.toNat
            ∧ ∀ j, j < 12 → ((s.boot first).port j).down = true))
    ∧ (s.mg.verified = false → ∃ m code, s.stepFault 1 = some (m, code) ∧ m ≤ 3 ∧ (m = 3 → code = 0x10))
    ∧ exec .powerLoss s = .next (s.restart false)
    ∧ (∀ on, (s.restart on).ctxs = [] ∧ (s.restart on).dist = State.reset.dist ∧ (s.restart on).mg.bar0 = []
        ∧ (s.restart on).mg.attLeaf = s.mg.attLeaf ∧ (s.restart on).mg.images = s.mg.images ∧ (s.restart on).mg.powered = on
        ∧ (s.restart on).mg.fwKey = s.mg.fwKey ∧ (s.restart on).mg.keyDigest = s.mg.keyDigest
        ∧ (s.restart on).mg.laneMaps = s.mg.laneMaps
        ∧ (s.restart on).mg.idLeaf = s.mg.idLeaf
        ∧ (s.Inv → ∀ a, Mem.get (s.restart on).mem a = if hostBase ≤ a then Mem.get s.mem a else 0))
    ∧ (s.mg.hostOpen = false ∨ s.mg.part ≠ .dk4m → exec .quiesce s = .next s)
    ∧ (s.mg.hostOpen = true → s.mg.part = .dk4m → ∃ t, exec .quiesce s = .next t ∧ t.mg.removal = true ∧ (∀ j, j < 12 → t.port j = { s.port j with active := 0, down := true })
        ∧ (t.reg 0xC000).getLsbD 2 = true ∧ t.mem = s.mem)
    ∧ (s.heldMsgs = [] → ∃ t, exec .pcieLinkLoss s = .next t ∧ t.mg.linkUp = false ∧ t.ctxs = [] ∧ t.dist.insts = [] ∧ t.mem = s.mem
        ∧ ∀ e ∈ t.dist.launches, e.2.running = false)
    ∧ (∃ t, exec .voidBundle s = .next t ∧ t.mem = s.mem
        ∧ (s.cur.sq.loops = [] → t.cur.files = s.cur.files
            ∧ t.cur.sq.pc = s.cur.sq.pc + BitVec.ofNat 32 (4 * s.issue.words.length))
        ∧ (s.cur.frame = none → t.cur.seg = s.cur.seg.step s.issue.words) ∧ ∀ j, j ≠ k → t.ctx j = s.ctx j)
    ∧ Takes .unassignedOpcode s (Trap.mk' clsIllegal 0)

/-! ### Exceptions, frames, decoding, steps, the invariant -/

/-- Taking an exception (R118, R230, R231): the context is Ended with its gate buffer and loads gone, its launch has faulted, and a
record of 64 bytes stands at the tail of its queue's ring: status word, PC and instance, handle, coordinate, value. That HEAD and
TAIL of a record ring count without wrapping is the model's choice (log entry 12). -/
def Obligations.TakingAnException : Prop :=
  ∀ (s : State) (tr : Trap) (k : Nat),
    (s.RingOk (s.launchOf s.focus).queue → ∃ t, finish s (throw (.trap tr)) = .next t ∧ s.EndedIn t s.focus (tr.placed s.issue.pos))
    ∧ (let c := s.ctx k
      let r := faultRecord s k tr
      let w0 := r.headD 0
      r.length = 8 ∧ fieldN w0 63 1 = 1 ∧ fieldN w0 56 7 = 0 ∧ fieldN w0 50 6 = tr.cls % 64 ∧ fieldN w0 42 8 = tr.sub % 256
        ∧ fieldN w0 28 14 = c.seg.id.toNat ∧ fieldN w0 24 4 = tr.slot % 16 ∧ fieldN w0 22 2 = k % 4
        ∧ fieldN w0 16 6 = c.icore % 64 ∧ fieldN w0 1 15 = 0 ∧ w0.getLsbD 0 = tr.precise
        ∧ fieldN (r.getD 1 0) 0 32 = c.sq.pc.toNat ∧ fieldN (r.getD 1 0) 32 32 = (s.inst c.inst).idx % 2 ^ 32
        ∧ fieldN (r.getD 2 0) 48 16 = tr.handle.toNat ∧ fieldN (r.getD 2 0) 0 48 = 0
        ∧ r.getD 3 0 = BitVec.ofInt 32 tr.at'.c1 ++ BitVec.ofInt 32 tr.at'.c0
        ∧ r.getD 4 0 = BitVec.ofInt 32 tr.at'.c3 ++ BitVec.ofInt 32 tr.at'.c2
        ∧ r.getD 5 0 = tr.value ∧ r.getD 6 0 = 0 ∧ r.getD 7 0 = 0)

/-- The frame of the forms that act on registers alone: where one goes through, only its destination, the load queues it pops, the
shadow log and the generator's counter differ; every other register, flag, special register, context and all memory are as before.
-/
def Obligations.RegisterFrame : Prop :=
  ∀ (s t : State) (l : VW) (d a b o e : BitVec 5) (m v : BitVec 3) (p u w : BitVec 4) (i : BitVec 8) (n : BitVec 13) (x y : BitVec 3)
    (ex : BitVec 6) (g : BitVec 1),
    let c := s.cur
    let f := c.files
    let phys (r : BitVec 5) : Nat := physReg c.sq.rb r.toNat
    let lane (l : VW) (r : TReg 1024) : Files := match l with
      | .v => { f with v := f.v.set (phys d) r }
      | .w => { f with w := f.w.set (phys d) r }
    s.Passed t →
    (∀ k ∈ ([.add d a b, .addW d a b, .sub d a b, .subW d a b, .mul d a b, .mulW d a b, .mulh d a b, .mulhU d a b, .div d a b,
             .divU d a b, .rem d a b, .remU d a b, .and d a b, .or d a b, .xor d a b, .andn d a b, .shl d a b, .shlW d a b,
             .shr d a b, .shrW d a b, .sar d a b, .sarW d a b, .min d a b, .minU d a b, .max d a b, .maxU d a b, .clz d a,
             .clzW d a, .popc d a, .popcW d a, .bfx d a b, .bfxU d a b, .bfi d a b, .bfiW d a b, .sel d a b v, .movi d n,
             .movs d n, .addi d a i, .andi d a i, .ori d a i, .xori d a i, .muli d a i, .shli d a i, .shri d a i, .sari d a i,
             .jext d a ex g] : List Instr),
        exec k s = .next t → ∃ z, s.OnlyFiles t { f with s := f.s.set (phys d) ⟨true, z⟩ })
    ∧ (∀ k ∈ ([.cmpEq p u a b, .cmpNe p u a b, .cmpLt p u a b, .cmpLe p u a b, .cmpGt p u a b, .cmpGe p u a b, .cmpLtu p u a b,
               .cmpGeu p u a b] : List Instr),
        exec k s = .next t → ∃ y z, s.OnlyFiles t { f with p := (f.p.set p.toNat y).set u.toNat z })
    ∧ (∀ k ∈ ([.pand p u w, .por p u w, .pnot p u] : List Instr),
        exec k s = .next t → ∃ z, s.OnlyFiles t { f with p := f.p.set p.toNat z })
    ∧ (∀ k ∈ ([.vadd l d a b m, .vsub l d a b m, .vmul l d a b m, .vfma l d a b m, .vfms l d a b m, .vmin l d a b m,
               .vmax l d a b m, .vaddI l d a i, .vmulI l d a i, .vminI l d a i, .vmaxI l d a i, .vcvt l d a m, .vcvtLo l d a b m,
               .vcvtHi l d a b m, .vsel l d a b m, .viadd l d a b m, .viaddS l d a b m, .visub l d a b m, .visubS l d a b m,
               .vimul l d a b m, .vimulH l d a b m, .vand l d a b m, .vor l d a b m, .vxor l d a b m, .vshl l d a b m,
               .vshr l d a b m, .vsar l d a b m, .vandI l d a i, .vorI l d a i, .vxorI l d a i, .vshlI l d a i, .vshrI l d a i,
               .vsarI l d a i, .vperm l d a b m, .vpermI l d a i, .vredAx l d a o m, .vpack l d a b m, .vunpkLo l d a m,
               .vunpkHi l d a m, .vmxqE l d a e m, .vmxqB l d a b m, .vrng l d m, .vrngU l d m, .vabs l d a m, .vneg l d a m,
               .vrcp l d a m, .vrsq l d a m, .vexp2 l d a m, .vlog2 l d a m, .vtanh l d a m, .vmov l d a m, .vabsI l d a m,
               .vnegI l d a m, .vredAdd l d a m, .vredMax l d a m, .vredMin l d a m, .vscanAdd l d a m, .vscanMax l d a m,
               .vidx l d m] : List Instr),
        exec k s = .next t → ∃ r, s.OnlyFiles t (lane l r))
    ∧ (∀ k ∈ ([.vcmpEq l d a b m, .vcmpNe l d a b m, .vcmpLt l d a b m, .vcmpLe l d a b m, .vcmpGt l d a b m, .vcmpGe l d a b m,
               .vcmpUn l d a b m, .vcmpOrd l d a b m, .vcmpIeq l d a b m, .vcmpIne l d a b m, .vcmpIlt l d a b m,
               .vcmpIltu l d a b m] : List Instr),
        exec k s = .next t → ∃ y z, s.OnlyFiles t { f with m := (f.m.set (2 * d.toNat) y).set (2 * d.toNat + 1) z })
    ∧ (∀ k ∈ ([.mlog l d a b v, .jmk d a x y] : List Instr),
        exec k s = .next t → ∃ z, s.OnlyFiles t { f with m := f.m.set d.toNat z })
    ∧ (∀ k ∈ ([.jmovV d a x y, .jspl32 d a x y, .jspl16 d a x y, .jspl8 d a x y] : List Instr),
        exec k s = .next t → ∃ r, s.OnlyFiles t (lane (jLane x) r))
    ∧ (∀ k ∈ ([.jmov d a x y, .jpm d x] : List Instr), exec k s = .next t →
        ∃ z : W64, s.OnlyFiles t (if x = 0 then { f with c := f.c.set d.toNat ⟨true, z.setWidth 32⟩ }
          else if x = 1 then { f with a := f.a.set d.toNat ⟨true, z⟩ } else if x = 2 then { f with s := f.s.set (phys d) ⟨true, z⟩ }
          else if x = 5 then { f with e := f.e.set d.toNat ⟨true, z⟩ } else { f with x := f.x.set d.toNat ⟨true, z⟩ }))
    ∧ (∀ k ∈ ([.aiterH v a, .aiterB v a g, .aiterS v a x g, .airev v ex, .span v ex, .spanClr v] : List Instr),
        exec k s = .next t → ∃ z lu log, t = (s.setCur
          { c with files := { f with k := f.k.set v.toNat z }, seg := { c.seg with log := log } }).withLu lu)

/-- The frame of the forms that reach memory (R77, R188, R220): where a gated form or a load goes through, no byte of memory, no
register and no other context changes at its bundle; a gated form acts when it commits, a load fills its entry when it returns. -/
def Obligations.GatedFrame : Prop :=
  ∀ (s t : State) (i : Instr) (q : BitVec 2) (k : BitVec 3) (a : BitVec 5) (c : BitVec 3) (r : BitVec 1) (m : BitVec 4),
    s.Passed t →
    (gatedForm i = true → (∀ a b, i ≠ .grp a b) → exec i s = .next t → s.SameRegisters t)
    ∧ (∀ j ∈ ([.tld q k, .tldR q a, .tlds q k c r, .tldsR q a c r, .spld q k, .spldR q a, .fldt q k m, .fldtR q a m] : List Instr),
        exec j s = .next t → s.SameRegisters t)

/-- A step runs the decoded instruction (R21, R22, R77, R101, R230): where one context's next bundle, framed at its address, holds
one slot with a true guard, and a clock of its core is what comes next, the step is that slot's meaning, the end of its bundle, what
commits with it, and one clock more; a precise exception is taken from the state before the bundle; one that is held leaves the
clock alone to go on; a micro-word under a routine runs likewise. -/
def Obligations.StepRunsTheDecodedInstruction : Prop :=
  ∀ (s : State) (k p : Nat) (b : Bundle) (x : Slot) (ws : List Nat),
    let c := coreOf k
    let s1 := ({ s with tick := s.tick + 1 } : State).setCore c (s.core c).applyEscl
    let c0 := s.ctx k
    let s2 := { s1.setCtx k (c0.begin (s.core c).clk b.words) with focus := k, issue := b.forSlot c0 (p, x) }
    let done (v : State) : Host.Outcome State Fault Refusal :=
      andThen (startPhases c v) fun w => .next (w.setCore c { w.core c with clk := (w.core c).clk + 1 })
    let ends (v : State) : Prop := v.feature 5 = false → ∀ w, commitNow k v.idle = .next w → step s = done w.idle
    s.inputs = [] → s.moves = [.clock c] → s.feature 5 = false → (∀ q, (s.core c).phase = some q → (s.core c).clk < q.endAt) →
    ((s.core c).run = none → s.awake k = true → (∀ j ∈ ctxsOf c, j ≠ k → s.awake j = false) →
      frameAt (s.launchOf k) c0.sq.pc.toNat s1 = .ok (.ok ws, s1) → decodeBundle c0.priv ws = .ok b →
      b.slots = [(p, x)] → b.clear c0 (s1.core c) = true → c0.slotBar (p, x) = none → c0.takes x = true →
      ∀ u, exec x.ins s2 = .next u →
        (u.issue.held = true → step s = done s1)
        ∧ (u.issue.held = false → u.issue.trap = none → (u.ctx k).finishes = true →
            ∀ v, endBundle k c0 b u = .ok ((), v) → ends v)
        ∧ (u.issue.held = false → u.issue.trap = none → (u.ctx k).finishes = false → ends u)
        ∧ (∀ tr, u.issue.held = false → u.issue.trap = some tr →
            (tr.precise = true → ∀ v, takeTrap k tr { s1 with focus := k } = .ok ((), v) → ends v)
            ∧ (tr.precise = false → ends u)))
    ∧ (∀ r n f xs tg exs i u, (s1.core c).run = some r → r.call.kind = .routine n f xs tg exs → r.done = false →
        r.freeAt ≤ (s1.core c).clk → decodeMicro ((s1.core c).store.get 0 r.pc).toNat = .ok i →
        exec i { s1 with focus := r.call.ctx, issue := Issue.idle } = .next u → (∀ j ∈ ctxsOf c, u.idle.awake j = false) →
        step s = done u.idle)

/-- Words written out from the encoding tables of the spec decode to the forms they stand for (R17 to R20, R22, R26 to R34). -/
def Obligations.DecodeWords : Prop :=
  (∀ e ∈ ([(0x0307FFF0, 3, .br 0x3FFF0), (0x00402100, 0, .lift 2 0x100), (0x00380070, 0, .fmtV 0 0 0 7 0), (0x007C0003, 0, .mark 3),
      (0x10050000, 0, .tld 1 0), (0x101D4270, 0, .tsts 10 2 3 1 0), (0x10700108, 0, .seal 1 1), (0x20046110, 0, .add 3 1 2),
      (0x2199EF01, 1, .addi 15 15 1), (0x20D049CA, 0, .cmpLtu 1 2 14 10), (0x30043FF8, 0, .vadd .v 1 31 31 0),
      (0x304C2CA8, 0, .vcmpGt .v 1 12 21 0), (0x4004A530, 0, .vadd .w 5 5 6 0), (0x50300108, 0, .xspl 1 1),
      (0x6A658001, 10, .semsI 12 1), (0x60880110, 0, .fexp 0 1 2), (0x70044708, 0, .jmov 2 7 0 2)] : List (Nat × BitVec 4 × Instr)),
    decodeSlot e.1 = .ok (some ⟨false, e.2.1, e.2.2⟩) ∧ decodeTableWord 32 e.1 = some e.2.2 ∧ encodeSlot ⟨false, e.2.1, e.2.2⟩ = e.1)
  ∧ (∀ e ∈ ([(0x0A00C00040000000, .mgathB 1 0 768 16 0 0), (0x3710000000000000, .mmacFZ 1 1 1 0 0),
      (0x3800100000000000, .mmacFD 0 0 0 0 0 2048), (0x4401000600000000, .msclAb 0 512 0 3), (0x7400180008000000, .mcvtBf16 0 0 768 16),
      (0x9000000000000000, .mend)] : List (Nat × Instr)), decodeMicro e.1 = .ok e.2 ∧ encodeMicro e.2 = e.1)
  ∧ decodeSlot 0x80000000 = .ok none ∧ decodeTableWord 32 0 = some .voidBundle

/-- Decoding undoes encoding (R17, R26 to R34, R287): for every slot form, stop bit and guard, and every micro-op, with every
operand at every value; words have 32 and 64 bits. -/
def Obligations.DecodeUndoesEncode : Prop :=
  (∀ x : Slot, x.ins.isSlot = true → encodeSlot x < 2 ^ 32 ∧ decodeSlot (encodeSlot x) = .ok (some x))
  ∧ (∀ i : Instr, i.isMicro = true → encodeMicro i < 2 ^ 64 ∧ decodeMicro (encodeMicro i) = .ok i)

/-- Every step keeps memory in its canonical form (log entry 11). -/
def Obligations.StepKeepsMemoryCanonical : Prop :=
  ∀ s t : State, s.Inv → step s = .next t → t.Inv

/-- The machine right after reset (R414, R437, R446, R452): memory, the cores' SRAM, the semaphores and every context slot are
clear; the power registers hold their reset values; no feature is on before negotiation, and no queue takes a write; the ports are
trained; no launch runs, no move is open, and a step only counts itself. The model's choices: nothing is placed and no event comes
(log entry 8), host memory reads zero too (log entry 11), and the device is a DK4M-1500, with that power configuration (log entry
69). -/
def Obligations.ResetState : Prop :=
  let s := State.reset
  s.Inv ∧ (∀ a, Mem.get s.mem a = 0)
    ∧ (∀ k, (s.ctx k).st = .free ∧ (s.ctx k).live = false)
    ∧ (∀ c i, (s.core c).store.get 0 i = 0 ∧ s.scaleWord c i = 0 ∧ (s.core c).run = none ∧ (s.core c).callQ = [])
    ∧ (∀ i, s.dist.sems.get 0 i = 0)
    ∧ s.reg 0x7000 = 1500 ∧ s.reg 0x7008 = 10 ∧ s.reg 0x7010 = 50 ∧ s.reg 0x7020 = 0 ∧ s.mg.applied = 1500
    ∧ s.reg 0x08 = 0 ∧ s.reg 0x10 = 0 ∧ (∀ b, s.feature b = false) ∧ (∀ q, s.accepts q = false)
    ∧ s.mg.powered = true ∧ s.mg.linkUp = true ∧ (∀ n, (s.port n).active = 0xFF ∧ (s.port n).down = false)
    ∧ (∀ l, (s.launch l).running = false) ∧ s.inputs = [] ∧ s.outbox = [] ∧ s.moves = []
    ∧ step s = .next { s with tick := 1 }
end

