-- ==== Sys2Proof/Laws/Mem.lean ====
section
/-!
SUPPORT. Sys2Proof/Laws/Mem.lean: memory and its operations: each keeps the canonical form, reading gives what was last written,
and equal memories are equal lists.
-/

namespace Sys2Proof.Machine

theorem Mem.wfFrom_mono {lo hi : Nat} (h : lo ≤ hi) {m : List Host.Cell} (hm : Mem.wfFrom hi m = true) : Mem.wfFrom lo m = true := by
  cases m with
  | nil => rfl
  | cons c t =>
    simp only [Mem.wfFrom, Bool.and_eq_true, decide_eq_true_eq] at hm ⊢
    exact ⟨⟨by omega, hm.1.2⟩, hm.2⟩

theorem Mem.get_below {m : List Host.Cell} {lo a : Nat} (hm : Mem.wfFrom lo m = true) (h : a < lo) : Mem.get m a = 0 := by
  induction m generalizing lo with
  | nil => rfl
  | cons c t ih =>
    simp only [Mem.wfFrom, Bool.and_eq_true, decide_eq_true_eq] at hm
    simp only [Mem.get, if_neg (show c.1 ≠ a by omega)]
    exact ih hm.2 (by omega)

theorem Mem.put_wfFrom {m : List Host.Cell} {lo a : Nat} {b : Byte} (hm : Mem.wfFrom lo m = true) (h : lo ≤ a) :
    Mem.wfFrom lo (Mem.put m a b) = true := by
  induction m generalizing lo with
  | nil => unfold Mem.put; split <;> simp_all [Mem.wfFrom]
  | cons c t ih =>
    simp only [Mem.wfFrom, Bool.and_eq_true, decide_eq_true_eq] at hm
    unfold Mem.put
    split
    · subst a
      split
      · exact Mem.wfFrom_mono (by omega) hm.2
      · simp_all [Mem.wfFrom]
    · split
      · split
        · simp_all [Mem.wfFrom]
        · simp only [Mem.wfFrom, Bool.and_eq_true, decide_eq_true_eq]
          exact ⟨⟨h, by simpa using ‹¬b = 0›⟩, ⟨by omega, hm.1.2⟩, hm.2⟩
      · simp only [Mem.wfFrom, Bool.and_eq_true, decide_eq_true_eq]
        exact ⟨hm.1, ih hm.2 (by omega)⟩

/-- Writing a byte keeps the canonical form. -/
theorem Mem.put_wf {m : List Host.Cell} (hm : Mem.wf m = true) (a : Nat) (b : Byte) : Mem.wf (Mem.put m a b) = true :=
  Mem.put_wfFrom hm (Nat.zero_le a)

theorem Mem.get_put_from {m : List Host.Cell} {lo : Nat} (hm : Mem.wfFrom lo m = true) (a x : Nat) (b : Byte) :
    Mem.get (Mem.put m a b) x = if a = x then b else Mem.get m x := by
  induction m generalizing lo with
  | nil => unfold Mem.put; split <;> simp_all [Mem.get]
  | cons c t ih =>
    simp only [Mem.wfFrom, Bool.and_eq_true, decide_eq_true_eq] at hm
    unfold Mem.put
    split
    · subst a
      split
      · split
        · subst x; rw [Mem.get_below hm.2 (by omega)]; simp_all
        · simp [Mem.get, *]
      · simp only [Mem.get]; split <;> rfl
    · split
      · split
        · split
          · subst x
            rw [Mem.get, if_neg ‹_›, Mem.get_below hm.2 (by omega)]; simp_all
          · rfl
        · simp only [Mem.get]
      · simp only [Mem.get, ih hm.2]
        split
        · rw [if_neg (by omega)]
        · rfl

/-- A byte reads as it was last written, and every other as before. -/
theorem Mem.get_put {m : List Host.Cell} (hm : Mem.wf m = true) (a x : Nat) (b : Byte) :
    Mem.get (Mem.put m a b) x = if a = x then b else Mem.get m x := Mem.get_put_from hm a x b

/-- Equal memories are equal lists. -/
theorem Mem.ext_from {m k : List Host.Cell} {lo : Nat} (hm : Mem.wfFrom lo m = true) (hk : Mem.wfFrom lo k = true)
    (h : ∀ a, Mem.get m a = Mem.get k a) : m = k := by
  induction m generalizing k lo with
  | nil =>
    cases k with
    | nil => rfl
    | cons c t =>
      have := h c.1
      simp only [Mem.wfFrom, Bool.and_eq_true, bne_iff_ne] at hk
      simp [Mem.get] at this
      exact absurd this.symm hk.1.2
  | cons c t ih =>
    simp only [Mem.wfFrom, Bool.and_eq_true, decide_eq_true_eq, bne_iff_ne] at hm
    cases k with
    | nil => have := h c.1; simp [Mem.get] at this; exact absurd this hm.1.2
    | cons d u =>
      simp only [Mem.wfFrom, Bool.and_eq_true, decide_eq_true_eq, bne_iff_ne] at hk
      have hcd : c.1 = d.1 := by
        rcases Nat.lt_trichotomy c.1 d.1 with hl | hl | hl
        · have := h c.1
          simp only [Mem.get, ↓reduceIte, if_neg (show d.1 ≠ c.1 by omega)] at this
          rw [Mem.get_below hk.2 (by omega)] at this; exact absurd this hm.1.2
        · exact hl
        · have := h d.1
          simp only [Mem.get, ↓reduceIte, if_neg (show c.1 ≠ d.1 by omega)] at this
          rw [Mem.get_below hm.2 (by omega)] at this; exact absurd this.symm hk.1.2
      have hb : c.2 = d.2 := by have := h c.1; simpa [Mem.get, hcd] using this
      have ht : t = u := by
        refine ih hm.2 (by rw [hcd]; exact hk.2) fun a => ?_
        by_cases ha : c.1 = a
        · rw [Mem.get_below hm.2 (by omega), Mem.get_below hk.2 (by omega)]
        · have := h a; simpa only [Mem.get, if_neg ha, if_neg (hcd ▸ ha)] using this
      rw [ht, show c = d from Prod.ext hcd hb]
theorem Mem.ext {m k : List Host.Cell} (hm : Mem.wf m = true) (hk : Mem.wf k = true) (h : ∀ a, Mem.get m a = Mem.get k a) : m = k :=
  Mem.ext_from hm hk h

/-! ### Several bytes -/

theorem Mem.putN_wf {m : List Host.Cell} (hm : Mem.wf m = true) (a v n : Nat) : Mem.wf (Mem.putN m a v n) = true := by
  induction n generalizing m a v with
  | zero => exact hm
  | succ n ih => exact ih (Mem.put_wf hm a _) _ _

/-- A byte outside those written reads as before. -/
theorem Mem.get_putN_outside {m : List Host.Cell} (hm : Mem.wf m = true) {a x v n : Nat} (h : x < a ∨ a + n ≤ x) :
    Mem.get (Mem.putN m a v n) x = Mem.get m x := by
  induction n generalizing m a v with
  | zero => rfl
  | succ n ih => rw [Mem.putN, ih (Mem.put_wf hm a _) (by omega), Mem.get_put hm, if_neg (by omega)]

/-- Byte `i` of those written is byte `i` of the number. -/
theorem Mem.get_putN {m : List Host.Cell} (hm : Mem.wf m = true) {a v n i : Nat} (h : i < n) :
    Mem.get (Mem.putN m a v n) (a + i) = BitVec.ofNat 8 (v / 256 ^ i) := by
  induction n generalizing m a v i with
  | zero => omega
  | succ n ih =>
    rw [Mem.putN]
    cases i with
    | zero => rw [Mem.get_putN_outside (Mem.put_wf hm a _) (by omega), Mem.get_put hm]; simp
    | succ i =>
      rw [show a + (i + 1) = a + 1 + i by omega, ih (Mem.put_wf hm a _) (by omega), Nat.div_div_eq_div_mul, Nat.pow_succ, Nat.mul_comm]

/-- What is read back is what was written, to its width. -/
theorem Mem.getN_putN {m : List Host.Cell} (hm : Mem.wf m = true) (a v n : Nat) : Mem.getN (Mem.putN m a v n) a n = v % 256 ^ n := by
  induction n generalizing m a v with
  | zero => simp [Mem.getN, Nat.mod_one]
  | succ n ih =>
    rw [Mem.getN, Mem.putN, Mem.get_putN_outside (Mem.put_wf hm a _) (by omega), Mem.get_put hm, if_pos rfl, ih (Mem.put_wf hm a _)]
    rw [BitVec.toNat_ofNat, show (256 : Nat) ^ (n + 1) = 256 * 256 ^ n by rw [Nat.pow_succ, Nat.mul_comm], Nat.mod_mul]

theorem Mem.putCells_wf {m : List Host.Cell} (hm : Mem.wf m = true) (cs : List (Nat × Byte × Byte)) : Mem.wf (Mem.putCells m cs) = true := by
  induction cs generalizing m with
  | nil => exact hm
  | cons c cs ih => exact ih (Mem.put_wf hm _ _)

/-- A byte that no cell names reads as before. -/
theorem Mem.get_putCells_outside {m : List Host.Cell} (hm : Mem.wf m = true) {cs : List (Nat × Byte × Byte)} {x : Nat}
    (h : ∀ c ∈ cs, c.1 ≠ x) : Mem.get (Mem.putCells m cs) x = Mem.get m x := by
  induction cs generalizing m with
  | nil => rfl
  | cons c cs ih =>
    rw [Mem.putCells, ih (Mem.put_wf hm _ _) fun d hd => h d (List.mem_cons_of_mem _ hd), Mem.get_put hm,
      if_neg (h c List.mem_cons_self)]

/-! ### Ranges -/

theorem Mem.filter_wfFrom {m : List Host.Cell} {lo : Nat} (hm : Mem.wfFrom lo m = true) (p : Host.Cell → Bool) :
    Mem.wfFrom lo (m.filter p) = true := by
  induction m generalizing lo with
  | nil => rfl
  | cons c t ih =>
    simp only [Mem.wfFrom, Bool.and_eq_true, decide_eq_true_eq] at hm
    rw [List.filter_cons]
    split
    · simp only [Mem.wfFrom, Bool.and_eq_true, decide_eq_true_eq]; exact ⟨hm.1, ih hm.2⟩
    · exact Mem.wfFrom_mono (by omega) (ih hm.2)
theorem Mem.filter_wf {m : List Host.Cell} (hm : Mem.wf m = true) (p : Host.Cell → Bool) : Mem.wf (m.filter p) = true :=
  Mem.filter_wfFrom hm p

/-- Of the listed bytes those whose addresses meet `p` stay, and every other reads as zero. -/
theorem Mem.get_filter {m : List Host.Cell} {lo : Nat} (hm : Mem.wfFrom lo m = true) (p : Nat → Bool) (x : Nat) :
    Mem.get (m.filter fun c => p c.1) x = if p x then Mem.get m x else 0 := by
  induction m generalizing lo with
  | nil => simp [Mem.get]
  | cons c t ih =>
    simp only [Mem.wfFrom, Bool.and_eq_true, decide_eq_true_eq] at hm
    rw [List.filter_cons]
    by_cases hx : c.1 = x
    · subst hx
      split
      · simp_all [Mem.get]
      · rw [ih hm.2]; simp_all
    · split
      · simp only [Mem.get, if_neg hx, ih hm.2]
      · rw [ih hm.2]; simp only [Mem.get, if_neg hx]

theorem Mem.clearRange_wf {m : List Host.Cell} (hm : Mem.wf m = true) (lo n : Nat) : Mem.wf (Mem.clearRange m lo n) = true :=
  Mem.filter_wf hm _
theorem Mem.get_clearRange {m : List Host.Cell} (hm : Mem.wf m = true) (lo n x : Nat) :
    Mem.get (Mem.clearRange m lo n) x = if lo ≤ x ∧ x < lo + n then 0 else Mem.get m x := by
  rw [Mem.clearRange, Mem.get_filter hm (fun a => !(decide (lo ≤ a) && decide (a < lo + n)))]
  by_cases h : lo ≤ x ∧ x < lo + n <;> simp [h]

theorem Mem.foldl_put_wf {α : Type} {m : List Host.Cell} (hm : Mem.wf m = true) (cs : List α) (f : α → Nat) (g : α → Byte) :
    Mem.wf (cs.foldl (fun k c => Mem.put k (f c) (g c)) m) = true := by
  induction cs generalizing m with
  | nil => exact hm
  | cons c cs ih => exact ih (Mem.put_wf hm _ _)
theorem Mem.copyRange_wf {m : List Host.Cell} (hm : Mem.wf m = true) (src dst n : Nat) : Mem.wf (Mem.copyRange m src dst n) = true :=
  Mem.foldl_put_wf (Mem.clearRange_wf hm dst n) _ _ _
theorem freeRange_wf {m : List Host.Cell} (hm : Mem.wf m = true) (a idx n : Nat) : Mem.wf (freeRange m a idx n) = true := by
  induction n generalizing m a with
  | zero => exact hm
  | succ n ih => exact ih (Mem.put_wf hm _ _) _
theorem hostOnly_wf {m : List Host.Cell} (hm : Mem.wf m = true) : Mem.wf (hostOnly m) = true := Mem.filter_wf hm _

/-- A block of an L1 written back keeps the canonical form. -/
theorem writeBack_wf {m : List Host.Cell} (hm : Mem.wf m = true) (b : Block) : Mem.wf (writeBack m b) = true := by
  unfold writeBack
  generalize List.range 32 = is
  induction is generalizing m with
  | nil => exact hm
  | cons i is ih =>
    rw [List.foldl_cons]
    apply ih
    split
    · exact Mem.putN_wf hm _ _ _
    · exact hm
theorem writeBacks_wf {m : List Host.Cell} (hm : Mem.wf m = true) (bs : List Block) : Mem.wf (bs.foldl writeBack m) = true := by
  induction bs generalizing m with
  | nil => exact hm
  | cons b bs ih => exact ih (writeBack_wf hm b)

/-- A record posted in memory keeps the canonical form (R231). -/
theorem recordMem_wf {m : List Host.Cell} (hm : Mem.wf m = true) (a : Nat) (ws : List W64) : Mem.wf (recordMem m a ws) = true := by
  unfold recordMem
  generalize ws.zipIdx = es
  induction es generalizing m with
  | nil => exact hm
  | cons e es ih => exact ih (Mem.putN_wf hm _ _ _)

/-! ### The machine's memory operations: what each can do -/

/-- A write of bytes changes memory there alone, where there is memory. -/
theorem wrN_cases {a n v : Nat} {s t : State} (h : wrN a n v s = .ok ((), t)) : addrOk a n = true ∧ t = { s with mem := Mem.putN s.mem a v n } := by
  cases ho : addrOk a n <;> simp only [wrN, needAddr, ho] at h
  · cases h
  · cases h; exact ⟨rfl, rfl⟩

/-- A read of bytes changes nothing. -/
theorem rdN_cases {a n v : Nat} {s t : State} (h : rdN a n s = .ok (v, t)) : addrOk a n = true ∧ v = s.seenN a n ∧ t = s := by
  cases ho : addrOk a n <;> simp only [rdN, needAddr, ho] at h
  · cases h
  · cases h; exact ⟨rfl, rfl, rfl⟩

theorem wrN_inv {a n v : Nat} {s t : State} (h : wrN a n v s = .ok ((), t)) (hi : s.Inv) : t.Inv := by
  rw [(wrN_cases h).2]; exact Mem.putN_wf hi _ _ _

/-- Reset memory is canonical. -/
theorem reset_inv : State.reset.Inv := rfl

/-- A page that no core owns is seen as memory has it (R259). -/
theorem seen_of_noneOwns {s : State} {a n : Nat} (h : s.NoneOwns a n) (x : Nat) (hx : a ≤ x ∧ x < a + n) : s.seen x = Mem.get s.mem x := by
  unfold State.seen
  split
  · exact absurd ‹_› ((h.2 x hx.1 hx.2).2 _)
  · rw [State.memByte, (h.2 x hx.1 hx.2).1]; rfl
theorem seenN_of_noneOwns {s : State} {a n : Nat} (h : s.NoneOwns a n) : s.seenN a n = Mem.getN s.mem a n := by
  have key : ∀ k b, (∀ i < k, s.seen (b + i) = Mem.get s.mem (b + i)) → s.seenN b k = Mem.getN s.mem b k := by
    intro k
    induction k with
    | zero => intro b _; rfl
    | succ k ih =>
      intro b hb
      rw [State.seenN, Mem.getN, show s.seen b = Mem.get s.mem b by simpa using hb 0 (by omega),
        ih (b + 1) fun i hi => by have := hb (i + 1) (by omega); rwa [show b + (i + 1) = b + 1 + i by omega] at this]
  exact key n a fun i hi => seen_of_noneOwns h _ ⟨by omega, by omega⟩

end Sys2Proof.Machine
end

