-- ==== Sys2Proof/Laws/State.lean ====
section
/-!
SUPPORT. Sys2Proof/Laws/State.lean: one lemma for each field of each update of the state and of a context; what an update's own
accessor reads after it; and the tables they are kept in.
-/

namespace Sys2Proof.Machine

/-! ### Tables -/

theorem AMap.find?_set {α : Type} (m : AMap α) (k j : Nat) (x : α) : (m.set k x).find? j = if k = j then some x else m.find? j := by
  induction m with
  | nil => simp [AMap.set, AMap.find?]
  | cons e t ih =>
    unfold AMap.set
    split
    · subst k; simp only [AMap.find?]; split <;> rfl
    · split
      · simp [AMap.find?]
      · simp only [AMap.find?, ih]
        split
        · rw [if_neg (by omega)]
        · rfl
/-- An entry reads as it was last set, and every other as before. -/
@[simp] theorem AMap.get_set {α : Type} (d : α) (m : AMap α) (k j : Nat) (x : α) :
    (m.set k x).get d j = if k = j then x else m.get d j := by
  unfold AMap.get; rw [AMap.find?_set]; split <;> rfl
/-- Of two settings of one entry the later holds. -/
@[simp] theorem AMap.set_set {α : Type} (m : AMap α) (k : Nat) (x y : α) : (m.set k x).set k y = m.set k y := by
  induction m with
  | nil => simp [AMap.set]
  | cons e t ih =>
    obtain ⟨j, v⟩ := e
    by_cases h1 : j = k
    · simp [AMap.set, h1]
    · by_cases h2 : k < j
      · simp [AMap.set, h1, h2]
      · simp [AMap.set, h1, h2, ih]
@[simp] theorem AMap.get_nil {α : Type} (d : α) (j : Nat) : AMap.get d [] j = d := rfl

/-! ### Updates of the state -/

@[simp] theorem State.setCtx_tick (s : State) (k : Nat) (c : Ctx) : (s.setCtx k c).tick = s.tick := rfl
@[simp] theorem State.setCtx_free (s : State) (k : Nat) (c : Ctx) : (s.setCtx k c).free = s.free := rfl
@[simp] theorem State.setCtx_nextId (s : State) (k : Nat) (c : Ctx) : (s.setCtx k c).nextId = s.nextId := rfl
@[simp] theorem State.setCtx_focus (s : State) (k : Nat) (c : Ctx) : (s.setCtx k c).focus = s.focus := rfl
@[simp] theorem State.setCtx_issue (s : State) (k : Nat) (c : Ctx) : (s.setCtx k c).issue = s.issue := rfl
@[simp] theorem State.setCtx_inputs (s : State) (k : Nat) (c : Ctx) : (s.setCtx k c).inputs = s.inputs := rfl
@[simp] theorem State.setCtx_outbox (s : State) (k : Nat) (c : Ctx) : (s.setCtx k c).outbox = s.outbox := rfl
@[simp] theorem State.setCtx_heldMsgs (s : State) (k : Nat) (c : Ctx) : (s.setCtx k c).heldMsgs = s.heldMsgs := rfl
@[simp] theorem State.setCtx_mem (s : State) (k : Nat) (c : Ctx) : (s.setCtx k c).mem = s.mem := rfl
@[simp] theorem State.setCtx_cores (s : State) (k : Nat) (c : Ctx) : (s.setCtx k c).cores = s.cores := rfl
@[simp] theorem State.setCtx_mp (s : State) (k : Nat) (c : Ctx) : (s.setCtx k c).mp = s.mp := rfl
@[simp] theorem State.setCtx_fops (s : State) (k : Nat) (c : Ctx) : (s.setCtx k c).fops = s.fops := rfl
@[simp] theorem State.setCtx_planers (s : State) (k : Nat) (c : Ctx) : (s.setCtx k c).planers = s.planers := rfl
@[simp] theorem State.setCtx_ticks (s : State) (k : Nat) (c : Ctx) : (s.setCtx k c).ticks = s.ticks := rfl
@[simp] theorem State.setCtx_ports (s : State) (k : Nat) (c : Ctx) : (s.setCtx k c).ports = s.ports := rfl
@[simp] theorem State.setCtx_dist (s : State) (k : Nat) (c : Ctx) : (s.setCtx k c).dist = s.dist := rfl
@[simp] theorem State.setCtx_mg (s : State) (k : Nat) (c : Ctx) : (s.setCtx k c).mg = s.mg := rfl
@[simp] theorem State.setCur_tick (s : State) (c : Ctx) : (s.setCur c).tick = s.tick := rfl
@[simp] theorem State.setCur_free (s : State) (c : Ctx) : (s.setCur c).free = s.free := rfl
@[simp] theorem State.setCur_nextId (s : State) (c : Ctx) : (s.setCur c).nextId = s.nextId := rfl
@[simp] theorem State.setCur_focus (s : State) (c : Ctx) : (s.setCur c).focus = s.focus := rfl
@[simp] theorem State.setCur_issue (s : State) (c : Ctx) : (s.setCur c).issue = s.issue := rfl
@[simp] theorem State.setCur_inputs (s : State) (c : Ctx) : (s.setCur c).inputs = s.inputs := rfl
@[simp] theorem State.setCur_outbox (s : State) (c : Ctx) : (s.setCur c).outbox = s.outbox := rfl
@[simp] theorem State.setCur_heldMsgs (s : State) (c : Ctx) : (s.setCur c).heldMsgs = s.heldMsgs := rfl
@[simp] theorem State.setCur_mem (s : State) (c : Ctx) : (s.setCur c).mem = s.mem := rfl
@[simp] theorem State.setCur_cores (s : State) (c : Ctx) : (s.setCur c).cores = s.cores := rfl
@[simp] theorem State.setCur_mp (s : State) (c : Ctx) : (s.setCur c).mp = s.mp := rfl
@[simp] theorem State.setCur_fops (s : State) (c : Ctx) : (s.setCur c).fops = s.fops := rfl
@[simp] theorem State.setCur_planers (s : State) (c : Ctx) : (s.setCur c).planers = s.planers := rfl
@[simp] theorem State.setCur_ticks (s : State) (c : Ctx) : (s.setCur c).ticks = s.ticks := rfl
@[simp] theorem State.setCur_ports (s : State) (c : Ctx) : (s.setCur c).ports = s.ports := rfl
@[simp] theorem State.setCur_dist (s : State) (c : Ctx) : (s.setCur c).dist = s.dist := rfl
@[simp] theorem State.setCur_mg (s : State) (c : Ctx) : (s.setCur c).mg = s.mg := rfl
@[simp] theorem State.setCore_tick (s : State) (k : Nat) (x : Core) : (s.setCore k x).tick = s.tick := rfl
@[simp] theorem State.setCore_free (s : State) (k : Nat) (x : Core) : (s.setCore k x).free = s.free := rfl
@[simp] theorem State.setCore_nextId (s : State) (k : Nat) (x : Core) : (s.setCore k x).nextId = s.nextId := rfl
@[simp] theorem State.setCore_focus (s : State) (k : Nat) (x : Core) : (s.setCore k x).focus = s.focus := rfl
@[simp] theorem State.setCore_issue (s : State) (k : Nat) (x : Core) : (s.setCore k x).issue = s.issue := rfl
@[simp] theorem State.setCore_inputs (s : State) (k : Nat) (x : Core) : (s.setCore k x).inputs = s.inputs := rfl
@[simp] theorem State.setCore_outbox (s : State) (k : Nat) (x : Core) : (s.setCore k x).outbox = s.outbox := rfl
@[simp] theorem State.setCore_heldMsgs (s : State) (k : Nat) (x : Core) : (s.setCore k x).heldMsgs = s.heldMsgs := rfl
@[simp] theorem State.setCore_mem (s : State) (k : Nat) (x : Core) : (s.setCore k x).mem = s.mem := rfl
@[simp] theorem State.setCore_ctxs (s : State) (k : Nat) (x : Core) : (s.setCore k x).ctxs = s.ctxs := rfl
@[simp] theorem State.setCore_mp (s : State) (k : Nat) (x : Core) : (s.setCore k x).mp = s.mp := rfl
@[simp] theorem State.setCore_fops (s : State) (k : Nat) (x : Core) : (s.setCore k x).fops = s.fops := rfl
@[simp] theorem State.setCore_planers (s : State) (k : Nat) (x : Core) : (s.setCore k x).planers = s.planers := rfl
@[simp] theorem State.setCore_ticks (s : State) (k : Nat) (x : Core) : (s.setCore k x).ticks = s.ticks := rfl
@[simp] theorem State.setCore_ports (s : State) (k : Nat) (x : Core) : (s.setCore k x).ports = s.ports := rfl
@[simp] theorem State.setCore_dist (s : State) (k : Nat) (x : Core) : (s.setCore k x).dist = s.dist := rfl
@[simp] theorem State.setCore_mg (s : State) (k : Nat) (x : Core) : (s.setCore k x).mg = s.mg := rfl
@[simp] theorem State.setLaunch_tick (s : State) (k : Nat) (x : Launch) : (s.setLaunch k x).tick = s.tick := rfl
@[simp] theorem State.setLaunch_free (s : State) (k : Nat) (x : Launch) : (s.setLaunch k x).free = s.free := rfl
@[simp] theorem State.setLaunch_nextId (s : State) (k : Nat) (x : Launch) : (s.setLaunch k x).nextId = s.nextId := rfl
@[simp] theorem State.setLaunch_focus (s : State) (k : Nat) (x : Launch) : (s.setLaunch k x).focus = s.focus := rfl
@[simp] theorem State.setLaunch_issue (s : State) (k : Nat) (x : Launch) : (s.setLaunch k x).issue = s.issue := rfl
@[simp] theorem State.setLaunch_inputs (s : State) (k : Nat) (x : Launch) : (s.setLaunch k x).inputs = s.inputs := rfl
@[simp] theorem State.setLaunch_outbox (s : State) (k : Nat) (x : Launch) : (s.setLaunch k x).outbox = s.outbox := rfl
@[simp] theorem State.setLaunch_heldMsgs (s : State) (k : Nat) (x : Launch) : (s.setLaunch k x).heldMsgs = s.heldMsgs := rfl
@[simp] theorem State.setLaunch_mem (s : State) (k : Nat) (x : Launch) : (s.setLaunch k x).mem = s.mem := rfl
@[simp] theorem State.setLaunch_ctxs (s : State) (k : Nat) (x : Launch) : (s.setLaunch k x).ctxs = s.ctxs := rfl
@[simp] theorem State.setLaunch_cores (s : State) (k : Nat) (x : Launch) : (s.setLaunch k x).cores = s.cores := rfl
@[simp] theorem State.setLaunch_mp (s : State) (k : Nat) (x : Launch) : (s.setLaunch k x).mp = s.mp := rfl
@[simp] theorem State.setLaunch_fops (s : State) (k : Nat) (x : Launch) : (s.setLaunch k x).fops = s.fops := rfl
@[simp] theorem State.setLaunch_planers (s : State) (k : Nat) (x : Launch) : (s.setLaunch k x).planers = s.planers := rfl
@[simp] theorem State.setLaunch_ticks (s : State) (k : Nat) (x : Launch) : (s.setLaunch k x).ticks = s.ticks := rfl
@[simp] theorem State.setLaunch_ports (s : State) (k : Nat) (x : Launch) : (s.setLaunch k x).ports = s.ports := rfl
@[simp] theorem State.setLaunch_mg (s : State) (k : Nat) (x : Launch) : (s.setLaunch k x).mg = s.mg := rfl
@[simp] theorem State.setInst_tick (s : State) (k : Nat) (x : Inst) : (s.setInst k x).tick = s.tick := rfl
@[simp] theorem State.setInst_free (s : State) (k : Nat) (x : Inst) : (s.setInst k x).free = s.free := rfl
@[simp] theorem State.setInst_nextId (s : State) (k : Nat) (x : Inst) : (s.setInst k x).nextId = s.nextId := rfl
@[simp] theorem State.setInst_focus (s : State) (k : Nat) (x : Inst) : (s.setInst k x).focus = s.focus := rfl
@[simp] theorem State.setInst_issue (s : State) (k : Nat) (x : Inst) : (s.setInst k x).issue = s.issue := rfl
@[simp] theorem State.setInst_inputs (s : State) (k : Nat) (x : Inst) : (s.setInst k x).inputs = s.inputs := rfl
@[simp] theorem State.setInst_outbox (s : State) (k : Nat) (x : Inst) : (s.setInst k x).outbox = s.outbox := rfl
@[simp] theorem State.setInst_heldMsgs (s : State) (k : Nat) (x : Inst) : (s.setInst k x).heldMsgs = s.heldMsgs := rfl
@[simp] theorem State.setInst_mem (s : State) (k : Nat) (x : Inst) : (s.setInst k x).mem = s.mem := rfl
@[simp] theorem State.setInst_ctxs (s : State) (k : Nat) (x : Inst) : (s.setInst k x).ctxs = s.ctxs := rfl
@[simp] theorem State.setInst_cores (s : State) (k : Nat) (x : Inst) : (s.setInst k x).cores = s.cores := rfl
@[simp] theorem State.setInst_mp (s : State) (k : Nat) (x : Inst) : (s.setInst k x).mp = s.mp := rfl
@[simp] theorem State.setInst_fops (s : State) (k : Nat) (x : Inst) : (s.setInst k x).fops = s.fops := rfl
@[simp] theorem State.setInst_planers (s : State) (k : Nat) (x : Inst) : (s.setInst k x).planers = s.planers := rfl
@[simp] theorem State.setInst_ticks (s : State) (k : Nat) (x : Inst) : (s.setInst k x).ticks = s.ticks := rfl
@[simp] theorem State.setInst_ports (s : State) (k : Nat) (x : Inst) : (s.setInst k x).ports = s.ports := rfl
@[simp] theorem State.setInst_mg (s : State) (k : Nat) (x : Inst) : (s.setInst k x).mg = s.mg := rfl
@[simp] theorem State.setReg_tick (s : State) (k : Nat) (v : W64) : (s.setReg k v).tick = s.tick := rfl
@[simp] theorem State.setReg_free (s : State) (k : Nat) (v : W64) : (s.setReg k v).free = s.free := rfl
@[simp] theorem State.setReg_nextId (s : State) (k : Nat) (v : W64) : (s.setReg k v).nextId = s.nextId := rfl
@[simp] theorem State.setReg_focus (s : State) (k : Nat) (v : W64) : (s.setReg k v).focus = s.focus := rfl
@[simp] theorem State.setReg_issue (s : State) (k : Nat) (v : W64) : (s.setReg k v).issue = s.issue := rfl
@[simp] theorem State.setReg_inputs (s : State) (k : Nat) (v : W64) : (s.setReg k v).inputs = s.inputs := rfl
@[simp] theorem State.setReg_outbox (s : State) (k : Nat) (v : W64) : (s.setReg k v).outbox = s.outbox := rfl
@[simp] theorem State.setReg_heldMsgs (s : State) (k : Nat) (v : W64) : (s.setReg k v).heldMsgs = s.heldMsgs := rfl
@[simp] theorem State.setReg_mem (s : State) (k : Nat) (v : W64) : (s.setReg k v).mem = s.mem := rfl
@[simp] theorem State.setReg_ctxs (s : State) (k : Nat) (v : W64) : (s.setReg k v).ctxs = s.ctxs := rfl
@[simp] theorem State.setReg_cores (s : State) (k : Nat) (v : W64) : (s.setReg k v).cores = s.cores := rfl
@[simp] theorem State.setReg_mp (s : State) (k : Nat) (v : W64) : (s.setReg k v).mp = s.mp := rfl
@[simp] theorem State.setReg_fops (s : State) (k : Nat) (v : W64) : (s.setReg k v).fops = s.fops := rfl
@[simp] theorem State.setReg_planers (s : State) (k : Nat) (v : W64) : (s.setReg k v).planers = s.planers := rfl
@[simp] theorem State.setReg_ticks (s : State) (k : Nat) (v : W64) : (s.setReg k v).ticks = s.ticks := rfl
@[simp] theorem State.setReg_ports (s : State) (k : Nat) (v : W64) : (s.setReg k v).ports = s.ports := rfl
@[simp] theorem State.setReg_dist (s : State) (k : Nat) (v : W64) : (s.setReg k v).dist = s.dist := rfl
@[simp] theorem State.withLu_tick (s : State) (lu : AMap W64) : (s.withLu lu).tick = s.tick := rfl
@[simp] theorem State.withLu_free (s : State) (lu : AMap W64) : (s.withLu lu).free = s.free := rfl
@[simp] theorem State.withLu_nextId (s : State) (lu : AMap W64) : (s.withLu lu).nextId = s.nextId := rfl
@[simp] theorem State.withLu_focus (s : State) (lu : AMap W64) : (s.withLu lu).focus = s.focus := rfl
@[simp] theorem State.withLu_issue (s : State) (lu : AMap W64) : (s.withLu lu).issue = s.issue := rfl
@[simp] theorem State.withLu_inputs (s : State) (lu : AMap W64) : (s.withLu lu).inputs = s.inputs := rfl
@[simp] theorem State.withLu_outbox (s : State) (lu : AMap W64) : (s.withLu lu).outbox = s.outbox := rfl
@[simp] theorem State.withLu_heldMsgs (s : State) (lu : AMap W64) : (s.withLu lu).heldMsgs = s.heldMsgs := rfl
@[simp] theorem State.withLu_mem (s : State) (lu : AMap W64) : (s.withLu lu).mem = s.mem := rfl
@[simp] theorem State.withLu_ctxs (s : State) (lu : AMap W64) : (s.withLu lu).ctxs = s.ctxs := rfl
@[simp] theorem State.withLu_cores (s : State) (lu : AMap W64) : (s.withLu lu).cores = s.cores := rfl
@[simp] theorem State.withLu_fops (s : State) (lu : AMap W64) : (s.withLu lu).fops = s.fops := rfl
@[simp] theorem State.withLu_planers (s : State) (lu : AMap W64) : (s.withLu lu).planers = s.planers := rfl
@[simp] theorem State.withLu_ticks (s : State) (lu : AMap W64) : (s.withLu lu).ticks = s.ticks := rfl
@[simp] theorem State.withLu_ports (s : State) (lu : AMap W64) : (s.withLu lu).ports = s.ports := rfl
@[simp] theorem State.withLu_dist (s : State) (lu : AMap W64) : (s.withLu lu).dist = s.dist := rfl
@[simp] theorem State.withLu_mg (s : State) (lu : AMap W64) : (s.withLu lu).mg = s.mg := rfl
@[simp] theorem State.on_tick (s : State) (k : Nat) : (s.on k).tick = s.tick := rfl
@[simp] theorem State.on_free (s : State) (k : Nat) : (s.on k).free = s.free := rfl
@[simp] theorem State.on_nextId (s : State) (k : Nat) : (s.on k).nextId = s.nextId := rfl
@[simp] theorem State.on_issue (s : State) (k : Nat) : (s.on k).issue = s.issue := rfl
@[simp] theorem State.on_inputs (s : State) (k : Nat) : (s.on k).inputs = s.inputs := rfl
@[simp] theorem State.on_outbox (s : State) (k : Nat) : (s.on k).outbox = s.outbox := rfl
@[simp] theorem State.on_heldMsgs (s : State) (k : Nat) : (s.on k).heldMsgs = s.heldMsgs := rfl
@[simp] theorem State.on_mem (s : State) (k : Nat) : (s.on k).mem = s.mem := rfl
@[simp] theorem State.on_ctxs (s : State) (k : Nat) : (s.on k).ctxs = s.ctxs := rfl
@[simp] theorem State.on_cores (s : State) (k : Nat) : (s.on k).cores = s.cores := rfl
@[simp] theorem State.on_mp (s : State) (k : Nat) : (s.on k).mp = s.mp := rfl
@[simp] theorem State.on_fops (s : State) (k : Nat) : (s.on k).fops = s.fops := rfl
@[simp] theorem State.on_planers (s : State) (k : Nat) : (s.on k).planers = s.planers := rfl
@[simp] theorem State.on_ticks (s : State) (k : Nat) : (s.on k).ticks = s.ticks := rfl
@[simp] theorem State.on_ports (s : State) (k : Nat) : (s.on k).ports = s.ports := rfl
@[simp] theorem State.on_dist (s : State) (k : Nat) : (s.on k).dist = s.dist := rfl
@[simp] theorem State.on_mg (s : State) (k : Nat) : (s.on k).mg = s.mg := rfl
@[simp] theorem State.idle_tick (s : State) : (s.idle).tick = s.tick := rfl
@[simp] theorem State.idle_free (s : State) : (s.idle).free = s.free := rfl
@[simp] theorem State.idle_nextId (s : State) : (s.idle).nextId = s.nextId := rfl
@[simp] theorem State.idle_focus (s : State) : (s.idle).focus = s.focus := rfl
@[simp] theorem State.idle_inputs (s : State) : (s.idle).inputs = s.inputs := rfl
@[simp] theorem State.idle_outbox (s : State) : (s.idle).outbox = s.outbox := rfl
@[simp] theorem State.idle_heldMsgs (s : State) : (s.idle).heldMsgs = s.heldMsgs := rfl
@[simp] theorem State.idle_mem (s : State) : (s.idle).mem = s.mem := rfl
@[simp] theorem State.idle_ctxs (s : State) : (s.idle).ctxs = s.ctxs := rfl
@[simp] theorem State.idle_cores (s : State) : (s.idle).cores = s.cores := rfl
@[simp] theorem State.idle_mp (s : State) : (s.idle).mp = s.mp := rfl
@[simp] theorem State.idle_fops (s : State) : (s.idle).fops = s.fops := rfl
@[simp] theorem State.idle_planers (s : State) : (s.idle).planers = s.planers := rfl
@[simp] theorem State.idle_ticks (s : State) : (s.idle).ticks = s.ticks := rfl
@[simp] theorem State.idle_ports (s : State) : (s.idle).ports = s.ports := rfl
@[simp] theorem State.idle_dist (s : State) : (s.idle).dist = s.dist := rfl
@[simp] theorem State.idle_mg (s : State) : (s.idle).mg = s.mg := rfl

/-! ### What an update reads back -/

@[simp] theorem State.ctx_setCtx (s : State) (k j : Nat) (c : Ctx) : (s.setCtx k c).ctx j = if k = j then c else s.ctx j :=
  AMap.get_set _ _ _ _ _
@[simp] theorem State.ctx_setCur (s : State) (j : Nat) (c : Ctx) : (s.setCur c).ctx j = if s.focus = j then c else s.ctx j :=
  AMap.get_set _ _ _ _ _
@[simp] theorem State.cur_setCur (s : State) (c : Ctx) : (s.setCur c).cur = c := by
  show (s.setCur c).ctx s.focus = c; rw [State.ctx_setCur, if_pos rfl]
@[simp] theorem State.setCtx_setCtx (s : State) (k : Nat) (c d : Ctx) : (s.setCtx k c).setCtx k d = s.setCtx k d := by
  unfold State.setCtx; rw [AMap.set_set]
@[simp] theorem State.setCur_setCur (s : State) (c d : Ctx) : (s.setCur c).setCur d = s.setCur d := State.setCtx_setCtx s s.focus c d
@[simp] theorem State.core_setCore (s : State) (k j : Nat) (x : Core) : (s.setCore k x).core j = if k = j then x else s.core j :=
  AMap.get_set _ _ _ _ _
@[simp] theorem State.launch_setLaunch (s : State) (k j : Nat) (x : Launch) :
    (s.setLaunch k x).launch j = if k = j then x else s.launch j := AMap.get_set _ _ _ _ _
@[simp] theorem State.inst_setInst (s : State) (k j : Nat) (x : Inst) : (s.setInst k x).inst j = if k = j then x else s.inst j :=
  AMap.get_set _ _ _ _ _
@[simp] theorem State.reg_setReg (s : State) (k j : Nat) (v : W64) : (s.setReg k v).reg j = if k = j then v else s.reg j :=
  AMap.get_set _ _ _ _ _
@[simp] theorem State.withLu_lu (s : State) (lu : AMap W64) : (s.withLu lu).mp.lu = lu := rfl
@[simp] theorem State.on_focus (s : State) (k : Nat) : (s.on k).focus = k := rfl
@[simp] theorem State.core_setCtx (s : State) (k : Nat) (c : Ctx) (j : Nat) : (s.setCtx k c).core j = s.core j := rfl
@[simp] theorem State.launch_setCtx (s : State) (k : Nat) (c : Ctx) (j : Nat) : (s.setCtx k c).launch j = s.launch j := rfl
@[simp] theorem State.inst_setCtx (s : State) (k : Nat) (c : Ctx) (j : Nat) : (s.setCtx k c).inst j = s.inst j := rfl
@[simp] theorem State.reg_setCtx (s : State) (k : Nat) (c : Ctx) (j : Nat) : (s.setCtx k c).reg j = s.reg j := rfl
@[simp] theorem State.page_setCtx (s : State) (k : Nat) (c : Ctx) (j : Nat) : (s.setCtx k c).page j = s.page j := rfl
@[simp] theorem State.core_setCur (s : State) (c : Ctx) (j : Nat) : (s.setCur c).core j = s.core j := rfl
@[simp] theorem State.launch_setCur (s : State) (c : Ctx) (j : Nat) : (s.setCur c).launch j = s.launch j := rfl
@[simp] theorem State.inst_setCur (s : State) (c : Ctx) (j : Nat) : (s.setCur c).inst j = s.inst j := rfl
@[simp] theorem State.reg_setCur (s : State) (c : Ctx) (j : Nat) : (s.setCur c).reg j = s.reg j := rfl
@[simp] theorem State.page_setCur (s : State) (c : Ctx) (j : Nat) : (s.setCur c).page j = s.page j := rfl
@[simp] theorem State.ctx_setCore (s : State) (k : Nat) (x : Core) (j : Nat) : (s.setCore k x).ctx j = s.ctx j := rfl
@[simp] theorem State.launch_setCore (s : State) (k : Nat) (x : Core) (j : Nat) : (s.setCore k x).launch j = s.launch j := rfl
@[simp] theorem State.inst_setCore (s : State) (k : Nat) (x : Core) (j : Nat) : (s.setCore k x).inst j = s.inst j := rfl
@[simp] theorem State.reg_setCore (s : State) (k : Nat) (x : Core) (j : Nat) : (s.setCore k x).reg j = s.reg j := rfl
@[simp] theorem State.page_setCore (s : State) (k : Nat) (x : Core) (j : Nat) : (s.setCore k x).page j = s.page j := rfl
@[simp] theorem State.ctx_setLaunch (s : State) (k : Nat) (x : Launch) (j : Nat) : (s.setLaunch k x).ctx j = s.ctx j := rfl
@[simp] theorem State.core_setLaunch (s : State) (k : Nat) (x : Launch) (j : Nat) : (s.setLaunch k x).core j = s.core j := rfl
@[simp] theorem State.inst_setLaunch (s : State) (k : Nat) (x : Launch) (j : Nat) : (s.setLaunch k x).inst j = s.inst j := rfl
@[simp] theorem State.reg_setLaunch (s : State) (k : Nat) (x : Launch) (j : Nat) : (s.setLaunch k x).reg j = s.reg j := rfl
@[simp] theorem State.page_setLaunch (s : State) (k : Nat) (x : Launch) (j : Nat) : (s.setLaunch k x).page j = s.page j := rfl
@[simp] theorem State.ctx_setInst (s : State) (k : Nat) (x : Inst) (j : Nat) : (s.setInst k x).ctx j = s.ctx j := rfl
@[simp] theorem State.core_setInst (s : State) (k : Nat) (x : Inst) (j : Nat) : (s.setInst k x).core j = s.core j := rfl
@[simp] theorem State.launch_setInst (s : State) (k : Nat) (x : Inst) (j : Nat) : (s.setInst k x).launch j = s.launch j := rfl
@[simp] theorem State.reg_setInst (s : State) (k : Nat) (x : Inst) (j : Nat) : (s.setInst k x).reg j = s.reg j := rfl
@[simp] theorem State.page_setInst (s : State) (k : Nat) (x : Inst) (j : Nat) : (s.setInst k x).page j = s.page j := rfl
@[simp] theorem State.ctx_setReg (s : State) (k : Nat) (v : W64) (j : Nat) : (s.setReg k v).ctx j = s.ctx j := rfl
@[simp] theorem State.core_setReg (s : State) (k : Nat) (v : W64) (j : Nat) : (s.setReg k v).core j = s.core j := rfl
@[simp] theorem State.launch_setReg (s : State) (k : Nat) (v : W64) (j : Nat) : (s.setReg k v).launch j = s.launch j := rfl
@[simp] theorem State.inst_setReg (s : State) (k : Nat) (v : W64) (j : Nat) : (s.setReg k v).inst j = s.inst j := rfl
@[simp] theorem State.page_setReg (s : State) (k : Nat) (v : W64) (j : Nat) : (s.setReg k v).page j = s.page j := rfl
@[simp] theorem State.ctx_withLu (s : State) (lu : AMap W64) (j : Nat) : (s.withLu lu).ctx j = s.ctx j := rfl
@[simp] theorem State.core_withLu (s : State) (lu : AMap W64) (j : Nat) : (s.withLu lu).core j = s.core j := rfl
@[simp] theorem State.launch_withLu (s : State) (lu : AMap W64) (j : Nat) : (s.withLu lu).launch j = s.launch j := rfl
@[simp] theorem State.inst_withLu (s : State) (lu : AMap W64) (j : Nat) : (s.withLu lu).inst j = s.inst j := rfl
@[simp] theorem State.reg_withLu (s : State) (lu : AMap W64) (j : Nat) : (s.withLu lu).reg j = s.reg j := rfl
@[simp] theorem State.page_withLu (s : State) (lu : AMap W64) (j : Nat) : (s.withLu lu).page j = s.page j := rfl
@[simp] theorem State.ctx_on (s : State) (k : Nat) (j : Nat) : (s.on k).ctx j = s.ctx j := rfl
@[simp] theorem State.core_on (s : State) (k : Nat) (j : Nat) : (s.on k).core j = s.core j := rfl
@[simp] theorem State.launch_on (s : State) (k : Nat) (j : Nat) : (s.on k).launch j = s.launch j := rfl
@[simp] theorem State.inst_on (s : State) (k : Nat) (j : Nat) : (s.on k).inst j = s.inst j := rfl
@[simp] theorem State.reg_on (s : State) (k : Nat) (j : Nat) : (s.on k).reg j = s.reg j := rfl
@[simp] theorem State.page_on (s : State) (k : Nat) (j : Nat) : (s.on k).page j = s.page j := rfl
@[simp] theorem State.ctx_idle (s : State) (j : Nat) : (s.idle).ctx j = s.ctx j := rfl
@[simp] theorem State.core_idle (s : State) (j : Nat) : (s.idle).core j = s.core j := rfl
@[simp] theorem State.launch_idle (s : State) (j : Nat) : (s.idle).launch j = s.launch j := rfl
@[simp] theorem State.inst_idle (s : State) (j : Nat) : (s.idle).inst j = s.inst j := rfl
@[simp] theorem State.reg_idle (s : State) (j : Nat) : (s.idle).reg j = s.reg j := rfl
@[simp] theorem State.page_idle (s : State) (j : Nat) : (s.idle).page j = s.page j := rfl
@[simp] theorem State.setCore_cur (s : State) (k : Nat) (x : Core) : (s.setCore k x).cur = s.cur := rfl
@[simp] theorem State.withLu_cur (s : State) (lu : AMap W64) : (s.withLu lu).cur = s.cur := rfl
@[simp] theorem State.setReg_cur (s : State) (k : Nat) (v : W64) : (s.setReg k v).cur = s.cur := rfl

/-! ### Updates of a context -/

@[simp] theorem Ctx.logged_st (c : Ctx) (v : Saved) : (c.logged v).st = c.st := by unfold Ctx.logged; split <;> rfl
@[simp] theorem Ctx.logged_launch (c : Ctx) (v : Saved) : (c.logged v).launch = c.launch := by unfold Ctx.logged; split <;> rfl
@[simp] theorem Ctx.logged_inst (c : Ctx) (v : Saved) : (c.logged v).inst = c.inst := by unfold Ctx.logged; split <;> rfl
@[simp] theorem Ctx.logged_icore (c : Ctx) (v : Saved) : (c.logged v).icore = c.icore := by unfold Ctx.logged; split <;> rfl
@[simp] theorem Ctx.logged_atLaunch (c : Ctx) (v : Saved) : (c.logged v).atLaunch = c.atLaunch := by unfold Ctx.logged; split <;> rfl
@[simp] theorem Ctx.logged_priv (c : Ctx) (v : Saved) : (c.logged v).priv = c.priv := by unfold Ctx.logged; split <;> rfl
@[simp] theorem Ctx.logged_files (c : Ctx) (v : Saved) : (c.logged v).files = c.files := by unfold Ctx.logged; split <;> rfl
@[simp] theorem Ctx.logged_queues (c : Ctx) (v : Saved) : (c.logged v).queues = c.queues := by unfold Ctx.logged; split <;> rfl
@[simp] theorem Ctx.logged_sq (c : Ctx) (v : Saved) : (c.logged v).sq = c.sq := by unfold Ctx.logged; split <;> rfl
@[simp] theorem Ctx.logged_fl (c : Ctx) (v : Saved) : (c.logged v).fl = c.fl := by unfold Ctx.logged; split <;> rfl
@[simp] theorem Ctx.logged_key (c : Ctx) (v : Saved) : (c.logged v).key = c.key := by unfold Ctx.logged; split <;> rfl
@[simp] theorem Ctx.logged_ctr (c : Ctx) (v : Saved) : (c.logged v).ctr = c.ctr := by unfold Ctx.logged; split <;> rfl
@[simp] theorem Ctx.logged_rounds (c : Ctx) (v : Saved) : (c.logged v).rounds = c.rounds := by unfold Ctx.logged; split <;> rfl
@[simp] theorem Ctx.logged_fsat (c : Ctx) (v : Saved) : (c.logged v).fsat = c.fsat := by unfold Ctx.logged; split <;> rfl
@[simp] theorem Ctx.logged_accsat (c : Ctx) (v : Saved) : (c.logged v).accsat = c.accsat := by unfold Ctx.logged; split <;> rfl
@[simp] theorem Ctx.logged_frame (c : Ctx) (v : Saved) : (c.logged v).frame = c.frame := by unfold Ctx.logged; split <;> rfl
@[simp] theorem Ctx.logged_wait (c : Ctx) (v : Saved) : (c.logged v).wait = c.wait := by unfold Ctx.logged; split <;> rfl
@[simp] theorem Ctx.logged_more (c : Ctx) (v : Saved) : (c.logged v).more = c.more := by unfold Ctx.logged; split <;> rfl
@[simp] theorem Ctx.logged_nextIssue (c : Ctx) (v : Saved) : (c.logged v).nextIssue = c.nextIssue := by unfold Ctx.logged; split <;> rfl
@[simp] theorem Ctx.logged_starve (c : Ctx) (v : Saved) : (c.logged v).starve = c.starve := by unfold Ctx.logged; split <;> rfl
@[simp] theorem Ctx.logged_avail (c : Ctx) (v : Saved) : (c.logged v).avail = c.avail := by unfold Ctx.logged; split <;> rfl
@[simp] theorem Ctx.putC_st (c : Ctx) (n : Nat) (v : W32) : (c.putC n v).st = c.st := Ctx.logged_st c _
@[simp] theorem Ctx.putC_launch (c : Ctx) (n : Nat) (v : W32) : (c.putC n v).launch = c.launch := Ctx.logged_launch c _
@[simp] theorem Ctx.putC_inst (c : Ctx) (n : Nat) (v : W32) : (c.putC n v).inst = c.inst := Ctx.logged_inst c _
@[simp] theorem Ctx.putC_icore (c : Ctx) (n : Nat) (v : W32) : (c.putC n v).icore = c.icore := Ctx.logged_icore c _
@[simp] theorem Ctx.putC_atLaunch (c : Ctx) (n : Nat) (v : W32) : (c.putC n v).atLaunch = c.atLaunch := Ctx.logged_atLaunch c _
@[simp] theorem Ctx.putC_priv (c : Ctx) (n : Nat) (v : W32) : (c.putC n v).priv = c.priv := Ctx.logged_priv c _
@[simp] theorem Ctx.putC_queues (c : Ctx) (n : Nat) (v : W32) : (c.putC n v).queues = c.queues := Ctx.logged_queues c _
@[simp] theorem Ctx.putC_sq (c : Ctx) (n : Nat) (v : W32) : (c.putC n v).sq = c.sq := Ctx.logged_sq c _
@[simp] theorem Ctx.putC_fl (c : Ctx) (n : Nat) (v : W32) : (c.putC n v).fl = c.fl := Ctx.logged_fl c _
@[simp] theorem Ctx.putC_key (c : Ctx) (n : Nat) (v : W32) : (c.putC n v).key = c.key := Ctx.logged_key c _
@[simp] theorem Ctx.putC_ctr (c : Ctx) (n : Nat) (v : W32) : (c.putC n v).ctr = c.ctr := Ctx.logged_ctr c _
@[simp] theorem Ctx.putC_rounds (c : Ctx) (n : Nat) (v : W32) : (c.putC n v).rounds = c.rounds := Ctx.logged_rounds c _
@[simp] theorem Ctx.putC_fsat (c : Ctx) (n : Nat) (v : W32) : (c.putC n v).fsat = c.fsat := Ctx.logged_fsat c _
@[simp] theorem Ctx.putC_accsat (c : Ctx) (n : Nat) (v : W32) : (c.putC n v).accsat = c.accsat := Ctx.logged_accsat c _
@[simp] theorem Ctx.putC_frame (c : Ctx) (n : Nat) (v : W32) : (c.putC n v).frame = c.frame := Ctx.logged_frame c _
@[simp] theorem Ctx.putC_wait (c : Ctx) (n : Nat) (v : W32) : (c.putC n v).wait = c.wait := Ctx.logged_wait c _
@[simp] theorem Ctx.putC_more (c : Ctx) (n : Nat) (v : W32) : (c.putC n v).more = c.more := Ctx.logged_more c _
@[simp] theorem Ctx.putC_nextIssue (c : Ctx) (n : Nat) (v : W32) : (c.putC n v).nextIssue = c.nextIssue := Ctx.logged_nextIssue c _
@[simp] theorem Ctx.putC_starve (c : Ctx) (n : Nat) (v : W32) : (c.putC n v).starve = c.starve := Ctx.logged_starve c _
@[simp] theorem Ctx.putC_avail (c : Ctx) (n : Nat) (v : W32) : (c.putC n v).avail = c.avail := Ctx.logged_avail c _
@[simp] theorem Ctx.putA_st (c : Ctx) (n : BitVec 5) (v : W64) : (c.putA n v).st = c.st := Ctx.logged_st c _
@[simp] theorem Ctx.putA_launch (c : Ctx) (n : BitVec 5) (v : W64) : (c.putA n v).launch = c.launch := Ctx.logged_launch c _
@[simp] theorem Ctx.putA_inst (c : Ctx) (n : BitVec 5) (v : W64) : (c.putA n v).inst = c.inst := Ctx.logged_inst c _
@[simp] theorem Ctx.putA_icore (c : Ctx) (n : BitVec 5) (v : W64) : (c.putA n v).icore = c.icore := Ctx.logged_icore c _
@[simp] theorem Ctx.putA_atLaunch (c : Ctx) (n : BitVec 5) (v : W64) : (c.putA n v).atLaunch = c.atLaunch := Ctx.logged_atLaunch c _
@[simp] theorem Ctx.putA_priv (c : Ctx) (n : BitVec 5) (v : W64) : (c.putA n v).priv = c.priv := Ctx.logged_priv c _
@[simp] theorem Ctx.putA_queues (c : Ctx) (n : BitVec 5) (v : W64) : (c.putA n v).queues = c.queues := Ctx.logged_queues c _
@[simp] theorem Ctx.putA_sq (c : Ctx) (n : BitVec 5) (v : W64) : (c.putA n v).sq = c.sq := Ctx.logged_sq c _
@[simp] theorem Ctx.putA_fl (c : Ctx) (n : BitVec 5) (v : W64) : (c.putA n v).fl = c.fl := Ctx.logged_fl c _
@[simp] theorem Ctx.putA_key (c : Ctx) (n : BitVec 5) (v : W64) : (c.putA n v).key = c.key := Ctx.logged_key c _
@[simp] theorem Ctx.putA_ctr (c : Ctx) (n : BitVec 5) (v : W64) : (c.putA n v).ctr = c.ctr := Ctx.logged_ctr c _
@[simp] theorem Ctx.putA_rounds (c : Ctx) (n : BitVec 5) (v : W64) : (c.putA n v).rounds = c.rounds := Ctx.logged_rounds c _
@[simp] theorem Ctx.putA_fsat (c : Ctx) (n : BitVec 5) (v : W64) : (c.putA n v).fsat = c.fsat := Ctx.logged_fsat c _
@[simp] theorem Ctx.putA_accsat (c : Ctx) (n : BitVec 5) (v : W64) : (c.putA n v).accsat = c.accsat := Ctx.logged_accsat c _
@[simp] theorem Ctx.putA_frame (c : Ctx) (n : BitVec 5) (v : W64) : (c.putA n v).frame = c.frame := Ctx.logged_frame c _
@[simp] theorem Ctx.putA_wait (c : Ctx) (n : BitVec 5) (v : W64) : (c.putA n v).wait = c.wait := Ctx.logged_wait c _
@[simp] theorem Ctx.putA_more (c : Ctx) (n : BitVec 5) (v : W64) : (c.putA n v).more = c.more := Ctx.logged_more c _
@[simp] theorem Ctx.putA_nextIssue (c : Ctx) (n : BitVec 5) (v : W64) : (c.putA n v).nextIssue = c.nextIssue := Ctx.logged_nextIssue c _
@[simp] theorem Ctx.putA_starve (c : Ctx) (n : BitVec 5) (v : W64) : (c.putA n v).starve = c.starve := Ctx.logged_starve c _
@[simp] theorem Ctx.putA_avail (c : Ctx) (n : BitVec 5) (v : W64) : (c.putA n v).avail = c.avail := Ctx.logged_avail c _
@[simp] theorem Ctx.putE_st (c : Ctx) (n : BitVec 5) (v : W64) : (c.putE n v).st = c.st := Ctx.logged_st c _
@[simp] theorem Ctx.putE_launch (c : Ctx) (n : BitVec 5) (v : W64) : (c.putE n v).launch = c.launch := Ctx.logged_launch c _
@[simp] theorem Ctx.putE_inst (c : Ctx) (n : BitVec 5) (v : W64) : (c.putE n v).inst = c.inst := Ctx.logged_inst c _
@[simp] theorem Ctx.putE_icore (c : Ctx) (n : BitVec 5) (v : W64) : (c.putE n v).icore = c.icore := Ctx.logged_icore c _
@[simp] theorem Ctx.putE_atLaunch (c : Ctx) (n : BitVec 5) (v : W64) : (c.putE n v).atLaunch = c.atLaunch := Ctx.logged_atLaunch c _
@[simp] theorem Ctx.putE_priv (c : Ctx) (n : BitVec 5) (v : W64) : (c.putE n v).priv = c.priv := Ctx.logged_priv c _
@[simp] theorem Ctx.putE_queues (c : Ctx) (n : BitVec 5) (v : W64) : (c.putE n v).queues = c.queues := Ctx.logged_queues c _
@[simp] theorem Ctx.putE_sq (c : Ctx) (n : BitVec 5) (v : W64) : (c.putE n v).sq = c.sq := Ctx.logged_sq c _
@[simp] theorem Ctx.putE_fl (c : Ctx) (n : BitVec 5) (v : W64) : (c.putE n v).fl = c.fl := Ctx.logged_fl c _
@[simp] theorem Ctx.putE_key (c : Ctx) (n : BitVec 5) (v : W64) : (c.putE n v).key = c.key := Ctx.logged_key c _
@[simp] theorem Ctx.putE_ctr (c : Ctx) (n : BitVec 5) (v : W64) : (c.putE n v).ctr = c.ctr := Ctx.logged_ctr c _
@[simp] theorem Ctx.putE_rounds (c : Ctx) (n : BitVec 5) (v : W64) : (c.putE n v).rounds = c.rounds := Ctx.logged_rounds c _
@[simp] theorem Ctx.putE_fsat (c : Ctx) (n : BitVec 5) (v : W64) : (c.putE n v).fsat = c.fsat := Ctx.logged_fsat c _
@[simp] theorem Ctx.putE_accsat (c : Ctx) (n : BitVec 5) (v : W64) : (c.putE n v).accsat = c.accsat := Ctx.logged_accsat c _
@[simp] theorem Ctx.putE_frame (c : Ctx) (n : BitVec 5) (v : W64) : (c.putE n v).frame = c.frame := Ctx.logged_frame c _
@[simp] theorem Ctx.putE_wait (c : Ctx) (n : BitVec 5) (v : W64) : (c.putE n v).wait = c.wait := Ctx.logged_wait c _
@[simp] theorem Ctx.putE_more (c : Ctx) (n : BitVec 5) (v : W64) : (c.putE n v).more = c.more := Ctx.logged_more c _
@[simp] theorem Ctx.putE_nextIssue (c : Ctx) (n : BitVec 5) (v : W64) : (c.putE n v).nextIssue = c.nextIssue := Ctx.logged_nextIssue c _
@[simp] theorem Ctx.putE_starve (c : Ctx) (n : BitVec 5) (v : W64) : (c.putE n v).starve = c.starve := Ctx.logged_starve c _
@[simp] theorem Ctx.putE_avail (c : Ctx) (n : BitVec 5) (v : W64) : (c.putE n v).avail = c.avail := Ctx.logged_avail c _
@[simp] theorem Ctx.putX_st (c : Ctx) (n : BitVec 5) (v : W64) : (c.putX n v).st = c.st := Ctx.logged_st c _
@[simp] theorem Ctx.putX_launch (c : Ctx) (n : BitVec 5) (v : W64) : (c.putX n v).launch = c.launch := Ctx.logged_launch c _
@[simp] theorem Ctx.putX_inst (c : Ctx) (n : BitVec 5) (v : W64) : (c.putX n v).inst = c.inst := Ctx.logged_inst c _
@[simp] theorem Ctx.putX_icore (c : Ctx) (n : BitVec 5) (v : W64) : (c.putX n v).icore = c.icore := Ctx.logged_icore c _
@[simp] theorem Ctx.putX_atLaunch (c : Ctx) (n : BitVec 5) (v : W64) : (c.putX n v).atLaunch = c.atLaunch := Ctx.logged_atLaunch c _
@[simp] theorem Ctx.putX_priv (c : Ctx) (n : BitVec 5) (v : W64) : (c.putX n v).priv = c.priv := Ctx.logged_priv c _
@[simp] theorem Ctx.putX_queues (c : Ctx) (n : BitVec 5) (v : W64) : (c.putX n v).queues = c.queues := Ctx.logged_queues c _
@[simp] theorem Ctx.putX_sq (c : Ctx) (n : BitVec 5) (v : W64) : (c.putX n v).sq = c.sq := Ctx.logged_sq c _
@[simp] theorem Ctx.putX_fl (c : Ctx) (n : BitVec 5) (v : W64) : (c.putX n v).fl = c.fl := Ctx.logged_fl c _
@[simp] theorem Ctx.putX_key (c : Ctx) (n : BitVec 5) (v : W64) : (c.putX n v).key = c.key := Ctx.logged_key c _
@[simp] theorem Ctx.putX_ctr (c : Ctx) (n : BitVec 5) (v : W64) : (c.putX n v).ctr = c.ctr := Ctx.logged_ctr c _
@[simp] theorem Ctx.putX_rounds (c : Ctx) (n : BitVec 5) (v : W64) : (c.putX n v).rounds = c.rounds := Ctx.logged_rounds c _
@[simp] theorem Ctx.putX_fsat (c : Ctx) (n : BitVec 5) (v : W64) : (c.putX n v).fsat = c.fsat := Ctx.logged_fsat c _
@[simp] theorem Ctx.putX_accsat (c : Ctx) (n : BitVec 5) (v : W64) : (c.putX n v).accsat = c.accsat := Ctx.logged_accsat c _
@[simp] theorem Ctx.putX_frame (c : Ctx) (n : BitVec 5) (v : W64) : (c.putX n v).frame = c.frame := Ctx.logged_frame c _
@[simp] theorem Ctx.putX_wait (c : Ctx) (n : BitVec 5) (v : W64) : (c.putX n v).wait = c.wait := Ctx.logged_wait c _
@[simp] theorem Ctx.putX_more (c : Ctx) (n : BitVec 5) (v : W64) : (c.putX n v).more = c.more := Ctx.logged_more c _
@[simp] theorem Ctx.putX_nextIssue (c : Ctx) (n : BitVec 5) (v : W64) : (c.putX n v).nextIssue = c.nextIssue := Ctx.logged_nextIssue c _
@[simp] theorem Ctx.putX_starve (c : Ctx) (n : BitVec 5) (v : W64) : (c.putX n v).starve = c.starve := Ctx.logged_starve c _
@[simp] theorem Ctx.putX_avail (c : Ctx) (n : BitVec 5) (v : W64) : (c.putX n v).avail = c.avail := Ctx.logged_avail c _
@[simp] theorem Ctx.putS_st (c : Ctx) (n : BitVec 5) (v : W64) : (c.putS n v).st = c.st := Ctx.logged_st c _
@[simp] theorem Ctx.putS_launch (c : Ctx) (n : BitVec 5) (v : W64) : (c.putS n v).launch = c.launch := Ctx.logged_launch c _
@[simp] theorem Ctx.putS_inst (c : Ctx) (n : BitVec 5) (v : W64) : (c.putS n v).inst = c.inst := Ctx.logged_inst c _
@[simp] theorem Ctx.putS_icore (c : Ctx) (n : BitVec 5) (v : W64) : (c.putS n v).icore = c.icore := Ctx.logged_icore c _
@[simp] theorem Ctx.putS_atLaunch (c : Ctx) (n : BitVec 5) (v : W64) : (c.putS n v).atLaunch = c.atLaunch := Ctx.logged_atLaunch c _
@[simp] theorem Ctx.putS_priv (c : Ctx) (n : BitVec 5) (v : W64) : (c.putS n v).priv = c.priv := Ctx.logged_priv c _
@[simp] theorem Ctx.putS_queues (c : Ctx) (n : BitVec 5) (v : W64) : (c.putS n v).queues = c.queues := Ctx.logged_queues c _
@[simp] theorem Ctx.putS_sq (c : Ctx) (n : BitVec 5) (v : W64) : (c.putS n v).sq = c.sq := Ctx.logged_sq c _
@[simp] theorem Ctx.putS_fl (c : Ctx) (n : BitVec 5) (v : W64) : (c.putS n v).fl = c.fl := Ctx.logged_fl c _
@[simp] theorem Ctx.putS_key (c : Ctx) (n : BitVec 5) (v : W64) : (c.putS n v).key = c.key := Ctx.logged_key c _
@[simp] theorem Ctx.putS_ctr (c : Ctx) (n : BitVec 5) (v : W64) : (c.putS n v).ctr = c.ctr := Ctx.logged_ctr c _
@[simp] theorem Ctx.putS_rounds (c : Ctx) (n : BitVec 5) (v : W64) : (c.putS n v).rounds = c.rounds := Ctx.logged_rounds c _
@[simp] theorem Ctx.putS_fsat (c : Ctx) (n : BitVec 5) (v : W64) : (c.putS n v).fsat = c.fsat := Ctx.logged_fsat c _
@[simp] theorem Ctx.putS_accsat (c : Ctx) (n : BitVec 5) (v : W64) : (c.putS n v).accsat = c.accsat := Ctx.logged_accsat c _
@[simp] theorem Ctx.putS_frame (c : Ctx) (n : BitVec 5) (v : W64) : (c.putS n v).frame = c.frame := Ctx.logged_frame c _
@[simp] theorem Ctx.putS_wait (c : Ctx) (n : BitVec 5) (v : W64) : (c.putS n v).wait = c.wait := Ctx.logged_wait c _
@[simp] theorem Ctx.putS_more (c : Ctx) (n : BitVec 5) (v : W64) : (c.putS n v).more = c.more := Ctx.logged_more c _
@[simp] theorem Ctx.putS_nextIssue (c : Ctx) (n : BitVec 5) (v : W64) : (c.putS n v).nextIssue = c.nextIssue := Ctx.logged_nextIssue c _
@[simp] theorem Ctx.putS_starve (c : Ctx) (n : BitVec 5) (v : W64) : (c.putS n v).starve = c.starve := Ctx.logged_starve c _
@[simp] theorem Ctx.putS_avail (c : Ctx) (n : BitVec 5) (v : W64) : (c.putS n v).avail = c.avail := Ctx.logged_avail c _
@[simp] theorem Ctx.putK_st (c : Ctx) (n : BitVec 3) (k : Iter) : (c.putK n k).st = c.st := Ctx.logged_st c _
@[simp] theorem Ctx.putK_launch (c : Ctx) (n : BitVec 3) (k : Iter) : (c.putK n k).launch = c.launch := Ctx.logged_launch c _
@[simp] theorem Ctx.putK_inst (c : Ctx) (n : BitVec 3) (k : Iter) : (c.putK n k).inst = c.inst := Ctx.logged_inst c _
@[simp] theorem Ctx.putK_icore (c : Ctx) (n : BitVec 3) (k : Iter) : (c.putK n k).icore = c.icore := Ctx.logged_icore c _
@[simp] theorem Ctx.putK_atLaunch (c : Ctx) (n : BitVec 3) (k : Iter) : (c.putK n k).atLaunch = c.atLaunch := Ctx.logged_atLaunch c _
@[simp] theorem Ctx.putK_priv (c : Ctx) (n : BitVec 3) (k : Iter) : (c.putK n k).priv = c.priv := Ctx.logged_priv c _
@[simp] theorem Ctx.putK_queues (c : Ctx) (n : BitVec 3) (k : Iter) : (c.putK n k).queues = c.queues := Ctx.logged_queues c _
@[simp] theorem Ctx.putK_sq (c : Ctx) (n : BitVec 3) (k : Iter) : (c.putK n k).sq = c.sq := Ctx.logged_sq c _
@[simp] theorem Ctx.putK_fl (c : Ctx) (n : BitVec 3) (k : Iter) : (c.putK n k).fl = c.fl := Ctx.logged_fl c _
@[simp] theorem Ctx.putK_key (c : Ctx) (n : BitVec 3) (k : Iter) : (c.putK n k).key = c.key := Ctx.logged_key c _
@[simp] theorem Ctx.putK_ctr (c : Ctx) (n : BitVec 3) (k : Iter) : (c.putK n k).ctr = c.ctr := Ctx.logged_ctr c _
@[simp] theorem Ctx.putK_rounds (c : Ctx) (n : BitVec 3) (k : Iter) : (c.putK n k).rounds = c.rounds := Ctx.logged_rounds c _
@[simp] theorem Ctx.putK_fsat (c : Ctx) (n : BitVec 3) (k : Iter) : (c.putK n k).fsat = c.fsat := Ctx.logged_fsat c _
@[simp] theorem Ctx.putK_accsat (c : Ctx) (n : BitVec 3) (k : Iter) : (c.putK n k).accsat = c.accsat := Ctx.logged_accsat c _
@[simp] theorem Ctx.putK_frame (c : Ctx) (n : BitVec 3) (k : Iter) : (c.putK n k).frame = c.frame := Ctx.logged_frame c _
@[simp] theorem Ctx.putK_wait (c : Ctx) (n : BitVec 3) (k : Iter) : (c.putK n k).wait = c.wait := Ctx.logged_wait c _
@[simp] theorem Ctx.putK_more (c : Ctx) (n : BitVec 3) (k : Iter) : (c.putK n k).more = c.more := Ctx.logged_more c _
@[simp] theorem Ctx.putK_nextIssue (c : Ctx) (n : BitVec 3) (k : Iter) : (c.putK n k).nextIssue = c.nextIssue := Ctx.logged_nextIssue c _
@[simp] theorem Ctx.putK_starve (c : Ctx) (n : BitVec 3) (k : Iter) : (c.putK n k).starve = c.starve := Ctx.logged_starve c _
@[simp] theorem Ctx.putK_avail (c : Ctx) (n : BitVec 3) (k : Iter) : (c.putK n k).avail = c.avail := Ctx.logged_avail c _
@[simp] theorem Ctx.putP_st (c : Ctx) (n : BitVec 4) (b : Bool) : (c.putP n b).st = c.st := Ctx.logged_st c _
@[simp] theorem Ctx.putP_launch (c : Ctx) (n : BitVec 4) (b : Bool) : (c.putP n b).launch = c.launch := Ctx.logged_launch c _
@[simp] theorem Ctx.putP_inst (c : Ctx) (n : BitVec 4) (b : Bool) : (c.putP n b).inst = c.inst := Ctx.logged_inst c _
@[simp] theorem Ctx.putP_icore (c : Ctx) (n : BitVec 4) (b : Bool) : (c.putP n b).icore = c.icore := Ctx.logged_icore c _
@[simp] theorem Ctx.putP_atLaunch (c : Ctx) (n : BitVec 4) (b : Bool) : (c.putP n b).atLaunch = c.atLaunch := Ctx.logged_atLaunch c _
@[simp] theorem Ctx.putP_priv (c : Ctx) (n : BitVec 4) (b : Bool) : (c.putP n b).priv = c.priv := Ctx.logged_priv c _
@[simp] theorem Ctx.putP_queues (c : Ctx) (n : BitVec 4) (b : Bool) : (c.putP n b).queues = c.queues := Ctx.logged_queues c _
@[simp] theorem Ctx.putP_sq (c : Ctx) (n : BitVec 4) (b : Bool) : (c.putP n b).sq = c.sq := Ctx.logged_sq c _
@[simp] theorem Ctx.putP_fl (c : Ctx) (n : BitVec 4) (b : Bool) : (c.putP n b).fl = c.fl := Ctx.logged_fl c _
@[simp] theorem Ctx.putP_key (c : Ctx) (n : BitVec 4) (b : Bool) : (c.putP n b).key = c.key := Ctx.logged_key c _
@[simp] theorem Ctx.putP_ctr (c : Ctx) (n : BitVec 4) (b : Bool) : (c.putP n b).ctr = c.ctr := Ctx.logged_ctr c _
@[simp] theorem Ctx.putP_rounds (c : Ctx) (n : BitVec 4) (b : Bool) : (c.putP n b).rounds = c.rounds := Ctx.logged_rounds c _
@[simp] theorem Ctx.putP_fsat (c : Ctx) (n : BitVec 4) (b : Bool) : (c.putP n b).fsat = c.fsat := Ctx.logged_fsat c _
@[simp] theorem Ctx.putP_accsat (c : Ctx) (n : BitVec 4) (b : Bool) : (c.putP n b).accsat = c.accsat := Ctx.logged_accsat c _
@[simp] theorem Ctx.putP_frame (c : Ctx) (n : BitVec 4) (b : Bool) : (c.putP n b).frame = c.frame := Ctx.logged_frame c _
@[simp] theorem Ctx.putP_wait (c : Ctx) (n : BitVec 4) (b : Bool) : (c.putP n b).wait = c.wait := Ctx.logged_wait c _
@[simp] theorem Ctx.putP_more (c : Ctx) (n : BitVec 4) (b : Bool) : (c.putP n b).more = c.more := Ctx.logged_more c _
@[simp] theorem Ctx.putP_nextIssue (c : Ctx) (n : BitVec 4) (b : Bool) : (c.putP n b).nextIssue = c.nextIssue := Ctx.logged_nextIssue c _
@[simp] theorem Ctx.putP_starve (c : Ctx) (n : BitVec 4) (b : Bool) : (c.putP n b).starve = c.starve := Ctx.logged_starve c _
@[simp] theorem Ctx.putP_avail (c : Ctx) (n : BitVec 4) (b : Bool) : (c.putP n b).avail = c.avail := Ctx.logged_avail c _
@[simp] theorem Ctx.putM_st (c : Ctx) (n : Nat) (r : TReg 128) : (c.putM n r).st = c.st := Ctx.logged_st c _
@[simp] theorem Ctx.putM_launch (c : Ctx) (n : Nat) (r : TReg 128) : (c.putM n r).launch = c.launch := Ctx.logged_launch c _
@[simp] theorem Ctx.putM_inst (c : Ctx) (n : Nat) (r : TReg 128) : (c.putM n r).inst = c.inst := Ctx.logged_inst c _
@[simp] theorem Ctx.putM_icore (c : Ctx) (n : Nat) (r : TReg 128) : (c.putM n r).icore = c.icore := Ctx.logged_icore c _
@[simp] theorem Ctx.putM_atLaunch (c : Ctx) (n : Nat) (r : TReg 128) : (c.putM n r).atLaunch = c.atLaunch := Ctx.logged_atLaunch c _
@[simp] theorem Ctx.putM_priv (c : Ctx) (n : Nat) (r : TReg 128) : (c.putM n r).priv = c.priv := Ctx.logged_priv c _
@[simp] theorem Ctx.putM_queues (c : Ctx) (n : Nat) (r : TReg 128) : (c.putM n r).queues = c.queues := Ctx.logged_queues c _
@[simp] theorem Ctx.putM_sq (c : Ctx) (n : Nat) (r : TReg 128) : (c.putM n r).sq = c.sq := Ctx.logged_sq c _
@[simp] theorem Ctx.putM_fl (c : Ctx) (n : Nat) (r : TReg 128) : (c.putM n r).fl = c.fl := Ctx.logged_fl c _
@[simp] theorem Ctx.putM_key (c : Ctx) (n : Nat) (r : TReg 128) : (c.putM n r).key = c.key := Ctx.logged_key c _
@[simp] theorem Ctx.putM_ctr (c : Ctx) (n : Nat) (r : TReg 128) : (c.putM n r).ctr = c.ctr := Ctx.logged_ctr c _
@[simp] theorem Ctx.putM_rounds (c : Ctx) (n : Nat) (r : TReg 128) : (c.putM n r).rounds = c.rounds := Ctx.logged_rounds c _
@[simp] theorem Ctx.putM_fsat (c : Ctx) (n : Nat) (r : TReg 128) : (c.putM n r).fsat = c.fsat := Ctx.logged_fsat c _
@[simp] theorem Ctx.putM_accsat (c : Ctx) (n : Nat) (r : TReg 128) : (c.putM n r).accsat = c.accsat := Ctx.logged_accsat c _
@[simp] theorem Ctx.putM_frame (c : Ctx) (n : Nat) (r : TReg 128) : (c.putM n r).frame = c.frame := Ctx.logged_frame c _
@[simp] theorem Ctx.putM_wait (c : Ctx) (n : Nat) (r : TReg 128) : (c.putM n r).wait = c.wait := Ctx.logged_wait c _
@[simp] theorem Ctx.putM_more (c : Ctx) (n : Nat) (r : TReg 128) : (c.putM n r).more = c.more := Ctx.logged_more c _
@[simp] theorem Ctx.putM_nextIssue (c : Ctx) (n : Nat) (r : TReg 128) : (c.putM n r).nextIssue = c.nextIssue := Ctx.logged_nextIssue c _
@[simp] theorem Ctx.putM_starve (c : Ctx) (n : Nat) (r : TReg 128) : (c.putM n r).starve = c.starve := Ctx.logged_starve c _
@[simp] theorem Ctx.putM_avail (c : Ctx) (n : Nat) (r : TReg 128) : (c.putM n r).avail = c.avail := Ctx.logged_avail c _
@[simp] theorem Ctx.putT_st (c : Ctx) (n : Nat) (r : TReg 8192) : (c.putT n r).st = c.st := Ctx.logged_st c _
@[simp] theorem Ctx.putT_launch (c : Ctx) (n : Nat) (r : TReg 8192) : (c.putT n r).launch = c.launch := Ctx.logged_launch c _
@[simp] theorem Ctx.putT_inst (c : Ctx) (n : Nat) (r : TReg 8192) : (c.putT n r).inst = c.inst := Ctx.logged_inst c _
@[simp] theorem Ctx.putT_icore (c : Ctx) (n : Nat) (r : TReg 8192) : (c.putT n r).icore = c.icore := Ctx.logged_icore c _
@[simp] theorem Ctx.putT_atLaunch (c : Ctx) (n : Nat) (r : TReg 8192) : (c.putT n r).atLaunch = c.atLaunch := Ctx.logged_atLaunch c _
@[simp] theorem Ctx.putT_priv (c : Ctx) (n : Nat) (r : TReg 8192) : (c.putT n r).priv = c.priv := Ctx.logged_priv c _
@[simp] theorem Ctx.putT_queues (c : Ctx) (n : Nat) (r : TReg 8192) : (c.putT n r).queues = c.queues := Ctx.logged_queues c _
@[simp] theorem Ctx.putT_sq (c : Ctx) (n : Nat) (r : TReg 8192) : (c.putT n r).sq = c.sq := Ctx.logged_sq c _
@[simp] theorem Ctx.putT_fl (c : Ctx) (n : Nat) (r : TReg 8192) : (c.putT n r).fl = c.fl := Ctx.logged_fl c _
@[simp] theorem Ctx.putT_key (c : Ctx) (n : Nat) (r : TReg 8192) : (c.putT n r).key = c.key := Ctx.logged_key c _
@[simp] theorem Ctx.putT_ctr (c : Ctx) (n : Nat) (r : TReg 8192) : (c.putT n r).ctr = c.ctr := Ctx.logged_ctr c _
@[simp] theorem Ctx.putT_rounds (c : Ctx) (n : Nat) (r : TReg 8192) : (c.putT n r).rounds = c.rounds := Ctx.logged_rounds c _
@[simp] theorem Ctx.putT_fsat (c : Ctx) (n : Nat) (r : TReg 8192) : (c.putT n r).fsat = c.fsat := Ctx.logged_fsat c _
@[simp] theorem Ctx.putT_accsat (c : Ctx) (n : Nat) (r : TReg 8192) : (c.putT n r).accsat = c.accsat := Ctx.logged_accsat c _
@[simp] theorem Ctx.putT_frame (c : Ctx) (n : Nat) (r : TReg 8192) : (c.putT n r).frame = c.frame := Ctx.logged_frame c _
@[simp] theorem Ctx.putT_wait (c : Ctx) (n : Nat) (r : TReg 8192) : (c.putT n r).wait = c.wait := Ctx.logged_wait c _
@[simp] theorem Ctx.putT_more (c : Ctx) (n : Nat) (r : TReg 8192) : (c.putT n r).more = c.more := Ctx.logged_more c _
@[simp] theorem Ctx.putT_nextIssue (c : Ctx) (n : Nat) (r : TReg 8192) : (c.putT n r).nextIssue = c.nextIssue := Ctx.logged_nextIssue c _
@[simp] theorem Ctx.putT_starve (c : Ctx) (n : Nat) (r : TReg 8192) : (c.putT n r).starve = c.starve := Ctx.logged_starve c _
@[simp] theorem Ctx.putT_avail (c : Ctx) (n : Nat) (r : TReg 8192) : (c.putT n r).avail = c.avail := Ctx.logged_avail c _
@[simp] theorem Ctx.putL_st (c : Ctx) (l : VW) (n : BitVec 5) (r : TReg 1024) : (c.putL l n r).st = c.st := by
  cases l <;> exact Ctx.logged_st c _
@[simp] theorem Ctx.putL_launch (c : Ctx) (l : VW) (n : BitVec 5) (r : TReg 1024) : (c.putL l n r).launch = c.launch := by
  cases l <;> exact Ctx.logged_launch c _
@[simp] theorem Ctx.putL_inst (c : Ctx) (l : VW) (n : BitVec 5) (r : TReg 1024) : (c.putL l n r).inst = c.inst := by
  cases l <;> exact Ctx.logged_inst c _
@[simp] theorem Ctx.putL_icore (c : Ctx) (l : VW) (n : BitVec 5) (r : TReg 1024) : (c.putL l n r).icore = c.icore := by
  cases l <;> exact Ctx.logged_icore c _
@[simp] theorem Ctx.putL_atLaunch (c : Ctx) (l : VW) (n : BitVec 5) (r : TReg 1024) : (c.putL l n r).atLaunch = c.atLaunch := by
  cases l <;> exact Ctx.logged_atLaunch c _
@[simp] theorem Ctx.putL_priv (c : Ctx) (l : VW) (n : BitVec 5) (r : TReg 1024) : (c.putL l n r).priv = c.priv := by
  cases l <;> exact Ctx.logged_priv c _
@[simp] theorem Ctx.putL_queues (c : Ctx) (l : VW) (n : BitVec 5) (r : TReg 1024) : (c.putL l n r).queues = c.queues := by
  cases l <;> exact Ctx.logged_queues c _
@[simp] theorem Ctx.putL_sq (c : Ctx) (l : VW) (n : BitVec 5) (r : TReg 1024) : (c.putL l n r).sq = c.sq := by
  cases l <;> exact Ctx.logged_sq c _
@[simp] theorem Ctx.putL_fl (c : Ctx) (l : VW) (n : BitVec 5) (r : TReg 1024) : (c.putL l n r).fl = c.fl := by
  cases l <;> exact Ctx.logged_fl c _
@[simp] theorem Ctx.putL_key (c : Ctx) (l : VW) (n : BitVec 5) (r : TReg 1024) : (c.putL l n r).key = c.key := by
  cases l <;> exact Ctx.logged_key c _
@[simp] theorem Ctx.putL_ctr (c : Ctx) (l : VW) (n : BitVec 5) (r : TReg 1024) : (c.putL l n r).ctr = c.ctr := by
  cases l <;> exact Ctx.logged_ctr c _
@[simp] theorem Ctx.putL_rounds (c : Ctx) (l : VW) (n : BitVec 5) (r : TReg 1024) : (c.putL l n r).rounds = c.rounds := by
  cases l <;> exact Ctx.logged_rounds c _
@[simp] theorem Ctx.putL_fsat (c : Ctx) (l : VW) (n : BitVec 5) (r : TReg 1024) : (c.putL l n r).fsat = c.fsat := by
  cases l <;> exact Ctx.logged_fsat c _
@[simp] theorem Ctx.putL_accsat (c : Ctx) (l : VW) (n : BitVec 5) (r : TReg 1024) : (c.putL l n r).accsat = c.accsat := by
  cases l <;> exact Ctx.logged_accsat c _
@[simp] theorem Ctx.putL_frame (c : Ctx) (l : VW) (n : BitVec 5) (r : TReg 1024) : (c.putL l n r).frame = c.frame := by
  cases l <;> exact Ctx.logged_frame c _
@[simp] theorem Ctx.putL_wait (c : Ctx) (l : VW) (n : BitVec 5) (r : TReg 1024) : (c.putL l n r).wait = c.wait := by
  cases l <;> exact Ctx.logged_wait c _
@[simp] theorem Ctx.putL_more (c : Ctx) (l : VW) (n : BitVec 5) (r : TReg 1024) : (c.putL l n r).more = c.more := by
  cases l <;> exact Ctx.logged_more c _
@[simp] theorem Ctx.putL_nextIssue (c : Ctx) (l : VW) (n : BitVec 5) (r : TReg 1024) : (c.putL l n r).nextIssue = c.nextIssue := by
  cases l <;> exact Ctx.logged_nextIssue c _
@[simp] theorem Ctx.putL_starve (c : Ctx) (l : VW) (n : BitVec 5) (r : TReg 1024) : (c.putL l n r).starve = c.starve := by
  cases l <;> exact Ctx.logged_starve c _
@[simp] theorem Ctx.putL_avail (c : Ctx) (l : VW) (n : BitVec 5) (r : TReg 1024) : (c.putL l n r).avail = c.avail := by
  cases l <;> exact Ctx.logged_avail c _

/-! ### Waits -/

@[simp] theorem Ctx.waits_st (c : Ctx) (w : Wait) : (c.waits w).st = c.st := by
  unfold Ctx.waits; split <;> rfl
@[simp] theorem Ctx.waits_launch (c : Ctx) (w : Wait) : (c.waits w).launch = c.launch := by
  unfold Ctx.waits; split <;> rfl
@[simp] theorem Ctx.waits_inst (c : Ctx) (w : Wait) : (c.waits w).inst = c.inst := by
  unfold Ctx.waits; split <;> rfl
@[simp] theorem Ctx.waits_icore (c : Ctx) (w : Wait) : (c.waits w).icore = c.icore := by
  unfold Ctx.waits; split <;> rfl
@[simp] theorem Ctx.waits_atLaunch (c : Ctx) (w : Wait) : (c.waits w).atLaunch = c.atLaunch := by
  unfold Ctx.waits; split <;> rfl
@[simp] theorem Ctx.waits_priv (c : Ctx) (w : Wait) : (c.waits w).priv = c.priv := by
  unfold Ctx.waits; split <;> rfl
@[simp] theorem Ctx.waits_files (c : Ctx) (w : Wait) : (c.waits w).files = c.files := by
  unfold Ctx.waits; split <;> rfl
@[simp] theorem Ctx.waits_queues (c : Ctx) (w : Wait) : (c.waits w).queues = c.queues := by
  unfold Ctx.waits; split <;> rfl
@[simp] theorem Ctx.waits_sq (c : Ctx) (w : Wait) : (c.waits w).sq = c.sq := by
  unfold Ctx.waits; split <;> rfl
@[simp] theorem Ctx.waits_seg (c : Ctx) (w : Wait) : (c.waits w).seg = c.seg := by
  unfold Ctx.waits; split <;> rfl
@[simp] theorem Ctx.waits_fl (c : Ctx) (w : Wait) : (c.waits w).fl = c.fl := by
  unfold Ctx.waits; split <;> rfl
@[simp] theorem Ctx.waits_key (c : Ctx) (w : Wait) : (c.waits w).key = c.key := by
  unfold Ctx.waits; split <;> rfl
@[simp] theorem Ctx.waits_ctr (c : Ctx) (w : Wait) : (c.waits w).ctr = c.ctr := by
  unfold Ctx.waits; split <;> rfl
@[simp] theorem Ctx.waits_rounds (c : Ctx) (w : Wait) : (c.waits w).rounds = c.rounds := by
  unfold Ctx.waits; split <;> rfl
@[simp] theorem Ctx.waits_fsat (c : Ctx) (w : Wait) : (c.waits w).fsat = c.fsat := by
  unfold Ctx.waits; split <;> rfl
@[simp] theorem Ctx.waits_accsat (c : Ctx) (w : Wait) : (c.waits w).accsat = c.accsat := by
  unfold Ctx.waits; split <;> rfl
@[simp] theorem Ctx.waits_frame (c : Ctx) (w : Wait) : (c.waits w).frame = c.frame := by
  unfold Ctx.waits; split <;> rfl
@[simp] theorem Ctx.waits_nextIssue (c : Ctx) (w : Wait) : (c.waits w).nextIssue = c.nextIssue := by
  unfold Ctx.waits; split <;> rfl
@[simp] theorem Ctx.waits_starve (c : Ctx) (w : Wait) : (c.waits w).starve = c.starve := by
  unfold Ctx.waits; split <;> rfl
@[simp] theorem Ctx.waits_avail (c : Ctx) (w : Wait) : (c.waits w).avail = c.avail := by
  unfold Ctx.waits; split <;> rfl
@[simp] theorem Ctx.nextWait_st (c : Ctx) : (c.nextWait).st = c.st := rfl
@[simp] theorem Ctx.nextWait_launch (c : Ctx) : (c.nextWait).launch = c.launch := rfl
@[simp] theorem Ctx.nextWait_inst (c : Ctx) : (c.nextWait).inst = c.inst := rfl
@[simp] theorem Ctx.nextWait_icore (c : Ctx) : (c.nextWait).icore = c.icore := rfl
@[simp] theorem Ctx.nextWait_atLaunch (c : Ctx) : (c.nextWait).atLaunch = c.atLaunch := rfl
@[simp] theorem Ctx.nextWait_priv (c : Ctx) : (c.nextWait).priv = c.priv := rfl
@[simp] theorem Ctx.nextWait_files (c : Ctx) : (c.nextWait).files = c.files := rfl
@[simp] theorem Ctx.nextWait_queues (c : Ctx) : (c.nextWait).queues = c.queues := rfl
@[simp] theorem Ctx.nextWait_sq (c : Ctx) : (c.nextWait).sq = c.sq := rfl
@[simp] theorem Ctx.nextWait_seg (c : Ctx) : (c.nextWait).seg = c.seg := rfl
@[simp] theorem Ctx.nextWait_fl (c : Ctx) : (c.nextWait).fl = c.fl := rfl
@[simp] theorem Ctx.nextWait_key (c : Ctx) : (c.nextWait).key = c.key := rfl
@[simp] theorem Ctx.nextWait_ctr (c : Ctx) : (c.nextWait).ctr = c.ctr := rfl
@[simp] theorem Ctx.nextWait_rounds (c : Ctx) : (c.nextWait).rounds = c.rounds := rfl
@[simp] theorem Ctx.nextWait_fsat (c : Ctx) : (c.nextWait).fsat = c.fsat := rfl
@[simp] theorem Ctx.nextWait_accsat (c : Ctx) : (c.nextWait).accsat = c.accsat := rfl
@[simp] theorem Ctx.nextWait_frame (c : Ctx) : (c.nextWait).frame = c.frame := rfl
@[simp] theorem Ctx.nextWait_nextIssue (c : Ctx) : (c.nextWait).nextIssue = c.nextIssue := rfl
@[simp] theorem Ctx.nextWait_starve (c : Ctx) : (c.nextWait).starve = c.starve := rfl
@[simp] theorem Ctx.nextWait_avail (c : Ctx) : (c.nextWait).avail = c.avail := rfl
@[simp] theorem Ctx.lessWait_st (c : Ctx) (w : Wait) : (c.lessWait w).st = c.st := by
  unfold Ctx.lessWait; split <;> rfl
@[simp] theorem Ctx.lessWait_launch (c : Ctx) (w : Wait) : (c.lessWait w).launch = c.launch := by
  unfold Ctx.lessWait; split <;> rfl
@[simp] theorem Ctx.lessWait_inst (c : Ctx) (w : Wait) : (c.lessWait w).inst = c.inst := by
  unfold Ctx.lessWait; split <;> rfl
@[simp] theorem Ctx.lessWait_icore (c : Ctx) (w : Wait) : (c.lessWait w).icore = c.icore := by
  unfold Ctx.lessWait; split <;> rfl
@[simp] theorem Ctx.lessWait_atLaunch (c : Ctx) (w : Wait) : (c.lessWait w).atLaunch = c.atLaunch := by
  unfold Ctx.lessWait; split <;> rfl
@[simp] theorem Ctx.lessWait_priv (c : Ctx) (w : Wait) : (c.lessWait w).priv = c.priv := by
  unfold Ctx.lessWait; split <;> rfl
@[simp] theorem Ctx.lessWait_files (c : Ctx) (w : Wait) : (c.lessWait w).files = c.files := by
  unfold Ctx.lessWait; split <;> rfl
@[simp] theorem Ctx.lessWait_queues (c : Ctx) (w : Wait) : (c.lessWait w).queues = c.queues := by
  unfold Ctx.lessWait; split <;> rfl
@[simp] theorem Ctx.lessWait_sq (c : Ctx) (w : Wait) : (c.lessWait w).sq = c.sq := by
  unfold Ctx.lessWait; split <;> rfl
@[simp] theorem Ctx.lessWait_seg (c : Ctx) (w : Wait) : (c.lessWait w).seg = c.seg := by
  unfold Ctx.lessWait; split <;> rfl
@[simp] theorem Ctx.lessWait_fl (c : Ctx) (w : Wait) : (c.lessWait w).fl = c.fl := by
  unfold Ctx.lessWait; split <;> rfl
@[simp] theorem Ctx.lessWait_key (c : Ctx) (w : Wait) : (c.lessWait w).key = c.key := by
  unfold Ctx.lessWait; split <;> rfl
@[simp] theorem Ctx.lessWait_ctr (c : Ctx) (w : Wait) : (c.lessWait w).ctr = c.ctr := by
  unfold Ctx.lessWait; split <;> rfl
@[simp] theorem Ctx.lessWait_rounds (c : Ctx) (w : Wait) : (c.lessWait w).rounds = c.rounds := by
  unfold Ctx.lessWait; split <;> rfl
@[simp] theorem Ctx.lessWait_fsat (c : Ctx) (w : Wait) : (c.lessWait w).fsat = c.fsat := by
  unfold Ctx.lessWait; split <;> rfl
@[simp] theorem Ctx.lessWait_accsat (c : Ctx) (w : Wait) : (c.lessWait w).accsat = c.accsat := by
  unfold Ctx.lessWait; split <;> rfl
@[simp] theorem Ctx.lessWait_frame (c : Ctx) (w : Wait) : (c.lessWait w).frame = c.frame := by
  unfold Ctx.lessWait; split <;> rfl
@[simp] theorem Ctx.lessWait_nextIssue (c : Ctx) (w : Wait) : (c.lessWait w).nextIssue = c.nextIssue := by
  unfold Ctx.lessWait; split <;> rfl
@[simp] theorem Ctx.lessWait_starve (c : Ctx) (w : Wait) : (c.lessWait w).starve = c.starve := by
  unfold Ctx.lessWait; split <;> rfl
@[simp] theorem Ctx.lessWait_avail (c : Ctx) (w : Wait) : (c.lessWait w).avail = c.avail := by
  unfold Ctx.lessWait; split <;> rfl
/-- A context that waits for nothing waits for what it begins to wait for alone, and the end of that is the end of its wait. -/
theorem Ctx.waits_none {c : Ctx} (h : c.wait = .none) (w : Wait) : c.waits w = { c with wait := w } := if_pos h
theorem Ctx.nextWait_wait {c : Ctx} (h : c.more = []) : c.nextWait.wait = .none := by unfold Ctx.nextWait; rw [h]; rfl
theorem Ctx.lessWait_self {c : Ctx} : c.lessWait c.wait = c.nextWait := if_pos rfl

/-! ### A register reads as it was last written, and every other as before -/

@[simp] theorem Ctx.putC_files_a (c : Ctx) (n : Nat) (v : W32) : (c.putC n v).files.a = c.files.a := by
  unfold Ctx.putC; simp only [Ctx.logged_files]
@[simp] theorem Ctx.putC_files_s (c : Ctx) (n : Nat) (v : W32) : (c.putC n v).files.s = c.files.s := by
  unfold Ctx.putC; simp only [Ctx.logged_files]
@[simp] theorem Ctx.putC_files_e (c : Ctx) (n : Nat) (v : W32) : (c.putC n v).files.e = c.files.e := by
  unfold Ctx.putC; simp only [Ctx.logged_files]
@[simp] theorem Ctx.putC_files_x (c : Ctx) (n : Nat) (v : W32) : (c.putC n v).files.x = c.files.x := by
  unfold Ctx.putC; simp only [Ctx.logged_files]
@[simp] theorem Ctx.putC_files_p (c : Ctx) (n : Nat) (v : W32) : (c.putC n v).files.p = c.files.p := by
  unfold Ctx.putC; simp only [Ctx.logged_files]
@[simp] theorem Ctx.putC_files_v (c : Ctx) (n : Nat) (v : W32) : (c.putC n v).files.v = c.files.v := by
  unfold Ctx.putC; simp only [Ctx.logged_files]
@[simp] theorem Ctx.putC_files_w (c : Ctx) (n : Nat) (v : W32) : (c.putC n v).files.w = c.files.w := by
  unfold Ctx.putC; simp only [Ctx.logged_files]
@[simp] theorem Ctx.putC_files_m (c : Ctx) (n : Nat) (v : W32) : (c.putC n v).files.m = c.files.m := by
  unfold Ctx.putC; simp only [Ctx.logged_files]
@[simp] theorem Ctx.putC_files_t (c : Ctx) (n : Nat) (v : W32) : (c.putC n v).files.t = c.files.t := by
  unfold Ctx.putC; simp only [Ctx.logged_files]
@[simp] theorem Ctx.putC_files_k (c : Ctx) (n : Nat) (v : W32) : (c.putC n v).files.k = c.files.k := by
  unfold Ctx.putC; simp only [Ctx.logged_files]
@[simp] theorem Ctx.putA_files_c (c : Ctx) (n : BitVec 5) (v : W64) : (c.putA n v).files.c = c.files.c := by
  unfold Ctx.putA; simp only [Ctx.logged_files]
@[simp] theorem Ctx.putA_files_s (c : Ctx) (n : BitVec 5) (v : W64) : (c.putA n v).files.s = c.files.s := by
  unfold Ctx.putA; simp only [Ctx.logged_files]
@[simp] theorem Ctx.putA_files_e (c : Ctx) (n : BitVec 5) (v : W64) : (c.putA n v).files.e = c.files.e := by
  unfold Ctx.putA; simp only [Ctx.logged_files]
@[simp] theorem Ctx.putA_files_x (c : Ctx) (n : BitVec 5) (v : W64) : (c.putA n v).files.x = c.files.x := by
  unfold Ctx.putA; simp only [Ctx.logged_files]
@[simp] theorem Ctx.putA_files_p (c : Ctx) (n : BitVec 5) (v : W64) : (c.putA n v).files.p = c.files.p := by
  unfold Ctx.putA; simp only [Ctx.logged_files]
@[simp] theorem Ctx.putA_files_v (c : Ctx) (n : BitVec 5) (v : W64) : (c.putA n v).files.v = c.files.v := by
  unfold Ctx.putA; simp only [Ctx.logged_files]
@[simp] theorem Ctx.putA_files_w (c : Ctx) (n : BitVec 5) (v : W64) : (c.putA n v).files.w = c.files.w := by
  unfold Ctx.putA; simp only [Ctx.logged_files]
@[simp] theorem Ctx.putA_files_m (c : Ctx) (n : BitVec 5) (v : W64) : (c.putA n v).files.m = c.files.m := by
  unfold Ctx.putA; simp only [Ctx.logged_files]
@[simp] theorem Ctx.putA_files_t (c : Ctx) (n : BitVec 5) (v : W64) : (c.putA n v).files.t = c.files.t := by
  unfold Ctx.putA; simp only [Ctx.logged_files]
@[simp] theorem Ctx.putA_files_k (c : Ctx) (n : BitVec 5) (v : W64) : (c.putA n v).files.k = c.files.k := by
  unfold Ctx.putA; simp only [Ctx.logged_files]
@[simp] theorem Ctx.putE_files_c (c : Ctx) (n : BitVec 5) (v : W64) : (c.putE n v).files.c = c.files.c := by
  unfold Ctx.putE; simp only [Ctx.logged_files]
@[simp] theorem Ctx.putE_files_a (c : Ctx) (n : BitVec 5) (v : W64) : (c.putE n v).files.a = c.files.a := by
  unfold Ctx.putE; simp only [Ctx.logged_files]
@[simp] theorem Ctx.putE_files_s (c : Ctx) (n : BitVec 5) (v : W64) : (c.putE n v).files.s = c.files.s := by
  unfold Ctx.putE; simp only [Ctx.logged_files]
@[simp] theorem Ctx.putE_files_x (c : Ctx) (n : BitVec 5) (v : W64) : (c.putE n v).files.x = c.files.x := by
  unfold Ctx.putE; simp only [Ctx.logged_files]
@[simp] theorem Ctx.putE_files_p (c : Ctx) (n : BitVec 5) (v : W64) : (c.putE n v).files.p = c.files.p := by
  unfold Ctx.putE; simp only [Ctx.logged_files]
@[simp] theorem Ctx.putE_files_v (c : Ctx) (n : BitVec 5) (v : W64) : (c.putE n v).files.v = c.files.v := by
  unfold Ctx.putE; simp only [Ctx.logged_files]
@[simp] theorem Ctx.putE_files_w (c : Ctx) (n : BitVec 5) (v : W64) : (c.putE n v).files.w = c.files.w := by
  unfold Ctx.putE; simp only [Ctx.logged_files]
@[simp] theorem Ctx.putE_files_m (c : Ctx) (n : BitVec 5) (v : W64) : (c.putE n v).files.m = c.files.m := by
  unfold Ctx.putE; simp only [Ctx.logged_files]
@[simp] theorem Ctx.putE_files_t (c : Ctx) (n : BitVec 5) (v : W64) : (c.putE n v).files.t = c.files.t := by
  unfold Ctx.putE; simp only [Ctx.logged_files]
@[simp] theorem Ctx.putE_files_k (c : Ctx) (n : BitVec 5) (v : W64) : (c.putE n v).files.k = c.files.k := by
  unfold Ctx.putE; simp only [Ctx.logged_files]
@[simp] theorem Ctx.putX_files_c (c : Ctx) (n : BitVec 5) (v : W64) : (c.putX n v).files.c = c.files.c := by
  unfold Ctx.putX; simp only [Ctx.logged_files]
@[simp] theorem Ctx.putX_files_a (c : Ctx) (n : BitVec 5) (v : W64) : (c.putX n v).files.a = c.files.a := by
  unfold Ctx.putX; simp only [Ctx.logged_files]
@[simp] theorem Ctx.putX_files_s (c : Ctx) (n : BitVec 5) (v : W64) : (c.putX n v).files.s = c.files.s := by
  unfold Ctx.putX; simp only [Ctx.logged_files]
@[simp] theorem Ctx.putX_files_e (c : Ctx) (n : BitVec 5) (v : W64) : (c.putX n v).files.e = c.files.e := by
  unfold Ctx.putX; simp only [Ctx.logged_files]
@[simp] theorem Ctx.putX_files_p (c : Ctx) (n : BitVec 5) (v : W64) : (c.putX n v).files.p = c.files.p := by
  unfold Ctx.putX; simp only [Ctx.logged_files]
@[simp] theorem Ctx.putX_files_v (c : Ctx) (n : BitVec 5) (v : W64) : (c.putX n v).files.v = c.files.v := by
  unfold Ctx.putX; simp only [Ctx.logged_files]
@[simp] theorem Ctx.putX_files_w (c : Ctx) (n : BitVec 5) (v : W64) : (c.putX n v).files.w = c.files.w := by
  unfold Ctx.putX; simp only [Ctx.logged_files]
@[simp] theorem Ctx.putX_files_m (c : Ctx) (n : BitVec 5) (v : W64) : (c.putX n v).files.m = c.files.m := by
  unfold Ctx.putX; simp only [Ctx.logged_files]
@[simp] theorem Ctx.putX_files_t (c : Ctx) (n : BitVec 5) (v : W64) : (c.putX n v).files.t = c.files.t := by
  unfold Ctx.putX; simp only [Ctx.logged_files]
@[simp] theorem Ctx.putX_files_k (c : Ctx) (n : BitVec 5) (v : W64) : (c.putX n v).files.k = c.files.k := by
  unfold Ctx.putX; simp only [Ctx.logged_files]
@[simp] theorem Ctx.putS_files_c (c : Ctx) (n : BitVec 5) (v : W64) : (c.putS n v).files.c = c.files.c := by
  unfold Ctx.putS; simp only [Ctx.logged_files]
@[simp] theorem Ctx.putS_files_a (c : Ctx) (n : BitVec 5) (v : W64) : (c.putS n v).files.a = c.files.a := by
  unfold Ctx.putS; simp only [Ctx.logged_files]
@[simp] theorem Ctx.putS_files_e (c : Ctx) (n : BitVec 5) (v : W64) : (c.putS n v).files.e = c.files.e := by
  unfold Ctx.putS; simp only [Ctx.logged_files]
@[simp] theorem Ctx.putS_files_x (c : Ctx) (n : BitVec 5) (v : W64) : (c.putS n v).files.x = c.files.x := by
  unfold Ctx.putS; simp only [Ctx.logged_files]
@[simp] theorem Ctx.putS_files_p (c : Ctx) (n : BitVec 5) (v : W64) : (c.putS n v).files.p = c.files.p := by
  unfold Ctx.putS; simp only [Ctx.logged_files]
@[simp] theorem Ctx.putS_files_v (c : Ctx) (n : BitVec 5) (v : W64) : (c.putS n v).files.v = c.files.v := by
  unfold Ctx.putS; simp only [Ctx.logged_files]
@[simp] theorem Ctx.putS_files_w (c : Ctx) (n : BitVec 5) (v : W64) : (c.putS n v).files.w = c.files.w := by
  unfold Ctx.putS; simp only [Ctx.logged_files]
@[simp] theorem Ctx.putS_files_m (c : Ctx) (n : BitVec 5) (v : W64) : (c.putS n v).files.m = c.files.m := by
  unfold Ctx.putS; simp only [Ctx.logged_files]
@[simp] theorem Ctx.putS_files_t (c : Ctx) (n : BitVec 5) (v : W64) : (c.putS n v).files.t = c.files.t := by
  unfold Ctx.putS; simp only [Ctx.logged_files]
@[simp] theorem Ctx.putS_files_k (c : Ctx) (n : BitVec 5) (v : W64) : (c.putS n v).files.k = c.files.k := by
  unfold Ctx.putS; simp only [Ctx.logged_files]
@[simp] theorem Ctx.putK_files_c (c : Ctx) (n : BitVec 3) (k : Iter) : (c.putK n k).files.c = c.files.c := by
  unfold Ctx.putK; simp only [Ctx.logged_files]
@[simp] theorem Ctx.putK_files_a (c : Ctx) (n : BitVec 3) (k : Iter) : (c.putK n k).files.a = c.files.a := by
  unfold Ctx.putK; simp only [Ctx.logged_files]
@[simp] theorem Ctx.putK_files_s (c : Ctx) (n : BitVec 3) (k : Iter) : (c.putK n k).files.s = c.files.s := by
  unfold Ctx.putK; simp only [Ctx.logged_files]
@[simp] theorem Ctx.putK_files_e (c : Ctx) (n : BitVec 3) (k : Iter) : (c.putK n k).files.e = c.files.e := by
  unfold Ctx.putK; simp only [Ctx.logged_files]
@[simp] theorem Ctx.putK_files_x (c : Ctx) (n : BitVec 3) (k : Iter) : (c.putK n k).files.x = c.files.x := by
  unfold Ctx.putK; simp only [Ctx.logged_files]
@[simp] theorem Ctx.putK_files_p (c : Ctx) (n : BitVec 3) (k : Iter) : (c.putK n k).files.p = c.files.p := by
  unfold Ctx.putK; simp only [Ctx.logged_files]
@[simp] theorem Ctx.putK_files_v (c : Ctx) (n : BitVec 3) (k : Iter) : (c.putK n k).files.v = c.files.v := by
  unfold Ctx.putK; simp only [Ctx.logged_files]
@[simp] theorem Ctx.putK_files_w (c : Ctx) (n : BitVec 3) (k : Iter) : (c.putK n k).files.w = c.files.w := by
  unfold Ctx.putK; simp only [Ctx.logged_files]
@[simp] theorem Ctx.putK_files_m (c : Ctx) (n : BitVec 3) (k : Iter) : (c.putK n k).files.m = c.files.m := by
  unfold Ctx.putK; simp only [Ctx.logged_files]
@[simp] theorem Ctx.putK_files_t (c : Ctx) (n : BitVec 3) (k : Iter) : (c.putK n k).files.t = c.files.t := by
  unfold Ctx.putK; simp only [Ctx.logged_files]
@[simp] theorem Ctx.putP_files_c (c : Ctx) (n : BitVec 4) (b : Bool) : (c.putP n b).files.c = c.files.c := by
  unfold Ctx.putP; simp only [Ctx.logged_files]
@[simp] theorem Ctx.putP_files_a (c : Ctx) (n : BitVec 4) (b : Bool) : (c.putP n b).files.a = c.files.a := by
  unfold Ctx.putP; simp only [Ctx.logged_files]
@[simp] theorem Ctx.putP_files_s (c : Ctx) (n : BitVec 4) (b : Bool) : (c.putP n b).files.s = c.files.s := by
  unfold Ctx.putP; simp only [Ctx.logged_files]
@[simp] theorem Ctx.putP_files_e (c : Ctx) (n : BitVec 4) (b : Bool) : (c.putP n b).files.e = c.files.e := by
  unfold Ctx.putP; simp only [Ctx.logged_files]
@[simp] theorem Ctx.putP_files_x (c : Ctx) (n : BitVec 4) (b : Bool) : (c.putP n b).files.x = c.files.x := by
  unfold Ctx.putP; simp only [Ctx.logged_files]
@[simp] theorem Ctx.putP_files_v (c : Ctx) (n : BitVec 4) (b : Bool) : (c.putP n b).files.v = c.files.v := by
  unfold Ctx.putP; simp only [Ctx.logged_files]
@[simp] theorem Ctx.putP_files_w (c : Ctx) (n : BitVec 4) (b : Bool) : (c.putP n b).files.w = c.files.w := by
  unfold Ctx.putP; simp only [Ctx.logged_files]
@[simp] theorem Ctx.putP_files_m (c : Ctx) (n : BitVec 4) (b : Bool) : (c.putP n b).files.m = c.files.m := by
  unfold Ctx.putP; simp only [Ctx.logged_files]
@[simp] theorem Ctx.putP_files_t (c : Ctx) (n : BitVec 4) (b : Bool) : (c.putP n b).files.t = c.files.t := by
  unfold Ctx.putP; simp only [Ctx.logged_files]
@[simp] theorem Ctx.putP_files_k (c : Ctx) (n : BitVec 4) (b : Bool) : (c.putP n b).files.k = c.files.k := by
  unfold Ctx.putP; simp only [Ctx.logged_files]
@[simp] theorem Ctx.putM_files_c (c : Ctx) (n : Nat) (r : TReg 128) : (c.putM n r).files.c = c.files.c := by
  unfold Ctx.putM; simp only [Ctx.logged_files]
@[simp] theorem Ctx.putM_files_a (c : Ctx) (n : Nat) (r : TReg 128) : (c.putM n r).files.a = c.files.a := by
  unfold Ctx.putM; simp only [Ctx.logged_files]
@[simp] theorem Ctx.putM_files_s (c : Ctx) (n : Nat) (r : TReg 128) : (c.putM n r).files.s = c.files.s := by
  unfold Ctx.putM; simp only [Ctx.logged_files]
@[simp] theorem Ctx.putM_files_e (c : Ctx) (n : Nat) (r : TReg 128) : (c.putM n r).files.e = c.files.e := by
  unfold Ctx.putM; simp only [Ctx.logged_files]
@[simp] theorem Ctx.putM_files_x (c : Ctx) (n : Nat) (r : TReg 128) : (c.putM n r).files.x = c.files.x := by
  unfold Ctx.putM; simp only [Ctx.logged_files]
@[simp] theorem Ctx.putM_files_p (c : Ctx) (n : Nat) (r : TReg 128) : (c.putM n r).files.p = c.files.p := by
  unfold Ctx.putM; simp only [Ctx.logged_files]
@[simp] theorem Ctx.putM_files_v (c : Ctx) (n : Nat) (r : TReg 128) : (c.putM n r).files.v = c.files.v := by
  unfold Ctx.putM; simp only [Ctx.logged_files]
@[simp] theorem Ctx.putM_files_w (c : Ctx) (n : Nat) (r : TReg 128) : (c.putM n r).files.w = c.files.w := by
  unfold Ctx.putM; simp only [Ctx.logged_files]
@[simp] theorem Ctx.putM_files_t (c : Ctx) (n : Nat) (r : TReg 128) : (c.putM n r).files.t = c.files.t := by
  unfold Ctx.putM; simp only [Ctx.logged_files]
@[simp] theorem Ctx.putM_files_k (c : Ctx) (n : Nat) (r : TReg 128) : (c.putM n r).files.k = c.files.k := by
  unfold Ctx.putM; simp only [Ctx.logged_files]
@[simp] theorem Ctx.putT_files_c (c : Ctx) (n : Nat) (r : TReg 8192) : (c.putT n r).files.c = c.files.c := by
  unfold Ctx.putT; simp only [Ctx.logged_files]
@[simp] theorem Ctx.putT_files_a (c : Ctx) (n : Nat) (r : TReg 8192) : (c.putT n r).files.a = c.files.a := by
  unfold Ctx.putT; simp only [Ctx.logged_files]
@[simp] theorem Ctx.putT_files_s (c : Ctx) (n : Nat) (r : TReg 8192) : (c.putT n r).files.s = c.files.s := by
  unfold Ctx.putT; simp only [Ctx.logged_files]
@[simp] theorem Ctx.putT_files_e (c : Ctx) (n : Nat) (r : TReg 8192) : (c.putT n r).files.e = c.files.e := by
  unfold Ctx.putT; simp only [Ctx.logged_files]
@[simp] theorem Ctx.putT_files_x (c : Ctx) (n : Nat) (r : TReg 8192) : (c.putT n r).files.x = c.files.x := by
  unfold Ctx.putT; simp only [Ctx.logged_files]
@[simp] theorem Ctx.putT_files_p (c : Ctx) (n : Nat) (r : TReg 8192) : (c.putT n r).files.p = c.files.p := by
  unfold Ctx.putT; simp only [Ctx.logged_files]
@[simp] theorem Ctx.putT_files_v (c : Ctx) (n : Nat) (r : TReg 8192) : (c.putT n r).files.v = c.files.v := by
  unfold Ctx.putT; simp only [Ctx.logged_files]
@[simp] theorem Ctx.putT_files_w (c : Ctx) (n : Nat) (r : TReg 8192) : (c.putT n r).files.w = c.files.w := by
  unfold Ctx.putT; simp only [Ctx.logged_files]
@[simp] theorem Ctx.putT_files_m (c : Ctx) (n : Nat) (r : TReg 8192) : (c.putT n r).files.m = c.files.m := by
  unfold Ctx.putT; simp only [Ctx.logged_files]
@[simp] theorem Ctx.putT_files_k (c : Ctx) (n : Nat) (r : TReg 8192) : (c.putT n r).files.k = c.files.k := by
  unfold Ctx.putT; simp only [Ctx.logged_files]
@[simp] theorem Ctx.regC_putC (c : Ctx) (n j : Nat) (v : W32) : (c.putC n v).regC j = if n = j then ⟨true, v⟩ else c.regC j := by
  unfold Ctx.putC Ctx.regC; simp only [Ctx.logged_files, AMap.get_set]
@[simp] theorem Ctx.regA_putA (c : Ctx) (n : BitVec 5) (j : Nat) (v : W64) :
    (c.putA n v).regA j = if n.toNat = j then ⟨true, v⟩ else c.regA j := by
  unfold Ctx.putA Ctx.regA; simp only [Ctx.logged_files, AMap.get_set]
@[simp] theorem Ctx.regE_putE (c : Ctx) (n : BitVec 5) (j : Nat) (v : W64) :
    (c.putE n v).regE j = if n.toNat = j then ⟨true, v⟩ else c.regE j := by
  unfold Ctx.putE Ctx.regE; simp only [Ctx.logged_files, AMap.get_set]
@[simp] theorem Ctx.regX_putX (c : Ctx) (n : BitVec 5) (j : Nat) (v : W64) :
    (c.putX n v).regX j = if n.toNat = j then ⟨true, v⟩ else c.regX j := by
  unfold Ctx.putX Ctx.regX; simp only [Ctx.logged_files, AMap.get_set]
@[simp] theorem Ctx.regT_putT (c : Ctx) (n j : Nat) (r : TReg 8192) : (c.putT n r).regT j = if n = j then r else c.regT j := by
  unfold Ctx.putT Ctx.regT; simp only [Ctx.logged_files, AMap.get_set]
@[simp] theorem Ctx.iter_putK (c : Ctx) (n : BitVec 3) (j : Nat) (k : Iter) :
    (c.putK n k).iter j = if n.toNat = j then k else c.iter j := by
  unfold Ctx.putK Ctx.iter; simp only [Ctx.logged_files, AMap.get_set]
/-- The rotation is a permutation of 16 to 30, and keeps every other number (R108). -/
theorem physReg_inj {rb m n : Nat} (hm : m < 31) (hn : n < 31) (h : physReg rb m = physReg rb n) : m = n := by
  unfold physReg at h; split at h <;> split at h <;> omega
theorem Ctx.regS_putS (c : Ctx) (n : BitVec 5) (j : Nat) (v : W64) (hn : n.toNat < 31) (hj : j < 31) :
    (c.putS n v).regS j = if n.toNat = j then ⟨true, v⟩ else c.regS j := by
  unfold Ctx.putS Ctx.regS
  simp only [Ctx.logged_files, Ctx.logged_sq, AMap.get_set]
  by_cases h : n.toNat = j
  · rw [if_pos (by rw [h]), if_pos h]
  · rw [if_neg fun e => h (physReg_inj hn hj e), if_neg h]
theorem Ctx.regV_putL (c : Ctx) (n : BitVec 5) (j : Nat) (r : TReg 1024) (hn : n.toNat < 31) (hj : j < 31) :
    (c.putL .v n r).regV j = if n.toNat = j then r else c.regV j := by
  unfold Ctx.putL Ctx.regV
  simp only [Ctx.logged_files, Ctx.logged_sq, AMap.get_set]
  by_cases h : n.toNat = j
  · rw [if_pos (by rw [h]), if_pos h]
  · rw [if_neg fun e => h (physReg_inj hn hj e), if_neg h]
theorem Ctx.regW_putL (c : Ctx) (n : BitVec 5) (j : Nat) (r : TReg 1024) (hn : n.toNat < 31) (hj : j < 31) :
    (c.putL .w n r).regW j = if n.toNat = j then r else c.regW j := by
  unfold Ctx.putL Ctx.regW
  simp only [Ctx.logged_files, Ctx.logged_sq, AMap.get_set]
  by_cases h : n.toNat = j
  · rw [if_pos (by rw [h]), if_pos h]
  · rw [if_neg fun e => h (physReg_inj hn hj e), if_neg h]
/-- p0 reads as true, and m0 and m1 as all ones and none, whatever is written (R19, R147). -/
theorem Ctx.pred_zero (c : Ctx) : c.pred 0 = ⟨true, 1⟩ := rfl
theorem Ctx.mask_zero (c : Ctx) : c.mask 0 = ⟨true, 0, BitVec.allOnes 128, []⟩ := rfl
theorem Ctx.mask_one (c : Ctx) : c.mask 1 = ⟨true, 0, 0, []⟩ := rfl

end Sys2Proof.Machine
end

