-- ==== Sys2Proof/Laws/Operands.lean ====
section
/-!
SUPPORT. Sys2Proof/Laws/Operands.lean: one lemma for each operation that a slot is made of: what it answers where its
operands hold and the shadow log has room.
-/

namespace Sys2Proof.Machine

/-! ### The two monads -/

theorem CM.bind_of {α β : Type} {m : CM α} {f : α → CM β} {c c' : Ctx} {a : α} (h : m c = .ok (a, c')) :
    (m >>= f) c = f a c' := by
  simp [bind, StateT.bind, Except.bind, h]

theorem M.bind_of {α β : Type} {m : M α} {f : α → M β} {s s' : State} {a : α} (h : m s = .ok (a, s')) :
    (m >>= f) s = f a s' := by
  simp [bind, StateT.bind, Except.bind, h]

@[simp] theorem CM.pure_run {α : Type} (a : α) (c : Ctx) : (pure a : CM α) c = .ok (a, c) := rfl
@[simp] theorem M.pure_run {α : Type} (a : α) (s : State) : (pure a : M α) s = .ok (a, s) := rfl
@[simp] theorem CM.get_run (c : Ctx) : (get : CM Ctx) c = .ok (c, c) := rfl
@[simp] theorem M.get_run (s : State) : (get : M State) s = .ok (s, s) := rfl
@[simp] theorem CM.set_run (c d : Ctx) : (set d : CM PUnit) c = .ok ((), d) := rfl
@[simp] theorem CM.modify_run (f : Ctx → Ctx) (c : Ctx) : (modify f : CM PUnit) c = .ok ((), f c) := rfl
@[simp] theorem M.modify_run (f : State → State) (s : State) : (modify f : M PUnit) s = .ok ((), f s) := rfl
@[simp] theorem CM.bind_run {α β : Type} (m : CM α) (f : α → CM β) (c : Ctx) :
    (m >>= f) c = match m c with | .ok (a, c') => f a c' | .error e => .error e := by
  simp only [bind, StateT.bind, Except.bind]; cases m c <;> rfl
@[simp] theorem M.bind_run {α β : Type} (m : M α) (f : α → M β) (s : State) :
    (m >>= f) s = match m s with | .ok (a, s') => f a s' | .error e => .error e := by
  simp only [bind, StateT.bind, Except.bind]; cases m s <;> rfl

@[simp] theorem CM.ite_run {α : Type} (p : Prop) [Decidable p] (x y : CM α) (c : Ctx) :
    (if p then x else y) c = if p then x c else y c := by split <;> rfl
@[simp] theorem M.ite_run {α : Type} (p : Prop) [Decidable p] (x y : M α) (s : State) :
    (if p then x else y) s = if p then x s else y s := by split <;> rfl
@[simp] theorem CM.map_run {α β : Type} (f : α → β) (m : CM α) (c : Ctx) :
    (f <$> m) c = match m c with | .ok (a, c') => .ok (f a, c') | .error e => .error e := by
  simp only [Functor.map, StateT.map, bind, Except.bind, pure, Except.pure]; cases m c <;> rfl
@[simp] theorem M.map_run {α β : Type} (f : α → β) (m : M α) (s : State) :
    (f <$> m) s = match m s with | .ok (a, s') => .ok (f a, s') | .error e => .error e := by
  simp only [Functor.map, StateT.map, bind, Except.bind, pure, Except.pure]; cases m s <;> rfl

/-- A meaning over the context in issue that runs to its end changes that context alone. -/
theorem onCtx_next {s : State} {m : CM Unit} {c : Ctx} (h : m s.cur = .ok ((), c)) : onCtx s m = .next (s.setCur c) := by
  simp [onCtx, finish, liftC, h]

/-- A meaning over the machine that runs to its end. -/
theorem finish_next {s t : State} {m : M Unit} (h : m s = .ok ((), t)) : finish s m = .next t := by
  simp [finish, h]

theorem CM.need_true {cls sub : Nat} {b : Bool} (h : b = true) (c : Ctx) : CM.need b cls sub c = .ok ((), c) := by
  simp [CM.need, h]

theorem M.need_true {cls sub : Nat} {b : Bool} (h : b = true) (s : State) : M.need b cls sub s = .ok ((), s) := by
  simp [M.need, h]

/-- Outside a masked region no form of the C, S and J lanes traps for one (R214). -/
theorem noRegion_run {c : Ctx} (h : c.sq.region = none) : noRegion c = .ok ((), c) := by
  simp [noRegion, CM.need, h]

/-! ### Reads -/

theorem Reg.read_run {w : Nat} {r : Reg w} {v : BitVec w} (h : r = ⟨true, v⟩) (c : Ctx) : r.read c = .ok (v, c) := by
  subst h; rfl

theorem rdC_run {c : Ctx} {n : BitVec 5} {v : W32} (h : c.HoldsC n v) : rdC n c = .ok (v, c) := by
  simp only [rdC, CM.bind_run, CM.get_run]; exact Reg.read_run h c
theorem rdA_run {c : Ctx} {n : BitVec 5} {v : W64} (h : c.HoldsA n v) : rdA' n c = .ok (v, c) := by
  simp only [rdA', CM.bind_run, CM.get_run]; exact Reg.read_run h c
theorem rdE_run {c : Ctx} {n : BitVec 5} {v : W64} (h : c.HoldsE n v) : rdE n c = .ok (v, c) := by
  simp only [rdE, CM.bind_run, CM.get_run]; exact Reg.read_run h c
theorem rdX_run {c : Ctx} {n : BitVec 5} {v : W64} (h : c.HoldsX n v) : rdX n c = .ok (v, c) := by
  simp only [rdX, CM.bind_run, CM.get_run]; exact Reg.read_run h c
theorem rdK_run {c : Ctx} {n : BitVec 3} {k : Iter} (h : c.HoldsK n k) : rdK n c = .ok (k, c) := by
  obtain ⟨h, hv⟩ := h; simp [rdK, h, hv]
theorem rdP_run {c : Ctx} {n : BitVec 4} {b : Bool} (h : c.HoldsP n b) : rdP n c = .ok (b, c) := by
  simp only [rdP, CM.bind_run, CM.get_run]; rw [Reg.read_run h]; cases b <;> rfl
theorem rdM_run {c : Ctx} {n : BitVec 3} {m : TReg 128} (h : c.HoldsM n m) : rdM n c = .ok (m, c) := by
  obtain ⟨h, hv⟩ := h; simp [rdM, TReg.read, h, hv]
theorem rdT_run {c : Ctx} {n : BitVec 5} {t : TReg 8192} (h : c.HoldsT n t) : rdT n c = .ok (t, c) := by
  obtain ⟨h, hv⟩ := h; simp [rdT, TReg.read, h, hv]

theorem popQueue_run {w : Nat} {now b : Nat} {q q' : List (QEnt w)} {e : QEnt w} (h : QueueGives now b q e q') (c : Ctx) :
    popQueue now b q c = .ok ((e, q'), c) := by
  obtain ⟨pre, rest, rfl, hk, h1, h2, h3, h4, h5, rfl⟩ := h
  induction pre with
  | nil =>
    have h4' : e.data.isNone = false := by cases h : e.data <;> simp_all
    have h5' : ¬ now < e.readyAt := by omega
    have h3' : (e.bundle == b) = false := by simpa using h3
    simp [popQueue, h1, h2, h3', h4', h5']
  | cons k t ih =>
    have := ih (fun x hx => hk x (by simp [hx]))
    have hk' := hk k (by simp)
    simp [popQueue, hk', this]

theorem popIfS_run {c c' : Ctx} {fs : List (BitVec 5)} {v : W64} (h : c.PopsS fs v c') : popIfS fs c = .ok (v, c') := by
  unfold Ctx.PopsS at h
  split at h
  · rename_i hm
    have hm : (31#5) ∈ fs := hm
    obtain ⟨e, q, hq, hd, rfl⟩ := h
    simp [popIfS, hm, popS, popQueue_run hq, hd]
  · rename_i hm
    have hm : ¬ (31#5) ∈ fs := hm
    obtain ⟨rfl, rfl⟩ := h
    simp [popIfS, hm]

theorem popIfV_run {c c' : Ctx} {l : VW} {fs : List (BitVec 5)} {v : TReg 1024} (h : c.PopsV l fs v c') :
    popIfV l fs c = .ok (v, c') := by
  unfold Ctx.PopsV at h
  split at h
  · rename_i hm
    have hm : (31#5) ∈ fs := hm
    cases l <;>
    · obtain ⟨e, q, hq, hd, rfl⟩ := h
      simp [popIfV, hm, popV, popQueue_run hq, hd]
  · rename_i hm
    have hm : ¬ (31#5) ∈ fs := hm
    obtain ⟨rfl, rfl⟩ := h
    simp [popIfV, hm]

theorem rdS_run {c : Ctx} {q v : W64} {n : BitVec 5} (h : c.HoldsS q n v) : rdS q n c = .ok (v, c) := by
  unfold Ctx.HoldsS at h
  split at h
  · rename_i hn; simp [rdS, hn, h]
  · rename_i hn; simp only [rdS, hn, if_false, CM.bind_run, CM.get_run]; exact Reg.read_run h c

theorem rdV_run {c : Ctx} {l : VW} {q r : TReg 1024} {n : BitVec 5} (h : c.HoldsV l q n r) : rdV l q n c = .ok (r, c) := by
  unfold Ctx.HoldsV at h
  split at h
  · rename_i hn; simp [rdV, hn, h]
  · rename_i hn
    obtain ⟨h, hv⟩ := h
    cases l <;> simp_all [rdV, Ctx.regL, TReg.read]

theorem oldV_run (c : Ctx) (l : VW) (n : BitVec 5) : oldV l n c = .ok (c.oldL l n, c) := by
  cases l <;> simp only [oldV, Ctx.oldL, Ctx.regL, CM.bind_run, CM.get_run] <;> split <;> simp_all

/-- The values of a file code. -/
theorem code8 : ∀ y : BitVec 3, y = 0 ∨ y = 1 ∨ y = 2 ∨ y = 3 ∨ y = 4 ∨ y = 5 ∨ y = 6 ∨ y = 7 := by decide

theorem jRead_run {c c' : Ctx} {y : BitVec 3} {n : BitVec 5} {q v : W64} (hp : c.PopsJ y n q c') (h : c'.HoldsJ y q n v) :
    jRead y n c = .ok (v, c') := by
  unfold Ctx.PopsJ at hp
  unfold Ctx.HoldsJ at h
  have := code8 y
  rcases this with rfl | rfl | rfl | rfl | rfl | rfl | rfl | rfl <;>
    simp only [BitVec.reduceEq, if_true, if_false] at hp h
  · obtain ⟨-, rfl⟩ := hp; obtain ⟨u, hu, rfl⟩ := h; simp [jRead, rdC_run hu]
  · obtain ⟨-, rfl⟩ := hp; simp [jRead, rdA_run h]
  · simp [jRead, popIfS_run hp, rdS_run h]
  · obtain ⟨-, rfl⟩ := hp; simp [jRead, rdX_run h]
  · obtain ⟨-, rfl⟩ := hp; simp [jRead, rdX_run h]
  · obtain ⟨-, rfl⟩ := hp; simp [jRead, rdE_run h]
  · obtain ⟨-, rfl⟩ := hp; simp [jRead, rdX_run h]
  · obtain ⟨-, rfl⟩ := hp; simp [jRead, rdX_run h]

/-! ### Writes -/

/-- The log takes an old value where there is room for it. -/
theorem logSave_run {c : Ctx} {v : Saved} (h : c.Room v) : logSave v c = .ok ((), c.logged v) := by
  unfold Ctx.Room at h
  by_cases h1 : c.frame.isSome = true
  · simp only [logSave, Ctx.logged, h1, CM.bind_run, CM.get_run, CM.ite_run, CM.pure_run, if_true, Bool.true_or]
  · rw [Bool.not_eq_true] at h1
    by_cases h2 : c.seg.log.any (fun o => o.tag == v.tag) = true
    · simp only [logSave, Ctx.logged, h1, h2, CM.bind_run, CM.get_run, CM.ite_run, CM.pure_run, if_true, Bool.or_true,
        Bool.false_eq_true, if_false]
    · rw [Bool.not_eq_true] at h2
      have h3 : ¬ 64 ≤ c.seg.log.length := by
        rcases h with h | ⟨o, ho, he⟩ | h
        · simp [h1] at h
        · rw [List.any_eq_false] at h2; exact absurd (by simpa using he) (h2 o ho)
        · omega
      simp only [logSave, Ctx.logged, h1, h2, h3, CM.bind_run, CM.get_run, CM.ite_run, CM.set_run, if_false, Bool.or_false,
        Bool.false_eq_true]


theorem wrC_run {c : Ctx} {n : Nat} {v : W32} (h : c.Room (c.savedC n)) : wrC n v c = .ok ((), c.putC n v) := by
  simp only [wrC, CM.bind_run, CM.get_run]; rw [show Saved.c n (c.regC n) = c.savedC n from rfl, logSave_run h]; rfl
theorem wrA_run {c : Ctx} {n : BitVec 5} {v : W64} (h : c.Room (c.savedA n)) : wrA n v c = .ok ((), c.putA n v) := by
  simp only [wrA, CM.bind_run, CM.get_run]; rw [show Saved.a n.toNat (c.regA n.toNat) = c.savedA n from rfl, logSave_run h]; rfl
theorem wrE_run {c : Ctx} {n : BitVec 5} {v : W64} (h : c.Room (c.savedE n)) : wrE n v c = .ok ((), c.putE n v) := by
  simp only [wrE, CM.bind_run, CM.get_run]; rw [show Saved.e n.toNat (c.regE n.toNat) = c.savedE n from rfl, logSave_run h]; rfl
theorem wrX_run {c : Ctx} {n : BitVec 5} {v : W64} (h : c.Room (c.savedX n)) : wrX n v c = .ok ((), c.putX n v) := by
  simp only [wrX, CM.bind_run, CM.get_run]; rw [show Saved.x n.toNat (c.regX n.toNat) = c.savedX n from rfl, logSave_run h]; rfl
theorem wrS_run {c : Ctx} {n : BitVec 5} {v : W64} (h : c.Room (c.savedS n)) : wrS n v c = .ok ((), c.putS n v) := by
  simp only [wrS, CM.bind_run, CM.get_run]
  rw [show Saved.s (physReg c.sq.rb n.toNat) (c.files.s.get Reg.invalid (physReg c.sq.rb n.toNat)) = c.savedS n from rfl,
    logSave_run h]; rfl
theorem wrK_run {c : Ctx} {n : BitVec 3} {k : Iter} (h : c.Room (c.savedK n)) : wrK n k c = .ok ((), c.putK n k) := by
  simp only [wrK, CM.bind_run, CM.get_run]; rw [show Saved.k n.toNat (c.iter n.toNat) = c.savedK n from rfl, logSave_run h]; rfl
theorem wrP_run {c : Ctx} {n : BitVec 4} {b : Bool} (h : c.Room c.savedP) : wrP n b c = .ok ((), c.putP n b) := by
  simp only [wrP, CM.bind_run, CM.get_run]; rw [show Saved.p c.files.p = c.savedP from rfl, logSave_run h]; rfl

/-- A second predicate written in the same segment finds the file saved. -/
theorem Ctx.room_putP (c : Ctx) (n : BitVec 4) (b : Bool) : (c.putP n b).Room (c.putP n b).savedP := by
  by_cases h1 : c.frame.isSome = true
  · left; simpa [Ctx.putP] using h1
  · right; left
    by_cases h2 : c.seg.log.any (fun o => o.tag == c.savedP.tag) = true
    · obtain ⟨o, ho, he⟩ := List.any_eq_true.mp h2
      exact ⟨o, by simpa [Ctx.putP, Ctx.logged, h1, h2] using ho, by simpa [Ctx.savedP, Saved.tag] using he⟩
    · exact ⟨c.savedP, by simp [Ctx.putP, Ctx.logged, h1, h2], by simp [Ctx.savedP, Saved.tag]⟩

theorem checkBacking_run {c : Ctx} {w : Nat} {r : TReg w} (h : c.Fits r) :
    (if r.copies.isEmpty then pure () else checkBacking : CM Unit) c = .ok ((), c) := by
  rcases h with h | h
  · simp [h]
  · split
    · rfl
    · simp [checkBacking, CM.need, h]

theorem wrV_run {c : Ctx} {l : VW} {n : BitVec 5} {r : TReg 1024} (h : c.Room (c.savedL l n)) (hf : (c.putL l n r).Fits r) :
    wrV l n r c = .ok ((), c.putL l n r) := by
  cases l
  · simp only [wrV, CM.bind_run, CM.get_run]
    rw [show Saved.v (physReg c.sq.rb n.toNat) (c.files.v.get TReg.invalid (physReg c.sq.rb n.toNat)) = c.savedL .v n from rfl,
      logSave_run h]
    exact checkBacking_run hf
  · simp only [wrV, CM.bind_run, CM.get_run]
    rw [show Saved.w (physReg c.sq.rb n.toNat) (c.files.w.get TReg.invalid (physReg c.sq.rb n.toNat)) = c.savedL .w n from rfl,
      logSave_run h]
    exact checkBacking_run hf

theorem wrM_run {c : Ctx} {n : Nat} {r : TReg 128} (h : c.Room (c.savedM n)) (hf : (c.putM n r).Fits r) :
    wrM n r c = .ok ((), c.putM n r) := by
  simp only [wrM, CM.bind_run, CM.get_run]
  rw [show Saved.m n (c.files.m.get TReg.invalid n) = c.savedM n from rfl, logSave_run h]
  exact checkBacking_run hf

theorem wrT_run {c : Ctx} {n : Nat} {r : TReg 8192} (h : c.Room (c.savedT n)) (hf : (c.putT n r).Fits r) :
    wrT n r c = .ok ((), c.putT n r) := by
  simp only [wrT, CM.bind_run, CM.get_run]
  rw [show Saved.t n (c.regT n) = c.savedT n from rfl, logSave_run h]
  exact checkBacking_run hf

theorem jWrite_run {c : Ctx} {x : BitVec 3} {n : BitVec 5} {v : W64} (h : c.Room (c.savedJ x n)) :
    jWrite x n v c = .ok ((), c.putJ x n v) := by
  have := code8 x
  rcases this with rfl | rfl | rfl | rfl | rfl | rfl | rfl | rfl <;>
    simp [Ctx.savedJ] at h <;> simp [jWrite, Ctx.putJ, wrC_run, wrA_run, wrE_run, wrX_run, wrS_run, lo32, h]

end Sys2Proof.Machine
end

