-- ==== Sys2Proof/Laws/Ops.lean ====
section
/-!
SUPPORT. Sys2Proof/Laws/Ops.lean: one lemma for each operation over the machine that says what it can do: what it leaves of
memory's canonical form, what reading through the layout units changes, and what placing an effect in the gate buffer does.
-/

namespace Sys2Proof.Machine

/-! ### Outcomes -/

/-- A meaning that goes on, holds or takes its exception answers a next state, from one of these. -/
theorem finish_cases {s t : State} {m : M Unit} (h : finish s m = .next t) :
    m s = .ok ((), t) ∨ (m s = .error .hold ∧ t = { s with issue := { s.issue with held := true } })
      ∨ ∃ tr, m s = .error (.trap tr) ∧ (takeTrap s.focus (tr.placed s.issue.pos) s = .ok ((), t) ∨ t = s) := by
  unfold finish at h
  cases hm : m s with
  | ok r => simp only [hm] at h; cases h; exact .inl rfl
  | error e =>
    cases e with
    | stop f => simp [hm] at h
    | hold => simp only [hm] at h; cases h; exact .inr (.inl ⟨rfl, rfl⟩)
    | trap tr =>
      refine .inr (.inr ⟨tr, rfl, ?_⟩)
      simp only [hm] at h
      cases hk : takeTrap s.focus (tr.placed s.issue.pos) s with
      | ok r => simp only [hk] at h; cases h; exact .inl rfl
      | error e =>
        cases e with
        | stop f => simp [hk] at h
        | hold => simp only [hk] at h; cases h; exact .inr rfl
        | trap tr' => simp only [hk] at h; cases h; exact .inr rfl

/-- A meaning never refuses. -/
theorem finish_not_refused (s : State) (m : M Unit) (r : Refusal) : finish s m ≠ .refused r := by
  unfold finish
  intro h
  split at h
  · cases h
  · cases h
  · cases h
  · split at h <;> cases h
theorem onCtx_not_refused (s : State) (m : CM Unit) (r : Refusal) : onCtx s m ≠ .refused r := finish_not_refused s _ r
theorem onEvent_not_refused (s : State) (k : Nat) (m : M Unit) (r : Refusal) : onEvent s k m ≠ .refused r := finish_not_refused _ _ r

/-- A meaning over the context in issue changes that context alone. -/
theorem liftC_cases {α : Type} {m : CM α} {s t : State} {a : α} (h : liftC m s = .ok (a, t)) :
    ∃ c, m s.cur = .ok (a, c) ∧ t = s.setCur c := by
  unfold liftC at h
  cases hm : m s.cur with
  | error e => simp [hm] at h
  | ok r => simp only [hm] at h; cases h; exact ⟨r.2, rfl, rfl⟩

/-! ### Operations that keep memory canonical -/

/-- A meaning that keeps the invariant wherever it ends well. -/
def Keeps {α : Type} (m : M α) : Prop := ∀ s a t, m s = .ok (a, t) → s.Inv → t.Inv

theorem keeps_pure {α : Type} (a : α) : Keeps (pure a : M α) := by
  intro s b t h hi; rw [M.pure_run] at h; cases h; exact hi
theorem keeps_get : Keeps (get : M State) := by
  intro s b t h hi; rw [M.get_run] at h; cases h; exact hi
theorem keeps_throw {α : Type} (e : Halt) : Keeps (throw e : M α) := by
  intro s b t h hi; cases h
theorem keeps_bind {α β : Type} {m : M α} {f : α → M β} (h1 : Keeps m) (h2 : ∀ a, Keeps (f a)) : Keeps (m >>= f) := by
  intro s b t h hi
  rw [M.bind_run] at h
  cases hm : m s with
  | error e => simp [hm] at h
  | ok r => simp only [hm] at h; exact h2 r.1 _ _ _ h (h1 _ _ _ hm hi)
theorem keeps_map {α β : Type} {m : M α} (f : α → β) (h : Keeps m) : Keeps (f <$> m) := by
  intro s b t e hi
  rw [M.map_run] at e
  cases hm : m s with
  | error e' => simp [hm] at e
  | ok r => simp only [hm] at e; cases e; exact h _ _ _ hm hi
theorem keeps_ite {α : Type} (p : Prop) [Decidable p] {x y : M α} (hx : Keeps x) (hy : Keeps y) : Keeps (if p then x else y) := by
  split
  · exact hx
  · exact hy
/-- A change of the state that leaves memory as it is. -/
theorem keeps_modify {f : State → State} (h : ∀ s, (f s).mem = s.mem) : Keeps (modify f : M PUnit) := by
  intro s b t e hi; rw [M.modify_run] at e; cases e; show Mem.wf (f s).mem = true; rw [h]; exact hi
theorem keeps_modify_mem {f : State → State} (h : ∀ s : State, s.Inv → (f s).Inv) : Keeps (modify f : M PUnit) := by
  intro s b t e hi; rw [M.modify_run] at e; cases e; exact h s hi
theorem keeps_forM {α : Type} (xs : List α) {f : α → M PUnit} (h : ∀ a, Keeps (f a)) : Keeps (xs.forM f) := by
  induction xs with
  | nil => exact keeps_pure _
  | cons x xs ih => exact keeps_bind (h x) fun _ => ih
theorem keeps_liftC {α : Type} (m : CM α) : Keeps (liftC m) := by
  intro s a t h hi; obtain ⟨c, -, rfl⟩ := liftC_cases h; exact hi

theorem keeps_freshId : Keeps freshId := by intro s a t h hi; cases h; exact hi
theorem keeps_freshFree : Keeps freshFree := by intro s a t h hi; cases h; exact hi
theorem keeps_modCtx (k : Nat) (f : Ctx → Ctx) : Keeps (modCtx k f) := keeps_modify fun _ => rfl
theorem keeps_modCur (f : Ctx → Ctx) : Keeps (modCur f) := keeps_modify fun _ => rfl
theorem keeps_modCore (c : Nat) (f : Core → Core) : Keeps (modCore c f) := keeps_modify fun _ => rfl
theorem keeps_modMp (f : MemPath → MemPath) : Keeps (modMp f) := keeps_modify fun _ => rfl
theorem keeps_modDist (f : Dist → Dist) : Keeps (modDist f) := keeps_modify fun _ => rfl
theorem keeps_modMg (f : Mgmt → Mgmt) : Keeps (modMg f) := keeps_modify fun _ => rfl
theorem keeps_setPage (f : Nat) (p : PageDir) : Keeps (setPage f p) := keeps_modMp _
theorem keeps_countFor (l b n : Nat) : Keeps (countFor l b n) := keeps_modify fun s => by dsimp only; split <;> rfl
theorem keeps_need (b : Bool) (cls sub : Nat) : Keeps (M.need b cls sub) := keeps_ite _ (keeps_pure _) (keeps_throw _)
theorem keeps_needAddr (a n : Nat) : Keeps (needAddr a n) := keeps_ite _ (keeps_pure _) (keeps_throw _)
/-- Reaching the home L2s moves their tags and counts traffic, and changes no byte of memory. -/
theorem keeps_l2Bay (l bay lo hi : Nat) (w : Bool) : Keeps (l2Bay l bay lo hi w) := by
  refine keeps_bind keeps_get fun s => ?_
  dsimp only
  exact keeps_bind (keeps_countFor _ _ _) fun _ => keeps_modMp _
theorem keeps_l2Range (l a n : Nat) (w : Bool) : Keeps (l2Range l a n w) :=
  keeps_forM _ fun _ => keeps_ite _ (keeps_l2Bay _ _ _ _ _) (keeps_pure _)
/-- On behalf of no running launch, reaching the home L2s changes their tags alone (R254, R410). -/
theorem l2Range_quiet {s : State} {l : Nat} (hl : (s.launch l).running = false) (a n : Nat) (w : Bool) :
    ∃ x, l2Range l a n w s = .ok ((), { s with mp := { s.mp with l2 := x } }) := by
  have hbay : ∀ x b lo hi, ∃ y, l2Bay l b lo hi w { s with mp := { s.mp with l2 := x } }
      = .ok ((), { s with mp := { s.mp with l2 := y } }) := by
    intro x b lo hi
    have hc : ∀ p q, countFor l p q { s with mp := { s.mp with l2 := x } } = .ok ((), { s with mp := { s.mp with l2 := x } }) := by
      intro p q
      show Except.ok ((), if (s.launch l).running then _ else _) = _
      rw [hl]; rfl
    unfold l2Bay
    rw [M.bind_run, M.get_run]
    dsimp only
    rw [M.bind_run, hc]
    exact ⟨_, rfl⟩
  have hall : ∀ (is : List Nat) (f : Nat → M Unit), (∀ i x, ∃ y, f i { s with mp := { s.mp with l2 := x } }
      = .ok ((), { s with mp := { s.mp with l2 := y } })) → ∀ x, ∃ y, is.forM f { s with mp := { s.mp with l2 := x } }
      = .ok ((), { s with mp := { s.mp with l2 := y } }) := by
    intro is f hf
    induction is with
    | nil => intro x; exact ⟨x, rfl⟩
    | cons i is ih =>
      intro x
      obtain ⟨y, hy⟩ := hf i x
      obtain ⟨z, hz⟩ := ih y
      refine ⟨z, ?_⟩
      show (f i >>= fun _ => is.forM f) _ = _
      rw [M.bind_run, hy]; exact hz
  refine hall _ _ (fun i x => ?_) s.mp.l2
  dsimp only
  rw [M.ite_run]
  split
  · exact hbay x _ _ _
  · exact ⟨x, rfl⟩
theorem keeps_leaveL1 (c : Nat) (b : Block) : Keeps (leaveL1 c b) :=
  keeps_bind keeps_get fun _ =>
    keeps_bind (keeps_modify_mem (f := fun s => { s with mem := writeBack s.mem b }) fun _ hi => writeBack_wf hi b) fun _ =>
      keeps_bind (keeps_modCore _ _) fun _ => keeps_forM _ fun _ => keeps_l2Range _ _ _ _
theorem keeps_reclassify (f : Nat) : Keeps (reclassify f) := by
  refine keeps_bind keeps_get fun s => ?_
  split
  · exact keeps_bind (keeps_forM _ fun b => keeps_leaveL1 _ b) fun _ => keeps_bind (keeps_modCore _ _) fun _ => keeps_setPage _ _
  · exact keeps_pure _
theorem keeps_sendInvals (w : Option Nat) (a : Nat) : Keeps (sendInvals w a) := keeps_bind keeps_get fun _ => keeps_modMp _
theorem keeps_touchByEngine (a n : Nat) : Keeps (touchByEngine a n) :=
  keeps_forM _ fun _ => keeps_ite _ (keeps_reclassify _) (keeps_pure _)
theorem keeps_rdN (a n : Nat) : Keeps (rdN a n) := by
  intro s v t h hi; obtain ⟨-, -, rfl⟩ := rdN_cases h; exact hi
theorem keeps_rdW64 (a : Nat) : Keeps (rdW64 a) := keeps_bind (keeps_rdN a 8) fun _ => keeps_pure _
theorem keeps_wrN (a n v : Nat) : Keeps (wrN a n v) := fun _ _ _ h hi => wrN_inv h hi
theorem keeps_trimOld (as : List Nat) : Keeps (trimOld as) := keeps_modMp _
theorem keeps_devWriteFor (l a n v : Nat) : Keeps (devWriteFor l a n v) :=
  keeps_bind (keeps_touchByEngine a n) fun _ => keeps_bind (keeps_trimOld _) fun _ => keeps_bind (keeps_wrN a n v) fun _ =>
    keeps_bind (keeps_l2Range l a n true) fun _ => keeps_forM _ fun _ => keeps_ite _ (keeps_sendInvals _ _) (keeps_pure _)
theorem keeps_devWrite (a n v : Nat) : Keeps (devWrite a n v) := keeps_devWriteFor 0 a n v
theorem keeps_wrW64 (a : Nat) (v : W64) : Keeps (wrW64 a v) := keeps_devWrite _ _ _
theorem keeps_wrCells (cs : List (Nat × Byte × Byte)) : Keeps (wrCells cs) :=
  keeps_bind (keeps_forM _ fun _ => keeps_needAddr _ _) fun _ => keeps_modify_mem fun _ hi => Mem.putCells_wf hi cs
/-- A read that may race draws its free values, and writes nothing. -/
theorem raceStep_run (s : State) : raceStep s = .ok ((), s.raced) := rfl
theorem raced_mem (s : State) : s.raced.mem = s.mem := by unfold State.raced; split <;> rfl
theorem keeps_raceStep : Keeps raceStep := keeps_modify raced_mem
theorem keeps_rdA (k : Nat) (g : Bool) (a n : Nat) : Keeps (rdA k g a n) :=
  keeps_bind (keeps_needAddr a n) fun _ => keeps_bind keeps_get fun _ => keeps_bind keeps_raceStep fun _ => keeps_pure _
theorem keeps_notePending (k : Nat) (cls : BitVec 3) (id : Nat) (as : List Nat) : Keeps (notePending k cls id as) :=
  keeps_modify fun _ => rfl
theorem keeps_noteStore (k : Nat) (as : List Nat) : Keeps (noteStore k as) :=
  keeps_bind (keeps_trimOld as) fun _ => keeps_bind keeps_get fun _ => keeps_ite _ (keeps_notePending _ _ _ _) (keeps_pure _)
theorem keeps_wrEngine (k : Nat) (cls : BitVec 3) (id a n v : Nat) : Keeps (wrEngine k cls id a n v) :=
  keeps_bind (keeps_needAddr a n) fun _ => keeps_bind (keeps_notePending _ _ _ _) fun _ => keeps_wrN a n v
theorem keeps_postRecord (q : Nat) (ws : List W64) : Keeps (postRecord q ws) :=
  keeps_bind keeps_get fun _ => keeps_ite _
    (keeps_bind (keeps_forM _ fun _ => keeps_wrW64 _ _) fun _ => keeps_modify fun _ => rfl) (keeps_modify fun _ => rfl)
theorem keeps_endQuiet (k : Nat) : Keeps (endQuiet k) := keeps_bind (keeps_modCtx k _) fun _ => keeps_modDist _
/-- Taking an exception keeps memory canonical. -/
theorem keeps_takeTrap (k : Nat) (tr : Trap) : Keeps (takeTrap k tr) :=
  keeps_bind keeps_get fun _ => keeps_bind (keeps_postRecord _ _) fun _ => keeps_bind (keeps_endQuiet k) fun _ =>
    keeps_bind (keeps_modify fun _ => rfl) fun _ => keeps_modify fun _ => rfl

theorem finish_keeps {s t : State} {m : M Unit} (hm : Keeps m) (h : finish s m = .next t) (hi : s.Inv) : t.Inv := by
  rcases finish_cases h with h | ⟨-, rfl⟩ | ⟨tr, -, h | rfl⟩
  · exact hm _ _ _ h hi
  · exact hi
  · exact keeps_takeTrap _ _ _ _ _ h hi
  · exact hi
/-- No meaning over the context in issue touches memory but by the record of its exception. -/
theorem onCtx_keeps {s t : State} {m : CM Unit} (h : onCtx s m = .next t) (hi : s.Inv) : t.Inv := finish_keeps (keeps_liftC m) h hi
theorem onEvent_keeps {s t : State} {k : Nat} {m : M Unit} (hm : Keeps m) (h : onEvent s k m = .next t) (hi : s.Inv) : t.Inv :=
  finish_keeps hm h hi

/-! ### The layout units (R244) -/

/-- Touching words changes only what the layout units hold. -/
theorem luTouch_cases (die n : Nat) : ∀ {a : Nat} {s t : State}, luTouch die a n s = .ok ((), t) → ∃ lu, t = s.withLu lu := by
  induction n with
  | zero => intro a s t h; cases h; exact ⟨s.mp.lu, rfl⟩
  | succ n ih =>
    intro a s t h
    rw [luTouch] at h
    simp only [M.bind_run, M.get_run] at h
    cases hf : s.mp.lu.find? (luKey die a) with
    | some v => simp only [hf] at h; exact ih h
    | none =>
      simp only [hf, rdW64, M.bind_run, M.pure_run] at h
      cases hr : rdN a 8 s with
      | error e => simp [hr] at h
      | ok r =>
        obtain ⟨-, -, ht⟩ := rdN_cases (v := r.1) (t := r.2) hr
        simp only [hr, ht, modMp, M.modify_run] at h
        obtain ⟨lu, rfl⟩ := ih h
        exact ⟨lu, rfl⟩

/-- Words that are held already change nothing when touched. -/
theorem luTouch_held (die : Nat) (s : State) (n : Nat) : ∀ a, (∀ i < n, (s.mp.lu.find? (luKey die (a + 8 * i))).isSome = true) →
    luTouch die a n s = .ok ((), s) := by
  induction n with
  | zero => intro a _; rfl
  | succ n ih =>
    intro a h
    have h0 := h 0 (by omega)
    have h1 := ih (a + 8) fun i hi => by have := h (i + 1) (by omega); rwa [show a + 8 * (i + 1) = a + 8 + 8 * i by omega] at this
    cases hf : s.mp.lu.find? (luKey die a) with
    | none => simp [hf] at h0
    | some v => simp only [luTouch, M.bind_run, M.get_run, hf, h1]

theorem descM_cases {die : Nat} {l : Launch} {h : BitVec 16} {s t : State} {r : Desc × Bool} (e : descM die l h s = .ok (r, t)) :
    ∃ lu, t = s.withLu lu := by
  simp only [descM, M.bind_run, M.get_run] at e
  cases h1 : luTouch die (descAddr l h) 16 s with
  | error x => simp [h1] at e
  | ok p =>
    obtain ⟨lu, hp⟩ := luTouch_cases die 16 (t := p.2) h1
    simp only [h1, hp] at e
    split at e
    · rw [M.bind_run] at e
      cases h2 : luTouch die (descAddr l (BitVec.ofNat 16 ((s.withLu lu).desc die l h).scale)) 16 (s.withLu lu) with
      | error x => simp [h2] at e
      | ok q =>
        obtain ⟨lu', hq⟩ := luTouch_cases die 16 (t := q.2) h2
        simp only [h2, M.bind_run, M.get_run, M.pure_run] at e
        cases e; exact ⟨lu', hq⟩
    · cases e; exact ⟨lu, rfl⟩
theorem xlateM_cases {die : Nat} {l : Launch} {h : BitVec 16} {x : Coord} {w : Bool} {s t : State} {r : Except Nat Nat}
    (e : xlateM die l h x w s = .ok (r, t)) : ∃ lu, t = s.withLu lu := by
  simp only [xlateM, M.bind_run] at e
  cases h1 : descM die l h s with
  | error y => simp [h1] at e
  | ok p =>
    obtain ⟨lu, hp⟩ := descM_cases (t := p.2) h1
    simp only [h1, M.ite_run, M.bind_run] at e
    split at e
    · cases h2 : luTouch die (p.1.1.entryAddr (p.1.1.tileNo x)) 2 p.2 with
      | error y => simp [h2] at e
      | ok q =>
        obtain ⟨lu', hq⟩ := luTouch_cases die 2 (t := q.2) h2
        simp only [h2, M.get_run, M.pure_run] at e
        cases e; exact ⟨lu', by rw [hq, hp]; rfl⟩
    · cases e; exact ⟨lu, hp⟩

/-- A word that the layout units hold is what they see. -/
theorem luGet_held {s : State} {die a : Nat} {v : W64} (h : s.mp.lu.find? (luKey die a) = some v) : s.luGet die a = v := by
  unfold State.luGet; rw [h]
/-- A descriptor is read from its 16 words alone (R238). -/
theorem parse_congr {f g : Nat → W64} (h : ∀ i < 16, f i = g i) : Desc.parse f = Desc.parse g := by
  have h8 : ((List.range 8).all fun i => f (8 + i) == 0) = (List.range 8).all fun i => g (8 + i) == 0 := by
    rw [Bool.eq_iff_iff, List.all_eq_true, List.all_eq_true]
    constructor <;> intro k i hi
    · rw [← h _ (by have := List.mem_range.mp hi; omega)]; exact k i hi
    · rw [h _ (by have := List.mem_range.mp hi; omega)]; exact k i hi
  unfold Desc.parse
  simp [Coord.ofFn, h 0, h 1, h 2, h 3, h 4, h 5, h 6, h 7]
  exact congrArg _ h8

/-! ### Program order and the gate buffer (R76, R77, R220) -/

/-- With room, an effect joins the end of the gate buffer; in service it is committed. -/
theorem gate_run {s : State} (e : Eff) (h : s.cur.GateRoom 1) : gate e s = .ok ((), s.setCur (s.cur.gated e)) := by
  let c1 : Ctx := { s.cur with fl := { s.cur.fl with seq := s.cur.fl.seq + 1 } }
  have h1 : gate e s = (if (s.setCur c1).cur.inService then modCur fun c => { c with fl := { c.fl with
        commits := c.fl.commits ++ [⟨e, s.cur.fl.seq + 1, (s.setCur c1).cur.sq.pc⟩] } }
      else do
        M.need (decide ((s.setCur c1).cur.fl.gate.length < 128)) clsSegment 1
        modCur fun c => { c with fl := { c.fl with gate := c.fl.gate ++ [⟨e, s.cur.fl.seq + 1, (s.setCur c1).cur.sq.pc⟩] } } : M Unit)
      (s.setCur c1) := rfl
  rw [h1, State.cur_setCur, show c1.inService = s.cur.frame.isSome from rfl]
  by_cases hf : s.cur.frame.isSome = true
  · rw [M.ite_run, if_pos hf, modCur, M.modify_run, State.cur_setCur, State.setCur_setCur, Ctx.gated, if_pos hf]
  · have hl : c1.fl.gate.length < 128 := by
      rcases h with h | h
      · exact absurd h hf
      · exact h
    rw [M.ite_run, if_neg hf, M.bind_run, M.need_true (decide_eq_true hl)]
    dsimp only
    rw [modCur, M.modify_run, State.cur_setCur, State.setCur_setCur, Ctx.gated, if_neg hf]

/-- Entering a load, where its queue has a free entry and its copies fit: the entry is reserved. -/
theorem reserve_run {c : Ctx} {q : BitVec 2} {id : Nat} {g : Bool} {t : BitVec 3} {n : Nat} (h : c.SlotFree q)
    (hb : n = 0 ∨ (c.reserved q id g t n).backingOk = true) : reserve q id g t n c = .ok ((), c.reserved q id g t n) := by
  have hk : (if n = 0 then pure () else checkBacking : CM Unit) (c.reserved q id g t n) = .ok ((), c.reserved q id g t n) := by
    rcases hb with hb | hb
    · simp [hb]
    · split
      · rfl
      · simp only [checkBacking, CM.bind_run, CM.get_run]; rw [CM.need_true hb]
  rw [CM.ite_run] at hk
  have hq : ∀ q : BitVec 2, q = 0 ∨ q = 1 ∨ q = 2 ∨ q = 3 := by decide
  unfold reserve
  unfold Ctx.SlotFree at h
  rcases hq q with rfl | rfl | rfl | rfl
  · have h : c.queues.qs.length < 32 := h
    simp only [CM.bind_run, CM.get_run, queueRoom, show (0 : BitVec 2).toNat = 0 from rfl, decide_eq_true h, ↓reduceIte, CM.set_run]
    rw [CM.ite_run]; exact hk
  · have h : c.queues.qv.length < 16 := h
    simp only [CM.bind_run, CM.get_run, queueRoom, show (1 : BitVec 2).toNat = 1 from rfl, decide_eq_true h, ↓reduceIte, CM.set_run]
    rw [CM.ite_run]; exact hk
  · have h : c.queues.qw.length < 16 := h
    simp only [CM.bind_run, CM.get_run, queueRoom, show (2 : BitVec 2).toNat = 2 from rfl, decide_eq_true h, ↓reduceIte, CM.set_run]
    rw [CM.ite_run]; exact hk
  · have h : c.queues.qx.length < 16 := h
    simp only [CM.bind_run, CM.get_run, queueRoom, show (3 : BitVec 2).toNat = 3 from rfl, decide_eq_true h, ↓reduceIte, CM.set_run]
    rw [CM.ite_run]; exact hk

/-! ### Invalidations applied, and what leaves for its home (R82, R95, R261) -/

/-- Applying invalidations changes the L1 of one core and what is on its way, and nothing else. -/
theorem applyWhere_cases (s : State) (c : Nat) (p : Nat → Nat → Bool) : s.applyWhere c p = s
    ∨ ∃ x is, s.applyWhere c p = { s.setCore c x with mp := { s.mp with invals := is } } := by
  unfold State.applyWhere
  extract_lets hit mine
  split
  · exact .inl rfl
  · exact .inr ⟨_, _, rfl⟩

@[simp] theorem applyWhere_mem (s : State) (c : Nat) (p : Nat → Nat → Bool) : (s.applyWhere c p).mem = s.mem := by
  rcases applyWhere_cases s c p with h | ⟨x, is, h⟩ <;> rw [h]; rfl
@[simp] theorem applyWhere_ctxs (s : State) (c : Nat) (p : Nat → Nat → Bool) : (s.applyWhere c p).ctxs = s.ctxs := by
  rcases applyWhere_cases s c p with h | ⟨x, is, h⟩ <;> rw [h]; rfl
@[simp] theorem applyWhere_outs (s : State) (c : Nat) (p : Nat → Nat → Bool) : (s.applyWhere c p).mp.outs = s.mp.outs := by
  rcases applyWhere_cases s c p with h | ⟨x, is, h⟩ <;> rw [h]
@[simp] theorem applyWhere_dirs (s : State) (c : Nat) (p : Nat → Nat → Bool) : (s.applyWhere c p).mp.dirs = s.mp.dirs := by
  rcases applyWhere_cases s c p with h | ⟨x, is, h⟩ <;> rw [h]

/-- Meeting fences changes the L1 of the context's core, what is on its way to it, and the marks of the fences. -/
theorem metFences_cases (s : State) (k n : Nat) : s.metFences k n = s
    ∨ ∃ fs, s.metFences k n = (s.applyInvals (coreOf k)).setCtx k { s.ctx k with fl := { (s.ctx k).fl with fences := fs } } := by
  unfold State.metFences
  split
  · exact .inr ⟨_, rfl⟩
  · exact .inl rfl

/-- An access that later gathers must see changes the moment from which they do. -/
theorem gathersAnew_cases (s : State) (k n : Nat) : s.gathersAnew k n = s
    ∨ s.gathersAnew k n = s.setCtx k { s.ctx k with fl := { (s.ctx k).fl with gath := s.tick } } := by
  unfold State.gathersAnew
  split
  · exact .inr rfl
  · exact .inl rfl

@[simp] theorem metFences_mem (s : State) (k n : Nat) : (s.metFences k n).mem = s.mem := by
  rcases metFences_cases s k n with h | ⟨fs, h⟩ <;> rw [h]
  exact applyWhere_mem ..
@[simp] theorem metFences_outs (s : State) (k n : Nat) : (s.metFences k n).mp.outs = s.mp.outs := by
  rcases metFences_cases s k n with h | ⟨fs, h⟩ <;> rw [h]
  exact applyWhere_outs ..
@[simp] theorem metFences_dirs (s : State) (k n : Nat) : (s.metFences k n).mp.dirs = s.mp.dirs := by
  rcases metFences_cases s k n with h | ⟨fs, h⟩ <;> rw [h]
  exact applyWhere_dirs ..
@[simp] theorem gathersAnew_mem (s : State) (k n : Nat) : (s.gathersAnew k n).mem = s.mem := by
  rcases gathersAnew_cases s k n with h | h <;> rw [h]; rfl
@[simp] theorem gathersAnew_mp (s : State) (k n : Nat) : (s.gathersAnew k n).mp = s.mp := by
  rcases gathersAnew_cases s k n with h | h <;> rw [h]; rfl

@[simp] theorem afterFences_mem (s : State) (k n : Nat) : (s.afterFences k n).mem = s.mem := by simp [State.afterFences]
@[simp] theorem afterFences_outs (s : State) (k n : Nat) : (s.afterFences k n).mp.outs = s.mp.outs := by simp [State.afterFences]
@[simp] theorem afterFences_dirs (s : State) (k n : Nat) : (s.afterFences k n).mp.dirs = s.mp.dirs := by simp [State.afterFences]

/-- With no fence there is nothing to apply. -/
theorem afterFences_none {s : State} {k n : Nat} (h : (s.ctx k).fl.fences = []) : s.afterFences k n = s := by
  have hm : s.metFences k n = s := by unfold State.metFences; rw [h]; rfl
  unfold State.afterFences State.gathersAnew
  rw [hm, h]
  rfl

@[simp] theorem left_mem (s : State) (o : OutOp) : (s.left o).mem = s.mem := afterFences_mem ..
@[simp] theorem left_outs (s : State) (o : OutOp) :
    (s.left o).mp.outs = (delBy (fun p => p.ctx == o.ctx && p.id == o.id) s.mp.outs).map (s.owe o) := afterFences_outs ..
@[simp] theorem left_dirs (s : State) (o : OutOp) : (s.left o).mp.dirs = s.mp.dirs := afterFences_dirs ..

/-- The only access on its way, of a context without fences, leaves nothing else changed. -/
theorem left_only {s : State} {o : OutOp} (h : s.mp.outs = [o]) (hf : (s.ctx o.ctx).fl.fences = []) :
    s.left o = { s with mp := { s.mp with outs := [] } } := by
  have e : (delBy (fun p => p.ctx == o.ctx && p.id == o.id) s.mp.outs).map (s.owe o) = [] := by rw [h]; simp [delBy]
  unfold State.left
  rw [e]
  exact afterFences_none hf

end Sys2Proof.Machine
end

