-- ==== Sys2Proof/Laws/Vector.lean ====
section
/-!
SUPPORT. Sys2Proof/Laws/Vector.lean: what the common shapes of the V and W lanes answer.
-/

namespace Sys2Proof.Machine

/-- Every source of a list is readable: their registers, in order. -/
theorem mapM_rdV {c : Ctx} {l : VW} {q : TReg 1024} :
    ∀ (srcs : List (BitVec 5)) (rs : List (TReg 1024)), rs.length = srcs.length →
      (∀ p ∈ srcs.zip rs, c.HoldsV l q p.1 p.2) → (srcs.mapM (rdV l q) : CM (List (TReg 1024))) c = .ok (rs, c)
  | [], [], _, _ => rfl
  | a :: t, r :: u, hl, h => by
    have h1 : c.HoldsV l q a r := h (a, r) (by simp)
    have h2 := mapM_rdV t u (by simpa using hl) (fun p hp => h p (by simp [hp]))
    simp [List.mapM_cons, rdV_run h1, h2]
  | [], _ :: _, hl, _ => by simp at hl
  | _ :: _, [], hl, _ => by simp at hl

/-- Draws: under SR the counter moves on by whole blocks. -/
theorem takeDraws_run (rm : RM) (n : Nat) (c : Ctx) : takeDraws rm n c = .ok (c.drawsOf rm n 0, c.drew rm n 1) := by
  by_cases h : rm = .sr <;> simp [takeDraws, Ctx.drawsOf, Ctx.drew, h]

@[simp] theorem Ctx.drew_zero (c : Ctx) (rm : RM) (n : Nat) : c.drew rm n 0 = c := by
  unfold Ctx.drew; split <;> simp

theorem Ctx.drew_drew (c : Ctx) (rm : RM) (n a b : Nat) : (c.drew rm n a).drew rm n b = c.drew rm n (a + b) := by
  unfold Ctx.drew
  split
  · simp [BitVec.add_assoc, BitVec.ofNat_add, Nat.add_mul]
  · rfl

theorem Ctx.drawsOf_drew (c : Ctx) (rm : RM) (n a b : Nat) : (c.drew rm n a).drawsOf rm n b = c.drawsOf rm n (a + b) := by
  unfold Ctx.drew Ctx.drawsOf
  split
  · simp [BitVec.add_assoc, BitVec.ofNat_add, Nat.add_mul]
  · rfl

@[simp] theorem Ctx.drew_sq (c : Ctx) (rm : RM) (n a : Nat) : (c.drew rm n a).sq = c.sq := by unfold Ctx.drew; split <;> rfl
@[simp] theorem Ctx.drew_files (c : Ctx) (rm : RM) (n a : Nat) : (c.drew rm n a).files = c.files := by
  unfold Ctx.drew; split <;> rfl
@[simp] theorem Ctx.drew_seg (c : Ctx) (rm : RM) (n a : Nat) : (c.drew rm n a).seg = c.seg := by unfold Ctx.drew; split <;> rfl
@[simp] theorem Ctx.drew_frame (c : Ctx) (rm : RM) (n a : Nat) : (c.drew rm n a).frame = c.frame := by
  unfold Ctx.drew; split <;> rfl
@[simp] theorem Ctx.drew_queues (c : Ctx) (rm : RM) (n a : Nat) : (c.drew rm n a).queues = c.queues := by
  unfold Ctx.drew; split <;> rfl

/-- Examples that each draw: the list of their values, the generator after the last. -/
theorem mapM_draws {rm : RM} {n : Nat} {h : Nat → (Nat → Nat) → VBits} {ok : Nat → Prop} {m : Nat → CM VBits}
    (hm : ∀ e c, ok e → m e c = .ok (h e (c.drawsOf rm n 0), c.drew rm n 1)) (es : List Nat) (c : Ctx)
    (hok : ∀ e ∈ es, ok e) :
    (es.mapM m : CM (List VBits)) c
      = .ok (es.zipIdx.map fun e => h e.1 (c.drawsOf rm n e.2), c.drew rm n es.length) := by
  suffices H : ∀ (es : List Nat) (k : Nat), (∀ e ∈ es, ok e) → (es.mapM m : CM (List VBits)) (c.drew rm n k)
      = .ok ((es.zipIdx k).map fun e => h e.1 (c.drawsOf rm n e.2), c.drew rm n (k + es.length)) by
    have := H es 0 hok; simpa using this
  intro es
  induction es with
  | nil => intro k _; simp
  | cons e t ih =>
    intro k ho
    have h1 := hm e (c.drew rm n k) (ho e (by simp))
    have h2 := ih (k + 1) (fun x hx => ho x (by simp [hx]))
    rw [Ctx.drawsOf_drew, Ctx.drew_drew] at h1
    simp only [List.mapM_cons, CM.bind_run, h1, h2, CM.pure_run, List.zipIdx_cons, List.map_cons, List.length_cons, Nat.add_zero]
    rw [show k + 1 + t.length = k + (t.length + 1) by omega]

theorem zipIdx_range_map {α : Type} (n : Nat) (g : Nat → Nat → α) :
    ((List.range n).zipIdx.map fun e => g e.1 e.2) = (List.range n).map fun e => g e e := by
  apply List.ext_getElem <;> simp

/-- `vRun` where every example draws `n`. -/
theorem vRun_run {l : VW} {d : BitVec 5} {t : BitVec 3} {z : TReg 1024} {f : Nat → CM VBits} {c : Ctx} {rm : RM} {n : Nat}
    {h : Nat → (Nat → Nat) → VBits} {ok : Nat → Prop}
    (hf : ∀ e c', ok e → f e c' = .ok (h e (c'.drawsOf rm n 0), c'.drew rm n 1))
    (hok : ∀ e < exCount c.sq.lifts t, ok e) (hn : exCount c.sq.lifts t ≤ 129) (hr : c.Room (c.savedL l d))
    (hfit : (c.putL l d (c.widened t z fun e => h e (c.drawsOf rm n e))).Fits (c.widened t z fun e => h e (c.drawsOf rm n e))) :
    vRun l d t z f c
      = .ok ((), (c.drew rm n (exCount c.sq.lifts t)).putL l d (c.widened t z fun e => h e (c.drawsOf rm n e))) := by
  have key := mapM_draws (rm := rm) (n := n) (ok := ok)
    (h := fun e r => if c.sq.active t e then h e r else z.at' c.sq.lifts t e)
    (m := fun e => do let v ← f e; return if c.sq.active t e then v else z.at' c.sq.lifts t e)
    (fun e c' he => by simp [hf e c' he]) (List.range (exCount c.sq.lifts t)) c (fun e he => hok e (by simpa using he))
  rw [zipIdx_range_map _ (fun e k => if c.sq.active t e then h e (c.drawsOf rm n k) else z.at' c.sq.lifts t e),
    List.length_range] at key
  have hn' : decide (exCount c.sq.lifts t ≤ 129) = true := decide_eq_true hn
  simp only [vRun, CM.bind_run, CM.get_run, CM.need_true hn']
  erw [key]
  refine wrV_run ?_ ?_
  · cases l <;> simpa [Ctx.Room, Ctx.savedL, Ctx.regV, Ctx.regW] using hr
  · rcases hfit with hfit | hfit
    · exact .inl hfit
    · right
      cases l <;> simpa [Ctx.backingOk, Ctx.putL, Ctx.widened] using hfit

/-- `vForm`: the register of a V or W form, where its sources are readable. -/
theorem vForm_run {i : Instr} {s : State} {l : VW} {d : BitVec 5} {srcs : List (BitVec 5)} {m : BitVec 3} {readsD keeps : Bool}
    {rm : RM} {n : Nat} {g : List VBits → MBits → VBits → (Nat → Nat) → VBits}
    {body : CM Unit} (hx : exec i s = onCtx s body) (hb : body s.cur = vForm l d srcs m readsD keeps rm n g s.cur) (h2 : srcs.length ≤ 2)
    {g' : (Nat → Nat) → VBits → VBits → MBits → VBits → VBits}
    (hg : ∀ x y mk z rho, g ((if srcs.length = 0 then [] else if srcs.length = 1 then [x] else [x, y])) mk z rho = g' rho x y mk z) :
    VFormIs i s l d srcs m readsD keeps rm n (fun _ _ => True) g' := by
  intro rs mk c hs hz z t ls x y r hn _ hroom hfit
  obtain ⟨q, hp, hl, hv, hm⟩ := hs
  rw [hx]
  apply onCtx_next
  rw [hb]
  have hold : (if readsD then rdV l TReg.invalid d else oldV l d : CM (TReg 1024)) c = .ok (z, c) := by
    cases hb : readsD
    · simpa using oldV_run c l d
    · obtain ⟨hd, hval⟩ := hz hb
      have : c.HoldsV l TReg.invalid d z := by
        unfold Ctx.HoldsV
        rw [if_neg hd]
        exact ⟨by simp [z, Ctx.oldL, hval], by simp [z, Ctx.oldL, hval]⟩
      simpa using rdV_run this
  have hshape : ∀ e, (rs.map fun r => r.at' ls t e)
      = if srcs.length = 0 then [] else if srcs.length = 1 then [x e] else [x e, y e] := by
    intro e
    rcases rs with _ | ⟨r0, _ | ⟨r1, _ | ⟨r2, rs⟩⟩⟩ <;> simp at hl
    · simp [← hl]
    · simp [← hl, x]
    · simp [← hl, x, y]
    · omega
  have hrun := vRun_run (c := c) (l := l) (d := d) (t := t) (z := z) (rm := rm) (n := n) (ok := fun _ => True)
    (f := fun e => do
      let rho ← takeDraws rm n
      return g (rs.map fun r => r.at' c.sq.lifts t e) (mk.at' c.sq.lifts t e) (z.at' c.sq.lifts t e) rho)
    (h := fun e rho => g' rho (x e) (y e) (mk.at' ls t e) (z.at' ls t e)) ?_ (fun _ _ => trivial) hn hroom hfit
  · simp only [vForm, CM.bind_run, popIfV_run hp, mapM_rdV srcs rs hl hv, rdM_run hm]
    cases readsD <;> simp only [if_true, if_false, Bool.false_eq_true] at hold ⊢ <;>
      simp only [CM.bind_run, hold, CM.get_run] <;> exact hrun
  intro e c' _
  simp only [CM.bind_run, takeDraws_run, CM.pure_run]
  have := hg (x e) (y e) (mk.at' ls t e) (z.at' ls t e) (c'.drawsOf rm n 0)
  rw [← this, ← hshape]

end Sys2Proof.Machine
end

