-- ==== Sys2Proof/Tests/Slice0.lean ====
section
/-!
SUPPORT. Sys2Proof/Tests/Slice0.lean: for each statement with hypotheses, states and operands of one small world that meet them all
(witness_...); words written out from the spec's encodings and what they decode to; terms that well-formedness refuses; and a few
results, each of one instruction, that the spec's examples give or that are worked by hand from its rules (test_...).
-/

set_option Elab.async false

namespace Sys2Proof.Tests

open Sys2Proof.Machine

/-! ### A small world -/

/-- Memory from 64-bit words by address. -/
def memOf (ws : List (Nat × Nat)) : List Host.Cell := ws.foldl (fun m w => Mem.putN m w.1 w.2 8) []

/-- The words of a descriptor from the encoding of R238: class, EFMT, W, rank, binding, shape, tile, table, word 6. -/
def descWords (a cls efmt rank bnd bdim s0 s1 t0 t1 tab w6 : Nat) : AMap W64 :=
  [(a, BitVec.ofNat 64 (2 ^ 63 + cls * 2 ^ 60 + efmt * 2 ^ 55 + 2 ^ 54 + (rank - 1) * 2 ^ 52 + bnd * 2 ^ 51 + bdim * 2 ^ 49)),
   (a + 8, BitVec.ofNat 64 (s0 + s1 * 2 ^ 32)), (a + 16, BitVec.ofNat 64 (1 + 2 ^ 32)),
   (a + 24, BitVec.ofNat 64 (t0 - 1 + (t1 - 1) * 2 ^ 16)), (a + 32, BitVec.ofNat 64 tab),
   (a + 40, BitVec.ofNat 64 ((s0 + t0 - 1) / t0 * ((s1 + t1 - 1) / t1))), (a + 48, BitVec.ofNat 64 w6)]

/-- Seven tensors at 0x1000, which the layout units of die 0 hold: f32 of 64; f32 of 32 by 4, bound; a FILT bank of 8 words; a log of a
page; host-shared f32; n64 of 8,192; n8 of 64.  Their tiles are the pages 2 to 8. -/
def lu0 : AMap W64 :=
  descWords 0x1080 0 0 1 0 0 64 1 64 1 0x8000 0 ++ descWords 0x1100 0 0 2 1 1 32 4 32 4 0x8010 0
    ++ descWords 0x1180 1 24 1 0 0 8 1 8 1 0x8020 0x3000 ++ descWords 0x1200 2 10 1 0 0 16384 1 16384 1 0x8030 0x3800
    ++ descWords 0x1280 3 0 1 0 0 64 1 64 1 0x8040 0 ++ descWords 0x1300 0 12 1 0 0 8192 1 8192 1 0x8050 0
    ++ descWords 0x1380 0 8 1 0 0 64 1 64 1 0x8060 0 ++ (List.range 7).map (fun i => (0x8000 + 16 * i, BitVec.ofNat 64 (2 ^ 63 + i + 2)))

/-- One bundle of code at offset 32: ADDI s1, s1, 7 in four slots; a bank; the last entry of a segment table of 8. -/
def mem0 : List Host.Cell := memOf [(0x4420, 0x20982107), (0x4428, 0x8000000000000000), (0x3020, 2 ^ 63), (0x5038, 2 ^ 63 + 5 * 2 ^ 32 + 0xABC)]

def launch0 : Launch :=
  { Launch.none with img := 0x4000, codeSize := 0x100, tab := 0x1000, tabLen := 8, segTab := 0x5000, segLen := 8, semBase := 16, semCnt := 4, n := 1, need := 1,
                     running := true }

def inst0 : Inst := { Inst.none with launch := 1, placed := true, need := 1 }

/-- Registers with something in each: 4 in c1, 3 in s1 and s2, 5 in a1. -/
def files0 : Files :=
  { Files.empty with
    c := [(1, ⟨true, 4⟩), (15, ⟨true, 8⟩)], a := [(1, ⟨true, 1 <<< 48⟩)], s := [(1, ⟨true, 6⟩), (2, ⟨true, 4⟩)],
    e := [], x := [(1, ⟨true, 7⟩)], p := [(1, ⟨true, 1⟩), (2, ⟨true, 0⟩)], v := [(1, ⟨true, 0, 5, []⟩)], w := [(1, ⟨true, 0, 6, []⟩)],
    m := [], t := [(1, ⟨true, 0, 9, []⟩)], k := [(1, { Iter.invalid with valid := true, handle := 1 })] }

def ctx0 : Ctx := { Ctx.free with st := .active, launch := 1, inst := 1, atLaunch := true, files := files0 }

/-- The state with context 0 of core 0 as `c`, in the small world. -/
def world (c : Ctx) : State :=
  { State.reset with mem := mem0, mp := { MemPath.empty with lu := lu0 }, ctxs := [(0, c)],
                     dist := { Dist.empty with launches := [(1, launch0)], insts := [(1, inst0)] } }

/-- The state that a meaning answers, and that it answers it with `v`. -/
def after {α : Type} (m : M α) (s : State) : State := match m s with | .ok (_, t) => t | .error _ => s
theorem ok_after {α : Type} [DecidableEq α] {m : M α} {s : State} {v : α}
    (h : (match m s with | .ok (x, _) => decide (x = v) | .error _ => false) = true) : m s = .ok (v, after m s) := by
  unfold after
  cases hm : m s with
  | error e => simp [hm] at h
  | ok r => simp only [hm, decide_eq_true_eq] at h; subst h; rfl
/-- The same for a meaning that itself answers a value or a fault. -/
theorem ok_after' {α ε : Type} [DecidableEq α] {m : M (Except ε α)} {s : State} {v : α}
    (h : (match m s with | .ok (.ok x, _) => decide (x = v) | _ => false) = true) : m s = .ok (.ok v, after m s) := by
  unfold after
  cases hm : m s with
  | error e => simp [hm] at h
  | ok r =>
    obtain ⟨x, t⟩ := r
    cases x with
    | error e => simp [hm] at h
    | ok x => simp only [hm, decide_eq_true_eq] at h; subst h; rfl
theorem ok_of {α ε : Type} [DecidableEq α] {x : Except ε α} {v : α}
    (h : (match x with | .ok r => decide (r = v) | .error _ => false) = true) : x = .ok v := by
  cases x with
  | error e => cases h
  | ok r => simpa using h

/-- A meaning that answers none and changes what the layout units hold alone. -/
theorem ok_none {α : Type} {m : M (Option α)} {s : State}
    (h : (match m s with | .ok (none, u) => decide (u = s.withLu u.mp.lu) | _ => false) = true) : ∃ lu, m s = .ok (none, s.withLu lu) := by
  cases hm : m s with
  | error e => simp [hm] at h
  | ok r =>
    obtain ⟨x, u⟩ := r
    cases x with
    | none => simp only [hm, decide_eq_true_eq] at h; exact ⟨u.mp.lu, by rw [← h]⟩
    | some x => simp [hm] at h
/-- A meaning that answers, whatever its answer. -/
theorem ok_any {α ε : Type} {x : Except ε α} (h : (match x with | .ok _ => true | .error _ => false) = true) : ∃ v, x = .ok v := by
  cases x with
  | error e => cases h
  | ok r => exact ⟨r, rfl⟩

/-- A filled entry of a load queue. -/
def entry {w : Nat} (v : BitVec w) : QEnt w := { QEnt.fresh 9 1 false 0 0 with data := some v }

def q0 : Queues := ⟨[entry 3], [entry 3], [entry 3], List.replicate 8 (entry 3)⟩
/-- Coordinate 0 of a tensor. -/
def zeroC : Coord := ⟨0, 0, 0, 0⟩
/-- Address `a` of the cluster scratchpad as a command's side. -/
def scr (a : Nat) : W64 := BitVec.ofNat 64 (0xFFFF * 2 ^ 48 + a)
/-- The small world without the entry of tensor `n`'s page, or with another entry there. -/
def worldEntry (c : Ctx) (n : Nat) (w : W64) : State :=
  { world c with mp := { MemPath.empty with lu := (0x7FF0 + 16 * n, w) :: lu0 } }

/-! ### Witnesses: scalar and joiner forms -/

/-! ### Witnesses: each statement's hypotheses are met -/

theorem room0 {v : Saved} : ctx0.Room v := .inr (.inr (by decide))

theorem witness_ScalarTwoSourceForms : (world ctx0).cur.sq.region = none ∧ (world ctx0).cur.PopsS [1, 2] 0 ctx0 ∧ ctx0.HoldsS 0 1 6
    ∧ ctx0.HoldsS 0 2 4 ∧ ctx0.Room (ctx0.savedS 3) := ⟨rfl, ⟨rfl, rfl⟩, rfl, rfl, room0⟩

/-- The same with register 31 as a source: the entry popped. -/
def popped0 : Ctx := { ctx0 with queues := q0 }
theorem witness_ScalarTwoSourceForms_pop : (world popped0).cur.PopsS [31, 2] 3 { popped0 with queues := { q0 with qs := [] } }
    ∧ ({ popped0 with queues := { q0 with qs := [] } } : Ctx).HoldsS 3 31 3 :=
  ⟨⟨entry 3, [], ⟨[], [], rfl, by simp, rfl, rfl, by decide, by decide, by decide, rfl⟩, rfl, rfl⟩, rfl⟩

def ctxDiv : Ctx := { ctx0 with files := { files0 with s := [(1, ⟨true, 1 <<< 63⟩), (2, ⟨true, -1⟩), (3, ⟨true, 0⟩)] } }
theorem witness_DivisionCorners : (world ctxDiv).cur.PopsS [1, 3] 0 ctxDiv ∧ ctxDiv.HoldsS 0 1 (1 <<< 63) ∧ ctxDiv.HoldsS 0 3 0
    ∧ ctxDiv.HoldsS 0 2 (-1) ∧ (1 <<< 63 : W64).toInt = -2 ^ 63 ∧ ctxDiv.Room (ctxDiv.savedS 4) :=
  ⟨⟨rfl, rfl⟩, rfl, rfl, rfl, by decide, .inr (.inr (by decide))⟩

theorem witness_BitFieldForms : (2 : BitVec 5) ≠ 31 ∧ (world ctx0).cur.PopsS [1, 2] 0 ctx0 ∧ ctx0.regS (2 : BitVec 5).toNat = ⟨true, 4⟩
    ∧ ctx0.Room (ctx0.savedS 2) := ⟨by decide, ⟨rfl, rfl⟩, rfl, room0⟩

theorem witness_ScalarOneSourceFormsAndMoves : (world ctx0).cur.PopsS [1] 0 ctx0 ∧ ctx0.HoldsS 0 1 6 ∧ ctx0.Room (ctx0.savedS 3)
    ∧ (world ctx0).cur.HoldsP ((1 : BitVec 3).setWidth 4) true ∧ (2 : BitVec 5) ≠ 31 ∧ ctx0.regS 2 = ⟨true, 4⟩ :=
  ⟨⟨rfl, rfl⟩, rfl, room0, rfl, by decide, rfl⟩

theorem witness_ComparesAndPredicateLogic : (world ctx0).cur.PopsS [1, 2] 0 ctx0 ∧ ctx0.HoldsS 0 1 6 ∧ ctx0.HoldsS 0 2 4
    ∧ ctx0.Room ctx0.savedP ∧ ctx0.HoldsP 1 true ∧ ctx0.HoldsP 2 false := ⟨⟨rfl, rfl⟩, rfl, rfl, room0, rfl, rfl⟩

/-- A context in a masked region under a lift of four examples, with the registers 2 tagged. -/
def lift0 : LiftEnt := ⟨4, 0x20, 0⟩
def files1 : Files := { files0 with v := [(1, ⟨true, 0, 5, []⟩), (2, ⟨true, 1, 1, [2, 3, 4]⟩)], m := [(2, ⟨true, 1, 1, [0, 1, 0]⟩)] }
def ctxLift : Ctx := { ctx0 with files := files1, sq := { Seqr.zero with pc := 16, after := 32, lifts := [lift0] } }
def ctxRegion : Ctx := { ctxLift with sq := { ctxLift.sq with region := some ⟨false, 5⟩ } }
theorem witness_ScalarFormsStop : (world ctxRegion).cur.sq.region ≠ none ∧ (Instr.add 1 2 3).lane = some .S
    ∧ (Instr.mark 3).lane = some .C ∧ (Instr.jpm 1 2).lane = some .J := ⟨by decide, rfl, rfl, rfl⟩
/-- A LIFT.R of a count that is too great, in the region: lift faults 1 and 2, of which 1 is reported. -/
theorem witness_ScalarFormsStop_lift : (world ctxRegion).cur.overflows (.liftR 3 1) = false
    ∧ (world { ctxRegion with files := { files1 with c := [(1, ⟨true, 65⟩)] } }).cur.overflows (.liftR 1 1) = true := by decide
theorem witness_ScalarFormsStop_invalid : (world ctx0).cur.sq.region = none ∧ (3 : BitVec 5) ≠ 31 ∧ (ctx0.regS 3).valid = false
    ∧ (ctx0.regC 3).valid = false ∧ (Ctx.free.regC 15).valid = false ∧ ctx0.queues.qs = [] ∧ (31 : BitVec 5) ∈ [31, 2] :=
  ⟨rfl, by decide, rfl, rfl, rfl, rfl, by decide⟩
theorem witness_ScalarFormsStop_forms : (ctx0.pred 9).valid = false ∧ (ctx0.pred 1).valid = true ∧ (ctx0.regA 9).valid = false
    ∧ (ctx0.regE 9).valid = false ∧ (ctx0.regX 5).valid = false ∧ (ctx0.regL (jLane 3) 9).valid = false
    ∧ (ctx0.regL (jLane 4) 9).valid = false ∧ (9 : BitVec 5) ≠ 31 := by decide

theorem witness_JoinerForms : (world ctx0).cur.PopsJ 2 1 0 ctx0 ∧ ctx0.HoldsJ 2 0 1 6 ∧ ctx0.Room (ctx0.savedJ 0 1)
    ∧ (world ctx0).cur.PopsJ 0 1 0 ctx0 ∧ ctx0.HoldsJ 0 0 1 4 := ⟨⟨rfl, rfl⟩, rfl, room0, ⟨rfl, rfl⟩, ⟨4, rfl, rfl⟩⟩
theorem witness_JoinerForms_lanes : ctx0.PopsV (jLane 3) [1] TReg.invalid ctx0 ∧ ctx0.HoldsV (jLane 3) TReg.invalid 1 ⟨true, 0, 5, []⟩
    ∧ ctx0.Room (ctx0.savedL (jLane 4) 2) ∧ (ctx0.putL (jLane 4) 2 ⟨true, 0, 5, []⟩).Fits (⟨true, 0, 5, []⟩ : TReg 1024)
    ∧ ctxLift.HoldsV .v TReg.invalid 2 ⟨true, 1, 1, [2, 3, 4]⟩ ∧ (3 : BitVec 6).toNat < exCount ctxLift.sq.lifts 1
    ∧ ctx0.HoldsM ((1 : BitVec 5).setWidth 3) (ctx0.mask 1) ∧ (ctx0.mask 1).tag = 0 :=
  ⟨⟨rfl, rfl⟩, ⟨rfl, rfl⟩, room0, .inl rfl, ⟨rfl, rfl⟩, by decide, ⟨rfl, rfl⟩, rfl⟩

/-! ### Witnesses: vector forms -/

def z5 : TReg 1024 := ⟨true, 0, 5, []⟩
def all : TReg 128 := ctx0.mask 0

/-- The premises of `VFormIs`, which every statement of the V and W lanes shares: untagged, popping, and under a lift. -/
theorem witness_VFormIs : (world ctx0).cur.Sources .v [1] 0 [z5] all ctx0 ∧ (world ctx0).cur.Sources .v [1, 1] 0 [z5, z5] all ctx0
    ∧ (1 : BitVec 5) ≠ 31 ∧ (ctx0.regL .v 1).valid = true ∧ exCount ctx0.sq.lifts (ctx0.resultTag [z5, z5] all z5 true) ≤ 129
    ∧ ctx0.Room (ctx0.savedL .v 2) ∧ ∀ f, (ctx0.putL .v 2 (ctx0.widened 0 TReg.invalid f)).Fits (ctx0.widened 0 TReg.invalid f) :=
  ⟨⟨TReg.invalid, ⟨rfl, rfl⟩, rfl, by simp; exact ⟨rfl, rfl⟩, rfl, rfl⟩, ⟨TReg.invalid, ⟨rfl, rfl⟩, rfl, by simp; exact ⟨rfl, rfl⟩, rfl, rfl⟩,
    by decide, rfl, by decide, room0, fun _ => .inl rfl⟩
/-- The same under a lift of four examples, in a region whose example 1 is inactive: the copies fit. -/
def z4 : TReg 1024 := ⟨true, 1, 1, [2, 3, 4]⟩
theorem witness_VFormIs_lift : (world ctxRegion).cur.Sources .v [2] 0 [z4] (ctxRegion.mask 0) ctxRegion
    ∧ exCount ctxRegion.sq.lifts (ctxRegion.resultTag [z4] all z5 true) = 4 ∧ ctxRegion.Room (ctxRegion.savedL .v 3)
    ∧ (ctxRegion.putL .v 3 (ctxRegion.widened 1 TReg.invalid fun e => z4.at' ctxRegion.sq.lifts 1 e)).Fits
        (ctxRegion.widened 1 TReg.invalid fun e => z4.at' ctxRegion.sq.lifts 1 e) :=
  ⟨⟨TReg.invalid, ⟨rfl, rfl⟩, rfl, by simp; exact ⟨rfl, rfl⟩, rfl, rfl⟩, by decide, .inr (.inr (by decide)), .inr (by decide)⟩

theorem witness_FloatForms : (EFmt.ofCode (fmtVS 0x00)).isFlt = true ∧ (EFmt.ofCode (fmtVS 0x00)).width = (EFmt.ofCode (fmtVD 0x00)).width
    ∧ (EFmt.ofCode (fmtVS 0x21)).isFlt = true ∧ (EFmt.ofCode (fmtVS 0x21)).width = (EFmt.ofCode (fmtVD 0x21)).width := by decide
theorem witness_IntegerForms : ∃ i, (world ctx0).cur.Sources .v [1] 0 i all ctx0 := ⟨_, witness_VFormIs.1⟩
theorem witness_MovementForms : (191 : BitVec 8).toNat < 192 ∧ (EFmt.ofCode (fmtVS 6)).isFlt = false ∧ (EFmt.ofCode (fmtVS 6)).width ≠ 8
    ∧ (EFmt.ofCode (fmtVS 6)).width ≠ 32 := by decide
theorem witness_ConversionAndMxForms : (EFmt.ofCode (fmtVS 0)).width = (EFmt.ofCode (fmtVD 0)).width
    ∧ (0 : BitVec 5).toNat < 32 / 16 / 2 ∧ (EFmt.ofCode (fmtVS 0x01)).width < (EFmt.ofCode (fmtVD 0x01)).width
    ∧ (EFmt.ofCode (fmtVD 0x10)).width < (EFmt.ofCode (fmtVS 0x10)).width ∧ fmtVS 0 = 0
    ∧ (elem 32 (4 * 2 ^ 28 + 0xFFF00 : VBits) 0 / 2 ^ 28 = 4 ∧ elem 32 (4 * 2 ^ 28 + 0xFFF00 : VBits) 0 / 2 ^ 20 % 256 = 0)
    ∧ elem 32 (3 * 2 ^ 28 + 127 : VBits) 0 / 2 ^ 28 ≤ 4 ∧ elem 32 (3 * 2 ^ 28 + 127 : VBits) 0 / 256 % 4096 = 0 := by decide +kernel
theorem witness_VectorComparesAndMaskLogic : (world ctx0).cur.PopsV .v [1, 1] TReg.invalid ctx0 ∧ ctx0.HoldsV .v TReg.invalid 1 z5
    ∧ ctx0.HoldsM 0 all ∧ (EFmt.ofCode (fmtVS ctx0.sq.fmt)).isFlt = true ∧ exCount ctx0.sq.lifts 0 ≤ 1025 ∧ ctx0.Room (ctx0.savedM 2)
    ∧ (∀ f : Nat → MBits, (ctx0.widened 0 TReg.invalid f).copies = [])
    ∧ (ctx0.putM 2 all).Room ((ctx0.putM 2 all).savedM 3) ∧ ctx0.HoldsM ((1 : BitVec 5).setWidth 3) (ctx0.mask 1) :=
  ⟨⟨rfl, rfl⟩, ⟨rfl, rfl⟩, ⟨rfl, rfl⟩, rfl, by decide, room0, fun _ => rfl, .inr (.inr (by decide)), ⟨rfl, rfl⟩⟩
theorem witness_ReductionForms : (EFmt.ofCode (fmtVS ctx0.sq.fmt)).isFlt = true
    ∧ (world ctxLift).cur.Sources .v [1] 0 [z5] (ctxLift.mask 0) ctxLift ∧ z5.tag &&& innerTag ctxLift.sq.lifts = 0
    ∧ (world ctxLift).cur.Sources .v [2] 0 [z4] (ctxLift.mask 0) ctxLift ∧ z4.tag &&& innerTag ctxLift.sq.lifts ≠ 0
    ∧ (ctxLift.mask 0).tag &&& innerTag ctxLift.sq.lifts = 0 ∧ ctxRegion.sq.region.isSome = true
    ∧ (ctxRegion.oldL .v 3).tag &&& innerTag ctxRegion.sq.lifts = 0 ∧ exCount ctxLift.sq.lifts ((z4.tag ||| 0 ||| 0) &&& ~~~1) ≤ 129
    ∧ ctxLift.Room (ctxLift.savedL .v 3) ∧ ∀ x, (ctxLift.putL .v 3 (TReg.ofExamples 0 x)).Fits (TReg.ofExamples 0 x : TReg 1024) :=
  ⟨rfl, ⟨TReg.invalid, ⟨rfl, rfl⟩, rfl, by simp; exact ⟨rfl, rfl⟩, rfl, rfl⟩, by decide,
    ⟨TReg.invalid, ⟨rfl, rfl⟩, rfl, by simp; exact ⟨rfl, rfl⟩, rfl, rfl⟩, by decide, by decide, rfl, by decide, by decide, .inr (.inr (by decide)),
    fun _ => .inl rfl⟩
theorem witness_IndexAndRandomForms : ctx0.HoldsM 0 all ∧ exCount ctx0.sq.lifts (ctx0.resultTag [] all TReg.invalid false) ≤ 129
    ∧ ctx0.Room (ctx0.savedL .v 2) ∧ (∀ f, (ctx0.putL .v 2 (ctx0.widened 0 TReg.invalid f)).Fits (ctx0.widened 0 TReg.invalid f))
    ∧ EFmt.ofCode (fmtVD ctx0.sq.fmt) = .flt fp32 := ⟨⟨rfl, rfl⟩, by decide, room0, fun _ => .inl rfl, rfl⟩

/-! ### Witnesses: control, lifts, service, segments -/

theorem witness_BranchesCallsReturns : ctx0.HoldsC 1 4 ∧ ctx0.HoldsC 15 8 ∧ ctx0.Room (ctx0.savedC 15)
    ∧ (0xFC : W32).toNat % 4 = 0 ∧ (0xFC : W32).toNat < ((world ctx0).launchOf 0).codeSize
    ∧ ¬ (0x100 : W32).toNat < ((world ctx0).launchOf 0).codeSize := ⟨rfl, rfl, room0, by decide, by decide, by decide⟩

def ctxCode : Ctx := { ctx0 with sq := { Seqr.zero with pc := 16, npc := 32, after := 32 } }
def level0 : Level := { start := 16, stop := 48, count := 3, index := 1, rot := false, depthE := 0 }
def ctxLoop (n : Nat) : Ctx := { ctxCode with sq := { ctxCode.sq with loops := List.replicate n level0 } }
theorem witness_LoopLevels : frameBody launch0 1 true 32 (world (ctxLoop 5)) = .ok (([0], false, 48), world (ctxLoop 5))
    ∧ (∀ o, (ctxLoop 5).sq.loops.getLast? = some o → 48 ≤ o.stop.toNat) ∧ (ctxLoop 5).sq.loops.length < 6
    ∧ ¬ (ctxLoop 6).sq.loops.length < 6 ∧ (ctxLoop 5).HoldsC 1 4 :=
  ⟨ok_of (by decide +kernel), by intro o h; cases h; decide, by decide, by decide, rfl⟩
theorem witness_LoopLevels_break : (ctxLoop 6).sq.loops[(ctxLoop 6).sq.loops.length - 6]? = some level0
    ∧ (ctxLoop 0).sq.loops.length < 1 ∧ ({ ctx0 with files := { files0 with c := [(1, ⟨true, 0⟩)] } } : Ctx).HoldsC 1 0
    ∧ 6 < (7 : W32).toNat ∧ (ctxLoop 3).sq.loops.reverse[2]? = some level0 ∧ (ctxLoop 3).sq.loops.length ≤ (3 : BitVec 3).toNat
    ∧ (ctxLoop 3).Room ((ctxLoop 3).savedC 2) := ⟨rfl, by decide, rfl, by decide, rfl, by decide, .inr (.inr (by decide))⟩

theorem witness_FormatForms : ctx0.HoldsC 1 4 ∧ fmtLegal 4 = true ∧ fmtLegal 11 = false ∧ fmtLegal 0x70AA = false
    ∧ ctx0.Room (ctx0.savedC 2) := ⟨rfl, by decide, by decide, by decide, room0⟩

theorem witness_ParkingAbortingMoving : (world ctx0).GateClear ∧ ¬ (world { ctx0 with fl := { Flight.empty with
    gate := [⟨.ckpt 0 none, 1, 0⟩] } }).GateClear ∧ (8 : BitVec 4).toNat ≤ 8 ∧ 8 < (9 : W32).toNat :=
  ⟨⟨rfl, .inr (by intro i h; cases h)⟩, fun h => (by cases h.1), by decide, by decide⟩
theorem witness_ParkingAbortingMoving_end :
    ((world { ctx0 with wait := .park }).ctx 0).wait = .park ∧ ((world { ctx0 with wait := .park }).ctx 0).live = true
    ∧ ((world { ctx0 with wait := .park }).ctx 0).more = [] ∧ (world { ctx0 with wait := .halt }).quiet 0 = true ∧ ((world { ctx0 with sq := { Seqr.zero with cd := 1 } }).ctx 0).sq.cd ≠ 0
    ∧ ({ world ctx0 with cores := [(0, { Core.clear with phase := some ⟨0x70000, 0, 0, 9⟩ })] } : State).core 0
        = { Core.clear with phase := some ⟨0x70000, 0, 0, 9⟩ } ∧ Core.clear.blocks = []
    ∧ ((world ctx0).inst 1).abort = none := ⟨rfl, rfl, rfl, by decide, by decide, rfl, rfl, rfl⟩
def worldAbort : State := { world ctx0 with dist := { (world ctx0).dist with insts := [(1, { inst0 with abort := some [(0, 0)] })] },
                                            cores := [(0, { Core.clear with clk := 64 })] }
theorem witness_ParkingAbortingMoving_line : (worldAbort.inst 1).abort = some [(0, 0)]
    ∧ AMap.get 0 [(0, 0)] (coreOf worldAbort.focus) + 64 ≤ (worldAbort.core 0).clk := ⟨rfl, by decide⟩
/-- The line rose in this clock, by a context of a higher number. -/
def worldTie : State := { world ctx0 with
  dist := { (world ctx0).dist with insts := [(1, { inst0 with abort := some [(0, 0)], abortBy := 1 })],
                                   launches := [(1, { launch0 with aborted := true, abortInst := 1 })] } }
theorem witness_ParkingAbortingMoving_tie : (worldTie.inst 1).abort = some [(0, 0)]
    ∧ AMap.get 0 [(0, 0)] (coreOf worldTie.focus) = (worldTie.core 0).clk ∧ worldTie.focus < (worldTie.inst 1).abortBy
    ∧ (worldTie.launch 1).abortInst = 1 := ⟨rfl, rfl, by decide, rfl⟩

theorem witness_LiftForms : (world ctx0).cur.sq.region = none ∧ ctx0.HoldsC 1 4 ∧ ctx0.sq.lifts.length < 3 ∧ (64 : W32).toNat ≤ 64
    ∧ ctxLift.sq.lifts.getLast? = some lift0 ∧ ctxLift.sq.loops.length = lift0.ldp
    ∧ ctxLift.queues.holdAxis (innerTag ctxLift.sq.lifts) = false ∧ ctxLift.seg.log.length + 2 ≤ 64 :=
  ⟨rfl, rfl, by decide, by decide, rfl, rfl, rfl, by decide⟩

theorem witness_BatchedBranches : (world ctxLift).cur.sq.region = none ∧ ctxLift.HoldsP 1 true ∧ ctxLift.HoldsP 2 false
    ∧ ctxLift.HoldsM 2 ⟨true, 1, 1, [0, 1, 0]⟩ ∧ ctxLift.sq.lifts ≠ [] ∧ (1 : BitVec 3) = innerTag ctxLift.sq.lifts
    ∧ ctx0.HoldsM 1 (ctx0.mask 1) ∧ ctx0.sq.lifts = [] ∧ (world ctxRegion).cur.sq.region = some ⟨false, 5⟩
    ∧ ({ ctxLift with sq := { ctxLift.sq with region := some ⟨true, 10⟩ } } : Ctx).sq.region = some ⟨true, 10⟩ :=
  ⟨rfl, rfl, rfl, ⟨rfl, rfl⟩, by decide, by decide, ⟨rfl, rfl⟩, rfl, rfl, rfl⟩

def frame0 : Frame := ⟨0x40, Reg.invalid, Reg.invalid, Reg.invalid, Reg.invalid, 0, 0, 0, 0, false⟩
def worldServe : State := { world ctx0 with dist := { (world ctx0).dist with launches := [(1, { launch0 with service := some 0x80 })] } }
theorem witness_ServiceEntryAndReturn : worldServe.GateClear ∧ (worldServe.launchOf 0).service = some 0x80 ∧ ctx0.seg.log.length ≤ 61
    ∧ ((world ctx0).launchOf 0).service = none ∧ ctx0.frame = none ∧ ctx0.HoldsC 1 4
    ∧ ({ ctx0 with frame := some frame0 } : Ctx).frame.isSome = true :=
  ⟨⟨rfl, .inr (by intro i h; cases h)⟩, rfl, by decide, rfl, rfl, rfl, rfl⟩
def ctxServe : Ctx := { ctx0 with frame := some frame0, priv := true }
theorem witness_ServiceEntryAndReturn_eret : ctxServe.priv = true ∧ ctxServe.frame = some frame0 ∧ ctxServe.sq.loops.length = frame0.depth
    ∧ ctxServe.fl.loads = [] ∧ ({ frame0 with depth := 1 } : Frame).depth ≠ ctxServe.sq.loops.length ∧ ctx0.priv = false
    ∧ ({ ctx0 with priv := true } : Ctx).frame = none := ⟨rfl, rfl, rfl, rfl, by decide, rfl, rfl⟩

def ctxGate : Ctx := { ctx0 with fl := { Flight.empty with gate := [⟨.store (.tensor 1 Coord.zero) false 7 false false 0, 1, 0⟩] } }
theorem witness_MarkForms : (world ctxGate).cur.sq.region = none ∧ ((world ctxGate).issue.words.filter fun w => !isVoidWord w).length ≤ 1
    ∧ ctxGate.frame = none ∧ (7 : BitVec 14).toNat < launch0.segLen ∧ ctxGate.fl.loads = [] ∧ ctxGate.fl.commits = []
    ∧ ctxGate.fl.trussFault = none ∧ ctxGate.seg.mismatch = false ∧ ctxGate.wait = .none ∧ ctxGate.more = []
    ∧ (∃ lu, badGate 0 ctxGate.fl.gate ((world ctxGate).setCur ctxGate) = .ok (none, ((world ctxGate).setCur ctxGate).withLu lu))
    ∧ addrOk (launch0.segTab + 8 * 7) 8 = true ∧ ((world ctx0).inst 1).abort = none ∧ ctx0.fl.gate = [] ∧ ctxGate.fl.ckrs = none :=
  ⟨rfl, by decide, rfl, by decide, rfl, rfl, rfl, rfl, rfl, rfl, ok_none (by decide +kernel), by decide, rfl, rfl, rfl⟩
theorem witness_MarkForms_done : ((world { ctx0 with wait := .commit }).ctx 0).fl.commits = []
    ∧ (world { ctx0 with wait := .commit }).commitOpen 0 = true ∧ ((world { ctx0 with wait := .commit }).ctx 0).wait = .commit
    ∧ ((world ctx0).inst 1).abort = none := ⟨rfl, by decide, rfl, rfl⟩
theorem witness_MarkForms_faults : ¬ (([0x10050000, 0x807C0003] : List Nat).filter fun w => !isVoidWord w).length ≤ 1
    ∧ launch0.segLen ≤ (8 : BitVec 14).toNat ∧ ctxServe.frame.isSome = true := ⟨by decide, by decide, rfl⟩

theorem witness_JointsAndCheckpoints : ctx0.HoldsC 1 4 ∧ (AMap.get (⟨1, []⟩ : Joint) (inst0.joints) 0).members = 1
    ∧ (AMap.get (⟨2, []⟩ : Joint) [(0, ⟨3, [5]⟩)] 0).members ≠ 2 ∧ (128 * (3552 : BitVec 13).toNat) % 128 = 0
    ∧ (world ctx0).drained 0 = true ∧ 128 * (3552 : BitVec 13).toNat + 4096 ≤ Core.clear.scrSize ∧ Core.clear.moving (128 * 3552) 4096 = false ∧ ctx0.GateRoom 1
    ∧ Core.clear.scrSize < 128 * (3553 : BitVec 13).toNat + 4096 ∧ (4 : W32).toNat % 128 ≠ 0 :=
  ⟨rfl, rfl, by decide, by decide, by decide, by decide, by decide, .inr (by decide), by decide, by decide⟩
def worldJoin : State := { world { ctx0 with wait := .join 2 1 } with
  dist := { (world ctx0).dist with insts := [(1, { inst0 with joints := [(131072, ⟨1, [0]⟩)] })] } }
theorem witness_JointsAndCheckpoints_release : (worldJoin.ctx 0).wait = .join 2 1 ∧ worldJoin.joinOpen 0 2 1 = true := ⟨rfl, by decide⟩

theorem witness_Rollback : ((world { ctx0 with wait := .rewind }).ctx 0).wait = .rewind
    ∧ (world { ctx0 with wait := .rewind }).youngCalls 0 = false ∧ (world { ctx0 with wait := .rewind }).awaitsMove 0 = false :=
  ⟨rfl, by decide, by decide⟩
def ctxMark : Ctx := { ctx0 with seg := { Segment.start with snap := ctx0.snapshot } }
theorem witness_RollbackRestoresRegisters : ctxMark.frame = none ∧ ctxMark.seg.log = [] ∧ ctxMark.seg.snap = ctxMark.snapshot
    ∧ Ctx.Wrote ctxMark ((ctxMark.putS 1 9).putP 2 true) :=
  ⟨rfl, rfl, rfl, .p 2 true (.s 1 9 (.none _) (.inr (.inr (by decide)))) (.inr (.inr (by decide)))⟩

/-! ### Witnesses: accesses -/

/-- A target that names element `x` of a tensor of the small world passes the checks of a form whose own checks it meets. -/
theorem accepts (k : Ask) (c : Ctx) (h : BitVec 16) (a : Option Coord) (n : Nat) (x : Coord)
    (h1 : handleOk ((world c).launchOf (world c).focus) h = true)
    (h2 : addrOk (descAddr ((world c).launchOf (world c).focus) h) 128 = true
      ∧ addrOk (descAddr ((world c).launchOf (world c).focus) (BitVec.ofNat 16 ((world c).tensor h).scale)) 128 = true)
    (h3 : (world c).descOk (coreDie (coreOf (world c).focus)) ((world c).launchOf (world c).focus) ((world c).tensor h) = true) (h4 : x = a.getD (((world c).tensor h).ofOffset n))
    (h5 : (k.cls ((world c).tensor h) && k.form && k.width ((world c).tensor h) && k.fmt ((world c).tensor h)
      && k.align ((world c).tensor h) x) = true)
    (h6 : (match a with | some c' => ((world c).tensor h).inside c' | none => decide (n < ((world c).tensor h).elems)) = true) :
    k.Accepts (world c) ⟨h, a, n, 0⟩ x := by
  simp only [Bool.and_eq_true] at h5
  refine ⟨⟨h1, h2, h3, h4, h5.1.1.1.1, h5.1.1.1.2, h5.1.1.2, h5.1.2⟩, ?_, h5.2⟩
  cases a with
  | none => simpa using h6
  | some c' => exact h6

def loadAsk (strong : Bool) (q : BitVec 2) : Ask :=
  { cls := fun d => d.cls != 1, form := !strong || q == 0, width := fun d => !(d.mx && q == 0), fmt := fun _ => true,
    align := mxAligned (q != 0) }
def it0 : Iter := { Iter.invalid with valid := true, handle := 1 }
theorem accepts_load : (loadAsk true 0).Accepts (world ctx0) ⟨1, none, 63, 0⟩ ⟨63, 0, 0, 0⟩ :=
  accepts _ _ _ _ _ _ (by decide +kernel) (by decide +kernel) (by decide +kernel) (by decide +kernel) (by decide +kernel)
    (by decide +kernel)
theorem witness_TensorLoadForms : ctx0.HoldsK 1 it0 ∧ ctx0.HoldsA 1 (1 <<< 48)
    ∧ (loadAsk true 0).Accepts (world ctx0) (targetOfA ((1 <<< 48 : W64) + 63)) ⟨63, 0, 0, 0⟩ ∧ ctx0.SlotFree 0 :=
  ⟨⟨rfl, rfl⟩, rfl, accepts_load, by unfold Ctx.SlotFree; decide⟩
theorem accepts_bound : (loadAsk false 1).Accepts (world ctxLift) ⟨2, some ⟨0, 0, 0, 0⟩, 0, 0⟩ ⟨0, 0, 0, 0⟩ :=
  accepts _ _ _ _ _ _ (by decide +kernel) (by decide +kernel) (by decide +kernel) (by decide +kernel) (by decide +kernel)
    (by decide +kernel)
theorem witness_TensorLoadForms_bound : (!ctxLift.sq.lifts.isEmpty && ((world ctxLift).tensor 2).bnd) = true
    ∧ (loadAsk false 1).Accepts (world ctxLift) ⟨2, some ⟨0, 0, 0, 0⟩, 0, 0⟩ ⟨0, 0, 0, 0⟩
    ∧ (∀ i ∈ List.range 4, let y := (⟨0, 0, 0, 0⟩ : Coord).move ((world ctxLift).tensor 2).bdim (i : Nat)
        ((world ctxLift).tensor 2).inside y = true ∧ (loadAsk false 1).align ((world ctxLift).tensor 2) y = true)
    ∧ (ctxLift.reserved 1 1 false 1 3).backingOk = true :=
  ⟨by decide +kernel, accepts_bound, by decide +kernel, by decide +kernel⟩
theorem witness_TensorLoadForms_faults : (targetOfA (0xFFFF <<< 48)).h = 0xFFFF ∧ (targetOfA 5).h = 0
    ∧ launch0.tabLen ≤ (targetOfA (8 <<< 48)).h.toNat ∧ handleOk launch0 3 = true ∧ ((world ctx0).tensor 3).cls = 1
    ∧ ((world ctx0).tensor 1).cls ≠ 1 ∧ ((world ctx0).tensor 1).mx = false ∧ ((world ctx0).tensor 1).elems ≤ 64 := by decide +kernel

def storeAsk (strong vec red : Bool) : Ask :=
  { cls := fun d => d.cls == 0 || d.cls == 3, form := (!strong || !vec) && (vec || !red), width := fun d => vec || !d.mx,
    fmt := fun _ => true, align := mxAligned vec }
theorem witness_TensorStoreForms : ctx0.StoreData 0 1 ⟨true, 0, 6, []⟩ ctx0 ∧ ctx0.StoreData 1 1 z5 ctx0
    ∧ (storeAsk true false false).Accepts (world ctx0) ⟨1, some ⟨0, 0, 0, 0⟩, 0, 0⟩ ⟨0, 0, 0, 0⟩ ∧ ctx0.GateRoom 1 :=
  ⟨⟨0, 6, ⟨rfl, rfl⟩, rfl, by decide +kernel⟩, ⟨TReg.invalid, ⟨rfl, rfl⟩, ⟨rfl, rfl⟩⟩,
    accepts _ _ _ _ _ _ (by decide +kernel) (by decide +kernel) (by decide +kernel) (by decide +kernel) (by decide +kernel)
      (by decide +kernel), .inr (by decide)⟩
/-- What a store of a widened source asks of its target. -/
def wideAsk : Ask :=
  { cls := fun d => d.cls == 0 || d.cls == 3, form := true, width := fun _ => true, fmt := fun _ => true, align := mxAligned true }
theorem accepts_wide (h : BitVec 16) (hh : h = 1 ∨ h = 2) : wideAsk.Accepts (world ctxLift) ⟨h, none, 0, 0⟩ ⟨0, 0, 0, 0⟩ := by
  rcases hh with rfl | rfl <;> exact accepts _ _ _ _ _ _ (by decide +kernel) (by decide +kernel) (by decide +kernel)
    (by decide +kernel) (by decide +kernel) (by decide +kernel)
theorem witness_TensorStoreForms_reduced : wideAsk.Accepts (world ctxLift) ⟨1, none, 0, 0⟩ ⟨0, 0, 0, 0⟩ ∧ z4.tag = innerTag ctxLift.sq.lifts
    ∧ ((world ctxLift).tensor 1).bnd = false ∧ (EFmt.ofCode (fmtVS ctxLift.sq.fmt)).width = ((world ctxLift).tensor 1).bits
    ∧ ctxLift.GateRoom 1 ∧ (∃ w, reduceStore z4 ctxLift.sq ctxLift.sq.fmt ctxLift = .ok w)
    ∧ ((world ctxLift).tensor 2).bnd = ((1 : BitVec 1) == 1) :=
  ⟨accepts_wide 1 (.inl rfl), by decide, by decide +kernel, by decide +kernel, .inr (by decide), ok_any (by decide +kernel),
    by decide +kernel⟩
theorem witness_TensorStoreForms_widened : (1 : BitVec 2) ≠ 0 ∧ ctxLift.StoreData 1 2 z4 ctxLift
    ∧ z4.tag = innerTag ctxLift.sq.lifts ∧ ((world ctxLift).tensor 2).bnd = true
    ∧ (EFmt.ofCode (fmtVS ctxLift.sq.fmt)).width = ((world ctxLift).tensor 2).bits
    ∧ (∀ e ∈ List.range 4, let y := (⟨0, 0, 0, 0⟩ : Coord).move ((world ctxLift).tensor 2).bdim (e : Nat)
        ((world ctxLift).tensor 2).inside y = true ∧ wideAsk.align ((world ctxLift).tensor 2) y = true)
    ∧ wideAsk.Serves (world ctxLift) ⟨2, none, 0, 0⟩ ⟨0, 0, 0, 0⟩ ∧ ctxLift.GateRoom 4 :=
  ⟨by decide, ⟨TReg.invalid, ⟨rfl, rfl⟩, ⟨rfl, rfl⟩⟩, by decide, by decide +kernel, by decide +kernel, by decide +kernel,
    (accepts_wide 2 (.inr rfl)).1, .inr (by decide)⟩

/-- The last 8 bytes of the scratchpad by address, and the first of the peer core 15 by coordinate. -/
theorem witness_ScratchpadAndAtomicForms : (world ctx0).ScratchAt (targetOfA 0x6FFF8) 0 0x6FFF8 ∧ (world ctx0).ScratchOk 0 0x6FFF8 8
    ∧ 0x6FFF8 + 8 ≤ ((world ctx0).core 0).scrSize ∧ ctx0.SlotFree 0
    ∧ (world ctx0).ScratchAt ⟨0xFFFF, some ⟨0, 15, 0, 0⟩, 0, 0⟩ 15 0 ∧ (world ctx0).ScratchOk 15 0 128 ∧ (0 : Nat) = coreOf (world ctx0).focus
    ∧ (world ctx0).storesAhead (world ctx0).focus = false
    ∧ (let ld : Load := { id := 0, q := 0, seq := 1, kind := .peer 0 0x6FFF8, strong := false, acq := false, scope := 0, pc := 0,
                          span := 0, got := none }
       (world ((ctx0.reserved 0 0 false 0 0).loading 0 0 (.peer 0 0x6FFF8) false false 0 0)).loadReady 0 ld = true) :=
  ⟨⟨by decide, by decide, by decide, by decide, by decide⟩, fun _ => ⟨by decide, by decide⟩, by decide,
    by unfold Ctx.SlotFree; decide, ⟨rfl, by decide, by decide, by decide, by decide, by decide, rfl, rfl, by decide, rfl⟩,
    fun h => (by cases h), rfl, by decide, by decide +kernel⟩
theorem witness_ScratchpadAndAtomicForms_amo : (amoAsk false true).Accepts (world ctx0) ⟨1, some ⟨0, 0, 0, 0⟩, 0, 0⟩ ⟨0, 0, 0, 0⟩
    ∧ (amoAsk true false).Accepts (world ctx0) ⟨6, some ⟨7, 0, 0, 0⟩, 0, 0⟩ ⟨7, 0, 0, 0⟩ ∧ ctx0.PopsS [1] 0 ctx0 ∧ ctx0.HoldsS 0 1 6
    ∧ (1 : BitVec 5) ≠ 31 ∧ (1 : BitVec 5) ≠ 30 ∧ ctx0.regS (1 : BitVec 5).toNat = ⟨true, 6⟩
    ∧ ctx0.regS ((1 : BitVec 5) + 1).toNat = ⟨true, 4⟩ :=
  ⟨accepts _ _ _ _ _ _ (by decide +kernel) (by decide +kernel) (by decide +kernel) (by decide +kernel) (by decide +kernel)
      (by decide +kernel),
    accepts _ _ _ _ _ _ (by decide +kernel) (by decide +kernel) (by decide +kernel) (by decide +kernel) (by decide +kernel)
      (by decide +kernel), ⟨rfl, rfl⟩, rfl, by decide, by decide, rfl, rfl⟩

theorem witness_IteratorAndDescriptorForms : ctx0.Room (ctx0.savedK 1) ∧ handleOf (0xFFFF <<< 48) = 0xFFFF
    ∧ handleOf (9 <<< 48) ≠ 0xFFFF ∧ handleOk launch0 (handleOf (9 <<< 48)) = false ∧ handleOk launch0 (handleOf (1 <<< 48)) = true ∧ addrOk (descAddr launch0 1) 128 = true
    ∧ (world ctx0).descOk 0 launch0 ((world ctx0).tensor 1) = true ∧ ctx0.HoldsK 1 it0 ∧ (32 : BitVec 6).toNat ≤ 32
    ∧ ctx0.Room (ctx0.savedA 2) ∧ (15 : BitVec 5).toNat ≤ 15 :=
  ⟨room0, by decide, by decide, by decide, by decide, by decide, by decide +kernel, ⟨rfl, rfl⟩, by decide, room0, by decide⟩
theorem witness_IteratorAndDescriptorForms_tdsc : ctx0.SlotFree 0 ∧ ({ ctx0 with priv := true } : Ctx).priv = true ∧ ctx0.priv = false
    ∧ ctx0.HoldsA 1 (1 <<< 48) ∧ ctx0.GateRoom 1 ∧ (⟨fun _ => true, true, fun _ => true, fun _ => true, fun _ _ => true⟩ : Ask).Accepts
      (world ctx0) (ctx0.targetOfK it0) ⟨0, 0, 0, 0⟩ :=
  ⟨by unfold Ctx.SlotFree; decide, rfl, rfl, rfl, .inr (by decide),
    accepts _ ctx0 1 (some (iterCoord ctx0.sq it0)) _ _ (by decide +kernel) (by decide +kernel) (by decide +kernel) (by decide +kernel)
      (by decide +kernel) (by decide +kernel)⟩

/-- The words that translate units of a tensor of the small world are in memory, if those that are named are. -/
theorem unitsReadable (c : Ctx) (h : BitVec 16) (us : List (Option Coord))
    (h2 : addrOk (descAddr ((world c).launchOf (world c).focus) h) 128 = true
      ∧ addrOk (descAddr ((world c).launchOf (world c).focus) (BitVec.ofNat 16 ((world c).tensor h).scale)) 128 = true)
    (h3 : (us.all fun u => match u with
      | some x => addrOk (((world c).tensor h).entryAddr (((world c).tensor h).tileNo x)) 16
      | none => true) = true) : (world c).UnitsReadable h us := by
  refine ⟨h2, ?_⟩
  rintro u hu x rfl
  exact List.all_eq_true.mp h3 _ hu
theorem witness_FencesAndPrefetches_units : (world ctx0).UnitsReadable 1 (((world ctx0).tensor 1).units ⟨0, 0, 0, 0⟩ ((world ctx0).tensor 1).perVec)
    ∧ ((world ctx0).core 0).phase = none ∧ (∀ n, ∀ b ∈ ((world ctx0).core n).blocks, b.dirty = 0)
    ∧ ({ world ctx0 with cores := [(0, { Core.clear with phase := some ⟨0x70000, 0, 0, 9⟩ })] } : State).core 0 ≠ Core.clear :=
  ⟨unitsReadable _ _ _ (by decide +kernel) (by decide +kernel), rfl, fun n b hb => (nomatch hb), by decide⟩
theorem witness_FencesAndPrefetches : ctx0.HoldsK 1 it0 ∧ (world { ctx0 with wait := .drain }).drained 0 = true
    ∧ ((world { ctx0 with wait := .drain }).ctx 0).wait = .drain ∧ prefetchOk (world ctx0) 0 launch0 1 ⟨0, 0, 0, 0⟩ = true
    ∧ prefetchOk (world ctx0) 0 launch0 0 ⟨0, 0, 0, 0⟩ = false := ⟨⟨rfl, rfl⟩, by decide, rfl, by decide +kernel, by decide +kernel⟩

/-! ### Witnesses: the truss -/

def call0 : Call := { id := 4, ctx := 0, seq := 1, kind := .routine 2 0 [0x100, 64] 0 [0], busy := 3, issued := 0 }
def run0 : Run := { call := call0, pc := 64, loops := [], ex := 0, rest := [], blk := 0, freeAt := 0, refused := false, starved := false,
                    done := false }
def micro0 : Micro := ⟨0, run0, 0, [0x100, 64], 0⟩
def ctxCall : Ctx := { ctx0 with queues := { Queues.empty with qx := List.replicate 16 (entry 3) }, fl := { Flight.empty with calls := [4] } }
def worldRun : State := { world ctxCall with cores := [(0, { Core.clear with clk := 9, run := some run0 })] }
theorem runs0 : worldRun.Runs micro0 := ⟨rfl, rfl, rfl, 2, [0], rfl⟩
/-- A read of zeros by the truss. -/
theorem reads0 (add n off : Nat) (h : (worldRun.trussAddr call0 0x100 add n = some (0, off) ∧ off + n ≤ (worldRun.core 0).scrSize)
    ∧ (0 : Nat) = bytesN (fun i => worldRun.trussByte call0 (worldRun.forwarded 0 1) (scrAddr 0 (off + i))) 0 n) :
    worldRun.TrussReads call0 0x100 add n 0 := ⟨0, off, h.1.1, h.1.2, h.2⟩
theorem witness_MicroGathersAndConverts : worldRun.Runs micro0 ∧ worldRun.mp.unperf = []
    ∧ (∀ r < 16, worldRun.TrussReads call0 0x100 (128 * r) 128 0)
    ∧ (∀ k < 128, worldRun.TrussReads call0 0x100 (16 * k) 16 0) ∧ trussWidth 0 = 8 ∧ 32 * slabBlocks 0 = 128 :=
  have h : ∀ r < 16, (worldRun.trussAddr call0 0x100 (128 * r) 128 = some (0, 256 + 128 * r)
      ∧ 256 + 128 * r + 128 ≤ (worldRun.core 0).scrSize)
      ∧ (0 : Nat) = bytesN (fun i => worldRun.trussByte call0 (worldRun.forwarded 0 1) (scrAddr 0 (256 + 128 * r + i))) 0 128 := by
    decide +kernel
  have g : ∀ k < 128, (worldRun.trussAddr call0 0x100 (16 * k) 16 = some (0, 256 + 16 * k) ∧ 256 + 16 * k + 16 ≤ (worldRun.core 0).scrSize)
      ∧ (0 : Nat) = bytesN (fun i => worldRun.trussByte call0 (worldRun.forwarded 0 1) (scrAddr 0 (256 + 16 * k + i))) 0 16 := by
    decide +kernel
  ⟨runs0, rfl, fun r hr => reads0 _ _ _ (h r hr), fun k hk => reads0 _ _ _ (g k hk), by decide, by decide⟩
theorem witness_MicroGathersAndConverts_queue : (worldRun.ctx 0).fl.calls.contains 4 = true ∧ 16 ≤ (worldRun.ctx 0).queues.xAvail
    ∧ (∀ q ∈ (worldRun.ctx 0).queues.qx, q.data ≠ none ∧ q.readyAt ≤ 9) ∧ ((world ctx0).ctx 0).queues.xAvail < 16 := by decide
theorem witness_MicroGathersAndConverts_mcvt : worldRun.Inv ∧ 2 * bf16.width ≤ 8 * (4 : BitVec 12).toNat ∧ 0 < numCores
    ∧ (∀ i < 16, worldRun.trussAddr call0 0x100 (8 * 0 + 8 * 4 * i) 32 = some (0, 256 + 8 * 4 * i))
    ∧ 256 + 120 * 4 + 32 ≤ (worldRun.core 0).scrSize := by
  refine ⟨?_, by decide, by decide, by decide +kernel, by decide⟩
  unfold State.Inv; decide +kernel
theorem witness_MicroMultiplyAccumulate : worldRun.Runs micro0 ∧ micro0.Owns worldRun 1 := ⟨runs0, rfl, rfl⟩
theorem witness_ScaleWordForms_micro : worldRun.Runs micro0 ∧ worldRun.mp.unperf = []
    ∧ (∀ k < 8, worldRun.TrussReads call0 0x100 (64 * k) 64 0) ∧ (worldRun.core (anchorOf 0)).smemOld = [] :=
  have h : ∀ k < 8, (worldRun.trussAddr call0 0x100 (64 * k) 64 = some (0, 256 + 64 * k) ∧ 256 + 64 * k + 64 ≤ (worldRun.core 0).scrSize)
      ∧ (0 : Nat) = bytesN (fun i => worldRun.trussByte call0 (worldRun.forwarded 0 1) (scrAddr 0 (256 + 64 * k + i))) 0 64 := by
    decide +kernel
  ⟨runs0, rfl, fun k hk => reads0 _ _ _ (h k hk), rfl⟩
theorem witness_MicroControl : worldRun.Runs micro0 ∧ run0.rest = [] ∧ ({ run0 with rest := [1] } : Run).rest = 1 :: []
    ∧ run0.call.kind = .routine 2 0 [0x100, 64] 0 [0] ∧ micro0.x 1 = 64 := ⟨runs0, rfl, rfl, rfl, rfl⟩

/-- Routine 2 of the store reads and writes tile 1, reads x1, and starts at word 64. -/
def coreR : Core := { Core.clear with store := [(2, 2 ^ 49 + 2 ^ 33 + 2 ^ 25 + 64 * 2 ^ 12 + 1)] }
def worldCall : State := { world ctx0 with cores := [(0, coreR)] }
theorem witness_RoutineCalls : pairOk (fmtTA 0) (fmtTB 0) = true ∧ pairOk (fmtTA 0x80000) (fmtTB 0x80000) = false
    ∧ (Routine.parse (coreR.store.get 0 2)).v = true ∧ (Routine.parse (coreR.store.get 0 3)).v = false ∧ ctx0.HoldsX 1 7
    ∧ (∀ t < 16, (Routine.parse (coreR.store.get 0 2)).rt.getLsbD t = true → (ctx0.regT t).valid = true)
    ∧ (∀ x < 8, (Routine.parse (coreR.store.get 0 2)).xr.getLsbD x = true → (ctx0.regX x).valid = true) ∧ worldCall.CallRoom :=
  ⟨by decide, by decide, by decide +kernel, by decide +kernel, rfl, by decide +kernel, by decide +kernel, by unfold State.CallRoom; decide⟩
theorem witness_RoutineCalls_tiles : (world ctx0).calling.TakesTs [(1, ⟨true, 0, 9, []⟩)]
    ∧ (worldCall.setCur (ctx0.putTs [(1, ⟨true, 0, 9, []⟩)])).SlotsOk :=
  ⟨⟨.inr (.inr (by decide)), .inl rfl, trivial⟩, by unfold State.SlotsOk; decide⟩
/-- The tile carries a lift of 64 examples, whose copies the backing does not hold. -/
theorem witness_RoutineCalls_many : 49 < exCount [{ lift0 with n := 64 }] ((1 : BitVec 3) ||| 0)
    ∧ (Routine.parse (coreR.store.get 0 2)).wt ≠ 0 ∧ ([0] : List Nat).length ≤ 49 := by decide +kernel

theorem witness_TileRegisterForms : ctx0.Room (ctx0.savedX 1) ∧ ctx0.HoldsX 1 7 ∧ (world ctx0).Idle 1 ∧ ctx0.HoldsT 1 ⟨true, 0, 9, []⟩
    ∧ ctx0.TakesTs [(1, zeroT)] ∧ ((world ctx0).setCur (ctx0.putTs [(1, zeroT)])).SlotsOk ∧ (ctx0.putT 1 zeroT).Fits zeroT :=
  ⟨room0, rfl, by unfold State.Idle; decide, ⟨rfl, rfl⟩, ⟨room0, .inl rfl, trivial⟩, by unfold State.SlotsOk; decide, .inl rfl⟩
theorem takes_zero (c : Ctx) (ws : List Nat) (h : c.frame.isSome = true) : c.TakesTs (ws.map fun t => (t, zeroT)) := by
  induction ws generalizing c with
  | nil => trivial
  | cons t ws ih => exact ⟨.inl h, .inl rfl, ih _ (by simp [Ctx.putT, Ctx.logged, h])⟩
theorem witness_TileRegisterForms_all : (∀ t : BitVec 5, t.toNat < 16 → (world ctxServe).Idle t)
    ∧ ctxServe.TakesTs ((List.range 16).map fun t => (t, zeroT))
    ∧ ((world ctxServe).setCur (ctxServe.putTs ((List.range 16).map fun t => (t, zeroT)))).SlotsOk :=
  ⟨by intro t _; revert t; unfold State.Idle; decide, takes_zero _ _ rfl, by unfold State.SlotsOk; decide +kernel⟩
theorem witness_TileRegisterForms_spill : (world ctx0).Idle 1 ∧ ctx0.HoldsT 1 ⟨true, 0, 9, []⟩
    ∧ ({ ctx0 with files := { files0 with x := [(1, ⟨true, 8⟩)] } } : Ctx).HoldsX 1 8 ∧ (8 : W64).toNat % 8 = 0 ∧ (world ctx0).CallRoom
    ∧ (⟨true, 1, 0, [1, 2, 3]⟩ : TReg 8192).tag ≠ 0 ∧ (world popped0).routineOut 0 = false ∧ 8 ≤ popped0.queues.xAvail
    ∧ ctx0.queues.xAvail < 8 :=
  ⟨by unfold State.Idle; decide, ⟨rfl, rfl⟩, rfl, by decide, by unfold State.CallRoom; decide, by decide, by decide, by decide, by decide⟩
theorem popsXs (n : Nat) : ({ ctx0 with queues := { q0 with qx := List.replicate n (entry 3) } } : Ctx).PopsXs (List.replicate n ⟨true, 0, 3, []⟩)
    { ctx0 with queues := { q0 with qx := [] } } := by
  induction n with
  | zero => rfl
  | succ n ih => exact ⟨entry 3, List.replicate n (entry 3), ⟨[], List.replicate n (entry 3), rfl, by simp, rfl, rfl, (by decide : (1 : Nat) ≠ 0),
      nofun, Nat.le_refl 0, rfl⟩, rfl, ih⟩
theorem witness_TileRegisterForms_fill : popped0.PopsXs (List.replicate 8 ⟨true, 0, 3, []⟩) { popped0 with queues := { q0 with qx := [] } }
    ∧ (List.replicate 8 (⟨true, 0, 3, []⟩ : TReg 1024)).length = 8 := ⟨popsXs 8, rfl⟩

def starved0 : Trap := { Trap.mk' clsQueue 0 with precise := false }
def ctxStarved : Ctx := { ctx0 with wait := .xwait none 0, fl := { Flight.empty with trussFault := some starved0 } }
theorem witness_TrussWaitsAndLoads : ctx0.fl.trussFault = none ∧ ctx0.fl.ownCalls ≤ (0 : BitVec 13).toNat
    ∧ (0 : BitVec 13).toNat < ctxCall.fl.ownCalls ∧ ctxCall.fl.ownCalls ≠ 0 ∧ ctx0.fl.ownCalls = 0 ∧ ctx0.Room (ctx0.savedX 2)
    ∧ ((world { ctx0 with wait := .xwait (some 2) 0 }).ctx 0).wait = .xwait (some 2) 0 ∧ ctx0.priv = false
    ∧ ((world ctxStarved).ctx 0).fl.ownCalls ≤ 0 ∧ ((world ctxStarved).ctx 0).wait = .xwait none 0
    ∧ ((world ctxStarved).ctx 0).fl.trussFault = some starved0 ∧ starved0.cls = clsQueue :=
  ⟨rfl, by decide, by decide, by decide, rfl, room0, rfl, rfl, by decide, rfl, rfl, rfl⟩

def worldQueue : State := { worldRun with cores := [(0, { Core.clear with clk := 9, callQ := [call0, { call0 with kind := .load 6 0 0 0 }] })] }
theorem witness_CallQueue : (worldQueue.core 0).run = none ∧ (worldQueue.core 0).callQ = call0 :: [{ call0 with kind := .load 6 0 0 0 }]
    ∧ call0.issued + 2 ≤ (worldQueue.core 0).clk ∧ (worldQueue.core 0).lastEnd < (worldQueue.core 0).clk
    ∧ worldQueue.engineReady 0 1 2 = true ∧ (∀ n f xs g exs, CallKind.load 6 0 0 0 ≠ .routine n f xs g exs)
    ∧ (worldRun.core 0).run = some run0 ∧ ({ run0 with done := true } : Run).done = true ∧ run0.freeAt ≤ (worldRun.core 0).clk :=
  ⟨rfl, rfl, by decide, by decide, by decide, by intros; exact nofun, rfl, rfl, by decide⟩

/-- The last entry of the call queue has begun: it is `kd`, of context 0. -/
def worldEnd (kd : CallKind) : State :=
  { world { ctxCall with fl := { Flight.empty with calls := [4] } } with
    mp := { MemPath.empty with lu := lu0, dirs := [(7, ⟨some none, []⟩)] },
    cores := [(0, { Core.clear with clk := 9, run := some { run0 with call := { call0 with kind := kd } } })] }
theorem witness_CallQueueEntryEnds : ((worldEnd (.spill 1 0x100)).core 0).run = some { run0 with call := { call0 with kind := .spill 1 0x100 } }
    ∧ run0.freeAt ≤ 9 ∧ run0.refused = false ∧ run0.starved = false ∧ (worldEnd (.spill 1 0x100)).trussAddr call0 0x100 0 1024 = some (0, 0x100)
    ∧ 0 < numCores ∧ 0x100 + 1024 ≤ ((worldEnd (.spill 1 0x100)).core 0).scrSize := by
  refine ⟨rfl, by decide, rfl, rfl, by decide, by decide, by decide⟩
theorem ok_some {α ε : Type} {x : Except ε α} {v : α} (h : x.toOption = some v) : x = .ok v := by
  cases x with
  | error e => cases h
  | ok r => cases h; rfl
/-- Tensor 4, read as n32, holds the words. -/
theorem witness_CallQueueEntryEnds_load : let s := worldEnd (.scaleLoad 4 0 4095 16)
    ∃ s1, readElems 0 2 (s.launchOf 0) 4 0 4 16 s = .ok (.ok (List.replicate 16 0), s1)
      ∧ (s1.core 0).run = some { run0 with call := { call0 with kind := .scaleLoad 4 0 4095 16 } } ∧ s1.ctxs = s.ctxs :=
  ⟨_, ok_after' (by decide +kernel), by decide +kernel, by decide +kernel⟩
theorem witness_CallQueueEntryEnds_store : let s := worldEnd (.scaleStore 1 0 4095 16)
    s.DescReadableAt 0 launch0 1 ∧ s.descOk 0 launch0 (s.desc 0 launch0 1) = true ∧ (s.desc 0 launch0 1).cls ≠ 2
      ∧ (∀ i < 16, addrOk ((s.desc 0 launch0 1).entryAddr ((s.desc 0 launch0 1).tileNo ((s.desc 0 launch0 1).ofOffset (0 + i)))) 16 = true
        ∧ s.xlate 0 launch0 1 ((s.desc 0 launch0 1).ofOffset (0 + i)) true = .ok (0x20000 + 4 * i) ∧ addrOk (0x20000 + 4 * i) 4 = true
        ∧ ∀ p ∈ [0x20000 + 4 * i, 0x20000 + 4 * i + 3], ∀ o, (s.page (frameOf p)).cls ≠ some (some o)) :=
  ⟨by unfold State.DescReadableAt; decide +kernel, by decide +kernel, by decide +kernel, fun i hi => by
    refine ⟨(by decide +kernel : ∀ i < 16, addrOk (((worldEnd (.scaleStore 1 0 4095 16)).desc 0 launch0 1).entryAddr
        (((worldEnd (.scaleStore 1 0 4095 16)).desc 0 launch0 1).tileNo
          (((worldEnd (.scaleStore 1 0 4095 16)).desc 0 launch0 1).ofOffset (0 + i)))) 16 = true) i hi, ?_, (by decide : ∀ i < 16, addrOk (0x20000 + 4 * i) 4 = true) i hi, ?_⟩
    · exact ok_some ((by decide +kernel : ∀ i < 16, ((worldEnd (.scaleStore 1 0 4095 16)).xlate 0 launch0 1
        (((worldEnd (.scaleStore 1 0 4095 16)).desc 0 launch0 1).ofOffset (0 + i)) true).toOption = some (0x20000 + 4 * i)) i hi)
    · have h : ∀ i < 16, ∀ p ∈ [0x20000 + 4 * i, 0x20000 + 4 * i + 3], ((worldEnd (.scaleStore 1 0 4095 16)).page (frameOf p)).cls = none := by decide +kernel
      intro p hp o; rw [h i hi p hp]; exact nofun⟩

/-- Tensor 6 alone, its words held by the layout units, the home L2s' tags as `y`, and no launch running: an engine's read of its
elements answers what memory `m` holds. -/
def luX : AMap W64 :=
  [(0x1300, 0x8640000000000000), (0x1308, 0x100002000), (0x1310, 0x100000001), (0x1318, 0x1FFF), (0x1320, 0x8050), (0x1328, 1)]
    ++ (List.range 10).map (fun i => (0x1330 + 8 * i, 0)) ++ [(0x8050, 0x8000000000000007), (0x8058, 0)]
def launchX : Launch := { launch0 with running := false }
def callX : Call := { call0 with kind := .load 6 0 0x20 3 }
def runX : Run := { run0 with call := callX }
def ctxX : Ctx := { ctxCall with wait := .xldm }
def worldX (m : List Host.Cell) (y : AMap (List Block)) : State :=
  { world ctxX with mem := m, mp := { MemPath.empty with lu := luX, l2 := y, dirs := [(7, ⟨some none, []⟩)] },
                    cores := [(0, { Core.clear with clk := 9, run := some runX })],
                    dist := { Dist.empty with launches := [(1, launchX)], insts := [(1, inst0)] } }
def descX : Desc := ⟨true, 0, 12, true, 1, false, 0, 0, 0, ⟨8192, 1, 1, 1⟩, ⟨8192, 1, 1, 1⟩, 0x8050, 1, 0, 0, true⟩
theorem held_X (m : List Host.Cell) (y : AMap (List Block)) (a : Nat) (h : (AMap.find? luX (luKey 0 a)).isSome = true) :
    (worldX m y).luGet 0 a = (AMap.find? luX (luKey 0 a)).getD 0 := by
  obtain ⟨v, hv⟩ := Option.isSome_iff_exists.mp h
  rw [hv]; exact luGet_held hv
theorem desc_X (m : List Host.Cell) (y : AMap (List Block)) : (worldX m y).desc 0 launchX 6 = descX := by
  have h : ∀ i < 16, (AMap.find? luX (luKey 0 (descAddr launchX 6 + 8 * i))).isSome = true := by decide +kernel
  unfold State.desc
  rw [parse_congr fun i hi => held_X m y _ (h i hi)]
  decide +kernel
theorem ok_X (m : List Host.Cell) (y : AMap (List Block)) : (worldX m y).descOk 0 launchX descX = true := by
  unfold State.descOk
  rw [show descX.okHere = true by decide, show descX.mx = false from rfl]; rfl
def entryX : TileEntry := ⟨0x8000000000000007, 0⟩
theorem entry_X (m : List Host.Cell) (y : AMap (List Block)) : (worldX m y).entry 0 descX 0 = entryX := by
  unfold State.entry
  rw [held_X _ _ _ (by decide +kernel), held_X _ _ _ (by decide +kernel)]
  decide +kernel
theorem range4 : List.range 4 = [0, 1, 2, 3] := by decide
theorem tileNo_X (n : Nat) (h : n < 8192) : descX.tileNo ⟨n, 0, 0, 0⟩ = 0 := by
  simp only [Desc.tileNo, range4, List.map_cons, List.map_nil, Coord.get, descX, dimProdTo, Int.toNat_natCast, Int.toNat_zero,
    List.sum_cons, List.sum_nil, Nat.zero_div, Nat.zero_mul, Nat.mul_one]
  rw [show (8192 : Int).toNat = 8192 from rfl]; omega
theorem inTile_X (n : Nat) (h : n < 8192) : descX.inTile ⟨n, 0, 0, 0⟩ = n := by
  simp only [Desc.inTile, range4, List.map_cons, List.map_nil, Coord.get, descX, dimProdTo, Int.toNat_natCast, Int.toNat_zero,
    List.sum_cons, List.sum_nil, Nat.zero_mod, Nat.zero_mul, Nat.mul_one]
  rw [show (8192 : Int).toNat = 8192 from rfl]; omega
theorem offset_X (n : Nat) : descX.ofOffset n = ⟨n, 0, 0, 0⟩ := by simp [Desc.ofOffset, descX, Coord.ofFn, dimProdTo]
theorem devTop_X : devTop = 412316860416 := by decide
theorem addr_X (n : Nat) (h : n < 8192) : addrOk (458752 + 8 * n) 8 = true := by
  have hd := devTop_X
  unfold addrOk; rw [decide_eq_true (by omega : 458752 + 8 * n + 8 ≤ devTop), Bool.true_or, Bool.true_or]
theorem descM_X (m : List Host.Cell) (y : AMap (List Block)) : descM 0 launchX 6 (worldX m y) = .ok ((descX, true), worldX m y) := by
  have hm : descX.mx = false := rfl
  have h : luTouch 0 (descAddr launchX 6) 16 (worldX m y) = .ok ((), worldX m y) := luTouch_held _ _ _ _ (by decide +kernel : ∀ i < 16,
    (AMap.find? luX (luKey 0 (descAddr launchX 6 + 8 * i))).isSome = true)
  simp only [descM, M.bind_run, h, M.get_run, desc_X, hm, Bool.false_eq_true, false_and, ↓reduceIte, M.pure_run, ok_X]
theorem xlate_X (m : List Host.Cell) (y : AMap (List Block)) (n : Nat) (h : n < 8192) :
    xlateM 0 launchX 6 ⟨n, 0, 0, 0⟩ false (worldX m y) = .ok (.ok (458752 + 8 * n), worldX m y) := by
  have h2 : luTouch 0 0x8050 2 (worldX m y) = .ok ((), worldX m y) := luTouch_held _ _ _ _ (by decide +kernel : ∀ i < 2,
    (AMap.find? luX (luKey 0 (0x8050 + 8 * i))).isSome = true)
  have hf : xlateFault launchX descX true entryX false = none := by decide
  have hx : (worldX m y).elemAddr 0 descX ⟨n, 0, 0, 0⟩ = 458752 + 8 * n := by
    unfold State.elemAddr; rw [tileNo_X n h, entry_X, inTile_X n h, show (worldX m y).frameFor 0 descX entryX = 7 from rfl,
      show descX.bits = 64 from rfl, show 8 * n = n * 64 / 8 by omega]
  have hl : (worldX m y).xlate 0 launchX 6 ⟨n, 0, 0, 0⟩ false = .ok (458752 + 8 * n) := by
    unfold State.xlate
    rw [desc_X]; dsimp only
    rw [ok_X, tileNo_X n h, entry_X, hf, hx]
  have he : luTouch 0 (descX.entryAddr (descX.tileNo ⟨n, 0, 0, 0⟩)) 2 (worldX m y) = .ok ((), worldX m y) := by rw [tileNo_X n h]; exact h2
  unfold xlateM; rw [M.bind_run, descM_X]; dsimp only; rw [M.ite_run, if_pos rfl, M.bind_run, he]; dsimp only
  rw [M.bind_run, M.get_run]; dsimp only; rw [hl]; rfl
theorem touch_X (m : List Host.Cell) (y : AMap (List Block)) (a : Nat) (h : a / 65536 = 7) (h8 : a % 65536 + 8 ≤ 65536) :
    touchByPath 0 2 a 8 (worldX m y) = .ok ((), worldX m y) := by
  have hg : ∀ (g : Nat → M Unit) (is : List Nat), (∀ i, g i (worldX m y) = .ok ((), worldX m y)) →
      is.forM g (worldX m y) = .ok ((), worldX m y) := by
    intro g is hi; induction is with
    | nil => rfl
    | cons i is ih => show (g i >>= fun _ => is.forM g) _ = _; rw [M.bind_run, hi]; exact ih
  unfold touchByPath
  rw [if_pos rfl]
  apply hg; intro i; rw [M.ite_run]
  split
  · rename_i hi
    have : i = 0 := by omega
    subst this
    rw [h]; rfl
  · rfl
/-- An element as memory holds it. -/
def elemX (m : List Host.Cell) (n : Nat) : Nat := Mem.getN m (458752 + 8 * n) 8
theorem noneOwns_X (m : List Host.Cell) (y : AMap (List Block)) (a n : Nat) (h : addrOk a n = true) (ha : a + n ≤ devTop) : (worldX m y).NoneOwns a n := by
  refine ⟨h, fun x hx hn => ⟨?_, fun o => ?_⟩⟩
  · have := devTop_X
    unfold State.dead; rw [decide_eq_false (by unfold scrBase; omega)]; rfl
  · show (AMap.get PageDir.untouched [(7, ⟨some none, []⟩)] (frameOf x)).cls ≠ _
    unfold AMap.get AMap.find? AMap.find?
    split <;> simp [PageDir.untouched]
theorem read_X (m : List Host.Cell) (y : AMap (List Block)) (n : Nat) (h : n < 8192) :
    ∃ z, engineRead 0 2 true (458752 + 8 * n) 8 (worldX m y) = .ok (elemX m n, worldX m z) := by
  obtain ⟨z, hz⟩ := l2Range_quiet (s := worldX m y) (l := ((worldX m y).ctx 0).launch) rfl (458752 + 8 * n) 8 false
  refine ⟨z, ?_⟩
  have hd := devTop_X
  have hs : (worldX m z).seenN (458752 + 8 * n) 8 = elemX m n :=
    seenN_of_noneOwns (noneOwns_X m z _ _ (addr_X n h) (by omega))
  unfold engineRead
  rw [if_pos rfl, M.bind_run, touch_X m y _ (by omega) (by omega)]; dsimp only
  rw [M.bind_run, M.get_run]; dsimp only
  rw [M.bind_run, hz]
  show rdA 0 true (458752 + 8 * n) 8 (worldX m z) = _
  simp only [rdA, needAddr, addr_X n h, M.bind_run, M.pure_run, M.get_run, raceStep, M.modify_run, ↓reduceIte]
  show Except.ok ((worldX m z).seenN (458752 + 8 * n) 8, worldX m z) = _
  rw [hs]
theorem elems_X (m : List Host.Cell) (n : Nat) : ∀ off, off + n ≤ 8192 → ∀ y, ∃ z,
    readElems 0 2 launchX 6 off 8 n (worldX m y) = .ok (.ok ((List.range' off n).map (elemX m)), worldX m z) := by
  induction n with
  | zero => intro off _ y; exact ⟨y, rfl⟩
  | succ n ih =>
    intro off h y
    obtain ⟨u, hu⟩ := read_X m y off (by omega)
    obtain ⟨z, hz⟩ := ih (off + 1) (by omega) u
    refine ⟨z, ?_⟩
    have hr : ∀ e, requestReplica 0 descX e (worldX m y) = .ok ((), worldX m y) := fun e => rfl
    have hc : ∀ x a v, (worldX m u).committed descX x a v = v := fun _ _ _ => rfl
    have hb : (descX.cls != 2) = true := rfl
    simp only [readElems, M.bind_run, show coreDie (coreOf 0) = 0 from rfl, descM_X, offset_X, xlate_X m y off (by omega), M.get_run,
      hr, hb, hu, hc, hz, M.pure_run, List.range'_succ, List.map_cons]
theorem image_X (m : List Host.Cell) : (fun i => BitVec.ofNat 64 (((List.range' 0 4096).map (elemX m)).getD i 0) : Nat → W64)
    = fun i => if i < 4096 then BitVec.ofNat 64 (elemX m i) else 0 := by
  funext i
  by_cases h : i < 4096
  · simp [h, List.getD]
  · simp [h, List.getD]
/-- A store load ends: of an image of zeros, and of one whose first word fails the check. -/
theorem witness_CallQueueEntryEnds_store_load (m : List Host.Cell) : ∃ z, let s := worldX m []
    (s.core 0).run = some runX ∧ runX.freeAt ≤ (s.core 0).clk ∧ (s.ctx 0).wait = .xldm
      ∧ readElems 0 2 (s.launchOf 0) 6 0 8 4096 s = .ok (.ok ((List.range' 0 4096).map (elemX m)), worldX m z)
      ∧ ((worldX m z).core 0).run = some runX ∧ (worldX m z).ctxs = s.ctxs ∧ (worldX m z).DescReadableAt 0 launchX 6
      ∧ (worldX m z).RingOk ((worldX m z).launchOf 0).queue := by
  obtain ⟨z, hz⟩ := elems_X m 4096 0 (by decide) []
  have hr : ∀ w, State.reset.reg (queueReg 0 w) = 0 → (worldX m z).reg (queueReg 0 w) = 0 := fun w h => h
  have hq : ((worldX m z).launchOf 0).queue = 0 := rfl
  refine ⟨z, rfl, (by decide : 0 ≤ 9), rfl, hz, rfl, rfl, ⟨by decide, ?_⟩, .inl ⟨0, ?_, ?_, noneOwns_X m z 0 64 (by decide) (by decide)⟩⟩
  · show addrOk (descAddr launchX (BitVec.ofNat 16 ((worldX m z).desc 0 launchX 6).scale)) 128 = true
    rw [desc_X]; decide
  · rw [hq]; unfold State.ringUsed State.ringSize
    rw [hr 1 (by decide), hr 2 (by decide), hr 3 (by decide)]; decide
  · rw [hq]; unfold State.ringSize
    rw [hr 1 (by decide), hr 2 (by decide)]; decide
theorem witness_CallQueueEntryEnds_image :
    checkImage (fun i => BitVec.ofNat 64 (((List.range' 0 4096).map (elemX [])).getD i 0)) = none
    ∧ checkImage (fun i => BitVec.ofNat 64 (((List.range' 0 4096).map (elemX [(458752, 1)])).getD i 0)) = some 0 := by
  rw [image_X, image_X]; exact ⟨by decide +kernel, by decide +kernel⟩

def ctxLdm : Ctx := { ctx0 with priv := true, files := { files0 with x := [(1, ⟨true, 6 <<< 48⟩)] } }
theorem witness_TrussWaitsAndLoads_xldm : (world ctxLdm).cur.priv = true ∧ (world ctxLdm).cur.HoldsX 1 (6 <<< 48)
    ∧ (world ctxLdm).RangeOk (6 <<< 48) 12 4096 true ∧ ((world ctxLdm).core 0).callQ = [] ∧ ((world ctxLdm).core 0).run = none :=
  ⟨rfl, rfl, ⟨by decide +kernel, ⟨by decide +kernel, by decide +kernel⟩, by decide +kernel, fun _ => by decide +kernel, by decide +kernel,
    by decide +kernel⟩, rfl, rfl⟩

/-! ### Witnesses: engine commands -/

def ctxE (f : Nat → W64) : Ctx := { ctx0 with files := { files0 with e := (List.range 16).map fun i => (i, ⟨true, f i⟩) } }
def copyGroup (i : Nat) : W64 := if i = 0 then scr 0 else if i = 1 then scr 64 else 0
theorem witness_CopyCommands : (ctxE fun _ => 63).HoldsE 1 63 ∧ patternOk 63 = true ∧ patternOk (1 <<< 34) = false ∧ (1 : BitVec 5) ≠ 0
    ∧ (1 : BitVec 5) ≠ 8 ∧ (ctxE copyGroup).HoldsGroup 0 8 copyGroup ∧ groupClean copyGroup = true
    ∧ groupClean (fun _ => 1 <<< 63) = false ∧ (ctxE fun _ => 1 <<< 63).HoldsGroup 8 8 fun _ => 1 <<< 63 := by
  refine ⟨rfl, by decide, by decide, by decide, by decide, ?_, by decide, by decide, ?_⟩ <;>
    (unfold Ctx.HoldsGroup Ctx.HoldsE; decide +kernel)
theorem witness_CopyCommands_sides : (world (ctxE copyGroup)).SideOk (scr 64) ∧ sideIs none (fun t => t.cls == 1) = false
    ∧ sideOutside 16 (scr 64) none 64 0 0 = false ∧ sideCrooked (scr 64) 64 = false ∧ (ctxE copyGroup).GateRoom 1
    ∧ (Pattern.parse 63).f ≤ 64 ∧ termRange [1, 1, 1, 1, 1, 1] [0, 0, 0, 0, 0, 0] 0 = (0, 0) :=
  ⟨.inl rfl, rfl, by decide, by decide, .inr (by decide), by decide, by decide⟩
def copy0 (st : Stage) : CopyRun := { id := 5, seq := 1, stage := st, cpy := some (CopyCmd.parse copyGroup none), exp := none, resv := none,
                                      got := [], code := 0, sub := 0, info := 0, orphan := false }
def ctxCopy (st : Stage) : Ctx := { ctx0 with fl := { Flight.empty with copies := [copy0 st] } }
theorem witness_CopyCommands_progress : ctx0.fl.ownCopies ≤ (0 : BitVec 3).toNat ∧ (0 : BitVec 3).toNat < (ctxCopy .queued).fl.ownCopies
    ∧ ctx0.Room (ctx0.savedE 9) ∧ ((world { ctx0 with wait := .cpyw (some 9) 0 }).ctx 0).wait = .cpyw (some 9) 0
    ∧ (world (ctxCopy .queued)).copyOf 0 5 = some (copy0 .queued) ∧ (world (ctxCopy .queued)).copyReady 0 (copy0 .queued) = true
    ∧ (world (ctxCopy .running)).copyOf 0 5 = some (copy0 .running) ∧ (CopyCmd.parse copyGroup none).pat = none
    ∧ (∀ x ∈ (CopyCmd.parse copyGroup none).counts, x = 1) ∧ isScr (scr 0) = true
    ∧ (world (ctxCopy .running)).scrWhere 0 (fieldN (scr 64) 0 25 : Int) 8 = .ok ⟨scrAddr 0 64, true, none⟩
    ∧ addrOk (scrAddr 0 64) 8 = true ∧ ((world { ctx0 with wait := .cpyw none 0 }).ctx 0).wait = .cpyw none 0
    ∧ (world (ctxCopy .running)).mp.unperf = [] :=
  ⟨by decide, by decide, room0, rfl, by decide, by decide, by decide, rfl, by decide, by decide, by decide, by decide, rfl, rfl⟩

/-- 16 scale words of tensor 4, read as n32, from index 4,095. -/
def ctxScale : Ctx := ctxE fun i => if i = 1 then 4 <<< 48 else BitVec.ofNat 64 (4095 + 16 * 65536)
theorem witness_ScaleWordForms : ctxScale.HoldsE 1 (4 <<< 48) ∧ ctxScale.HoldsE 2 (BitVec.ofNat 64 (4095 + 16 * 65536))
    ∧ (world ctxScale).RangeOk (4 <<< 48) 10 16 false ∧ (world ctxScale).CallRoom ∧ ctxScale.GateRoom 1
    ∧ (BitVec.ofNat 64 (4095 + 16 * 65536)).toNat / 65536 % 8192 ≠ 0 ∧ (ctxE fun _ => 0).HoldsE 2 0 ∧ (0 : W64).toNat / 65536 % 8192 = 0 := by
  refine ⟨by unfold Ctx.HoldsE; decide +kernel, by unfold Ctx.HoldsE; decide +kernel, ?_, by unfold State.CallRoom; decide, .inr (by decide), by decide,
    by unfold Ctx.HoldsE; decide +kernel, by decide⟩
  exact ⟨by decide +kernel, ⟨by decide +kernel, by decide +kernel⟩, by decide +kernel, by decide, by decide +kernel, by decide +kernel⟩

def putGroup (i : Nat) : W64 := if i = 0 ∨ i = 4 then scr 0 else if i = 1 ∨ i = 5 then 0 else if i = 2 ∨ i = 6 then 8 else 0
def collGroup (i : Nat) : W64 := if i = 0 then scr 0 else if i = 1 then scr 64 else if i = 2 then 1 else 0
theorem witness_FabricCommands : (1 : BitVec 5).toNat % 4 ≠ 0 ∧ (0 : BitVec 5).toNat % 4 = 0 ∧ (ctxE putGroup).HoldsGroup 0 4 putGroup
    ∧ putFieldsOk .put (putGroup 1) (putGroup 2) (putGroup 3) = true ∧ putFieldsOk .put 0 0 0 = false ∧ (world (ctxE putGroup)).SideOk (scr 0)
    ∧ (world (ctxE putGroup)).SideFits (scr 0) (fun t => t.cls == 1) 64 1 ∧ (ctxE collGroup).HoldsGroup 0 4 collGroup
    ∧ collFieldsOk .ar (collGroup 2) (collGroup 3) = true ∧ (world (ctxE collGroup)).SideFits (scr 64) (fun t => t.cls == 1 || t.cls == 2) 32 1 := by
  refine ⟨by decide, by decide, by unfold Ctx.HoldsGroup Ctx.HoldsE; decide +kernel, by decide, by decide, .inl rfl, ?_,
    by unfold Ctx.HoldsGroup Ctx.HoldsE; decide +kernel, by decide, ?_⟩ <;>
  exact ⟨rfl, rfl, rfl, fun _ => by decide, fun _ => by decide, by decide⟩
theorem witness_FabricCommands_rsf : collFieldsOk .rsf 1 0 = true ∧ isScr (3 <<< 48) = false ∧ (world ctx0).SideOk (3 <<< 48)
    ∧ ((world ctx0).tensor (handleOf (3 <<< 48))).cls = 1 ∧ offsetOf (3 <<< 48) + 0 ≤ ((world ctx0).tensor (handleOf (3 <<< 48))).elems :=
  ⟨by decide, by decide, .inr ⟨by decide, ⟨by decide +kernel, by decide +kernel⟩, by decide +kernel⟩, by decide +kernel, by decide +kernel⟩
def fab0 : FabRun := { id := 6, seq := 1, stage := .running, cmd := ⟨.put, 0, 0, 8, 0, 0⟩, epoch := 0, k := 0, members := [], self := 0, round := 0,
                       inputs := [], acc := [], pending := [], heldPos := [], denied := 0, code := 0, sub := 0, orphan := false }
theorem witness_FabricCommands_wait : ctx0.fl.ownFabs ≤ (0 : BitVec 3).toNat
    ∧ (0 : BitVec 3).toNat < ({ Flight.empty with fabs := [fab0] } : Flight).ownFabs
    ∧ ((world { ctx0 with wait := .collw 9 0 }).ctx 0).wait = .collw 9 0 := ⟨by decide, by decide, rfl⟩
/-- A list of the one device 0, in tensor 7. -/
def ctxGrp : Ctx := ctxE fun i => if i = 1 then 7 <<< 48 else 0
theorem witness_FabricCommands_grp : ctxGrp.HoldsE 1 (7 <<< 48) ∧ ctxGrp.HoldsE 2 0
    ∧ (∃ s1 s2, gathTensor (7 <<< 48) 8 1 false ((world ctxGrp).setCur ctxGrp) = .ok ((7, 0, true), s1)
      ∧ readElems s1.focus 4 (s1.launchOf s1.focus) 7 0 1 1 s1 = .ok (.ok [0], s2) ∧ s1.mg.dev ∈ ([0] : List Nat) ∧ s2.cur.GateRoom 1)
    ∧ ([0] : List Nat).Nodup ∧ (∀ v ∈ ([0] : List Nat), v ≤ 143) :=
  ⟨by unfold Ctx.HoldsE; decide +kernel, by unfold Ctx.HoldsE; decide +kernel,
    ⟨_, _, ok_after (by decide +kernel), ok_after' (by decide +kernel), by decide +kernel, .inr (by decide +kernel)⟩, by decide, by decide⟩
def worldGrp : State := { world ctxGrp with dist := { (world ctxGrp).dist with insts := [(1, { inst0 with groups := [(0, ⟨0, 20, 0, [3, 9]⟩)] })] } }
theorem witness_FabricCommands_groups : worldGrp.groupView 0 0 = some ⟨0, 20, 0, [3, 9]⟩ ∧ (world ctxGrp).groupView 0 0 = none
    ∧ 1 < ([3, 9] : List (BitVec 8)).length ∧ ([3, 9] : List (BitVec 8)).length < 3 ∧ ([3, 9] : List (BitVec 8))[1 - 1]? = some 3 := by decide

def worldSem : State := { world { ctxE (fun i => if i = 1 then 3 else 4) with wait := .semw 16 2 } with
  dist := { (world ctx0).dist with sems := [(16, 2)], waiters := [(16, [(0, 2), (4, 1)])] } }
theorem witness_SemaphoreAndMonitorForms : worldSem.cur.HoldsE 1 3 ∧ worldSem.cur.HoldsE 2 4 ∧ launch0.semCnt ≤ fieldN (4 : W64) 0 12
    ∧ fieldN (3 : W64) 0 12 < launch0.semCnt ∧ worldSem.cur.GateRoom 1 ∧ (worldSem.ctx 0).wait = .semw 16 2
    ∧ (worldSem.dist.waiters.get [] 16).head? = some (0, 2) ∧ (2 : W32).toNat ≤ (worldSem.dist.sems.get 0 16).toNat :=
  ⟨by unfold Ctx.HoldsE; decide +kernel, by unfold Ctx.HoldsE; decide +kernel, by decide, by decide, .inr (by decide), rfl, rfl, by decide⟩
def ctxPush : Ctx := ctxE fun i => if i = 1 then (6 <<< 48) + 32 else 2
/-- Negotiation is over, and queue 2 is enabled for admission from devices by tenant 0; monitor 3 is enabled and is tenant 0's. -/
def worldPush : State := { world ctxPush with mg := { Mgmt.reset with bar0 := [(0x10, 2), (0x1040, 3 <<< 62), (0x8180, 1 <<< 63)] } }
theorem witness_SemaphoreAndMonitorForms_push : worldPush.cur.HoldsE 1 ((6 <<< 48) + 32) ∧ worldPush.cur.HoldsE 2 2
    ∧ worldPush.RangeOk ((6 <<< 48) + 32) 12 32 true ∧ (worldPush.queueWord 2).getLsbD 62 = true ∧ worldPush.accepts 2 = true
    ∧ worldPush.queueTenant 2 = launch0.tenant.toNat ∧ (worldPush.tensor (handleOf ((6 <<< 48) + 32))).cls = 0
    ∧ offsetOf ((6 <<< 48) + 32) % 32 = 0 ∧ worldPush.cur.GateRoom 1 := by
  refine ⟨by unfold Ctx.HoldsE; decide +kernel, by unfold Ctx.HoldsE; decide +kernel, ?_, by decide, by decide, by decide, by decide +kernel,
    by decide, .inr (by decide)⟩
  exact ⟨by decide +kernel, ⟨by decide +kernel, by decide +kernel⟩, by decide +kernel, fun _ => by decide +kernel, by decide +kernel, by decide +kernel⟩
theorem witness_SemaphoreAndMonitorForms_mon : fieldN (worldPush.reg (monReg 3 0)) 48 10 = (worldPush.launchOf 0).tenant.toNat
    ∧ ¬ fieldN (({ worldPush with mg := { Mgmt.reset with bar0 := [(0x8180, 5 <<< 48)] } } : State).reg (monReg 3 0)) 48 10 = 0
    ∧ fieldN (BitVec.ofNat 64 (3 + 19 * 16)) 4 6 ≤ 19 ∧ 19 < fieldN (BitVec.ofNat 64 (3 + 20 * 16)) 4 6
    ∧ (worldPush.reg (monReg 3 0)).getLsbD 63 = true ∧ fieldN (worldPush.reg (monReg 3 0)) 40 8 ≤ 5
    ∧ 5 < fieldN (worldPush.reg (monReg 3 0) ||| (6 <<< 40 : W64)) 40 8 ∧ ctx0.Room (ctx0.savedE 9) :=
  ⟨by decide, by decide, by decide, by decide, by decide, by decide, by decide, room0⟩

/-! ### Witnesses: filters, logs, flushes -/

def itF : Iter := { Iter.invalid with valid := true, handle := 3 }
def ctxF : Ctx := { ctx0 with files := { files0 with k := [(1, itF)], a := [(1, ⟨true, 3 <<< 48⟩)] } }
theorem witness_FilterAccesses : ctxF.HoldsK 1 itF ∧ ctxF.HoldsA 1 (3 <<< 48) ∧ ctxF.StoreData 0 1 ⟨true, 0, 6, []⟩ ctxF
    ∧ (filterAsk true 1).Accepts (world ctxF) ⟨3, some zeroC, 0, 0⟩ zeroC ∧ ctxF.GateRoom 1 :=
  ⟨⟨rfl, rfl⟩, rfl, ⟨0, 6, ⟨rfl, rfl⟩, rfl, by decide +kernel⟩,
    accepts _ _ _ _ _ _ (by decide +kernel) (by decide +kernel) (by decide +kernel) (by decide +kernel) (by decide +kernel)
      (by decide +kernel), .inr (by decide)⟩
theorem witness_FilterAccesses_read : (1 : BitVec 2) ≠ 0 ∧ ctxF.SlotFree 0 ∧ ctxF.SlotFree 1 ∧ (1 : BitVec 4) ≠ 0
    ∧ (filterAsk true (tapWords 1 0 1)).Accepts (world ctxF) ⟨3, some zeroC, 0, 0⟩ zeroC ∧ (((world ctxF).tensor 3).inside zeroC = true ∧ zeroC.c0 % ((1 : Nat) : Int) = 0)
    ∧ handleOk ((world ctxF).launchOf 0) ((world ctxF).bankAt ((world ctxF).tensor 3).w6).casc = false
    ∧ (world ctxF).UnitsReadable 3 (([zeroC].map fun z => ((world ctxF).tensor 3).units z 1).flatten)
    ∧ (world ctxF).tapsFault 0 3 [zeroC] 1 = none ∧ ((worldEntry ctxF 3 0).tapsFault 0 3 [zeroC] 1).isSome = true :=
  ⟨by decide, by unfold Ctx.SlotFree; decide, by unfold Ctx.SlotFree; decide, by decide,
    accepts _ _ _ _ _ _ (by decide +kernel) (by decide +kernel) (by decide +kernel) (by decide +kernel) (by decide +kernel)
      (by decide +kernel), by decide +kernel, by decide +kernel, unitsReadable _ _ _ (by decide +kernel) (by decide +kernel), by decide +kernel, by decide +kernel⟩

/-- e1: tensor 3; e2: 8 elements, tap 0, format bf16; e3: tensor 4. -/
def ctxBank : Ctx := { ctxE (fun i => if i = 1 then 3 <<< 48 else if i = 2 then BitVec.ofNat 64 (8 + 2 * 2 ^ 36) else 4 <<< 48) with priv := true }
theorem witness_BankCommands : ctxBank.HoldsE 1 (3 <<< 48) ∧ ctxBank.HoldsE 2 (BitVec.ofNat 64 (8 + 2 * 2 ^ 36)) ∧ ctxBank.HoldsE 3 (4 <<< 48)
    ∧ handleOk ((world ctxBank).launchOf 0) 3 = true ∧ (world ctxBank).DescReadable 3 ∧ (world ctxBank).descOk 0 launch0 ((world ctxBank).tensor 3) = true
    ∧ ((world ctxBank).tensor 3).cls = 1 ∧ ((world ctxBank).tensor 1).cls ≠ 1 ∧ handleOk launch0 8 = false ∧ ctxBank.priv = true ∧ ctx0.priv = false
    ∧ ctxBank.GateRoom 1 ∧ (world ctxBank).bankValid 0 launch0 3 ((world ctxBank).tensor 3) ((world ctxBank).bankAt 0x3000) = true
    ∧ ctxBank.Room (ctxBank.savedE 9) := by
  refine ⟨by unfold Ctx.HoldsE; decide +kernel, by unfold Ctx.HoldsE; decide +kernel, by unfold Ctx.HoldsE; decide +kernel, by decide,
    ⟨by decide +kernel, by decide +kernel⟩, by decide +kernel, by decide +kernel, by decide +kernel, by decide, rfl, rfl, .inr (by decide), by decide +kernel,
    .inr (.inr (by decide))⟩
theorem witness_BankCommands_ranges : 0 + 8 ≤ ((world ctxBank).tensor 3).elems ∧ offsetOf (8 : W64) ≠ 0 ∧ offsetOf (3 <<< 48) = 0
    ∧ (offsetOf (64 : W64) % 64 = 0 ∧ offsetOf (64 : W64) + 64 ≤ devTop) ∧ offsetOf (1 : W64) % 64 ≠ 0
    ∧ devTop < offsetOf (BitVec.ofNat 64 devTop) + 64 ∧ ((world ctxBank).tensor 4).cls = 2 ∧ fieldN (BitVec.ofNat 64 (8 + 2 * 2 ^ 36)) 36 4 ≤ 10
    ∧ fieldN (BitVec.ofNat 64 (8 + 2 * 2 ^ 36)) 0 32 * ((EFmt.ofCode 2).width / 8) ≤ 65536
    ∧ offsetOf (4 <<< 48) < ((world ctxBank).tensor 4).elems ∧ (world ctxBank).descOk 0 launch0 ((world ctxBank).tensor 4) = true := by decide +kernel

def itL : Iter := { Iter.invalid with valid := true, handle := 4 }
theorem witness_AppendAndSeal : ({ ctx0 with files := { files0 with k := [(1, itL)] } } : Ctx).HoldsK 1 itL
    ∧ appendAsk.Accepts (world ctx0) ⟨4, some zeroC, 0, 0⟩ zeroC ∧ addrOk 0x8030 16 = true ∧ ctx0.GateRoom 1 ∧ ctx0.SlotFree 0
    ∧ ctx0.StoreData 1 1 z5 ctx0 ∧ ctxLift.StoreData 1 2 z4 ctxLift ∧ z4.tag ≠ 0
    ∧ ((worldEntry ctx0 4 (BitVec.ofNat 64 (2 ^ 63 + 2 * 2 ^ 59 + 5))).entry 0 ((world ctx0).tensor 4) 0).apst = 2
    ∧ ((world ctx0).entry 0 ((world ctx0).tensor 4) 0).apst = 0 ∧ (world ctx0).effFault 0 (.append 4 zeroC 4 7 none false 0) = none :=
  ⟨⟨rfl, rfl⟩, accepts _ _ _ _ _ _ (by decide +kernel) (by decide +kernel) (by decide +kernel) (by decide +kernel) (by decide +kernel)
      (by decide +kernel), by decide, .inr (by decide), by unfold Ctx.SlotFree; decide, ⟨TReg.invalid, ⟨rfl, rfl⟩, ⟨rfl, rfl⟩⟩,
    ⟨TReg.invalid, ⟨rfl, rfl⟩, ⟨rfl, rfl⟩⟩, by decide, by decide +kernel, by decide +kernel, by decide +kernel⟩

def ctxFlush (n : W64) : Ctx := { ctx0 with priv := true, files := { files0 with a := [(1, ⟨true, 1 <<< 48⟩), (2, ⟨true, n⟩)] } }
theorem witness_FlushAndInvalidate : (ctxFlush 64).HoldsA 1 (1 <<< 48) ∧ (ctxFlush 64).HoldsA 2 64 ∧ (ctxFlush 0).HoldsA 2 0 ∧ offsetOf (0 : W64) = 0
    ∧ offsetOf (64 : W64) ≠ 0 ∧ handleOk launch0 1 = true ∧ (world (ctxFlush 64)).DescReadable 1
    ∧ (world (ctxFlush 64)).descOk 0 launch0 ((world (ctxFlush 64)).tensor 1) = true ∧ ((world (ctxFlush 64)).tensor 1).cls ≠ 1
    ∧ ((world (ctxFlush 64)).tensor 1).cls ≠ 2 ∧ ((world (ctxFlush 64)).tensor 1).elems < 0 + 65 ∧ 0 + 64 ≤ ((world (ctxFlush 64)).tensor 1).elems
    ∧ (∀ t ∈ rangeTiles ((world (ctxFlush 64)).tensor 1) 0 64, addrOk (((world (ctxFlush 64)).tensor 1).entryAddr t) 16 = true)
    ∧ ctx0.priv = false ∧ (ctxFlush 64).priv = true :=
  ⟨rfl, rfl, rfl, by decide, by decide, by decide, ⟨by decide +kernel, by decide +kernel⟩, by decide +kernel, by decide +kernel, by decide +kernel,
    by decide +kernel, by decide +kernel, by decide +kernel, rfl, rfl⟩
/-- An invalidation of tensor 1's descriptor and first tile, by context 0, which waits for it. -/
def inval0 : Inval := ⟨3, .ctx 0, [(0x1080, 128), (0x8000, 16)], [0x8000], [], []⟩
def worldInval : State :=
  { world { ctx0 with wait := .inval 3 } with mp := { MemPath.empty with lu := lu0, pend := [inval0] } }
theorem witness_FlushAndInvalidate_end : findBy (fun v => v.ofCtx 0 && worldInval.invalReady v) worldInval.mp.pend = some inval0
    ∧ (worldInval.ctx 0).wait = .inval 3 ∧ (0x1080, 128) ∈ inval0.words := by decide +kernel

/-! ### Witnesses: events -/

theorem noneOwns (s : State) (a n : Nat) (h : a + n ≤ devTop) (hd : s.mp.dirs = []) : s.NoneOwns a n := by
  have ht : devTop = 412316860416 := by decide
  refine ⟨by unfold addrOk; rw [decide_eq_true h]; rfl, fun x _ hn => ⟨?_, fun o => ?_⟩⟩
  · unfold State.dead; rw [decide_eq_false (by unfold scrBase; omega)]; rfl
  rw [State.page, hd]
  exact nofun
theorem ringRoom (s : State) (q a : Nat) (h : s.ringUsed q < s.ringSize q
    ∧ a = fieldN (s.reg (queueReg q 1)) 0 48 + 64 * ((s.reg (queueReg q 2)).toNat % s.ringSize q)) (h1 : a + 64 ≤ devTop)
    (hd : s.mp.dirs = []) : s.RingOk q := .inl ⟨a, h.1, h.2, noneOwns s a 64 h1 hd⟩

def loadF (kd : LoadKind) (g : Option (List VBits)) : Load := ⟨5, 0, 1, kd, false, false, 0, 0, 0, g⟩
def ctxLoad (kd : LoadKind) (g : Option (List VBits)) : Ctx := { ctx0 with fl := { Flight.empty with loads := [loadF kd g] } }
theorem witness_AccessEvents : (world (ctxLoad (.desc 1 0) (some [7]))).loadOf 0 5 = some (loadF (.desc 1 0) (some [7]))
    ∧ ((world (ctxLoad (.desc 1 0) (some [7]))).fops.any fun f => f.kind == .read 5) = false
    ∧ (world (ctxLoad (.peer 1 0) none)).loadOf 0 5 = some (loadF (.peer 1 0) none)
    ∧ Core.clear.moving 0 8 = false ∧ 0 < Core.clear.scrSize
    ∧ ({ Core.clear with phase := some ⟨0x70000, 4, 0, 9⟩ } : Core).moving 0x60000 8 = true
    ∧ (ctxLoad (.peer 1 0) none).frame = none ∧ addrOk (descAddr launch0 1 + 8 * 2) 8 = true
    ∧ (ctxLoad (.elems 1 [zeroC]) none).seg.abortedOnce = false := by
  refine ⟨by decide +kernel, by decide, by decide, by decide, by decide, by decide, rfl, by decide, rfl⟩
theorem witness_AccessEvents_elems : ∃ s1, readLoad 0 (loadF (.elems 1 [zeroC]) none) 1 [zeroC]
    (((world (ctxLoad (.elems 1 [zeroC]) none)).on 0).afterFences 0 1) = .ok (.ok [0], s1) := ⟨_, ok_after' (by decide +kernel)⟩
/-- A reading that answers an error. -/
theorem ok_error {α ε : Type} [DecidableEq ε] {m : M (Except ε α)} {s : State} {v : ε}
    (h : (match m s with | .ok (.error x, _) => decide (x = v) | _ => false) = true) : m s = .ok (.error v, after m s) := by
  unfold after
  cases hm : m s with
  | error e => simp [hm] at h
  | ok r =>
    obtain ⟨x, t⟩ := r
    cases x with
    | ok e => simp [hm] at h
    | error x => simp only [hm, decide_eq_true_eq] at h; subst h; rfl
/-- Tensor 5, whose page the host owns. -/
def worldHost : State := worldEntry (ctxLoad (.elems 5 [zeroC]) none) 5 (BitVec.ofNat 64 (2 ^ 63 + 2 ^ 62 + 6))
theorem witness_AccessEvents_host : ∃ s1, readLoad 0 (loadF (.elems 5 [zeroC]) none) 5 [zeroC] (worldHost.on 0) = .ok (.error (zeroC, (2, zeroC)), s1)
    ∧ (s1.ctx 0).frame = none := ⟨_, ok_error (by decide +kernel), by decide +kernel⟩

/-- One effect on its way to its home, and the pages of tensors 1 and 6 shared. -/
def worldOut (e : Eff) : State :=
  { world ctx0 with mp := { MemPath.empty with lu := lu0, outs := [⟨0, 1, 5, 1, e, 0, 0⟩], dirs := [(2, ⟨some none, []⟩), (7, ⟨some none, []⟩)] } }
theorem readableAt (s : State) (n : BitVec 16) (h : addrOk (descAddr launch0 n) 128 = true
    ∧ addrOk (descAddr launch0 (BitVec.ofNat 16 (s.desc 0 launch0 n).scale)) 128 = true) : s.DescReadableAt 0 launch0 n := h
/-- A store of data and a release of a flag behind it, both on their way; context 0 stands on core 0. -/
def outRel (sc : BitVec 3) : OutOp := ⟨0, 1, 6, 2, .store (.tensor 6 zeroC) false 1 true true sc, 0, 0⟩
def worldRel (sc : BitVec 3) : State :=
  { worldOut (.store (.tensor 1 zeroC) false 6 false false 0) with
    mp := { (worldOut (.store (.tensor 1 zeroC) false 6 false false 0)).mp with
      outs := [⟨0, 1, 5, 1, .store (.tensor 1 zeroC) false 6 false false 0, 0, 0⟩, outRel sc] } }
/-- R95: a release at .clu may perform before the data; one at .dev may not.  Then an acquire in cluster 0 (context 8, core 2) waits
for the data, and one in cluster 9 (context 2304) does not. -/
theorem test_narrow_release : (worldRel 1).outReady (outRel 1) = true ∧ (worldRel 3).outReady (outRel 3) = false
    ∧ ((worldRel 1).left (outRel 1)).owedTo 8 4 = true ∧ ((worldRel 1).left (outRel 1)).owedTo 2304 4 = false := by decide +kernel
theorem witness_AccessEvents_order : (⟨0, 1, 5, 1, .store (.tensor 1 zeroC) false 6 false false 0, 0, 0⟩ : OutOp) ∈ (worldRel 3).mp.outs
    ∧ OutOp.precedes ⟨0, 1, 5, 1, .store (.tensor 1 zeroC) false 6 false false 0, 0, 0⟩ (outRel 3) = true
    ∧ (outRel 3).eff.rel = true ∧ 3 ≤ (outRel 3).eff.scope ∧ Eff.acq (.amo .add 6 zeroC true 1 (some 9) 1 3) = true
    ∧ ({ loadF (.desc 1 0) none with acq := true } : Load).seq < ({ loadF (.desc 1 0) none with seq := 2 } : Load).seq := by decide +kernel
theorem out_only (e : Eff) : (worldOut e).left ⟨0, 1, 5, 1, e, 0, 0⟩ = { worldOut e with mp := { (worldOut e).mp with outs := [] } } :=
  left_only rfl rfl
theorem witness_AccessEvents_store : let o := worldOut (.store (.scr 3 0x6FFF8) false 6 true false 0)
    let t := worldOut (.store (.tensor 1 zeroC) false 6 true false 0)
    let z := t.left ⟨0, 1, 5, 1, .store (.tensor 1 zeroC) false 6 true false 0, 0, 0⟩
    findBy (fun o => o.ctx == 0 && o.id == 5) o.mp.outs = some ⟨0, 1, 5, 1, .store (.scr 3 0x6FFF8) false 6 true false 0, 0, 0⟩ ∧ 3 < numCores
      ∧ (o.core 3).moving 0x6FFF8 8 = false ∧ 0x6FFF8 < (o.core 3).scrSize ∧ (o.core 3).scrSize ≤ scrBytes ∧ z.DescReadableAt 0 launch0 1
      ∧ (∀ y, some y ∈ (z.desc 0 launch0 1).units zeroC 1 → addrOk ((z.desc 0 launch0 1).entryAddr ((z.desc 0 launch0 1).tileNo y)) 16 = true)
      ∧ (∃ cs, z.tensorCells 0 launch0 1 zeroC false 6 = .ok cs ∧ ∀ e ∈ cs, addrOk e.1 1 = true ∧ (z.page (frameOf e.1)).cls = some none) := by
  intro o t z
  rw [show z = { t with mp := { t.mp with outs := [] } } from out_only _]
  refine ⟨by decide +kernel, by decide, by decide, by decide, by decide, readableAt _ _ (by decide +kernel), ?_, ?_⟩
  · have h : ∀ y ∈ (t.desc 0 launch0 1).units zeroC 1, ∀ z, y = some z →
      addrOk ((t.desc 0 launch0 1).entryAddr ((t.desc 0 launch0 1).tileNo z)) 16 = true := by
      rw [show (t.desc 0 launch0 1).units zeroC 1 = [some zeroC] by decide +kernel]
      intro y hy z hz; simp only [List.mem_singleton] at hy; subst hy; cases hz; decide +kernel
    exact fun y hy => h _ hy y rfl
  · exact ⟨[(0x20000, 6, 255), (0x20001, 0, 255), (0x20002, 0, 255), (0x20003, 0, 255)], ok_of (by decide +kernel), by decide⟩
theorem witness_AccessEvents_amo : let s := worldOut (.amo .add 6 zeroC true 1 (some 9) 0 0)
    let z := s.left ⟨0, 1, 5, 1, .amo .add 6 zeroC true 1 (some 9) 0 0, 0, 0⟩
    z.DescReadableAt 0 launch0 6 ∧ addrOk ((z.desc 0 launch0 6).entryAddr ((z.desc 0 launch0 6).tileNo zeroC)) 16 = true
      ∧ z.xlate 0 launch0 6 zeroC true = .ok 0x70000 ∧ (z.desc 0 launch0 6).bits = 64 ∧ s.mp.unperf = []
      ∧ addrOk 0x70000 (64 / 8) = true
      ∧ ∀ j, j < (64 + 7) / 8 → addrOk (0x70000 + j) 1 = true ∧ (z.page (frameOf (0x70000 + j))).cls = some none := by
  intro s z
  rw [show z = { s with mp := { s.mp with outs := [] } } from out_only _]
  exact ⟨readableAt _ _ (by decide +kernel), by decide +kernel, ok_of (by decide +kernel), by decide +kernel, rfl, by decide, by decide +kernel⟩
/-- The open page of tensor 4, with COMMIT and TAIL at 0, at 0x3800; its tile word at page word 0x3800. -/
def worldPage (w : Nat) : State := { worldEntry ctx0 4 (BitVec.ofNat 64 (2 ^ 63 + 5)) with mem := memOf [(0x3800, w)] }
theorem page_words (w : Nat) (h : w = 0 ∨ w = 65536 ∨ w = 2 ^ 59 ∨ w = 2 ^ 60 + 16 * 2 ^ 32 + 16) :
    (worldPage w).DescReadableAt 0 launch0 4 ∧ ((worldPage w).desc 0 launch0 4).w6 + 8 * ((worldPage w).desc 0 launch0 4).tileNo zeroC = 0x3800
      ∧ (worldPage w).NoneOwns 0x3800 8 ∧ (worldPage w).seenN 0x3800 8 = w := by
  refine ⟨?_, ?_, noneOwns _ _ _ (by decide) rfl, ?_⟩
  · unfold State.DescReadableAt; rcases h with h | h | h | h <;> (subst h; decide +kernel)
  · rcases h with h | h | h | h <;> (subst h; decide +kernel)
  · rcases h with h | h | h | h <;> (subst h; decide +kernel)
/-- With an effect of context 0 on its way to that page, what its leaving gives is the page's state without it. -/
theorem page_left (w : Nat) (e : Eff) : ({ worldPage w with mp := { (worldPage w).mp with outs := [⟨0, 1, 5, 1, e, 0, 0⟩] } } : State).left
    ⟨0, 1, 5, 1, e, 0, 0⟩ = worldPage w := left_only rfl rfl
theorem witness_AccessEvents_append : wordApst (BitVec.ofNat 64 0) = 0 ∧ wordTail (BitVec.ofNat 64 0) + 16 ≤ 65536
    ∧ 65536 < wordTail (BitVec.ofNat 64 65536) + 16 ∧ wordApst (BitVec.ofNat 64 65536) = 0 ∧ wordApst (BitVec.ofNat 64 (2 ^ 59)) = 1
    ∧ wordApst (BitVec.ofNat 64 (2 ^ 59)) ≠ 3 ∧ wordCommit (BitVec.ofNat 64 (2 ^ 59)) = wordTail (BitVec.ofNat 64 (2 ^ 59))
    ∧ addrOk (((worldPage 0).desc 0 launch0 4).entryAddr (((worldPage 0).desc 0 launch0 4).tileNo zeroC)) 16 = true
    ∧ (worldPage 0).mp.seals = [] := by decide +kernel
def resv0 : Resv := ⟨0x3800, 5, 0, 16, List.replicate 16 7, some 0, 5, false, 1, 0⟩
/-- A seal of that page, whose entry is at 0x8030, under way: by context 0, which awaits TAIL; and the invalidation that it has begun. -/
def seal0 : SealRun := ⟨0x3800, 0x8030, 0, 5, some 9, 1, 0⟩
def worldSeal (w : Nat) (pend : List Inval) : State := { worldPage w with mp := { (worldPage w).mp with seals := [seal0], pend := pend } }
theorem witness_AccessEvents_seal : (worldSeal 0 []).Inv ∧ (worldSeal 0 []).NoneOwns 0x3800 8 ∧ (worldSeal 0 []).NoneOwns 0x8030 8
    ∧ wordApst (BitVec.ofNat 64 0) ≠ 3 ∧ ((worldSeal 0 []).mp.seals.filter fun r => r.page == 0x3800) = [seal0]
    ∧ (0x3800 + 8 ≤ seal0.entry ∨ seal0.entry + 8 ≤ 0x3800)
    ∧ (worldPage 0).Inv ∧ (worldPage 0).NoneOwns (((worldPage 0).desc 0 launch0 4).entryAddr (((worldPage 0).desc 0 launch0 4).tileNo zeroC)) 8
    ∧ ((worldPage 0).desc 0 launch0 4).entryAddr (((worldPage 0).desc 0 launch0 4).tileNo zeroC) = 0x8030 :=
  ⟨by unfold State.Inv; decide +kernel, noneOwns _ _ _ (by decide) rfl, noneOwns _ _ _ (by decide) rfl, by decide, by decide, by decide,
    by unfold State.Inv; decide +kernel, noneOwns _ _ _ (by decide +kernel) rfl, by decide +kernel⟩
theorem witness_AccessEvents_sealed : let s := worldSeal (2 ^ 59) []
    let v : Inval := ⟨7, .seal 0x3800, [(0x8030, 16)], [0x8030], [0x3800], []⟩
    s.Inv ∧ s.NoneOwns 0x3800 8 ∧ s.NoneOwns 0x8030 8 ∧ BitVec.ofNat 64 (s.seenN 0x3800 8) = BitVec.ofNat 64 (2 ^ 59)
      ∧ findBy (fun v => v.who == .seal 0x3800) s.mp.pend = none
      ∧ findBy (fun v => v.who == .seal 0x3800) (worldSeal (2 ^ 59) [v]).mp.pend = some v ∧ (worldSeal (2 ^ 59) [v]).invalReady v = true
      ∧ addrOk 0x3800 8 = true :=
  ⟨by unfold State.Inv; decide +kernel, noneOwns _ _ _ (by decide) rfl, noneOwns _ _ _ (by decide) rfl, by decide +kernel, by decide, by decide,
    by decide +kernel, by decide⟩
theorem witness_AccessEvents_commit : resv0.data.length = resv0.len ∧ resv0.written = false ∧ (worldPage 0).NoneOwns 0x3800 8
    ∧ (worldPage 0).NoneOwns (resv0.frame * 65536 + resv0.off) resv0.len ∧ 0x3800 + 8 ≤ resv0.frame * 65536 + resv0.off ∧ (worldPage 0).Inv
    ∧ wordCommit (BitVec.ofNat 64 0) = resv0.off :=
  ⟨rfl, rfl, noneOwns _ _ _ (by decide) rfl, noneOwns _ _ _ (by decide) rfl, by decide, by unfold State.Inv; decide +kernel, by decide⟩
theorem witness_AccessEvents_pages : findBy (fun r => r.die == 1 && r.home == 4 && !r.ready) [(⟨1, 4, 9, 0, false⟩ : Replica)] = some ⟨1, 4, 9, 0, false⟩
    ∧ addrOk (4 * 65536) 65536 = true ∧ addrOk (9 * 65536) 65536 = true
    ∧ ({ world ctx0 with mp := { MemPath.empty with dirs := [(4, ⟨some (some 2), []⟩)] } } : State).page 4 = ⟨some (some 2), []⟩
    ∧ (0, 4, 7) ∈ ({ MemPath.empty with invals := [(0, 4, 7)] } : MemPath).invals := by decide

/-- A migration of the page of tensor 5, whose entry is at 0x8040, with feature 2. -/
def mig0 (st : MigStage) : Mig := ⟨3, 2, [.driver], 0x8040, 1, 0, 5, 0, false, st⟩
def worldMig (st : MigStage) : State := { worldEntry ctx0 5 (BitVec.ofNat 64 (2 ^ 63 + 2 ^ 62 + 6)) with
  mem := memOf [(0x8040, 2 ^ 63 + 2 ^ 62 + 2 ^ 61 + 6), (0x8048, 1)],
  mg := { Mgmt.reset with bar0 := [(0x10, 2)], features := 4 },
  mp := { MemPath.empty with lu := lu0, migs := [mig0 st] } }
theorem witness_MigrationEvents : (worldMig .copying).feature 2 = true ∧ (world ctx0).feature 2 = false ∧ (worldMig .copying).DescReadableAt 0 launch0 5
    ∧ (worldMig .copying).descOk 0 launch0 ((worldMig .copying).desc 0 launch0 5) = true ∧ ((worldMig .copying).desc 0 launch0 5).cls = 3
    ∧ 0 < ((worldMig .copying).desc 0 launch0 5).count ∧ (mig0 .copying).entry = ((worldMig .copying).desc 0 launch0 5).entryAddr 0
    ∧ (∀ y ∈ (worldMig .copying).mp.migs, y.stage ≠ .waiting) ∧ (worldMig .revoked).mp.migs = [mig0 .revoked]
    ∧ (mig0 .revoked).ring.toNat = 2 ∧ (mig0 .revoked).askers = [.driver] ∧ (worldMig .revoked).NoneOwns 0x8040 8
    ∧ (worldMig .copying).NoneOwns 0x8040 16 ∧ (mig0 .copying).toHost = false
    ∧ addrOk (fieldN (BitVec.ofNat 64 ((worldMig .copying).seenN 0x8040 8)) 0 24 * 65536) 65536 = true
    ∧ addrOk (hostBase + fieldN (BitVec.ofNat 64 ((worldMig .copying).seenN 0x8048 8)) 0 48 * 65536) 65536 = true :=
  ⟨by decide, by decide, readableAt _ _ (by decide +kernel), by decide +kernel, by decide +kernel, by decide +kernel, by decide +kernel, by decide, rfl, by decide, rfl,
    noneOwns _ _ _ (by decide) rfl, noneOwns _ _ _ (by decide) rfl, rfl, by decide +kernel, by decide +kernel⟩
/-- A request in the other direction behind it; one of a page that the device owns, with no migration under way. -/
def worldAsk : State := { worldMig .copying with mem := memOf [(0x8040, 2 ^ 63 + 6)], mp := { MemPath.empty with lu := lu0 } }
theorem witness_MigrationEvents_request : (mig0 .copying).toHost ≠ true ∧ (mig0 .copying).seq ≠ (worldMig .copying).nextId
    ∧ worldAsk.feature 2 = true ∧ worldAsk.mp.migs = [] ∧ worldAsk.DescReadableAt 0 launch0 5 ∧ worldAsk.descOk 0 launch0 (worldAsk.desc 0 launch0 5) = true
    ∧ (worldAsk.desc 0 launch0 5).cls = 3 ∧ (worldAsk.desc 0 launch0 5).entryAddr 0 = 0x8040 ∧ worldAsk.NoneOwns 0x8040 8
    ∧ (BitVec.ofNat 64 (worldAsk.seenN 0x8040 8)).getLsbD 62 = false :=
  ⟨by decide, by decide, by decide, rfl, readableAt _ _ (by decide +kernel), by decide +kernel, by decide +kernel, by decide +kernel,
    noneOwns _ _ _ (by decide) rfl, by decide +kernel⟩
/-- The copy has ended: the entry's invalidation is under way, of a move to the device and of one to the host. -/
def worldMoved (host : Bool) : State :=
  { worldMig .copying with mp := { MemPath.empty with lu := lu0, migs := [{ mig0 .copying with toHost := host }],
                                                      pend := [⟨7, .mig 3, [(0x8040, 16)], [0x8040], [], []⟩] } }
theorem witness_MigrationEvents_moved : (worldMig .copying).migInval (mig0 .copying) = none
    ∧ (∀ h, (worldMoved h).migInval { mig0 .copying with toHost := h } = some ⟨7, .mig 3, [(0x8040, 16)], [0x8040], [], []⟩)
    ∧ (∀ h, (worldMoved h).invalReady ⟨7, .mig 3, [(0x8040, 16)], [0x8040], [], []⟩ = true) ∧ (worldMoved true).migRoom 1 = true ∧ (worldMoved true).feature 2 = true
    ∧ (worldMoved true).NoneOwns 0x8040 16
    ∧ addrOk (fieldN ((worldMoved true).reg (migRing 1)) 0 48 + 16 * (((worldMoved true).reg (migTail 1)).toNat
        % 2 ^ (fieldN ((worldMoved true).reg (migRing 1)) 48 4 + 4))) 16 = true :=
  ⟨rfl, by decide, by decide +kernel, by decide, by decide, noneOwns _ _ _ (by decide) rfl, by decide⟩

/-- The bank at 0x3000, a STEP bank or a TICK bank with count 1, and operation `kd` of context 0 on it, which planer 8 is to accept; the
8 words of tensor 3, at 0x40000, are that planer's. -/
def fop0 (kd : FKind) : FOp := ⟨0, 1, 1, 0x3000, 3, kd, [8]⟩
def worldBank (tick : Bool) (n : Nat) (sw : List Sweep) (loads : List Load) (kd : FKind) : State :=
  { world { ctx0 with fl := { Flight.empty with loads := loads } } with
    mem := memOf [(0x3020, 2 ^ 63 + if tick then 2 ^ 61 else 0)], fops := [fop0 kd],
    planers := [(8, { banks := [(0x3000, ⟨BitVec.ofNat 16 n, false, none, 3, 1⟩)], sweeps := sw, casc := [(0x3000, 3, 1, 0, 5, 2)] })] }
theorem witness_PlanerEvents : (worldBank false 0 [] [] (.samples [(0, 5)])).nextFOp 0 8 = some (fop0 (.samples [(0, 5)]))
    ∧ (worldBank false 0 [] [] (.samples [(0, 5)])).homeOf 8 ⟨1, 3, 0x3000, 0⟩ 0 = some 0x40000
    ∧ (worldBank false 0 [] [] (.samples [(0, 5)])).homeOf 7 ⟨1, 3, 0x3000, 0⟩ 0 = none ∧ addrOk 0x40000 16 = true
    ∧ ((worldBank false 0 [] [] (.samples [(0, 5)])).bankParams 8 0x3000).tick = false
    ∧ ((worldBank true 0 [] [] (.tick 2)).bankParams 8 0x3000).tick = true
    ∧ ((worldBank true 0 [] [] (.tick 2)).bankParams 8 0x3000).okHere = true
    ∧ ((worldBank true 0 [] [] (.tick 2)).bankState 8 0x3000).t = 0
    ∧ (FWord.parse ((worldBank true 0 [] [] (.tick 2)).seenN 0x40000 16)).stamp = 0
    ∧ ((worldBank true 1 [] [] (.tick 2)).bankState 8 0x3000).t = 1
    ∧ ((worldBank true 1 [] [] (.tick 2)).planer 8).sweeps = []
    ∧ 8 ≤ (((worldBank true 1 (List.replicate 8 ⟨0x3000, 1, 2, 0⟩) [] (.tick 2)).planer 8).sweeps.filter fun w => w.bank == 0x3000).length
    ∧ (∀ k, ((worldBank k 0 [] [] (.tick 2)).bankParams 8 0x3000).casc = 0) := by decide +kernel
/-- The tile entries of the bank's tensor are memory. -/
theorem witness_PlanerEvents_entries : let s := worldBank true 0 [] [] (.tick 2)
    s.DescReadableAt 0 (s.launch 1) 3 ∧ (∀ n < (s.desc 0 (s.launch 1) 3).count, addrOk ((s.desc 0 (s.launch 1) 3).entryAddr n) 16 = true)
      ∧ (∀ i ∈ ([0] : List Nat), addrOk ((s.desc 0 (s.launch 1) 3).entryAddr ((s.desc 0 (s.launch 1) 3).tileNo
          ((s.desc 0 (s.launch 1) 3).ofOffset i))) 16 = true) :=
  ⟨readableAt _ _ (by decide +kernel), by decide +kernel, by decide +kernel⟩
theorem witness_PlanerEvents_words : (worldBank true 0 [] [] (.discard 0 1)).nextFOp 0 8 = some (fop0 (.discard 0 1))
    ∧ (worldBank true 0 [] [] (.discard 0 1)).homeWords 8 ⟨1, 3, 0x3000, 0⟩ 0 1 = [(0, 0x40000)]
    ∧ (worldBank false 0 [] [] (.taps 6)).nextFOp 0 8 = some (fop0 (.taps 6)) ∧ (worldBank false 0 [] [] (.taps 6)).copyOf 0 6 = none
    ∧ (worldBank true 1 [⟨0x3000, 1, 2, 7⟩] [] (.tick 2)).allWords 8 ⟨1, 3, 0x3000, 0⟩ = (List.range 8).map (fun i => (i, 0x40000 + 16 * i))
    ∧ (worldBank true 1 [⟨0x3000, 1, 2, 7⟩] [] (.tick 2)).wordAddr ⟨1, 3, 0x3000, 0⟩ 0 = some 0x40000 ∧ addrChannel 0x40000 = 8
    ∧ ((worldBank false 1 [] [] (.tick 2)).planer 8).casc = (0x3000, 3, 1, 0, 5, 2) :: [] := by decide +kernel
/-- A bank of one word. -/
def worldOne (tick : Bool) : State :=
  { worldBank tick 0 [] [] (.bank []) with mp := { MemPath.empty with lu := descWords 0x1180 1 24 1 0 0 1 1 1 1 0x8020 0x3000 ++ lu0 } }
theorem witness_PlanerEvents_bank : (worldOne false).nextFOp 0 8 = some (fop0 (.bank []))
    ∧ (worldOne false).allWords 8 ⟨1, 3, 0x3000, 0⟩ = [(0, 0x40000)] := by decide +kernel
def loadTap : Load := ⟨5, 0, 1, .taps 3 [zeroC] 1 0 0 0, false, false, 0, 0, 0, none⟩
theorem witness_PlanerEvents_tap : let s := worldBank false 0 [] [loadTap] (.read 5)
    s.nextFOp 0 8 = some (fop0 (.read 5)) ∧ s.loadOf 0 5 = some loadTap ∧ (worldBank false 0 [] [] (.read 5)).loadOf 0 5 = none
      ∧ (s.desc 0 (s.launch 1) 3).units zeroC 1 = [some zeroC] ∧ s.homeOf 8 ⟨1, 3, 0x3000, 0⟩ ((s.desc 0 (s.launch 1) 3).offset zeroC) = some 0x40000
      ∧ s.Inv ∧ s.NoneOwns 0x40000 16 ∧ (s.bankParams 8 0x3000).tick = false :=
  ⟨by decide +kernel, by decide +kernel, by decide, by decide +kernel, by decide +kernel, by unfold State.Inv; decide +kernel,
    noneOwns _ _ _ (by decide) rfl, by decide +kernel⟩
def copyTap (got : AMap W32) : CopyRun :=
  { id := 6, seq := 1, stage := .running, cpy := none, exp := some ⟨scr 0, 3 <<< 48, 1, 0, 0⟩, resv := some (0, 8),
    got := got, code := 0, sub := 0, info := 0, orphan := false }
def worldTaps (got : AMap W32) : State :=
  { world { ctx0 with fl := { Flight.empty with copies := [copyTap got] } } with
    mem := memOf [(0x3020, 2 ^ 63)], fops := [⟨0, 1, 1, 0x3000, 3, .taps 6, [8]⟩] }
theorem witness_PlanerEvents_taps : let s := worldTaps []
    s.nextFOp 0 8 = some ⟨0, 1, 1, 0x3000, 3, .taps 6, [8]⟩ ∧ s.copyOf 0 6 = some (copyTap [])
      ∧ (s.bankAt (s.desc 0 (s.launch 1) 3).w6).casc = 0 ∧ s.DescReadableAt 0 (s.launch 1) 3
      ∧ (∀ i ∈ (List.range 1).map (offsetOf (3 <<< 48) + ·), addrOk ((s.desc 0 (s.launch 1) 3).entryAddr
          ((s.desc 0 (s.launch 1) 3).tileNo ((s.desc 0 (s.launch 1) 3).ofOffset i))) 16 = true)
      ∧ (copyTap [(0, 5)]).limit 1 ≤ (copyTap [(0, 5)]).got.length ∧ (copyTap []).got.find? (copyTap []).got.length = none
      ∧ s.exportWord ⟨1, 3, 0x3000, 0⟩ (copyTap []) ⟨scr 0, 3 <<< 48, 1, 0, 0⟩ = .at' 0x40000 ∧ addrChannel 0x40000 = 8 ∧ s.Inv
      ∧ s.NoneOwns 0x40000 16 ∧ (s.bankParams 8 0x3000).tick = false :=
  ⟨by decide +kernel, by decide +kernel, by decide +kernel, readableAt _ _ (by decide +kernel), by decide +kernel, by decide, by decide,
    by decide +kernel, by decide, by unfold State.Inv; decide +kernel, noneOwns _ _ _ (by decide) rfl, by decide +kernel⟩

/-- A message from device 3 for job 9, for offset 0x100 of core 0 of the launch's first instance. -/
def msg0 (kd : FabKind) : FabMsg := ⟨kd, 9, 3, 0, 4, 0x100, List.replicate 4 7, none, 0, 0, 0, 0, 0, 1, 0, 0, 1, 1, 0⟩
/-- A grant to every device over the low cluster scratchpad. -/
def launchG : Launch := { launch0 with job := 9, grants := [BitVec.ofNat 128 (2 ^ 127 + 2 ^ 126 + 255 * 2 ^ 112 + (2 ^ 32 - 1) * 2 ^ 32)] }
/-- All-reduce of one element among devices 0 and 3; this member has it in its place, in the first and only round. -/
def collRun : FabRun := { id := 6, seq := 1, stage := .running, cmd := ⟨.ar, scr 0, scr 64, 1, 0, 0⟩, epoch := 0, k := 0, members := [0, 3], self := 0,
                          round := 1, inputs := [], acc := [(0, 5)], pending := [], heldPos := [], denied := 0, code := 0, sub := 0, orphan := false }
def worldFab (fs : List FabRun) : State :=
  { world { ctx0 with fl := { Flight.empty with fabs := fs } } with
    dist := { Dist.empty with launches := [(1, launchG)], insts := [(1, inst0)] } }
/-- Port 0 has delivered an answer, and port 1 the flit of those four bytes. -/
def worldRx (fs : List FabRun) : State :=
  { worldFab fs with ports := [(0, { Port.trained with rx := [[]] }), (1, { Port.trained with rx := [List.replicate 4 7] })] }
theorem witness_FabricEvents : (worldRx []).deliverer (msg0 .put).data = some 1 ∧ (worldFab []).deliverer (msg0 .put).data = none
    ∧ (worldRx []).launchFor 9 = some 1 ∧ (world ctx0).launchFor 9 = none ∧ launchG.admits 3 0 0x100 0x104 .wr = true
    ∧ launch0.admits 3 0 0x100 0x104 .wr = false ∧ (worldRx []).instFor 1 0 = some 1 ∧ inst0.placed = true ∧ fieldN (0x100 : W64) 19 6 < inst0.cores
    ∧ (worldRx []).putRefused 0 (msg0 .put) 0x100 = false ∧ addrOk (scrAddr 0 0x100) 4 = true ∧ (msg0 .put).flag = none
    ∧ (worldRx []).mg.linkUp = true ∧ (worldRx []).dist.doneJobs.contains 9 = false ∧ (∀ j < 12, ((worldRx []).port j).down = false)
    ∧ (worldRx []).mg.bad = [] ∧ within (scrAddr 0 0x100) 4 (scrAddr 0 0x102) = true := by decide
/-- An answer leaves at once: some port reaches the sender, and its replay buffer has room. -/
theorem witness_FabricEvents_free : ∃ n, (worldRx []).routeTo (msg0 .put).src.toNat = some n ∧ ((worldRx []).port n).queue = []
    ∧ ((worldRx []).port n).replay.length < 256 := by
  have h : ∀ n < 12, ((worldRx []).port n).down = false ∧ ((worldRx []).port n).queue = [] ∧ ((worldRx []).port n).replay.length < 256 := by
    decide
  have lt : Config.route 3 0 % 12 < 12 := Nat.mod_lt _ (by decide)
  refine ⟨Config.route 3 0 % 12, ?_, (h _ lt).2⟩
  show findBy _ (Config.route 3 0 % 12 :: ((List.range 12).tail.map fun i => Config.route 3 i % 12)) = _
  simp [findBy, (h _ lt).1]
theorem witness_FabricEvents_bad : let s : State := { worldRx [] with mg := { (worldRx []).mg with bad := [scrAddr 0 0x102] } }
    s.launchFor 9 = some 1 ∧ s.putRefused 0 (msg0 .put) 0x100 = false ∧ ∃ x ∈ s.mg.bad, within (scrAddr 0 0x100) 4 x = true :=
  ⟨by decide, by decide, scrAddr 0 0x102, by decide, by decide⟩
theorem witness_FabricEvents_rounds : let s := worldRx [collRun]
    s.deliverer (msg0 .coll).data = some 1 ∧ s.collFor 1 (msg0 .coll) = some (0, collRun) ∧ (worldRx []).collFor 1 (msg0 .coll) = none ∧ inst0.colls.get 0 (collKey 0 0) ≤ (msg0 .coll).k
      ∧ s.fabOf 0 6 = some collRun ∧ (msg0 .coll).form = collRun.cmd.formNo ∧ (msg0 .coll).count = collRun.coll.n
      ∧ (s.received (msg0 .coll).data 1).landAdmitted 0 collRun 3 (collRun.coll.lands 0 (collRun.coll.sent 1 1)) = true
      ∧ landFault 0 collRun (collRun.coll.lands 0 (collRun.coll.sent 1 1)) (s.received (msg0 .coll).data 1)
          = .ok (none, s.received (msg0 .coll).data 1)
      ∧ collRun.round = collRun.coll.rounds ∧ ((collRun.coll.awaits 0 1).all fun q => [((1 : Nat), ([7, 7, 7, 7] : List Byte))].any fun x => x.1 == q) = true
      ∧ ({ collRun with members := [0, 3, 5] } : FabRun).coll.awaits 0 1 = [1, 2] :=
  ⟨by decide, by decide, by decide, by decide, by decide, by decide, by decide, by decide, rfl, by decide, by decide, by decide⟩
theorem witness_FabricEvents_held : (∀ j, ((worldFab []).port j).down = false) ∧ (worldFab []).launchFor 8 = none
    ∧ launchG.running = true
    ∧ findBy (fun k => (({ worldFab [] with ctxs := [(1, { ctx0 with st := .dormant })] } : State).ctx k).st == .dormant
        && (({ worldFab [] with ctxs := [(1, { ctx0 with st := .dormant })] } : State).ctx k).launch == 1) ([0, 1, 2, 3].map fun j => 4 * 0 + j) = some 1
    ∧ ({ Core.clear with arrQ := [(1, 0, 0x80)] } : Core).arrQ = (1, 0, 0x80) :: [] ∧ (worldFab []).heldMsgs = []
    ∧ ({ launchG with running := false } : Launch).running = false
    ∧ ([{ msg0 .put with job := 8 }].filter fun m => m.job == 8) = [{ msg0 .put with job := 8 }] ∧ (msg0 .put).kind ≠ .lost
    ∧ (∀ j, ((worldFab []).port j).queue = [] ∧ ((worldFab []).port j).replay.length + collRun.members.length ≤ 256) :=
  ⟨fun _ => rfl, by decide, rfl, by decide, rfl, rfl, rfl, by decide, by decide, fun _ => ⟨rfl, (by decide : 0 + 2 ≤ 256)⟩⟩
def putRun (held : List Nat) : FabRun := { collRun with cmd := ⟨.put, scr 0, 0, 8, 0, 0⟩, pending := [3], heldPos := held }
theorem witness_FabricTimeoutsAndLinks : (worldRx [putRun []]).deliverer [] = some 0 ∧ (worldFab []).deliverer [] = none
    ∧ (worldRx [putRun []]).fabOf 0 6 = some (putRun []) ∧ (putRun []).orphan = false
    ∧ (putRun []).cmd.op ∈ ([.put, .putH, .putSmp] : List FabOp) ∧ (putRun []).pending = [3] ∧ ctx0.live = true ∧ (putRun [3]).heldPos = [3]
    ∧ collRun.cmd.op ∈ ([.ar, .rs, .ag] : List FabOp) ∧ collRun.stage = .running ∧ collRun.ready = false ∧ collRun.missing = some 1
    ∧ ({ collRun with cmd := ⟨.rsf, 0, 3 <<< 48, 1, 0, 0⟩, stage := .abort 1 3 } : FabRun).stage = .abort 1 3 := by decide
def port1 : Port := (world ctx0).port 0
theorem witness_FabricTimeoutsAndLinks_links : port1.down = false ∧ (0 : BitVec 12) = port1.rxSeq ∧ 2048 ≤ ((4095 : BitVec 12) - port1.rxSeq).toNat
    ∧ ((1 : BitVec 12) - port1.rxSeq).toNat < 2048 ∧ port1.active.getLsbD 7 = true ∧ port1.spare = false
    ∧ port1.active.getLsbD 8 = false ∧ (port1.retired ||| 1 <<< 7).getLsbD 8 = false
    ∧ (({ port1 with retired := 0x100 } : Port).retired ||| 1 <<< 7).getLsbD 8 = true
    ∧ ({ port1 with spare := true } : Port).narrowed = false ∧ ({ port1 with narrowed := true } : Port).narrowed = true ∧ port1.queue = [] := by decide

/-- A launch packet: one instance of the image at 0x4000, with no table. -/
def packet0 : List W64 := (1 <<< 63) :: 0x4000 :: List.replicate 30 0
/-- Negotiation is over, queue 2 is enabled and partition 0 is tenant 0's; the image places core 0 alone. -/
def worldQ (fifo : List (List W64)) : State :=
  { State.reset with mem := memOf [(0x4000, 0x100), (0x4100, 2 ^ 63 + 2 ^ 32 + 0x80)], mg := { Mgmt.reset with bar0 := [(0x10, 2), (0x1040, 1 <<< 63), (0x5000, 1 <<< 63)] },
                     dist := { Dist.empty with queues := [(2, { Queue.empty with fifo := fifo })] } }
theorem witness_DistributorEvents : (worldQ []).mg.hostOpen = true ∧ (worldQ []).agreed 0 = true ∧ (worldQ []).ownsQueue 0 2 = true ∧ State.reset.agreed 0 = false
    ∧ (worldQ []).accepts 2 = true ∧ State.reset.accepts 2 = false ∧ ((worldQ []).queue 2).fifo.length < 16
    ∧ (worldQ []).packetFault 2 packet0 = none ∧ (worldQ []).packetFault 2 [] = some 2 ∧ (worldQ []).RingOk 2
    ∧ 16 ≤ ((worldQ (List.replicate 16 packet0)).queue 2).fifo.length ∧ (worldQ []).passResult = ([], none) :=
  ⟨by decide, by decide, by decide, by decide, by decide, by decide, by decide, by decide, by decide, ringRoom _ 2 0 (by decide) (by decide) rfl, by decide, by decide +kernel⟩
theorem witness_DistributorEvents_start : (worldQ [packet0]).passResult = ([], some (2, .start 2 [(0, 0)])) ∧ ((worldQ [packet0]).queue 2).fifo = [packet0]
    ∧ (worldQ [packet0]).imageNeed 0x4000 = 1 ∧ (worldQ [packet0]).NoneOwns 0x4000 0x400 ∧ (worldQ [packet0]).heldMsgs = []
    ∧ (Launch.parse (worldQ [packet0]) 2 0 1 packet0).tabLen = 0 ∧ checkImage ((worldQ [packet0]).imageWord 0) = none ∧ 64 * 0 + 16 * 0 + 16 ≤ numCores
    ∧ (∀ j < 16, ((worldQ [packet0]).core j).blocks = []) ∧ (Launch.parse (worldQ [packet0]) 2 0 1 packet0).mprog = 0 :=
  ⟨by decide +kernel, rfl, by decide +kernel, noneOwns _ _ _ (by decide) rfl, rfl, by decide +kernel, by decide +kernel, by decide, by decide,
    by decide +kernel⟩
/-- Context 0 is Stopping, or Saved, in an instance that is. -/
def worldStop (st : CtxState) : State :=
  { world { ctx0 with st := st } with dist := { Dist.empty with launches := [(1, { launch0 with ctxSave := 0x100000, scrSave := 0x200000 })],
                                                                insts := [(1, { inst0 with stopping := true })] } }
theorem witness_DistributorEvents_stop : (worldStop .stopping).members 1 = [0] ∧ ((worldStop .stopping).inst 1).stopping = true
    ∧ ((worldStop .stopping).ctx 0).st = .stopping ∧ ((worldStop .stopping).core 0).halted = none
    ∧ (worldStop .stopping).RingOk ((worldStop .stopping).launchOf 0).queue :=
  ⟨by decide, rfl, rfl, rfl, ringRoom _ 0 0 (by decide) (by decide) rfl⟩
theorem witness_DistributorEvents_save : let s := worldStop .saved
    s.saveReady 1 = true ∧ s.members 1 = [4 * (s.inst 1).phys 0 + 0] ∧ 0 < (s.inst 1).cores ∧ (s.ctx 0).st = .saved ∧ (s.ctx 0).inst = 1
      ∧ (s.inst 1).phys (s.inst 1).cores ≤ numCores ∧ addrOk ((s.launch 1).saveArea 0 0 0) areaBytes = true
      ∧ (∀ m, m < (s.inst 1).cores → addrOk ((s.launch 1).scrArea 0 m) scrBytes = true)
      ∧ (∀ f ∈ (s.ctx 0).areaFields ++ (s.ctx 0).areaBacking, f.1 + f.2.1 ≤ areaBytes) ∧ s.Inv :=
  ⟨by decide +kernel, by decide, by decide, rfl, rfl, by decide, by decide, by decide, by decide +kernel, by unfold State.Inv; decide +kernel⟩
def worldOver : State := { world { ctx0 with st := .halted } with dist := { Dist.empty with launches := [(1, { launch0 with compl := 0x6000 })], insts := [(1, inst0)] } }
theorem witness_DistributorEvents_over : worldOver.launchOver 1 = true ∧ (world ctx0).launchOver 1 = false ∧ worldOver.NoneOwns 0x6000 8
    ∧ (worldOver.launch 1).running = true ∧ ({ worldOver.launch 1 with first := true } : Launch).first = true ∧ (worldOver.launch 1).first = false :=
  ⟨by decide +kernel, by decide +kernel, noneOwns _ _ _ (by decide) rfl, rfl, rfl, rfl⟩

/-- All six features are on; unit 0 is armed for the bundle at 0 of the image at 0x4000; VF 1 has an aperture whose first page is page 9,
readable and not writable, and is cached; the error ring is on with 16 entries at 0x9000. -/
def worldHw : State :=
  { world ctx0 with mg := { Mgmt.reset with features := 0x3F, bar0 := [(0x08, 0x3F), (0x10, 2), (0xB000, (1 <<< 63) + 0x4000), (0xD010, 1 <<< 63), (0x1000, 1 <<< 48),
                                                     (0x9000, (1 <<< 63) + 0x9000)], apCache := [(262144, (1 <<< 63) + 9)] } }
theorem witness_ManagementEvents : worldHw.watches 0 0 = true ∧ (worldHw.ctx 0).live = true ∧ worldHw.breakpointAt 0 = some 0 ∧ (worldHw.core 0).halted = none
    ∧ worldHw.mg.hostOpen = true ∧ ({ worldHw.mg with powered := false } : Mgmt).hostOpen = false ∧ worldHw.feature 5 = true ∧ (world ctx0).feature 5 = false ∧ ({ Core.clear with halted := some (0, 12) } : Core).halted = some (0, 12)
    ∧ ((worldHw.ctx 0).dbgRead 2 0 0 1).isSome = true ∧ (worldHw.ctx 0).dbgRead 2 0 0 99 = none ∧ worldHw.feature 3 = true ∧ worldHw.mg.attLeaf < 2 ^ 20
    ∧ worldHw.mg.powered = true ∧ worldHw.mg.linkUp = true ∧ worldHw.NoneOwns 0x4420 8 ∧ 0x4420 + 8 ≤ devTop ∧ worldHw.mp.unperf = []
    ∧ worldHw.feature 0 = true ∧ (worldHw.reg (0xD000 + 16 * 1)).getLsbD 63 = true ∧ (worldHw.reg (0xD000 + 16 * 2)).getLsbD 63 = false
    ∧ worldHw.mg.apCache.find? (262144 * 1 + 5 / 65536) = some ((1 <<< 63) + 9) ∧ worldHw.NoneOwns (9 * 65536 + 5) 1
    ∧ ((1 <<< 63 : W64) + 9).getLsbD 63 = true ∧ ((1 <<< 63 : W64) + 9).getLsbD 62 = false ∧ (worldHw.reg 0x10).getLsbD 1 = true
    ∧ fieldN (worldHw.queueWord 0) 48 8 = 1 ∧ worldHw.queueBusy 0 = true ∧ fieldN (1 <<< 38 : W64) 38 10 ≠ fieldN (worldHw.queueWord 0) 38 10
    ∧ worldHw.queueBusy 1 = false ∧ worldHw.mg.booted = true ∧ worldHw.ownsQueue 0 2 = true ∧ worldHw.ownsQueue 0 (0 / 256) = false :=
  ⟨by decide, rfl, by decide, rfl, by decide, by decide, by decide, by decide, rfl, by decide +kernel, by decide +kernel, by decide, by decide, rfl, rfl,
    noneOwns _ _ _ (by decide) rfl, by decide, rfl, by decide, by decide, by decide, by decide, noneOwns _ _ _ (by decide) rfl, by decide, by decide,
    by decide, by decide, by decide, by decide, by decide, rfl, by decide, by decide⟩
theorem witness_ManagementEvents_errors : ((world ctx0).reg 0x9000).getLsbD 63 = false ∧ (world ctx0).loadOf 0 5 = none ∧ (world ctx0).copyOf 0 5 = none
    ∧ (world ctx0).fabOf 0 5 = none ∧ (world (ctxLoad (.peer 1 0) none)).loadOf 0 5 = some (loadF (.peer 1 0) none)
    ∧ (ctxLoad (.peer 1 0) none).frame = none ∧ (ctxLoad (.peer 1 0) none).seg.abortedOnce = false ∧ (worldHw.reg 0x9000).getLsbD 63 = true
    ∧ (fieldN (worldHw.reg 0x9008) 0 32 + 2 ^ 32 - fieldN (worldHw.reg 0x9010) 0 32) % 2 ^ 32 < 2 ^ (fieldN (worldHw.reg 0x9000) 48 4 + 4)
    ∧ worldHw.NoneOwns (fieldN (worldHw.reg 0x9000) 0 48) 32 ∧ worldHw.heldMsgs = [] ∧ worldHw.cur.sq.loops = [] ∧ worldHw.cur.frame = none :=
  ⟨by decide, rfl, rfl, rfl, by decide +kernel, rfl, rfl, by decide, by decide, noneOwns _ _ _ (by decide) rfl, rfl, rfl, rfl⟩

/-- A device whose flash holds no firmware: step 3 of its power-up fails, if none before it does. -/
theorem witness_ManagementEvents_boot : let s : State := { world ctx0 with mg := { Mgmt.reset with images := [] } }
    s.mg.verified = false ∧ (∃ m code, s.stepFault 1 = some (m, code)) ∧ s.mg.hostOpen = true ∧ s.mg.part = .dk4m
    ∧ (Part.dk4p ≠ .dk4m) ∧ 0 < (5 : W32).toNat ∧ (5 : W32).toNat < 1024 := by
  refine ⟨by decide, ?_, by decide, rfl, by decide, by decide, by decide⟩
  simp only [State.stepFault]
  split
  · next h => exact absurd h (by decide)
  · split
    · split <;> exact ⟨_, _, rfl⟩
    · exact ⟨_, _, rfl⟩

/-- The device with the mailbox of VF 1 after its negotiation: OK. -/
def worldVf : State := worldHw.setReg (vfBox 1 2) 2
theorem witness_ManagementEvents_mailbox : worldHw.mg.powered = true ∧ worldHw.mg.linkUp = true ∧ worldHw.feature 0 = true ∧ (0 < 1 ∧ 1 < 64)
    ∧ (1 : Byte).getLsbD 0 = true ∧ worldHw.agreed 0 = true ∧ worldHw.agreed 1 = false ∧ worldVf.agreed 1 = true ∧ worldVf.ownsQueue 1 0 = true :=
  ⟨rfl, rfl, by decide, by decide, by decide, by decide, by decide, by decide, by decide⟩
theorem test_vf_mailbox_go : (match Sys2Proof.Machine.exec (.hostBarAccess (1, 0) true 16 1 [1]) worldHw with
    | .next t => t.reg (vfBox 1 2) == 2 && t.reg 0x10 == worldHw.reg 0x10
    | _ => false) = true := by decide +kernel

/-! ### Witnesses: exceptions, frames, steps -/

theorem witness_TakingAnException : (world ctx0).RingOk ((world ctx0).launchOf (world ctx0).focus).queue
    ∧ ({ world ctx0 with mg := { Mgmt.reset with bar0 := [(0x1010, 16)] } } : State).RingOk 0 :=
  ⟨ringRoom _ 0 0 (by decide) (by decide) rfl, .inr (by decide)⟩

/-- An instruction that goes through. -/
theorem passes (i : Instr) (s : State) (h : (s.issue.held == false && s.issue.trap == none
    && (match exec i s with | .next t => t.issue.held == false && t.issue.trap == none | _ => false)) = true) :
    ∃ t, exec i s = .next t ∧ s.Passed t := by
  simp only [Bool.and_eq_true, beq_iff_eq] at h
  obtain ⟨⟨h1, h2⟩, h3⟩ := h
  cases he : exec i s with
  | next t =>
    simp only [he, Bool.and_eq_true, beq_iff_eq] at h3
    exact ⟨t, rfl, h1, h2, h3.1, h3.2⟩
  | fault f => simp [he] at h3
  | refused r => simp [he] at h3
theorem witness_Frames : ∀ i ∈ ([.addi 1 1 7, .cmpEq 1 2 1 1, .pand 3 1 2, .viadd .v 2 1 1 0, .vcmpIeq .v 1 1 1 0, .mlog .v 1 0 0 0, .jmovV 2 1 4 3,
      .jmov 2 1 0 2, .aiterH 1 1, .tst 1 1 0 0, .tld 0 1] : List Instr),
    ∃ t, exec i (world ctx0) = .next t ∧ (world ctx0).Passed t := by
  intro i h
  simp only [List.mem_cons, List.not_mem_nil, or_false] at h
  rcases h with h | h | h | h | h | h | h | h | h | h | h
  all_goals subst h
  all_goals exact passes _ _ (by decide +kernel)

/-- Context 0 at the bundle at 32, of which nothing is awaited; `w` is its first word. -/
def stepAt (c : Ctx) (w : Nat) : State := { world { c with sq := { Seqr.zero with pc := 32 } } with mem := memOf [(0x4420, w), (0x4428, 2 ^ 63)] }
def worldStep (w : Nat) : State := stepAt ctx0 w
def slot0 : Slot := ⟨false, 0, .addi 1 1 7⟩
/-- A bundle of slot `x`, whose word is `w`, and voids. -/
def bundle0 (x : Slot) (w : Nat) : Bundle := ⟨[w, 0, 0, 2 ^ 31], [(1, x)]⟩
/-- A framing that answers these words and leaves the state as it is. -/
theorem frames {m : M (Except Nat (List Nat))} {s : State} {ws : List Nat}
    (h : (match m s with | .ok (.ok v, t) => decide (v = ws ∧ t = s) | _ => false) = true) : m s = .ok (.ok ws, s) := by
  cases hm : m s with
  | error e => simp [hm] at h
  | ok r =>
    obtain ⟨x, t⟩ := r
    cases x with
    | error e => simp [hm] at h
    | ok v => simp only [hm, decide_eq_true_eq] at h; obtain ⟨rfl, rfl⟩ := h; rfl
/-- The state after the core's latches have taken what is due, and the state in which the slot acts. -/
def issuesIn (s : State) : State := ({ s with tick := s.tick + 1 } : State).setCore 0 (s.core 0).applyEscl
def actsIn (s : State) (b : Bundle) (x : Slot) : State :=
  { (issuesIn s).setCtx 0 ((s.ctx 0).begin 0 b.words) with focus := 0, issue := b.forSlot (s.ctx 0) (1, x) }
/-- Contexts whose bundle is held, raises a precise or an imprecise exception, or ends them: s31 awaits data; a call was refused. -/
def ctxHeld : Ctx := { ctx0 with queues := { q0 with qs := [QEnt.fresh 9 7 false 0 0] } }
def ctxRefused : Ctx := { ctx0 with fl := { Flight.empty with trussFault := some (Trap.mk' clsAccess 6) } }
noncomputable def stepCases : List (Ctx × Slot × Nat) :=
  [(ctx0, slot0, 0x20982107), (ctxHeld, ⟨false, 0, .addi 1 31 7⟩, 0x20983F07), (ctx0, ⟨false, 0, .addi 1 9 7⟩, 0x20982907),
   (ctxRefused, ⟨false, 0, .xwait 2 0⟩, 0x50384000), (ctx0, ⟨false, 0, .abort 3⟩, 0x00700003)]
theorem witness_StepRunsTheDecodedInstruction : ∀ e ∈ stepCases, let s := stepAt e.1 e.2.2
    let b := bundle0 e.2.1 e.2.2
    s.inputs = [] ∧ s.moves = [.clock 0] ∧ s.feature 5 = false ∧ (s.core 0).phase = none
      ∧ (s.core 0).run = none ∧ s.awake 0 = true ∧ (∀ j ∈ ctxsOf 0, j ≠ 0 → s.awake j = false)
      ∧ frameAt (s.launchOf 0) 32 (issuesIn s) = .ok (.ok b.words, issuesIn s) ∧ decodeBundle false b.words = .ok b
      ∧ b.clear (s.ctx 0) ((issuesIn s).core 0) = true ∧ (s.ctx 0).slotBar (1, e.2.1) = none ∧ (s.ctx 0).takes e.2.1 = true := by
  intro e h
  simp only [stepCases, List.mem_cons, List.not_mem_nil, or_false] at h
  rcases h with h | h | h | h | h
  all_goals
    subst h
    exact ⟨rfl, by decide +kernel, by decide, rfl, rfl, by decide, by decide, frames (by decide +kernel), ok_of (by decide +kernel),
      by decide +kernel, by decide +kernel, by decide +kernel⟩
/-- What the slot of case `n` does, in the state it acts in, meets `p`. -/
noncomputable def actsAs (n : Nat) (p : State → Bool) : Bool :=
  match stepCases[n]? with
  | some e => (match exec e.2.1.ins (actsIn (stepAt e.1 e.2.2) (bundle0 e.2.1 e.2.2) e.2.1) with
    | .next u => p u
    | _ => false)
  | none => false
/-- The last step of each case answers: the bundle's end, the exception, or what commits. -/
def answers (m : M Unit) (s : State) : Bool := match m s with
  | .ok (_, v) => v.feature 5 == false && (match commitNow 0 v.idle with | .next _ => true | _ => false)
  | .error _ => false
theorem witness_StepRunsTheDecodedInstruction_outcomes :
    actsAs 0 (fun u => !u.issue.held && u.issue.trap == none && (u.ctx 0).finishes
        && answers (endBundle 0 ((worldStep 0x20982107).ctx 0) (bundle0 slot0 0x20982107)) u) = true
    ∧ actsAs 1 (fun u => u.issue.held) = true
    ∧ actsAs 2 (fun u => !u.issue.held && (match u.issue.trap with
        | some tr => tr.precise && answers (takeTrap 0 tr) { issuesIn (worldStep 0x20982907) with focus := 0 }
        | none => false)) = true
    ∧ actsAs 3 (fun u => !u.issue.held && (match u.issue.trap with | some tr => !tr.precise | none => false) && answers (pure ()) u) = true
    ∧ actsAs 4 (fun u => !u.issue.held && u.issue.trap == none && !(u.ctx 0).finishes && answers (pure ()) u) = true := by
  refine ⟨by decide +kernel, by decide +kernel, by decide +kernel, by decide +kernel, by decide +kernel⟩
/-- A routine of the only context, which waits for it, has come to its MEND. -/
def worldMend : State := { world { ctxCall with wait := .xwait (some 2) 0 } with
  cores := [(0, { Core.clear with clk := 9, run := some run0, store := [(64, 0x9000000000000000)] })] }
theorem witness_StepRunsTheDecodedInstruction_micro : worldMend.moves = [.clock 0] ∧ worldMend.feature 5 = false
    ∧ (worldMend.core 0).phase = none ∧ ((issuesIn worldMend).core 0).run = some run0 ∧ run0.done = false
    ∧ run0.freeAt ≤ ((issuesIn worldMend).core 0).clk ∧ decodeMicro (((issuesIn worldMend).core 0).store.get 0 run0.pc).toNat = .ok .mend :=
  ⟨by decide +kernel, by decide, rfl, rfl, rfl, by decide, ok_of (by decide +kernel)⟩
theorem witness_StepRunsTheDecodedInstruction_mend : ∃ u, exec .mend { issuesIn worldMend with focus := run0.call.ctx, issue := Issue.idle } = .next u
    ∧ (∀ j ∈ ctxsOf 0, u.idle.awake j = false) := by
  have h : (match exec .mend { issuesIn worldMend with focus := run0.call.ctx, issue := Issue.idle } with
      | .next u => (ctxsOf 0).all fun j => u.idle.awake j == false
      | _ => false) = true := by decide +kernel
  split at h
  · rename_i u he; exact ⟨u, he, by simpa using h⟩
  · cases h
theorem witness_StepKeepsMemoryCanonical : (worldStep 0x20982107).Inv ∧ ∃ t, step (worldStep 0x20982107) = .next t := by
  refine ⟨by unfold State.Inv; decide +kernel, ?_⟩
  have h : (match step (worldStep 0x20982107) with | .next _ => true | _ => false) = true := by decide +kernel
  split at h
  · rename_i t he; exact ⟨t, he⟩
  · cases h
theorem witness_DecodeUndoesEncode : slot0.ins.isSlot = true ∧ Instr.mend.isMicro = true := by decide

/-! ### Decoding -/

/-- Each word decodes to its form, guard and stop bit, and the form encodes to it. -/
noncomputable def reads (ws : List (Nat × BitVec 4 × Instr)) : Bool :=
  ws.all fun e =>
    let x : Slot := ⟨decide (2 ^ 31 ≤ e.1), e.2.1, e.2.2⟩
    (match decodeSlot e.1 with | .ok (some y) => y == x | _ => false) && encodeSlot x == e.1
theorem test_decode_control0 : reads [
    (0x01060003, 1, .br 131075), (0x86081400, 6, .brx 20), (0x0B0E0005, 11, .call 131077), (0x82101600, 2, .callR 22), (0x07140000, 7, .ret),
    (0x8C1A044B, 12, .loop 1032 75), (0x031C0CCC, 3, .loopR 25 76), (0x8822054D, 8, .loopRot 1034 77), (0x0D240DCE, 13, .loopRotR 27 78),
    (0x8428100C, 4, .brk 4108), (0x092C1D00, 9, .brkR 29), (0x8033C00C, 0, .lidx 30 1 4), (0x0537F201, 5, .fmtR 31 18 1),
    (0x8A38069C, 10, .fmtV 0 1 2 9 12), (0x013C0067, 1, .fmtX 1 4 7), (0x86432815, 6, .lift 50 2069), (0x0B4413B0, 11, .liftR 19 22),
    (0x82480000, 2, .lret), (0x074F6018, 7, .bifP 13 8216), (0x8C51A019, 12, .bifM 6 8217), (0x03542017, 3, .belse 8215), (0x88580000, 8, .bjoin),
    (0x0D5C1019, 13, .trap 4121), (0x84601A00, 4, .trapR 26), (0x0964101B, 9, .svc 4123), (0x80680000, 0, .eret), (0x056C0000, 5, .park),
    (0x8A70101E, 10, .abort 4126), (0x01741F00, 1, .abortR 31), (0x86780000, 6, .abchk)] = true := by decide +kernel
theorem test_decode_control1 : reads [
    (0x0B7C2021, 11, .mark 8225), (0x82800A2D, 2, .join 162 13), (0x07841300, 7, .joinR 19), (0x8C881024, 12, .ckpt 4132),
    (0x038C1500, 3, .ckptR 21), (0x88901026, 8, .ckrs 4134), (0x0D941700, 13, .ckrsR 23), (0x84980008, 4, .phase 8), (0x099C1900, 9, .phaseR 25),
    (0x80A00000, 0, .halt)] = true := by decide +kernel
theorem test_decode_scalar0 : reads [
    (0x25077E88, 5, .add 27 30 17), (0xAA0B9F90, 10, .addW 28 31 18), (0x210FB098, 1, .sub 29 16 19), (0xA613D1A0, 6, .subW 30 17 20),
    (0x2B17F2A8, 11, .mul 31 18 21), (0xA21A13B0, 2, .mulW 16 19 22), (0x271E34B8, 7, .mulh 17 20 23), (0xAC2255C0, 12, .mulhU 18 21 24),
    (0x232676C8, 3, .div 19 22 25), (0xA82A97D0, 8, .divU 20 23 26), (0x2D2EB8D8, 13, .rem 21 24 27), (0xA432D9E0, 4, .remU 22 25 28),
    (0x2936FAE8, 9, .and 23 26 29), (0xA03B1BF0, 0, .or 24 27 30), (0x253F3CF8, 5, .xor 25 28 31), (0xAA435D80, 10, .andn 26 29 16),
    (0x21477E88, 1, .shl 27 30 17), (0xA64B9F90, 6, .shlW 28 31 18), (0x2B4FB098, 11, .shr 29 16 19), (0xA253D1A0, 2, .shrW 30 17 20),
    (0x2757F2A8, 7, .sar 31 18 21), (0xAC5A13B0, 12, .sarW 16 19 22), (0x235E34B8, 3, .min 17 20 23), (0xA86255C0, 8, .minU 18 21 24),
    (0x2D6676C8, 13, .max 19 22 25), (0xA46A97D0, 4, .maxU 20 23 26), (0x296EB800, 9, .clz 21 24), (0xA072D900, 0, .clzW 22 25),
    (0x2576FA00, 5, .popc 23 26), (0xAA7B1B00, 10, .popcW 24 27)] = true := by decide +kernel
theorem test_decode_scalar1 : reads [
    (0x217F3CF8, 1, .bfx 25 28 31), (0xA6835D80, 6, .bfxU 26 29 16), (0x2B877E88, 11, .bfi 27 30 17), (0xA28B9F90, 2, .bfiW 28 31 18),
    (0x278FB09E, 7, .sel 29 16 19 6), (0xAC93D051, 12, .movi 30 4177), (0x2397F052, 3, .movs 31 4178), (0xA89A13D6, 8, .addi 16 19 214),
    (0x2D9E34D7, 13, .andi 17 20 215), (0xA4A255D8, 4, .ori 18 21 216), (0x29A676D9, 9, .xori 19 22 217), (0xA0AA97DA, 0, .muli 20 23 218),
    (0x25AEB8DB, 5, .shli 21 24 219), (0xAAB2D9DC, 10, .shri 22 25 220), (0x21B6FADD, 1, .sari 23 26 221), (0xA6BA2FD1, 6, .cmpEq 8 11 30 17),
    (0x2BBE73F2, 11, .cmpNe 9 12 31 18), (0xA2C2B613, 2, .cmpLt 10 13 16 19), (0x27C6FA34, 7, .cmpLe 11 14 17 20),
    (0xACCB3E55, 12, .cmpGt 12 15 18 21), (0x23CF6276, 3, .cmpGe 13 8 19 22), (0xA8D3A697, 8, .cmpLtu 14 9 20 23),
    (0x2DD7EAB8, 13, .cmpGeu 15 10 21 24), (0xA4DA2F80, 4, .pand 8 11 14), (0x29DE73C0, 9, .por 9 12 15), (0xA0E2B400, 0, .pnot 10 13)] = true := by decide +kernel
theorem test_decode_joiner0 : reads [
    (0x750676B0, 5, .jmov 19 22 5 4), (0xFA0A97D4, 10, .jmovV 20 23 6 5), (0x710EB8F8, 1, .jspl32 21 24 7 6), (0xF612D99C, 6, .jspl16 22 25 4 7),
    (0x7B16FAB0, 11, .jspl8 23 26 5 4), (0xF21B1BBA, 2, .jext 24 27 46 1), (0x771F2080, 7, .jpm 25 4), (0xFC235D9C, 12, .jmk 26 29 4 7)] = true := by decide +kernel
theorem test_decode_vector0 : reads [
    (0x33077E8C, 3, .vadd .v 27 30 17 4), (0xC80B9F95, 8, .vsub .w 28 31 18 5), (0x3D0FB09E, 13, .vmul .v 29 16 19 6),
    (0xC413D1A7, 4, .vfma .w 30 17 20 7), (0x3917F2AC, 9, .vfms .v 31 18 21 4), (0xC01A13B5, 0, .vmin .w 16 19 22 5),
    (0x351E34BE, 5, .vmax .v 17 20 23 6), (0xCA2255F8, 10, .vaddI .w 18 21 248), (0x312676F9, 1, .vmulI .v 19 22 249),
    (0xC62A97FA, 6, .vminI .w 20 23 250), (0x3B2EB8FB, 11, .vmaxI .v 21 24 251), (0xC232D904, 2, .vcvt .w 22 25 4),
    (0x3736FAEC, 7, .vcvtLo .v 23 26 29 4), (0xCC3B1BF5, 12, .vcvtHi .w 24 27 30 5), (0x333F3CFE, 3, .vcmpEq .v 25 28 31 6),
    (0xC8435D87, 8, .vcmpNe .w 26 29 16 7), (0x3D477E8C, 13, .vcmpLt .v 27 30 17 4), (0xC44B9F95, 4, .vcmpLe .w 28 31 18 5),
    (0x394FB09E, 9, .vcmpGt .v 29 16 19 6), (0xC053D1A7, 0, .vcmpGe .w 30 17 20 7), (0x3557F2AC, 5, .vcmpUn .v 31 18 21 4),
    (0xCA5A13B5, 10, .vcmpOrd .w 16 19 22 5), (0x315E34BE, 1, .vcmpIeq .v 17 20 23 6), (0xC66255C7, 6, .vcmpIne .w 18 21 24 7),
    (0x3B6676CC, 11, .vcmpIlt .v 19 22 25 4), (0xC26A97D5, 2, .vcmpIltu .w 20 23 26 5), (0x376EB8DE, 7, .vsel .v 21 24 27 6),
    (0xCC72D9E7, 12, .viadd .w 22 25 28 7), (0x3376FAEC, 3, .viaddS .v 23 26 29 4), (0xC87B1BF5, 8, .visub .w 24 27 30 5)] = true := by decide +kernel
theorem test_decode_vector1 : reads [
    (0x3D7F3CFE, 13, .visubS .v 25 28 31 6), (0xC4835D87, 4, .vimul .w 26 29 16 7), (0x39877E8C, 9, .vimulH .v 27 30 17 4),
    (0xC08B9F95, 0, .vand .w 28 31 18 5), (0x358FB09E, 5, .vor .v 29 16 19 6), (0xCA93D1A7, 10, .vxor .w 30 17 20 7),
    (0x3197F2AC, 1, .vshl .v 31 18 21 4), (0xC69A13B5, 6, .vshr .w 16 19 22 5), (0x3B9E34BE, 11, .vsar .v 17 20 23 6),
    (0xC2A25598, 2, .vandI .w 18 21 152), (0x37A67699, 7, .vorI .v 19 22 153), (0xCCAA979A, 12, .vxorI .w 20 23 154),
    (0x33AEB89B, 3, .vshlI .v 21 24 155), (0xC8B2D99C, 8, .vshrI .w 22 25 156), (0x3DB6FA9D, 13, .vsarI .v 23 26 157),
    (0xC4BB1BF5, 4, .vperm .w 24 27 30 5), (0x39BF3C9F, 9, .vpermI .v 25 28 159), (0xC0C35D87, 0, .vredAx .w 26 29 16 7),
    (0x35C77E8C, 5, .vpack .v 27 30 17 4), (0xCACB9F06, 10, .vunpkLo .w 28 31 6), (0x31CFB007, 1, .vunpkHi .v 29 16 7),
    (0xC6D3D1A7, 6, .vmxqE .w 30 17 20 7), (0x3BD7F2AC, 11, .vmxqB .v 31 18 21 4), (0xC2DA0007, 2, .vrng .w 16 7), (0x37DE2004, 7, .vrngU .v 17 4),
    (0xCCE255C7, 12, .mlog .w 18 21 24 7), (0x33FE7605, 3, .vabs .v 19 22 5), (0xC8FE970E, 8, .vneg .w 20 23 6),
    (0x3DFEB817, 13, .vrcp .v 21 24 7), (0xC4FED91C, 4, .vrsq .w 22 25 4)] = true := by decide +kernel
theorem test_decode_vector2 : reads [
    (0x39FEFA25, 9, .vexp2 .v 23 26 5), (0xC0FF1B2E, 0, .vlog2 .w 24 27 6), (0x35FF3C37, 5, .vtanh .v 25 28 7), (0xCAFF5D3C, 10, .vmov .w 26 29 4),
    (0x31FF7E45, 1, .vabsI .v 27 30 5), (0xC6FF9F4E, 6, .vnegI .w 28 31 6), (0x3BFFB057, 11, .vredAdd .v 29 16 7),
    (0xC2FFD15C, 2, .vredMax .w 30 17 4), (0x37FFF265, 7, .vredMin .v 31 18 5), (0xCCFE136E, 12, .vscanAdd .w 16 19 6),
    (0x33FE3477, 3, .vscanMax .v 17 20 7), (0xC8FE407D, 8, .vidx .w 18 5)] = true := by decide +kernel
theorem test_decode_access0 : reads [
    (0x1D070600, 13, .tld 3 6), (0x940A1700, 4, .tldR 2 23), (0x190F04E0, 9, .tlds 3 4 7 0), (0x90121990, 0, .tldsR 2 25 4 1),
    (0x1516E60C, 5, .tst 23 6 1 2), (0x9A1B1B06, 10, .tstR 24 27 0 3), (0x111F24E6, 1, .tsts 25 4 7 0 3), (0x96235D94, 6, .tstsR 26 29 4 1 2),
    (0x1B270600, 11, .spld 3 6), (0x922A1F00, 2, .spldR 2 31), (0x172FA406, 7, .spst 29 4 3), (0x9C33D104, 12, .spstR 30 17 2),
    (0x1337E6B4, 3, .amoAdd 31 6 5 2 1 0), (0x983A07DA, 8, .amoAnd 16 7 6 3 0 1), (0x1D3E24F4, 13, .amoOr 17 4 7 2 1 0),
    (0x9442459A, 4, .amoXor 18 5 4 3 0 1), (0x194666B4, 9, .amoMin 19 6 5 2 1 0), (0x904A87DA, 0, .amoMax 20 7 6 3 0 1),
    (0x154EA4F4, 5, .amoSwp 21 4 7 2 1 0), (0x9A52C598, 10, .cas 22 5 4 3), (0x1156E6B0, 1, .casD 23 6 5 2), (0x965B0704, 6, .fst 24 7 2),
    (0x1B5F3C06, 11, .fstR 25 28 3), (0x92620580, 2, .fldt 2 5 8), (0x17671E90, 7, .fldtR 3 30 9), (0x9C6B87D6, 12, .append 28 7 6 1 0 3),
    (0x136FB0EC, 3, .appendR 29 16 7 0 1 2), (0x98700608, 8, .seal 6 1), (0x1D74E032, 13, .span 7 50), (0x94788000, 4, .spanClr 4)] = true := by decide +kernel
theorem test_decode_access1 : reads [
    (0x197C11A0, 9, .flushr 17 20), (0x908012A8, 0, .flushrD 18 21), (0x158413B1, 5, .invr 19 22 1), (0x9A881400, 10, .invrTt 20),
    (0x118C0500, 1, .pref 5), (0x96900600, 6, .prefL2 6), (0x1B9400E0, 11, .fence 7), (0x92980080, 2, .fenceSt 4), (0x179CA400, 7, .xfence 5 4),
    (0x9CA000C0, 12, .drain 6), (0x13A4FE00, 3, .aiterH 7 30), (0x98A89F00, 8, .aiterB 4 31 0), (0x1DACB0E0, 13, .aiterS 5 16 7 0),
    (0x94B3C5A0, 4, .aiterRd 30 5 20), (0x19B4E022, 9, .airev 7 34), (0x90BA0700, 0, .tdsc 16 7), (0x15BD3400, 5, .tdscQ 9 20),
    (0x9AC155C0, 10, .tdscW 10 21 24)] = true := by decide +kernel
theorem test_decode_truss0 : reads [
    (0x51040023, 1, .xcall 35), (0xD6081400, 6, .xcallR 20), (0x5B0EB0E8, 11, .xset 21 4328), (0xD212D9EC, 2, .xsetR 22 25 236),
    (0x5716E000, 7, .xzero 23), (0xDC180000, 12, .xzeroAll), (0x531F3C00, 3, .xacc 25 28), (0xD8235D00, 8, .xaccSub 26 29),
    (0x5D277E00, 13, .xaccMov 27 30), (0xD42B90EF, 4, .xdcy 28 4335), (0x592FB000, 9, .xdcyR 29 16), (0xD0301E88, 0, .xspl 30 17),
    (0x5537E000, 5, .xfil 31), (0xDA3A10F3, 10, .xwait 16 4339), (0x513C0000, 1, .xwaitAll), (0xD6401200, 6, .xldm 18)] = true := by decide +kernel
theorem test_decode_engine0 : reads [
    (0x6B0799E0, 11, .escl 1 6 25 28), (0xE209C0FA, 2, .esclI 0 7 250), (0x670C15C0, 7, .escm 21 24), (0xEC1016C8, 12, .escmSt 22 25),
    (0x63141700, 3, .ebfx 23), (0xE8180000, 8, .ebfxClr), (0x6D1C1900, 13, .cpy 25), (0xE4201A00, 4, .cpyBf 26), (0x69276006, 9, .cpyw 27 6),
    (0xE0280000, 0, .cpywAll), (0x652C1D00, 5, .put 29), (0xEA301E00, 10, .putH 30), (0x61341F00, 1, .putSmp 31), (0xE6381000, 6, .putm 16),
    (0x6B3C1100, 11, .putmS 17), (0xE2401200, 2, .collAr 18), (0x67441300, 7, .collRs 19), (0xEC481400, 12, .collAg 20),
    (0x634C1500, 3, .collRsf 21), (0xE852C005, 8, .collw 22 5), (0x6D5417D0, 13, .grp 23 26), (0xE4581800, 4, .grpEx 24),
    (0x695F3C00, 9, .grpQ 25 28), (0xE0601AE8, 0, .sems 26 29), (0x6567710E, 5, .semsI 27 4366), (0xEA681CF8, 10, .semw 28 31),
    (0x616FB110, 1, .semwI 29 4368), (0xE6701E88, 6, .qpush 30 17), (0x6B77E092, 11, .qpushI 31 146), (0xE2781000, 2, .ftick 16)] = true := by decide +kernel
theorem test_decode_engine1 : reads [
    (0x677C1100, 7, .ftickW 17), (0xEC801200, 12, .fdisc 18), (0x638413B0, 3, .fdiscR 19 22), (0xE88A97D0, 8, .fexp 20 23 26),
    (0x6D8EB8D8, 13, .fexpF 21 24 27), (0xE49016C8, 4, .fbank 22 25), (0x6996FA01, 9, .fbankRd 23 26 1), (0xE0981800, 0, .emonSt 24),
    (0x659C1900, 5, .emonSp 25), (0xEAA35D00, 10, .emonRd 26 29)] = true := by decide +kernel

/-- Words that the spec's chapters give for the slots of their examples (R18, R26; "Slot words" tables of 03_notation.md, 07_core_control.md,
08_core_scalar.md, 09_core_vector.md, 10_core_access.md, 18_run_mxfp4.md, 22_run_filter.md, 27_run_optimiser.md, 28_ordering.md). -/
theorem test_decode_spec_words : reads ([
    (0x00183202, 0, .loop 100 2), (0x001C0084, 0, .loopR 1 4), (0x00240105, 0, .loopRotR 2 5), (0x02280001, 2, .brk 1), (0x00306000, 0, .lidx 3 0 0),
    (0x00380402, 0, .fmtV 0 1 0 0 2), (0x00380070, 0, .fmtV 0 0 0 7 0), (0x003C001B, 0, .fmtX 0 3 3), (0x003C005B, 0, .fmtX 1 3 3),
    (0x00440110, 0, .liftR 1 2), (0x007C0003, 0, .mark 3), (0x008003F2, 0, .join 63 2), (0x0307FFF8, 3, .br 0x3FFF8)] ++ [
    (0x20915FFF, 0, .movi 10 0x1FFF), (0x2005CA60, 0, .add 14 10 12), (0x20982107, 0, .addi 1 1 7), (0x21984220, 1, .addi 2 2 0x20),
    (0x20CC8C22, 0, .cmpGe 2 3 1 2), (0x20C0D3E9, 0, .cmpLt 3 4 31 9), (0x20810F68, 0, .bfxU 8 15 13), (0x209100B0, 0, .movi 8 0xB0)] ++ [
    (0x30108112, 0, .vfma .v 4 1 2 2), (0x30D04118, 0, .vmxqE .v 2 1 3 0), (0x30D46110, 0, .vmxqB .v 3 1 2 0), (0x4004A530, 0, .vadd .w 5 5 6 0)] ++ [
    (0x10AC0200, 0, .aiterS 0 2 0 0), (0x10142102, 0, .tst 1 1 0 1), (0x1017E302, 0, .tst 31 3 0 1), (0x101A8800, 0, .tstR 20 8 0 0),
    (0x100C0270, 0, .tlds 0 2 3 1), (0x102FE102, 0, .spst 31 1 1), (0x10510268, 0, .cas 8 2 3 1), (0x10352170, 0, .amoAdd 9 1 3 2 0 0),
    (0x10588000, 0, .fst 4 0 0), (0x10600030, 0, .fldt 0 0 3), (0x1068810A, 0, .append 4 1 0 0 1 1), (0x10744008, 0, .span 2 8),
    (0x107C0110, 0, .flushr 1 2), (0x109C6000, 0, .xfence 3 0)] ++ [
    (0x500C0000, 0, .xset 0 0), (0x50140000, 0, .xzero 0), (0x50040000, 0, .xcall 0), (0x50300008, 0, .xspl 0 1), (0x50384000, 0, .xwait 2 0),
    (0x684C0000, 8, .collRsf 0), (0x69400400, 9, .collAr 4), (0x60642001, 0, .semsI 1 1), (0x606C2001, 0, .semwI 1 1), (0x61780100, 1, .ftick 1),
    (0x60980100, 0, .emonSt 1), (0x60A04100, 0, .emonRd 2 1), (0x700E8568, 0, .jspl32 20 5 3 2), (0x700420A8, 0, .jmov 1 0 5 2),
    (0x70056340, 0, .jmov 11 3 2 0)]) = true := by decide +kernel

/-- Micro-words by the opcodes and layouts of R34 and R287. -/
theorem test_decode_micro : ∀ e ∈ ([
    (0x07A002603203E048, .mgathA 1 6 32777 2060 2063 2066), (0x09E002A03604204C, .mgathB 0 7 32778 2061 2064 2067),
    (0x0F2002E03A046050, .mgathAt 1 4 32779 2062 2065 2068), (0x116003203E04A054, .mgathBt 0 5 32780 2063 2066 2069),
    (0x1600000000000000, .mldbA 1), (0x1800000000000000, .mldbB 0), (0x1EFD400000000000, .mmacI8 1 0 15 6 5),
    (0x218F800000000000, .mmacI6 0 1 8 7 6), (0x2699C00000000000, .mmacI4 1 0 9 4 7), (0x29AB000000000000, .mmacF4 0 1 10 5 4),
    (0x2EBD400000000000, .mmacI16 1 0 11 6 5), (0x31CF800000000000, .mmacF 0 1 12 7 6), (0x36D9C00000000000, .mmacFZ 1 0 13 4 7),
    (0x39EB203E00000000, .mmacFD 0 1 14 5 4 4127), (0x3EC00A7C00000000, .msclA 5 32788 7 6), (0x43400ACE00000000, .msclB 6 32789 4 7),
    (0x47C00B5800000000, .msclAb 7 32790 5 4), (0x4800000000000000, .msclClr), (0x4E05670000000000, .mscmA 2069 4 7),
    (0x5205AC0000000000, .mscmB 2070 5 4), (0x5605F50000000000, .mscmAb 2071 6 5), (0x5A063E0000000000, .mscmSt 2072 7 6),
    (0x5E70000000000000, .maccAdd 9 12), (0x62B4000000000000, .maccSub 10 13), (0x66F8000000000000, .maccMov 11 14),
    (0x6B0203E000000000, .maccDcy 12 4127), (0x6F60000000000000, .maccMax 13 8), (0x7380000000000000, .maccZero 14),
    (0x77F4012C14000000, .mcvtBf16 15 6 32805 2088), (0x7A3C013414800000, .mcvtF16 8 7 32806 2089), (0x7E64013C15000000, .mcvtE4m3 9 4 32807 2090),
    (0x82AC014415800000, .mcvtE5m2 10 5 32808 2091), (0x8608E09800000000, .mloop 2083 2086), (0x8A00209C00000000, .mloopP 4 2087),
    (0x8E8020A000000000, .mloopK 5 2088), (0x9000000000000000, .mend), (0x9400000000000000, .msyncG), (0x9800000000000000, .msyncS),
    (0x9C00000000000000, .msyncAll), (0xA000000000000000, .mnop)] : List (Nat × Instr)),
    (match decodeMicro e.1 with | .ok i => decide (i = e.2) | .error _ => false) = true ∧ encodeMicro e.2 = e.1 := by decide +kernel

/-! ### Ill-formed terms, which well-formedness refuses -/

/-- One term for each field check. -/
theorem test_fields_refused : ∀ i ∈ ([.loop 0 1, .loopRot 0 1, .brk 0, .brk 7, .phase 9, .fmtR 1 0 0, .jmov 1 1 3 0, .jmov 1 1 0 4, .jmovV 1 1 2 3,
      .jmovV 1 1 3 2, .jspl32 1 1 2 2, .jspl16 1 1 3 1, .jspl8 1 1 3 3, .jpm 1 1, .jmk 2 1 2 0, .jmk 2 1 0 1, .mlog .v 2 2 2 6, .mlog .v 2 2 2 4,
      .vredAx .v 1 1 3 0, .vmxqE .v 1 1 5 0, .vpermI .v 1 1 0x88, .vpermI .v 1 1 0xC0] ++ [.tlds 0 1 6 0, .tldsR 0 1 6 0, .tst 1 1 0 3, .tstR 1 1 0 3,
      .tsts 1 1 6 0 0, .tsts 1 1 0 0 3, .tstsR 1 1 6 0 0, .spst 1 1 3, .spstR 1 1 3, .fst 1 1 3, .fstR 1 1 3, .amoAdd 1 1 6 0 0 0, .amoSwp 1 1 7 0 0 0,
      .cas 2 1 6 0, .casD 2 1 6 0, .fldt 0 1 7, .fldtR 0 1 14, .append 1 1 1 0 0 0, .append 1 1 6 1 0 0, .appendR 1 1 0 0 0 3, .span 1 0, .span 1 33,
      .fence 6, .fenceSt 6, .drain 7, .xfence 5 0, .xfence 0 5, .aiterS 1 1 6 0, .aiterRd 1 1 16, .xwait 1 5] : List Instr), i.fieldsOk = false := by
  decide +kernel
/-- One for each register check: a file that has no such register, a register that no slot writes, and the forms' own. -/
theorem test_registers_refused : ∀ i ∈ ([.brx 16, .xset 8 0, .xzero 16, .sems 16 1, .add 31 1 1, .vadd .v 31 1 1 0, .vadd .w 31 1 1 0, .pand 0 1 2,
      .pand 14 1 2, .pand 15 1 2, .mlog .v 0 2 2 0, .mlog .v 1 2 2 0, .cmpEq 1 1 1 1, .cmpNe 1 1 1 1, .cmpLt 1 1 1 1, .cmpLe 1 1 1 1, .cmpGt 1 1 1 1,
      .cmpGe 1 1 1 1, .cmpLtu 1 1 1 1, .cmpGeu 1 1 1 1, .cas 3 1 0 0, .cas 30 1 0 0, .casD 3 1 0 0, .bifM 1 16] : List Instr), i.regsOk = false := by
  decide +kernel
theorem test_well_formed : ∀ i ∈ ([.loop 1 1, .brk 6, .phase 8, .jpm 1 2, .vpermI .v 1 1 0x87, .fldt 0 1 15, .append 1 1 5 1 0 2, .span 1 32, .xwait 1 4,
      .add 30 31 31, .cas 28 1 5 3, .bifM 2 16, .cmpEq 13 1 1 1] : List Instr), i.wf = true := by decide +kernel
/-- R37: the privileged forms; R23: two slots of which one reads what the other writes. -/
theorem test_privileged_and_clash : Instr.eret.privileged = true ∧ (Instr.fbank 1 2).privileged = true ∧ (Instr.add 1 2 3).privileged = false
    ∧ slotsClash ⟨false, 0, .add 1 2 3⟩ ⟨false, 1, .cmpEq 1 2 1 1⟩ = true ∧ slotsClash ⟨false, 0, .add 1 2 3⟩ ⟨false, 0, .br 4⟩ = false := by decide

/-! ### Results: the spec's own examples, and values worked by hand from its rules -/

/-- Does an instruction go on to a state with a property? -/
noncomputable def goes (i : Instr) (s : State) (p : State → Bool) : Bool := match exec i s with | .next t => p t | _ => false
def withS (a b : W64) : State := world { ctx0 with files := { files0 with s := [(1, ⟨true, a⟩), (2, ⟨true, b⟩)] } }
def sGives (i : Instr) (a b v : W64) : Prop := goes i (withS a b) (fun t => decide (t.cur.regS 3 = ⟨true, v⟩)) = true
/-- 08_core_scalar.md's 128-bit sum: the low words wrap. -/
theorem test_add_wraps : sGives (.add 3 1 2) (2 ^ 64 - 1) 2 1 := by unfold sGives; decide +kernel
theorem test_sub_order : sGives (.sub 3 1 2) 3 5 (-2) := by unfold sGives; decide +kernel
/-- 08_core_scalar.md, R139: SHR.W of 0x8000_0000 by 0. -/
theorem test_shrW_by_0 : sGives (.shrW 3 1 2) 0x80000000 0 0xFFFFFFFF80000000 := by unfold sGives; decide +kernel
theorem test_shl_by_64 : sGives (.shl 3 1 2) 1 64 0 := by unfold sGives; decide +kernel
theorem test_sar_negative : sGives (.sar 3 1 2) (-8) 70 (-1) := by unfold sGives; decide +kernel
/-- R138: division by zero, and the most negative number by -1. -/
theorem test_div_by_zero : sGives (.div 3 1 2) 7 0 (-1) := by unfold sGives; decide +kernel
theorem test_rem_overflow : sGives (.rem 3 1 2) (1 <<< 63) (-1) 0 := by unfold sGives; decide +kernel
theorem test_mulh_signs : sGives (.mulh 3 1 2) (-1) 1 (-1) ∧ sGives (.mulhU 3 1 2) (-1) 2 1 := by unfold sGives; decide +kernel
/-- A field at bit 4 of width 8, extended with its sign and not (R141). -/
theorem test_bfx : sGives (.bfx 3 1 2) 0x8F5 (4 + 8 * 256) (0xFFFFFFFFFFFFFF8F) ∧ sGives (.bfxU 3 1 2) 0x8F5 (4 + 8 * 256) 0x8F := by
  unfold sGives; decide +kernel
theorem test_movi_sign : sGives (.movi 3 0x1FFF) 0 0 (-1) := by unfold sGives; decide +kernel
theorem test_cmpLtu : goes (.cmpLtu 1 2 1 2) (withS 1 (2 ^ 64 - 1)) (fun t => decide (t.cur.pred 1 = ⟨true, 1⟩ ∧ t.cur.pred 2 = ⟨true, 0⟩)) = true := by
  decide +kernel
/-- R122: a call's link is the bundle after its own, and its target is counted from its own. -/
theorem test_call_links : goes (.call 4) (world ctxCode) (fun t => decide (t.cur.regC 15 = ⟨true, 32⟩ ∧ t.cur.sq.npc = 32)) = true
    ∧ goes (.call 8) (world ctxCode) (fun t => decide (t.cur.sq.npc = 48)) = true := by decide +kernel
/-- R99, R118: an invalid source takes the exception: the context ends and no register changes. -/
theorem test_invalid_source_traps : goes (.add 3 9 1) (withS 1 2) (fun t => decide ((t.ctx 0).st = .ended ∧ (t.ctx 0).regS 3 = Reg.invalid)
    && t.issue.trap.isSome) = true := by decide +kernel
/-- 20_planer_model.md's limit cycle: a11 is -0.75 and a21 is 1, from (2, 0). -/
def cycleBank (rnd : Nat) : Bank := Bank.parse fun i =>
  if i = 0 then BitVec.ofNat 64 (2 ^ 24 - 3 * 2 ^ 20) else if i = 1 then BitVec.ofNat 64 (2 ^ 22) else if i = 4 then BitVec.ofNat 64 (2 ^ 63 + 2 ^ 62 + rnd * 2 ^ 59) else 0
theorem test_limit_cycle : ((cycleBank 1).step 0 0 ⟨2, 0, 0, 0⟩ 0).1 = ⟨-1, 2, 0, 1⟩ ∧ ((cycleBank 1).step 0 0 ⟨-1, 2, 0, 1⟩ 0).1 = ⟨0, -1, 0, 2⟩
    ∧ ((cycleBank 0).step 0 0 ⟨2, 0, 0, 0⟩ 0).1 = ⟨-2, 2, 0, 1⟩ ∧ ((cycleBank 0).step 0 0 ⟨-2, 2, 0, 1⟩ 0).1 = ⟨2, -2, 0, 2⟩ := by decide +kernel
/-- 27_run_optimiser.md: the bytes of a filter word with Q1 112, Q2 36, ACC 0 and STAMP 1. -/
theorem test_filter_word : leBytes (FWord.bits ⟨112, 36, 0, 1⟩) 16 = [0x70, 0, 0, 0, 0x24, 0, 0, 0, 0, 0, 0, 0, 0, 0, 1, 0] := by decide
/-- 09_core_vector.md: the quantisation of 5, -12 and 0.75 by scale 2.0 to MXFP4 gives 0x0010_00F4. -/
def mxBlock : VBits := 0x40A00000 + (0xC1400000 <<< 32) + (0x3F400000 <<< 160)
def worldMx : State := world { ctx0 with files := { files0 with v := [(1, ⟨true, 0, mxBlock, []⟩), (2, ⟨true, 0, 0x30000080, []⟩)] } }
theorem test_vmxq_scale : goes (.vmxqE .v 4 1 3 0) worldMx (fun t => decide ((t.cur.regV 4).val.toNat % 2 ^ 32 = 0x30000080)) = true := by decide +kernel
theorem test_vmxq_block : goes (.vmxqB .v 4 1 2 0) worldMx (fun t => decide ((t.cur.regV 4).val.toNat % 2 ^ 32 = 0x001000F4)) = true := by decide +kernel

end Sys2Proof.Tests
end

section
/-!
PROOFS. The loop forms of the C lane (R124 to R127): what each operation of a LOOP, BRK or LIDX form answers, and O16 from them.
-/

namespace Sys2Proof.Machine

/-! ### What an instruction answers -/

/-- The meaning of `i` in `s` runs to `r`: a state, or a trap, a hold or a stop. -/
def Answers (i : Instr) (s : State) (r : Except Halt (Unit × State)) : Prop := exec i s = finish s fun _ => r

theorem answers_of_exec {i : Instr} {s : State} {m : M Unit} {r : Except Halt (Unit × State)} (hx : exec i s = finish s m)
    (hm : m s = r) : Answers i s r := by
  subst hm; exact hx

theorem Answers.next {i : Instr} {s t : State} (h : Answers i s (.ok ((), t))) : exec i s = .next t := h

theorem Answers.takes {i : Instr} {s : State} {t : Trap} (h : Answers i s (.error (.trap t))) : Takes i s t := h

theorem liftC_run {α : Type} {m : CM α} {s : State} {a : α} {c : Ctx} (h : m s.cur = .ok (a, c)) : liftC m s = .ok (a, s.setCur c) := by
  simp only [liftC, h]

theorem liftC_error {α : Type} {m : CM α} {s : State} {e : Halt} (h : m s.cur = .error e) : liftC m s = .error e := by
  simp only [liftC, h]

/-- Outside a masked region a control form is what follows its region check (R214). -/
theorem noRegion_then_run {s : State} (h : s.cur.sq.region = none) (m : M Unit) :
    (do liftC noRegion; m) s = m (s.setCur s.cur) := by
  rw [M.bind_of (liftC_run (noRegion_run h))]

/-- Outside a masked region a control form that reads a C register is what it does with the value there (R99, R214). -/
theorem noRegion_then_rdC_run {s : State} {a : BitVec 5} {v : W32} (h : s.cur.sq.region = none) (hv : s.cur.HoldsC a v) (f : W32 → M Unit) :
    (do liftC noRegion; f (← rdCM a)) s = f v (s.setCur s.cur) := by
  have hr : rdCM a (s.setCur s.cur) = .ok (v, s.setCur s.cur) := by
    rw [rdCM, liftC_run (rdC_run (by rwa [State.cur_setCur])), State.setCur_setCur, State.cur_setCur]
  rw [noRegion_then_run h, M.bind_of hr]

theorem M.need_false {cls sub : Nat} {b : Bool} (h : b = false) (f : Unit → M Unit) (s : State) :
    (M.need b cls sub >>= f) s = .error (.trap (Trap.mk' cls sub)) := by
  subst h; rfl

/-! ### Framing reads memory and no context (R21, R125) -/

/-- A meaning that changes nothing, and answers the same whatever the context in issue. -/
def Frames {α : Type} (m : M α) : Prop := ∀ s t a c, m s = .ok (a, t) → t = s ∧ m (s.setCur c) = .ok (a, s.setCur c)

theorem frames_pure {α : Type} (a : α) : Frames (pure a : M α) := by
  intro s t b c h; cases h; exact ⟨rfl, rfl⟩

theorem frames_throw {α : Type} (e : Halt) : Frames (throw e : M α) := by
  intro s t b c h; cases h

theorem frames_bind {α β : Type} {m : M α} {f : α → M β} (hm : Frames m) (hf : ∀ a, Frames (f a)) : Frames (m >>= f) := by
  intro s t b c h
  rw [M.bind_run] at h
  cases hr : m s with
  | error e => simp [hr] at h
  | ok r =>
    obtain ⟨ht, hc⟩ := hm s r.2 r.1 c hr
    simp only [hr, ht] at h
    rw [M.bind_of hc]
    exact hf r.1 s t b c h

theorem seenN_setCur (s : State) (c : Ctx) (n : Nat) : ∀ a, (s.setCur c).seenN a n = s.seenN a n := by
  induction n with
  | zero => intro a; rfl
  | succ n ih => intro a; rw [State.seenN, State.seenN, ih]; rfl

theorem frames_rdN (a n : Nat) : Frames (rdN a n) := by
  intro s t v c h
  obtain ⟨ho, rfl, rfl⟩ := rdN_cases h
  exact ⟨rfl, by simp [rdN, needAddr, ho, seenN_setCur]⟩

theorem frames_frameFrom (l : Launch) (n : Nat) : ∀ pos off acc, Frames (frameFrom l n pos off acc) := by
  induction n with
  | zero => intro pos off acc; exact frames_pure _
  | succ n ih =>
    intro pos off acc
    rw [frameFrom]
    split
    · exact frames_pure _
    · refine frames_bind (frames_rdN _ _) fun w => ?_
      split
      · exact frames_pure _
      · exact ih _ _ _

theorem frames_frameBody (l : Launch) (n : Nat) : ∀ first off, Frames (frameBody l n first off) := by
  induction n with
  | zero => intro first off; exact frames_pure _
  | succ n ih =>
    intro first off
    refine frames_bind (frames_frameFrom l 8 1 off []) fun r => ?_
    cases r with
    | error p => exact frames_throw _
    | ok ws => exact frames_bind (ih _ _) fun _ => frames_pure _

/-! ### Pushing a level (R104, R109, R124, R125) -/

/-- The level that a LOOP form pushes: `n` iterations up to `e` of a body whose slots have the guards `gs`. -/
def Ctx.newLevel (c : Ctx) (n : W32) (rot : Bool) (gs : List Nat) (e : Nat) : Level :=
  { start := c.sq.after, stop := BitVec.ofNat 32 e, count := n, index := 0, rot := rot, depthE := if rot then stageDepth gs else 0 }

/-- The context with one more level, the innermost; a rotating one sets the stage predicates. -/
def Ctx.pushed (c : Ctx) (lv : Level) : Ctx :=
  let c1 := { c with sq := { c.sq with loops := c.sq.loops ++ [lv] } }
  if lv.rot then { c1 with files := { c1.files with p := setStages lv c1.files.p } } else c1

/-- The `len + 1` bundles of a loop's body frame up to `e`, with the guards `gs` and no MARK but in the first, and end inside the
innermost loop that the LOOP bundle stands in (R125). -/
def State.BodyFits (s : State) (len : Nat) (gs : List Nat) (e : Nat) : Prop :=
  frameBody (s.launchOf s.focus) (len + 1) true s.cur.sq.after.toNat s = .ok ((gs, false, e), s)
    ∧ ∀ o, s.cur.sq.inner = some o → o.start.toNat ≤ s.cur.sq.pc.toNat → s.cur.sq.pc.toNat < o.stop.toNat → e ≤ o.stop.toNat

/-- Putting the context in issue back leaves what these checks see. -/
theorem State.BodyFits.setCur_cur {s : State} {len : Nat} {gs : List Nat} {e : Nat} (h : s.BodyFits len gs e) :
    (s.setCur s.cur).BodyFits len gs e := by
  obtain ⟨hbody, hin⟩ := h
  have hl : (s.setCur s.cur).launchOf (s.setCur s.cur).focus = s.launchOf s.focus :=
    congrArg (fun c : Ctx => s.launch c.launch) (State.cur_setCur s s.cur)
  unfold State.BodyFits
  rw [hl, State.cur_setCur]
  exact ⟨(frames_frameBody _ _ _ _ _ _ _ s.cur hbody).2, hin⟩

/-- The checks of R125 that a body passes leave the state as it is: what follows them alone runs. -/
theorem pushLoop_of_checks {s : State} {len : Nat} {gs : List Nat} {e : Nat} (n : W32) (rot : Bool) (hbody : s.BodyFits len gs e) :
    pushLoop n len rot s = (if n = 0 then goTo (BitVec.ofNat 32 e) else do
      M.need (decide (s.cur.sq.loops.length < 6)) clsControl 1
      modCur fun c => c.pushed (s.cur.newLevel n rot gs e)) s := by
  obtain ⟨hbody, hin⟩ := hbody
  have hl : curLaunch s = .ok (s.launchOf s.focus, s) := rfl
  rw [pushLoop, M.bind_of hl, M.bind_of (M.get_run s), M.bind_of hbody]
  cases hi : s.cur.sq.inner with
  | none => rfl
  | some o =>
    have hend : ¬ (o.start.toNat ≤ s.cur.sq.pc.toNat ∧ s.cur.sq.pc.toNat < o.stop.toNat ∧ o.stop.toNat < e) :=
      fun ⟨h1, h2, h3⟩ => absurd (hin o hi h1 h2) (Nat.not_le.mpr h3)
    simp only [Bool.false_eq_true, if_false, if_neg hend]
    rfl

/-- What a LOOP form answers where its body passes the checks of R125. -/
theorem pushLoop_run {s : State} {len : Nat} {gs : List Nat} {e : Nat} (n : W32) (rot : Bool) (hbody : s.BodyFits len gs e) :
    pushLoop n len rot s =
      if n = 0 then .ok ((), s.setCur { s.cur with sq := { s.cur.sq with npc := BitVec.ofNat 32 e } })
      else if s.cur.sq.loops.length < 6 then .ok ((), s.setCur (s.cur.pushed (s.cur.newLevel n rot gs e)))
      else .error (.trap (Trap.mk' clsControl 1)) := by
  rw [pushLoop_of_checks n rot hbody]
  by_cases hn : n = 0
  · rw [if_pos hn, if_pos hn]; rfl
  · rw [if_neg hn, if_neg hn]
    by_cases hd : s.cur.sq.loops.length < 6
    · rw [if_pos hd, M.bind_of (M.need_true (decide_eq_true hd) s)]; rfl
    · rw [if_neg hd, M.need_false (decide_eq_false hd)]

/-- Each LOOP form pushes a level by its count, from the state that its region check and its operand leave. -/
theorem answers_loopForms {s : State} {n : BitVec 11} {a : BitVec 5} {k : BitVec 7} {v : W32} (h : s.cur.sq.region = none) :
    ∀ f ∈ ([(.loop n k, n.setWidth 32, false), (.loopR a k, v, false), (.loopRot n k, n.setWidth 32, true), (.loopRotR a k, v, true)] :
        List (Instr × W32 × Bool)),
      (f.1 = .loopR a k ∨ f.1 = .loopRotR a k → s.cur.HoldsC a v) →
      Answers f.1 s (pushLoop f.2.1 k.toNat f.2.2 (s.setCur s.cur)) := by
  intro f hf hv
  simp only [List.mem_cons, List.not_mem_nil, or_false] at hf
  rcases hf with rfl | rfl | rfl | rfl
  · exact answers_of_exec rfl (noRegion_then_run h _)
  · exact answers_of_exec rfl (noRegion_then_rdC_run h (hv (.inl rfl)) fun w => pushLoop w k.toNat false)
  · exact answers_of_exec rfl (noRegion_then_run h _)
  · exact answers_of_exec rfl (noRegion_then_rdC_run h (hv (.inr rfl)) fun w => pushLoop w k.toNat true)

/-! ### Leaving levels (R126) and reading one (R127) -/

/-- The context once `n` levels are left, the last of them `l`: it goes on at the end of `l`, 3 clocks on. -/
def Ctx.leaves (c : Ctx) (n : Nat) (l : Level) : Ctx :=
  { c with sq := { c.sq with loops := c.sq.loops.take (c.sq.loops.length - n) } }.jumps l.stop 3

theorem breakOut_level {s : State} {n : Nat} {l : Level} (hn : n ≤ s.cur.sq.loops.length)
    (hl : s.cur.sq.loops[s.cur.sq.loops.length - n]? = some l) : breakOut n s = .ok ((), s.setCur (s.cur.leaves n l)) := by
  rw [breakOut, M.bind_of (M.get_run s)]
  dsimp only
  rw [M.bind_of (M.need_true (decide_eq_true hn) s), hl]
  simp only [modCur, delay, M.bind_run, M.modify_run, State.cur_setCur, State.setCur_setCur]
  rfl

theorem breakOut_zero (s : State) : breakOut 0 s = .ok ((), s) := by
  rw [breakOut, M.bind_of (M.get_run s)]
  dsimp only
  rw [M.bind_of (M.need_true (decide_eq_true (Nat.zero_le _)) s), Nat.sub_zero, List.getElem?_eq_none (Nat.le_refl _)]
  rfl

theorem breakOut_deeper {s : State} {n : Nat} (hn : s.cur.sq.loops.length < n) :
    breakOut n s = .error (.trap (Trap.mk' clsControl 2)) := by
  rw [breakOut, M.bind_of (M.get_run s)]
  dsimp only
  rw [M.need_false (decide_eq_false (Nat.not_le.mpr hn))]

/-- BRK leaves as many levels as it says. -/
theorem answers_brk {s : State} (i : BitVec 13) (h : s.cur.sq.region = none) :
    Answers (.brk i) s (breakOut i.toNat (s.setCur s.cur)) :=
  answers_of_exec rfl (noRegion_then_run h _)

/-- BRK.R leaves as many levels as its register says, where that is no more than 6. -/
theorem answers_brkR {s : State} {a : BitVec 5} {v : W32} (h : s.cur.sq.region = none) (hv : s.cur.HoldsC a v) :
    Answers (.brkR a) s (if 6 < v.toNat then .error (.trap { Trap.mk' clsControl 5 with value := v.setWidth 64 })
      else breakOut v.toNat (s.setCur s.cur)) := by
  refine answers_of_exec rfl ?_
  rw [noRegion_then_rdC_run h hv fun n => do
    if 6 < n.toNat then M.trapV clsControl 5 (n.setWidth 64)
    breakOut n.toNat]
  by_cases h6 : 6 < v.toNat
  · simp only [if_pos h6]; rfl
  · simp only [if_neg h6]

/-- LIDX of a level held writes its trip count or its index. -/
theorem exec_lidx_held {s : State} {d : BitVec 5} {w : BitVec 1} {j : BitVec 3} {l : Level} (h : s.cur.sq.region = none)
    (hl : s.cur.sq.loops.reverse[j.toNat]? = some l) (hr : s.cur.Room (s.cur.savedC d.toNat)) :
    exec (.lidx d w j) s = .next (s.setCur (s.cur.putC d.toNat (if w = 1 then l.count else l.index))) := by
  refine onCtx_next ?_
  rw [CM.bind_of (noRegion_run h), CM.bind_of (CM.get_run _), hl]
  exact wrC_run hr

theorem takes_lidx_notHeld {s : State} {d : BitVec 5} {w : BitVec 1} {j : BitVec 3} (h : s.cur.sq.region = none)
    (hl : s.cur.sq.loops.length ≤ j.toNat) : Takes (.lidx d w j) s (Trap.mk' clsControl 2) := by
  refine (answers_of_exec (m := liftC _) rfl (liftC_error ?_)).takes
  rw [CM.bind_of (noRegion_run h), CM.bind_of (CM.get_run _), List.getElem?_eq_none (by simpa using hl)]
  rfl

/-! ### The statement -/

/-- Settles O16: a LOOP form is its region check and `pushLoop`, a BRK form the same and `breakOut`; each case is one of the
outcomes of those operations. -/
theorem loopLevels : Obligations.LoopLevels := by
  unfold Obligations.LoopLevels
  constructor
  · intro s n a k v gs e c l hreg hbody hin f hf hv
    have hans := answers_loopForms hreg f hf hv
    have hfits : (s.setCur s.cur).BodyFits k.toNat gs e := State.BodyFits.setCur_cur ⟨hbody, hin⟩
    rw [pushLoop_run f.2.1 f.2.2 hfits, State.cur_setCur, State.setCur_setCur, State.setCur_setCur] at hans
    dsimp only
    by_cases hn : f.2.1 = 0
    · rw [if_pos hn] at hans ⊢
      exact hans.next
    · rw [if_neg hn] at hans ⊢
      by_cases hd : c.sq.loops.length < 6
      · rw [if_pos hd] at hans ⊢
        exact hans.next
      · rw [if_neg hd] at hans ⊢
        exact hans.takes
  · intro s i a d v w j c out hreg
    have hcur := State.cur_setCur s s.cur
    refine ⟨?_, ?_, ?_, ?_, ?_⟩
    · intro e he hpos hv
      have hans : Answers e.1 s (breakOut e.2 (s.setCur s.cur)) := by
        simp only [List.mem_cons, List.not_mem_nil, or_false] at he
        rcases he with rfl | rfl
        · exact answers_brk i hreg
        · obtain ⟨hc, h6⟩ := hv rfl
          simpa only [if_neg (Nat.not_lt.mpr h6)] using answers_brkR hreg hc
      constructor
      · intro l hn hl
        rw [breakOut_level (by rwa [hcur]) (by rwa [hcur]), State.setCur_setCur, hcur] at hans
        exact hans.next
      · intro hn
        rw [breakOut_deeper (by rwa [hcur])] at hans
        exact hans.takes
    · intro hv
      have hans := answers_brkR hreg hv
      rw [if_neg (by decide), show (0 : W32).toNat = 0 from rfl, breakOut_zero] at hans
      exact hans.next
    · intro hv h6
      have hans := answers_brkR hreg hv
      rw [if_pos h6] at hans
      exact hans.takes
    · intro l hl hroom
      exact exec_lidx_held hreg hl hroom
    · intro hj
      exact takes_lidx_notHeld hreg hj

end Sys2Proof.Machine
end

section
/-!
PROOFS. The S lane (R134 to R144): the values of the model as the tables give them, what each shape of a form answers where its
operands hold, and O1, O2, O3 and O4 from them.
-/

namespace Sys2Proof.Machine

/-! ### Values: division and shifts (R137 to R139) -/

theorem divS_eq (x y : W64) : divS x y = if y = 0 then -1 else BitVec.ofInt 64 (x.toInt.tdiv y.toInt) :=
  rfl

theorem divU_eq (x y : W64) : divU x y = if y = 0 then -1 else BitVec.ofNat 64 (x.toNat / y.toNat) :=
  rfl

theorem remS_eq (x y : W64) : remS x y = if y = 0 then x else BitVec.ofInt 64 (x.toInt - x.toInt.tdiv y.toInt * y.toInt) := by
  rw [remS, Int.tmod_def, Int.mul_comm]

theorem remU_eq (x y : W64) : remU x y = if y = 0 then x else BitVec.ofNat 64 (x.toNat - x.toNat / y.toNat * y.toNat) := by
  rw [remU, Nat.mod_eq_sub_div_mul]

theorem divS_zero (x : W64) : divS x 0 = -1 := by rw [divS_eq, if_pos rfl]
theorem divU_zero (x : W64) : divU x 0 = -1 := by rw [divU_eq, if_pos rfl]
theorem remS_zero (x : W64) : remS x 0 = x := if_pos rfl
theorem remU_zero (x : W64) : remU x 0 = x := if_pos rfl

theorem eq_intMin_of_toInt {x : W64} (h : x.toInt = -2 ^ 63) : x = BitVec.intMin 64 :=
  BitVec.eq_of_toInt_eq (h.trans (by decide))

theorem divS_intMin_neg_one : divS (BitVec.intMin 64) (-1) = BitVec.intMin 64 := by decide
theorem remS_intMin_neg_one : remS (BitVec.intMin 64) (-1) = 0 := by decide
theorem divU_intMin_neg_one : divU (BitVec.intMin 64) (-1) = 0 := by decide
theorem remU_intMin_neg_one : remU (BitVec.intMin 64) (-1) = BitVec.intMin 64 := by decide

theorem shlN_eq {w : Nat} (x : BitVec w) (n : Nat) : shlN x n = x <<< n := by
  unfold shlN
  split
  · exact (BitVec.shiftLeft_eq_zero ‹_›).symm
  · rfl

theorem shrN_eq {w : Nat} (x : BitVec w) (n : Nat) : shrN x n = x >>> n := by
  unfold shrN
  split
  · exact (BitVec.ushiftRight_eq_zero ‹_›).symm
  · rfl

/-- From a count of the width on, a signed shift leaves the sign alone. -/
theorem sarN_eq {w : Nat} (x : BitVec w) (n : Nat) : sarN x n = x.sshiftRight n := by
  rcases Nat.le_total n w with h | h
  · rw [sarN, Nat.min_eq_left h]
  · rw [sarN, Nat.min_eq_right h]
    refine BitVec.eq_of_getLsbD_eq fun i _ => ?_
    rw [BitVec.getLsbD_sshiftRight, BitVec.getLsbD_sshiftRight, if_neg (by omega), if_neg (by omega)]

/-! ### Values: bit fields (R141) -/

theorem testBit_fieldN {w : Nat} (x : BitVec w) (lo n i : Nat) :
    (fieldN x lo n).testBit i = (decide (i < n) && x.getLsbD (lo + i)) := by
  rw [fieldN, Nat.testBit_mod_two_pow, Nat.testBit_div_two_pow, Nat.add_comm i lo]; rfl

/-- The position of the field that a register names, and its length. -/
def fieldPos (y : W64) : Nat := y.toNat % 64
def fieldWid (y : W64) : Nat := y.toNat / 256 % 128

theorem fieldOf_eq (w : Nat) (y : W64) :
    fieldOf w y = if fieldWid y = 0 ∨ w ≤ fieldPos y then (0, 0) else (fieldPos y, min (fieldPos y + fieldWid y) w) := by
  simp only [fieldOf, fieldN, fieldPos, fieldWid, Nat.pow_zero, Nat.div_one, Nat.reducePow]
  rfl

theorem signExtend_eq_ofInt {n : Nat} (z : BitVec (n + 1)) (v : Nat) :
    z.signExtend v = BitVec.ofInt v (if 2 ^ n ≤ z.toNat then (z.toNat : Int) - 2 ^ (n + 1) else z.toNat) := by
  rw [BitVec.signExtend, BitVec.toInt_eq_toNat_cond, Nat.pow_succ]
  by_cases h : 2 ^ n ≤ z.toNat
  · rw [if_pos h, if_neg (by omega), Int.pow_succ]; push_cast; rfl
  · rw [if_neg h, if_pos (by omega)]

/-- A BFX of a field that is not empty is the field as a word of its own, sign-extended. -/
theorem bfxS_eq_signExtend {x y : W64} {pos n : Nat} (hf : fieldOf 64 y = (pos, pos + (n + 1))) :
    bfxS x y = (x.extractLsb' pos (n + 1)).signExtend 64 := by
  have hv : (x.extractLsb' pos (n + 1)).toNat = fieldN x pos (n + 1) := by
    rw [BitVec.extractLsb'_toNat, Nat.shiftRight_eq_div_pow]; rfl
  simp only [bfxS, hf, if_neg (show pos + (n + 1) ≠ 0 by omega), Nat.add_sub_cancel_left, Nat.add_sub_cancel,
    signExtend_eq_ofInt, hv]

/-- The old bits above a field and below it, with the low bits of `x` between. -/
theorem testBit_insert (n x : Nat) {pos top : Nat} (h : pos < top) (i : Nat) :
    (n / 2 ^ top * 2 ^ top + x % 2 ^ (top - pos) * 2 ^ pos + n % 2 ^ pos).testBit i
      = if pos ≤ i ∧ i < top then x.testBit (i - pos) else n.testBit i := by
  have hlow : x % 2 ^ (top - pos) * 2 ^ pos + n % 2 ^ pos < 2 ^ top := by
    have hx := Nat.mod_lt x (Nat.two_pow_pos (top - pos))
    have hn := Nat.mod_lt n (Nat.two_pow_pos pos)
    calc x % 2 ^ (top - pos) * 2 ^ pos + n % 2 ^ pos
      _ < (x % 2 ^ (top - pos) + 1) * 2 ^ pos := by rw [Nat.add_mul]; omega
      _ ≤ 2 ^ (top - pos) * 2 ^ pos := Nat.mul_le_mul_right _ hx
      _ = 2 ^ top := by rw [← Nat.pow_add, Nat.sub_add_cancel (Nat.le_of_lt h)]
  rw [Nat.add_assoc, Nat.mul_comm _ (2 ^ top), Nat.testBit_two_pow_mul_add _ hlow, Nat.mul_comm _ (2 ^ pos),
    Nat.testBit_two_pow_mul_add _ (Nat.mod_lt _ (Nat.two_pow_pos _))]
  simp only [Nat.testBit_div_two_pow, Nat.testBit_mod_two_pow]
  by_cases htop : i < top
  · by_cases hpos : i < pos
    · rw [if_pos htop, if_pos hpos, if_neg (fun hin => absurd hin.1 (Nat.not_le.mpr hpos)), decide_eq_true hpos, Bool.true_and]
    · rw [if_pos htop, if_neg hpos, if_pos ⟨Nat.not_lt.mp hpos, htop⟩, decide_eq_true (by omega), Bool.true_and]
  · rw [if_neg htop, if_neg (fun hin => htop hin.2), Nat.sub_add_cancel (Nat.not_lt.mp htop)]

section
variable {w : Nat} {d x y : W64} {pos top i : Nat} {empty : Prop} [Decidable empty]

theorem getLsbD_bfxU (hf : fieldOf 64 y = if empty then (0, 0) else (pos, top)) (hi : i < 64) :
    (bfxU x y).getLsbD i = (decide (¬empty ∧ i < top - pos) && x.getLsbD (pos + i)) := by
  by_cases he : empty
  · rw [if_pos he] at hf
    simp [bfxU, hf, he, fieldN, Nat.mod_one]
  · rw [if_neg he] at hf
    simp only [bfxU, hf, BitVec.getLsbD_ofNat, testBit_fieldN, he, hi, decide_true, Bool.true_and, not_false_eq_true, true_and]

theorem getLsbD_bfxS (hf : fieldOf 64 y = if empty then (0, 0) else (pos, top)) (h : ¬empty → pos < top) (hi : i < 64) :
    (bfxS x y).getLsbD i = (decide (¬empty) && x.getLsbD (pos + min i (top - pos - 1))) := by
  by_cases he : empty
  · simp [bfxS, hf, he]
  · obtain ⟨n, rfl⟩ : ∃ n, top = pos + (n + 1) := ⟨top - pos - 1, by have := h he; omega⟩
    rw [if_neg he] at hf
    rw [bfxS_eq_signExtend hf, BitVec.getLsbD_signExtend, BitVec.msb_eq_getLsbD_last, BitVec.getLsbD_extractLsb',
      BitVec.getLsbD_extractLsb', Nat.add_sub_cancel_left, Nat.add_sub_cancel]
    rcases Nat.lt_or_ge i (n + 1) with hlt | hge
    · rw [if_pos hlt, Nat.min_eq_left (by omega)]; simp [hi, hlt, he]
    · rw [if_neg (by omega), Nat.min_eq_right (by omega)]; simp [hi, he]

theorem testBit_bfiN (hf : fieldOf w y = if empty then (0, 0) else (pos, top)) (h : ¬empty → pos < top) (hi : i < w) :
    (bfiN w d x y).testBit i = if ¬empty ∧ pos ≤ i ∧ i < top then x.getLsbD (i - pos) else d.getLsbD i := by
  have hold : (d.toNat % 2 ^ w).testBit i = d.getLsbD i := by
    rw [Nat.testBit_mod_two_pow, decide_eq_true hi, Bool.true_and]; rfl
  by_cases he : empty
  · rw [if_pos he] at hf
    rw [if_neg (fun ⟨hne, _⟩ => hne he)]
    simp only [bfiN, hf, if_true, hold]
  · have htop : top ≠ 0 := by have := h he; omega
    rw [if_neg he] at hf
    simp only [bfiN, hf, if_neg htop, testBit_insert _ _ (h he), hold, BitVec.testBit_toNat, he, not_false_eq_true, true_and]

end

/-! ### Values: counts of bits (R140) -/

theorem clzN_le {w : Nat} (x : BitVec w) : clzN x ≤ w := by
  unfold clzN; split <;> omega

theorem log2_lt_width {w : Nat} {x : BitVec w} (h : x ≠ 0) : x.toNat.log2 < w :=
  (Nat.log2_lt (by simpa using (BitVec.toNat_ne_iff_ne.mpr h))).mpr x.isLt

theorem getLsbD_of_lt_clzN {w : Nat} {x : BitVec w} {j : Nat} (h : j < clzN x) : x.getLsbD (w - 1 - j) = false := by
  unfold clzN at h
  split at h
  case isTrue h0 => simp [h0]
  case isFalse h0 =>
    have := log2_lt_width h0
    exact Nat.testBit_lt_two_pow (Nat.lt_of_lt_of_le Nat.lt_log2_self (Nat.pow_le_pow_right (by omega) (by omega)))

theorem getLsbD_clzN {w : Nat} {x : BitVec w} (h : clzN x < w) : x.getLsbD (w - 1 - clzN x) = true := by
  unfold clzN at h ⊢
  split at h
  case isTrue h0 => omega
  case isFalse h0 =>
    have hw := log2_lt_width h0
    rw [if_neg h0, show w - 1 - (w - 1 - x.toNat.log2) = x.toNat.log2 by omega]
    exact Nat.testBit_log2 (by simpa using BitVec.toNat_ne_iff_ne.mpr h0)

theorem popcN_eq (k : Nat) : ∀ n, popcN n k = ((List.range k).filter n.testBit).length := by
  induction k with
  | zero => intro n; rfl
  | succ k ih =>
    intro n
    have hbit : (n.testBit ∘ Nat.succ) = (n / 2).testBit := funext fun i => Nat.testBit_succ n i
    rw [popcN, ih, List.range_succ_eq_map, List.filter_cons, List.filter_map, hbit, Nat.testBit_zero]
    rcases Nat.mod_two_eq_zero_or_one n with h | h
    · rw [h, if_neg (by decide), List.length_map, Nat.zero_add]
    · rw [h, if_pos (by decide), List.length_cons, List.length_map, Nat.add_comm]

theorem popcN_toNat {w : Nat} (x : BitVec w) (k : Nat) : popcN x.toNat k = ((List.range k).filter x.getLsbD).length := popcN_eq k _

theorem getLsbD_lo32 (x : W64) {i : Nat} (h : i < 32) : (lo32 x).getLsbD i = x.getLsbD i := by
  simp [lo32, h]

/-! ### The shapes of the S lane (R134 to R144) -/

section
variable {i : Instr} {s : State} {d a b : BitVec 5} {q x y : W64} {c : Ctx}

/-- A form of two S registers writes its function of what they hold. -/
theorem exec_sBin (hreg : s.cur.sq.region = none) (hp : s.cur.PopsS [a, b] q c) (hx : c.HoldsS q a x) (hy : c.HoldsS q b y)
    (hr : c.Room (c.savedS d)) {f : W64 → W64 → W64} (hi : exec i s = onCtx s (sBin f d a b)) {v : W64} (hv : f x y = v) :
    exec i s = .next (s.setCur (c.putS d v)) := by
  subst hv
  rw [hi]
  refine onCtx_next ?_
  rw [sBin, CM.bind_of (noRegion_run hreg), CM.bind_of (popIfS_run hp), CM.bind_of (rdS_run hx), CM.bind_of (rdS_run hy)]
  exact wrS_run hr

/-- A form of one S register writes its function of what that holds. -/
theorem exec_sUn (hreg : s.cur.sq.region = none) (hp : s.cur.PopsS [a] q c) (hx : c.HoldsS q a x) (hr : c.Room (c.savedS d))
    {f : W64 → W64} (hi : exec i s = onCtx s (sUn f d a)) {v : W64} (hv : f x = v) :
    exec i s = .next (s.setCur (c.putS d v)) := by
  subst hv
  rw [hi]
  refine onCtx_next ?_
  rw [sUn, CM.bind_of (noRegion_run hreg), CM.bind_of (popIfS_run hp), CM.bind_of (rdS_run hx)]
  exact wrS_run hr

theorem holdsS_of_regS {q z : W64} (hd : d ≠ 31) (hz : c.regS d.toNat = ⟨true, z⟩) : c.HoldsS q d z := by
  rwa [Ctx.HoldsS, if_neg hd]

/-- A form that reads its destination too writes its function of that and of its sources. -/
theorem exec_sTern (hreg : s.cur.sq.region = none) (hp : s.cur.PopsS [a, b] q c) (hx : c.HoldsS q a x) (hy : c.HoldsS q b y)
    (hr : c.Room (c.savedS d)) {z : W64} (hz : c.HoldsS q d z) {f : W64 → W64 → W64 → W64}
    (hi : exec i s = onCtx s (sTern f d a b)) {v : W64} (hv : f z x y = v) : exec i s = .next (s.setCur (c.putS d v)) := by
  subst hv
  rw [hi]
  refine onCtx_next ?_
  rw [sTern, CM.bind_of (noRegion_run hreg), CM.bind_of (popIfS_run hp), CM.bind_of (rdS_run hz), CM.bind_of (rdS_run hx),
    CM.bind_of (rdS_run hy)]
  exact wrS_run hr

theorem exec_sel (hreg : s.cur.sq.region = none) {p : BitVec 3} {t : Bool} (ht : s.cur.HoldsP (p.setWidth 4) t)
    (hp : s.cur.PopsS [a, b] q c) (hx : c.HoldsS q a x) (hy : c.HoldsS q b y) (hr : c.Room (c.savedS d)) :
    exec (.sel d a b p) s = .next (s.setCur (c.putS d (if t then x else y))) := by
  refine onCtx_next ?_
  rw [CM.bind_of (noRegion_run hreg), CM.bind_of (rdP_run ht), CM.bind_of (popIfS_run hp), CM.bind_of (rdS_run hx),
    CM.bind_of (rdS_run hy)]
  exact wrS_run hr

theorem exec_movi (hreg : s.cur.sq.region = none) (n : BitVec 13) (hr : s.cur.Room (s.cur.savedS d)) :
    exec (.movi d n) s = .next (s.setCur (s.cur.putS d (n.signExtend 64))) := by
  refine onCtx_next ?_
  rw [CM.bind_of (noRegion_run hreg)]
  exact wrS_run hr

theorem exec_movs (hreg : s.cur.sq.region = none) (n : BitVec 13) (hr : s.cur.Room (s.cur.savedS d)) {z : W64}
    (hz : s.cur.HoldsS 0 d z) : exec (.movs d n) s = .next (s.setCur (s.cur.putS d ((z <<< 13) ||| n.setWidth 64))) := by
  refine onCtx_next ?_
  rw [CM.bind_of (noRegion_run hreg), CM.bind_of (rdS_run hz)]
  exact wrS_run hr

end

/-! ### The statements about the S lane -/

/-- Settles O1: each form is `sBin` of a function of the model, whose value is the table's. -/
theorem scalarTwoSourceForms : Obligations.ScalarTwoSourceForms := by
  unfold Obligations.ScalarTwoSourceForms
  intro s d a b q x y c hreg hp hx hy hr
  have writes {i : Instr} {f : W64 → W64 → W64} {v : W64} (hi : exec i s = onCtx s (sBin f d a b)) (hv : f x y = v) :
      exec i s = .next (s.setCur (c.putS d v)) := exec_sBin hreg hp hx hy hr hi hv
  have hslt : ∀ u v : W64, (if x.slt y then u else v) = if x.toInt < y.toInt then u else v := by
    simp [BitVec.slt_eq_decide]
  have hult : ∀ u v : W64, (if x.ult y then u else v) = if x.toNat < y.toNat then u else v := by
    simp [BitVec.ult_eq_decide]
  simp only [List.forall_mem_cons]
  exact ⟨writes rfl rfl, writes rfl rfl, writes rfl rfl, writes rfl rfl,
    writes rfl rfl, writes rfl rfl, writes rfl rfl, writes rfl rfl,
    writes rfl (divS_eq x y), writes rfl (divU_eq x y), writes rfl (remS_eq x y), writes rfl (remU_eq x y),
    writes rfl rfl, writes rfl rfl, writes rfl rfl, writes rfl rfl,
    writes rfl (shlN_eq x _), writes rfl (shrN_eq x _), writes rfl (sarN_eq x _),
    writes rfl (congrArg sext32 (shlN_eq _ _)), writes rfl (congrArg sext32 (shrN_eq _ _)), writes rfl (congrArg sext32 (sarN_eq _ _)),
    writes rfl (hslt x y), writes rfl (hslt y x), writes rfl (hult x y), writes rfl (hult y x), List.forall_mem_nil _⟩

/-- Settles O2: a division form is `sBin` of a total function, and its corners are values of that function. -/
theorem divisionCorners : Obligations.DivisionCorners := by
  unfold Obligations.DivisionCorners
  intro s d a b q x y c hreg hp hx hy hr
  have writes {i : Instr} {f : W64 → W64 → W64} {v : W64} (hi : exec i s = onCtx s (sBin f d a b)) (hv : f x y = v) :
      exec i s = .next (s.setCur (c.putS d v)) := exec_sBin hreg hp hx hy hr hi hv
  refine ⟨?_, ?_, ?_⟩
  · simp only [List.forall_mem_cons]
    exact ⟨⟨_, writes rfl rfl⟩, ⟨_, writes rfl rfl⟩, ⟨_, writes rfl rfl⟩, ⟨_, writes rfl rfl⟩, List.forall_mem_nil _⟩
  · rintro rfl
    exact ⟨writes rfl (divS_zero x), writes rfl (divU_zero x), writes rfl (remS_zero x), writes rfl (remU_zero x)⟩
  · rintro hmin rfl
    obtain rfl := eq_intMin_of_toInt hmin
    exact ⟨writes rfl divS_intMin_neg_one, writes rfl remS_intMin_neg_one, writes rfl divU_intMin_neg_one,
      writes rfl remU_intMin_neg_one⟩

/-- Settles O3: the values of the forms bit by bit, for a field that is empty and for one that is not. -/
theorem bitFieldForms : Obligations.BitFieldForms := by
  unfold Obligations.BitFieldForms
  intro s d a b q x y z c hreg hd hp hx hy hr pos wid top top32 empty empty32
  have hpos : pos < 64 := Nat.mod_lt _ (by decide)
  have h64 : fieldOf 64 y = if empty then (0, 0) else (pos, top) := by
    rw [fieldOf_eq]
    by_cases he : empty
    · rw [if_pos he, if_pos (.inl he)]
    · rw [if_neg he, if_neg (fun hor => hor.elim he (Nat.not_le.mpr hpos))]
      rfl
  have h32 : fieldOf 32 y = if empty32 then (0, 0) else (pos, top32) := fieldOf_eq 32 y
  have hlt : ¬empty → pos < top := fun he => by omega
  have hlt32 : ¬empty32 → pos < top32 := fun he => by omega
  refine ⟨⟨bfxU x y, exec_sBin hreg hp hx hy hr rfl rfl, fun i => getLsbD_bfxU h64⟩,
    ⟨bfxS x y, exec_sBin hreg hp hx hy hr rfl rfl, fun i => getLsbD_bfxS h64 hlt⟩, fun hz =>
    ⟨⟨BitVec.ofNat 64 (bfiN 64 z x y), exec_sTern hreg hp hx hy hr (holdsS_of_regS hd hz) rfl rfl, fun i hi => ?_⟩,
      ⟨BitVec.ofNat 32 (bfiN 32 z x y), exec_sTern hreg hp hx hy hr (holdsS_of_regS hd hz) rfl rfl, fun i hi => ?_⟩⟩⟩
  · rw [BitVec.getLsbD_ofNat, decide_eq_true hi, Bool.true_and, testBit_bfiN h64 hlt hi]
  · rw [BitVec.getLsbD_ofNat, decide_eq_true hi, Bool.true_and, testBit_bfiN h32 hlt32 hi]

/-- Settles O4: each form of one register is `sUn` of a function of the model, whose value is the table's. -/
theorem scalarOneSourceFormsAndMoves : Obligations.ScalarOneSourceFormsAndMoves := by
  unfold Obligations.ScalarOneSourceFormsAndMoves
  constructor
  · intro s d a n q x c hreg hp hx hr
    have writes {i : Instr} {f : W64 → W64} {v : W64} (hi : exec i s = onCtx s (sUn f d a)) (hv : f x = v) :
        exec i s = .next (s.setCur (c.putS d v)) := exec_sUn hreg hp hx hr hi hv
    have hlow : (List.range 32).filter (lo32 x).getLsbD = (List.range 32).filter x.getLsbD :=
      List.filter_congr fun j hj => getLsbD_lo32 x (List.mem_range.mp hj)
    refine ⟨?_, ⟨clzN x, clzN_le x, writes rfl rfl, fun j => getLsbD_of_lt_clzN, getLsbD_clzN⟩,
      ⟨clzN (lo32 x), clzN_le _, writes rfl rfl, fun j hj => ?_, fun h => ?_⟩,
      writes rfl (by rw [popcN_toNat]), writes rfl (by rw [popcN_toNat, hlow])⟩
    · simp only [List.forall_mem_cons]
      exact ⟨writes rfl rfl, writes rfl rfl, writes rfl rfl, writes rfl rfl, writes rfl rfl,
        writes rfl (shlN_eq x _), writes rfl (shrN_eq x _), writes rfl (sarN_eq x _), List.forall_mem_nil _⟩
    · rw [← getLsbD_lo32 x (by omega)]
      exact getLsbD_of_lt_clzN hj
    · rw [← getLsbD_lo32 x (by omega)]
      exact getLsbD_clzN h
  · intro s d a b p n q x y z t c hreg
    exact ⟨fun ht hp hx hy hr => exec_sel hreg ht hp hx hy hr, exec_movi hreg n,
      fun hr hd hz => exec_movs hreg n hr (holdsS_of_regS hd hz)⟩

end Sys2Proof.Machine
end

section
/-!
PROOFS. The J lane (R148 to R153): what each form answers where its operands hold, the values of splats and of the word of the
predicates, and O7 from them.
-/

namespace Sys2Proof.Machine

/-! ### What each form answers (R148 to R153) -/

theorem barRegion_run {c : Ctx} (h : c.sq.region = none) (tooFar : Bool) : barRegion tooFar c = .ok ((), c) := by
  simp [barRegion, CM.need, h]

section
variable {s : State} {d a : BitVec 5} {x y : BitVec 3} {q v : W64} {c : Ctx}

theorem exec_jmov (hreg : s.cur.sq.region = none) (hp : s.cur.PopsJ y a q c) (hv : c.HoldsJ y q a v) (hr : c.Room (c.savedJ x d)) :
    exec (.jmov d a x y) s = .next (s.setCur (c.putJ x d v)) := by
  refine onCtx_next ?_
  rw [CM.bind_of (noRegion_run hreg), CM.bind_of (jRead_run hp hv)]
  exact jWrite_run hr

theorem exec_jmovV (hreg : s.cur.sq.region = none) {q r : TReg 1024} (hp : s.cur.PopsV (jLane y) [a] q c)
    (hv : c.HoldsV (jLane y) q a r) (hr : c.Room (c.savedL (jLane x) d)) (hf : (c.putL (jLane x) d r).Fits r) :
    exec (.jmovV d a x y) s = .next (s.setCur (c.putL (jLane x) d r)) := by
  refine onCtx_next ?_
  rw [CM.bind_of (CM.get_run _), CM.bind_of (barRegion_run hreg _), jMovV, CM.bind_of (popIfV_run hp), CM.bind_of (rdV_run hv)]
  exact wrV_run hr hf

/-- A splat writes a register without tag and copies, of as many copies of the source as its width takes. -/
theorem exec_jSplat (hreg : s.cur.sq.region = none) (hp : s.cur.PopsJ y a q c) (hv : c.HoldsJ y q a v)
    (hr : c.Room (c.savedL (jLane x) d)) {i : Instr} {w : Nat} (hi : exec i s = onCtx s (jSplat w d a x y)) :
    exec i s = .next (s.setCur (c.putL (jLane x) d ⟨true, 0, ofElems w (List.replicate (1024 / w) v.toNat), []⟩)) := by
  rw [hi]
  refine onCtx_next ?_
  rw [jSplat, CM.bind_of (noRegion_run hreg), CM.bind_of (jRead_run hp hv)]
  exact wrV_run hr (.inl rfl)

theorem exec_jext_untagged (hreg : s.cur.sq.region = none) {q r : TReg 1024} {f : BitVec 1} (e : BitVec 6)
    (hp : s.cur.PopsV (if f = 0 then .v else .w) [a] q c) (hv : c.HoldsV (if f = 0 then .v else .w) q a r)
    (hr : c.Room (c.savedS d)) (ht : r.tag = 0) :
    exec (.jext d a e f) s = .next (s.setCur (c.putS d (r.val.setWidth 64))) := by
  refine onCtx_next ?_
  rw [CM.bind_of (CM.get_run _), CM.bind_of (barRegion_run hreg _), CM.bind_of (popIfV_run hp), CM.bind_of (rdV_run hv),
    CM.bind_of (CM.get_run _), if_pos ht]
  exact wrS_run hr

theorem exec_jext_tagged (hreg : s.cur.sq.region = none) {q r : TReg 1024} {f : BitVec 1} {e : BitVec 6}
    (hp : s.cur.PopsV (if f = 0 then .v else .w) [a] q c) (hv : c.HoldsV (if f = 0 then .v else .w) q a r)
    (hr : c.Room (c.savedS d)) (ht : r.tag = 1 ∨ r.tag = 2 ∨ r.tag = 4) (he : e.toNat < exCount c.sq.lifts r.tag) :
    exec (.jext d a e f) s = .next (s.setCur (c.putS d ((r.at' c.sq.lifts r.tag e.toNat).setWidth 64))) := by
  have h0 : r.tag ≠ 0 := by rcases ht with h | h | h <;> rw [h] <;> decide
  have hone : (r.tag == 1 || r.tag == 2 || r.tag == 4) = true := by simpa [or_assoc] using ht
  refine onCtx_next ?_
  rw [CM.bind_of (CM.get_run _), CM.bind_of (barRegion_run hreg _), CM.bind_of (popIfV_run hp), CM.bind_of (rdV_run hv),
    CM.bind_of (CM.get_run _), if_neg h0, CM.bind_of (CM.need_true hone _), CM.bind_of (CM.need_true (decide_eq_true he) _)]
  exact wrS_run hr

theorem exec_jpm (hreg : s.cur.sq.region = none) (hr : s.cur.Room (s.cur.savedJ x d)) :
    exec (.jpm d x) s = .next (s.setCur (s.cur.putJ x d (BitVec.ofNat 64 (predWord s.cur)))) := by
  refine onCtx_next ?_
  rw [CM.bind_of (noRegion_run hreg), CM.bind_of (CM.get_run _)]
  exact jWrite_run hr

theorem exec_jmk_low (hreg : s.cur.sq.region = none) (hp : s.cur.PopsJ y a q c) (hv : c.HoldsJ y q a v)
    (hr : c.Room (c.savedM d.toNat)) :
    exec (.jmk d a 0 y) s = .next (s.setCur (c.putM d.toNat ⟨true, 0, v.setWidth 128, []⟩)) := by
  refine onCtx_next ?_
  rw [CM.bind_of (noRegion_run hreg), CM.bind_of (jRead_run hp hv), if_pos rfl]
  exact wrM_run hr (.inl rfl)

theorem exec_jmk_high (hreg : s.cur.sq.region = none) (hp : s.cur.PopsJ y a q c) (hv : c.HoldsJ y q a v)
    (hr : c.Room (c.savedM d.toNat)) {m : TReg 128} (hm : c.HoldsM (d.setWidth 3) m) (ht : m.tag = 0) :
    exec (.jmk d a 1 y) s = .next (s.setCur (c.putM d.toNat ⟨true, 0, v ++ m.val.setWidth 64, []⟩)) := by
  refine onCtx_next ?_
  rw [CM.bind_of (noRegion_run hreg), CM.bind_of (jRead_run hp hv), if_neg (by decide), CM.bind_of (rdM_run hm),
    CM.bind_of (CM.need_true (beq_iff_eq.mpr ht) _)]
  exact wrM_run hr (.inl rfl)

end

/-! ### Values: splats and words of bits (R150, R152) -/

theorem testBit_packNat {w : Nat} (hw : 0 < w) (es : List Nat) :
    ∀ i, (packNat w es).testBit i = (es.getD (i / w) 0).testBit (i % w) := by
  induction es with
  | nil => intro i; simp [packNat]
  | cons e t ih =>
    intro i
    rw [packNat, Nat.add_comm, Nat.testBit_two_pow_mul_add _ (Nat.mod_lt _ (Nat.two_pow_pos w)), Nat.testBit_mod_two_pow]
    by_cases hi : i < w
    · simp [hi, Nat.div_eq_of_lt hi, Nat.mod_eq_of_lt hi]
    · obtain ⟨k, rfl⟩ : ∃ k, i = k + w := ⟨i - w, by omega⟩
      rw [if_neg hi, Nat.add_sub_cancel, ih, Nat.add_div_right _ hw, Nat.add_mod_right, List.getD_cons_succ]

/-- The number whose bit `i` is `f i`, of `n` bits. -/
def bitSum (n : Nat) (f : Nat → Bool) : Nat := ((List.range n).map fun i => (f i).toNat * 2 ^ i).sum

theorem bitSum_succ (n : Nat) (f : Nat → Bool) : bitSum (n + 1) f = 2 ^ n * (f n).toNat + bitSum n f := by
  simp [bitSum, List.range_succ, Nat.add_comm, Nat.mul_comm]

theorem bitSum_lt (f : Nat → Bool) : ∀ n, bitSum n f < 2 ^ n
  | 0 => by simp [bitSum]
  | n + 1 => by
    have ih := bitSum_lt f n
    rw [bitSum_succ, Nat.pow_succ]
    cases f n <;> simp only [Bool.toNat_false, Bool.toNat_true, Nat.mul_zero, Nat.mul_one] <;> omega

theorem testBit_bitSum (f : Nat → Bool) (i : Nat) : ∀ n, (bitSum n f).testBit i = (decide (i < n) && f i)
  | 0 => by simp [bitSum]
  | n + 1 => by
    rw [bitSum_succ, Nat.testBit_two_pow_mul_add _ (bitSum_lt f n), testBit_bitSum f i n]
    rcases Nat.lt_trichotomy i n with h | rfl | h
    · simp [h, Nat.lt_succ_of_lt h]
    · cases f i <;> simp
    · rw [if_neg (by omega), decide_eq_false (show ¬ i < n + 1 by omega), Bool.false_and]
      exact Nat.testBit_lt_two_pow (Nat.lt_of_lt_of_le (Bool.toNat_lt _) (Nat.le_self_pow (by omega) 2))

/-- Every element of a splat holds the low bits of its source. -/
theorem getLsbD_splat {w : Nat} (hw : w ∣ 1024) (v : W64) {i : Nat} (hi : i < 1024) :
    (ofElems w (List.replicate (1024 / w) v.toNat)).getLsbD i = v.getLsbD (i % w) := by
  have hpos : 0 < w := Nat.pos_of_dvd_of_pos hw (by decide)
  have hlt : i / w < 1024 / w := Nat.div_lt_div_of_lt_of_dvd hw hi
  rw [ofElems, BitVec.getLsbD_ofNat, testBit_packNat hpos]
  simp [hi, hlt, BitVec.testBit_toNat]

/-- A predicate that is valid and true. -/
def Ctx.predSet (c : Ctx) (i : Nat) : Bool := (c.pred i).valid && (c.pred i).val == 1

theorem sum_map_mul_add (k : Nat) (f g : Nat → Nat) (l : List Nat) :
    (l.map fun i => k * f i + g i).sum = k * (l.map f).sum + (l.map g).sum := by
  induction l with
  | nil => rfl
  | cons i l ih =>
    simp only [List.map_cons, List.sum_cons, ih, Nat.mul_add]
    omega

theorem predWord_eq (c : Ctx) : predWord c = 2 ^ 16 * bitSum 16 (fun i => (c.pred i).valid) + bitSum 16 c.predSet := by
  have hterm (i : Nat) : (if (c.pred i).valid then (c.pred i).val.toNat * 2 ^ i + 2 ^ (16 + i) else 0)
      = 2 ^ 16 * ((c.pred i).valid.toNat * 2 ^ i) + (c.predSet i).toNat * 2 ^ i := by
    rw [Ctx.predSet, Nat.pow_add]
    rcases BitVec.eq_zero_or_eq_one (c.pred i).val with h | h <;> cases (c.pred i).valid <;> simp [h, Nat.add_comm]
  simp only [predWord, hterm, bitSum, sum_map_mul_add]

/-- The word of the predicates: what they hold below, their valid bits above (R152). -/
theorem getLsbD_predWord (c : Ctx) (i : Nat) : (BitVec.ofNat 64 (predWord c)).getLsbD i =
    if i < 16 then c.predSet i else decide (i < 32) && (c.pred (i - 16)).valid := by
  rw [predWord_eq, BitVec.getLsbD_ofNat, Nat.testBit_two_pow_mul_add _ (bitSum_lt _ 16), testBit_bitSum, testBit_bitSum]
  by_cases h : i < 16
  · simp [h, Nat.lt_trans h (by decide : 16 < 64)]
  · have hi : i < 64 ∧ i - 16 < 16 ↔ i < 32 := by omega
    rw [if_neg h, if_neg h, ← Bool.and_assoc, ← Bool.decide_and, decide_eq_decide.mpr hi]

/-! ### The statement -/

/-- Settles O7: each form of the J lane is a read and a write of the files its codes name. -/
theorem joinerForms : Obligations.JoinerForms := by
  unfold Obligations.JoinerForms
  constructor
  · intro s d a x y hreg
    refine ⟨fun q v c hp hv hr => exec_jmov hreg hp hv hr, fun q r c hp hv hr hf => exec_jmovV hreg hp hv hr hf,
      fun q v c hp hv hr => ?_⟩
    have splats {i : Instr} {w : Nat} (hi : exec i s = onCtx s (jSplat w d a x y)) (hw : w ∣ 1024) :
        ∃ r : VBits, exec i s = .next (s.setCur (c.putL (jLane x) d ⟨true, 0, r, []⟩))
          ∧ ∀ j < 1024, r.getLsbD j = v.getLsbD (j % w) :=
      ⟨_, exec_jSplat hreg hp hv hr hi, fun j hj => getLsbD_splat hw v hj⟩
    simp only [List.forall_mem_cons]
    exact ⟨splats rfl (by decide), splats rfl (by decide), splats rfl (by decide), List.forall_mem_nil _⟩
  · intro s d a e f x y hreg
    refine ⟨?_, fun hr => ⟨_, exec_jpm hreg hr, fun i hi => ?_, fun i hi => ?_⟩, fun q v c hp hv hr => ?_⟩
    · rintro q r c l rfl hp hv hr
      exact ⟨exec_jext_untagged hreg e hp hv hr, exec_jext_tagged hreg hp hv hr⟩
    · constructor
      · rw [getLsbD_predWord, if_neg (by omega), Nat.add_sub_cancel_left, decide_eq_true (by omega), Bool.true_and]
      · rw [getLsbD_predWord, if_pos hi, Ctx.predSet]
    · rw [getLsbD_predWord, if_neg (by omega), decide_eq_false (by omega), Bool.false_and]
    · exact ⟨exec_jmk_low hreg hp hv hr, fun m hm ht => exec_jmk_high hreg hp hv hr hm ht⟩

end Sys2Proof.Machine
end
